-- ==== Sys2Proof/Word.lean ====
section
/-!
DEFINITION. The bytes and words that cross the part's boundary, and the samples and frames inside it.
-/

namespace Sys2Proof

/-- A byte of a message, of a store record or of an acceptance mark (chapter 11). -/
abbrev Byte := BitVec 8

/-- A 16-bit word as it is carried on a link: a sample in two's complement, or the headset status word. -/
abbrev Word16 := BitVec 16

/-- An audio sample, a signed integer from −32768 to 32767 (Conventions, "Samples").  Inside the part samples
are exact integers; the range is kept by the clamps of the rules, not by the type. -/
abbrev Sample := Int

/-- A frame: 64 samples, sample 0 the earliest (Conventions, "Frames"). -/
abbrev Frame := List Sample

/-- The number of samples of a frame. -/
abbrev frameSize : Nat := 64

/-- A frame of zero samples. -/
abbrev zeroFrame : Frame := List.replicate 64 0

/-- The sample that a link word carries. -/
abbrev sampleOf (w : Word16) : Sample := w.toInt

end Sys2Proof
end

