-- ==== Sys2Proof/Syntax.lean ====
section
/-!
DEFINITION. The commands of the FV1624: one constructor of `Instr` per row of spec/opcode_table.json.

A request row names the control port at which it is taken.  Its parameters are not operands of the row: they are
the bytes of the request message that a write transfer brought (R169, R186), held by the port until this row
takes it (R170).
-/

namespace Sys2Proof

/-- The three control ports (R173). -/
inductive Port where
  | line
  | desk
  | supervision
  deriving DecidableEq, Repr

/-- One piece of the work that the blocks do at a frame event.  R26 leaves the order of the blocks at one frame
event open ("the owning rule then gives each outcome"), so the pieces are named and a command may order them. -/
inductive Work where
  /-- Presence debounce of a position (R15, R16, R17). -/
  | presence (p : Fin 16)
  /-- Button evaluation of a position (R18). -/
  | button (p : Fin 16)
  /-- Battery evaluation of a position (R19). -/
  | battery (p : Fin 16)
  /-- Hold reminder count of a position (R21). -/
  | reminder (p : Fin 16)
  /-- Muted-talk count of a position (R23). -/
  | muted (p : Fin 16)
  /-- The work of an echo context (R69). -/
  | echo (p : Fin 16)
  /-- The work of a noise context (R88). -/
  | noise (n : Fin 20)
  /-- The mix engine's derivation, duck update, mix sums and measurements (R45, R56, R57, R62). -/
  | mix
  /-- The closing of the meter windows (R61). -/
  | meterClose
  /-- The earpiece frame of a position and its hand-over as echo reference (R39, R40). -/
  | earpiece (p : Fin 16)
  /-- The frames that the highway interface takes for the output slots (R37). -/
  | highwayOut
  /-- The work of a voice (R122). -/
  | voice (v : Fin 12)
  /-- The completion check of a closing position (R7). -/
  | close (p : Fin 16)
  /-- The meter period count of a port (R183). -/
  | meterPeriod (port : Port)
  deriving DecidableEq, Repr

/-- The commands: every operation and event of spec/opcode_table.json, each whole and indivisible. -/
inductive Instr where
  /-- RSTN_ASSERT (R185). -/
  | rstnAssert
  /-- RSTN_RELEASE (R185). -/
  | rstnRelease
  /-- WRITE_TRANSFER (R169): a write transfer at a port ends, having carried these bytes. -/
  | writeTransfer (port : Port) (bytes : List Byte)
  /-- READ_TRANSFER (R174): a read transfer at a port ends. -/
  | readTransfer (port : Port)
  /-- OPEN (R3), taken at a port. -/
  | openPosition (port : Port)
  /-- CLOSE (R4, R5), taken at a port. -/
  | closePosition (port : Port)
  /-- SET_DESK (R9), taken at a port. -/
  | setDesk (port : Port)
  /-- SET_BATTERY (R10), taken at a port. -/
  | setBattery (port : Port)
  /-- SET_SUPERVISION (R11), taken at a port. -/
  | setSupervision (port : Port)
  /-- SET_CALL (R12), taken at a port. -/
  | setCall (port : Port)
  /-- SET_REMINDER (R20), taken at a port. -/
  | setReminder (port : Port)
  /-- ACK_REMINDER (R22), taken at a port. -/
  | ackReminder (port : Port)
  /-- READ_POSITION (R24), taken at a port. -/
  | readPosition (port : Port)
  /-- BIND_LINE (R33), taken at a port. -/
  | bindLine (port : Port)
  /-- UNBIND_LINE (R34), taken at a port. -/
  | unbindLine (port : Port)
  /-- SET_SUP_CHANNEL (R35), taken at a port. -/
  | setSupChannel (port : Port)
  /-- SET_EC (R65, R66), taken at a port. -/
  | setEc (port : Port)
  /-- READ_COEFFS (R81), taken at a port. -/
  | readCoeffs (port : Port)
  /-- SET_NR (R85), taken at a port. -/
  | setNr (port : Port)
  /-- SET_SUP_NR (R86), taken at a port. -/
  | setSupNr (port : Port)
  /-- JOIN (R102, R103), taken at a port. -/
  | join (port : Port)
  /-- CHANGE_MODE (R106), taken at a port. -/
  | changeMode (port : Port)
  /-- LEAVE (R108), taken at a port. -/
  | leave (port : Port)
  /-- READ_SESSION (R116), taken at a port. -/
  | readSession (port : Port)
  /-- START_PROGRAM (R134), taken at a port. -/
  | startProgram (port : Port)
  /-- STOP_PROGRAM (R135), taken at a port. -/
  | stopProgram (port : Port)
  /-- SET_HOLD_SOURCE (R136), taken at a port. -/
  | setHoldSource (port : Port)
  /-- READ_VOICE (R137), taken at a port. -/
  | readVoice (port : Port)
  /-- RESCAN (R144), taken at a port. -/
  | rescan (port : Port)
  /-- READ_STORE (R152), taken at a port. -/
  | readStore (port : Port)
  /-- AGENT_PROMPT (R154), taken at a port. -/
  | agentPrompt (port : Port)
  /-- COACH_PROMPT (R155), taken at a port. -/
  | coachPrompt (port : Port)
  /-- ANNOUNCE (R156), taken at a port. -/
  | announce (port : Port)
  /-- CLEAR_AGENT_PROMPTS (R164), taken at a port. -/
  | clearAgentPrompts (port : Port)
  /-- CLEAR_ANNOUNCE (R164), taken at a port. -/
  | clearAnnounce (port : Port)
  /-- TAKE_REPORTS (R181), taken at a port. -/
  | takeReports (port : Port)
  /-- SUBSCRIBE_METERS (R182), taken at a port. -/
  | subscribeMeters (port : Port)
  /-- RESET (R184), taken at a port. -/
  | reset (port : Port)
  /-- SAMPLE_PERIOD (R26, R36): a sample period ends; the samples are those the 32 highway input slots carried
  in it, in slot order. -/
  | samplePeriod (slots : List Word16)
  /-- FRAME_EVENT (R26): the frame event that is due is made and its work is done: first the pieces of `order`,
  in that order, then every other piece that still stands, but for the pieces of `held`, which are left for
  later commands of the same frame event. -/
  | frameEvent (order held : List Work)
  /-- HIGHWAY_SYNC (R27 to R29): a sync pulse is seen at time `t`, in nanoseconds. -/
  | highwaySync (t : Nat)
  /-- SYNC_GAP_TIMEOUT (R30): 125 µs have passed since the last sync taken.  The samples are those of the sample
  period that the last sync began; `order` orders the work of a frame event that falls at its end. -/
  | syncGapTimeout (slots : List Word16) (order : List Work)
  /-- HEADSET_FRAME_ARRIVAL (R38): an upward frame of these words arrives; `framed` says that it kept the link
  framing. -/
  | headsetFrameArrival (p : Fin 16) (words : List Word16) (framed : Bool)
  /-- PRESENCE_CHANGE (R16). -/
  | presenceChange (p : Fin 16)
  /-- REMINDER_EXPIRY (R21). -/
  | reminderExpiry (p : Fin 16)
  /-- MUTED_TALK_COUNT_FULL (R23). -/
  | mutedTalkCountFull (p : Fin 16)
  /-- CLOSE_COMPLETION (R8). -/
  | closeCompletion (p : Fin 16)
  /-- EC_DIVERGENCE (R75). -/
  | ecDivergence (p : Fin 16)
  /-- EC_CONVERGED (R76). -/
  | ecConverged (p : Fin 16)
  /-- EC_LOST_TRACKING (R76). -/
  | ecLostTracking (p : Fin 16)
  /-- NR_LEARN_COMPLETE (R90). -/
  | nrLearnComplete (n : Fin 20)
  /-- NR_HANGOVER_END (R91). -/
  | nrHangoverEnd (n : Fin 20)
  /-- NR_SPEECH_RUN_RESTART (R93). -/
  | nrSpeechRunRestart (n : Fin 20)
  /-- METER_WINDOW_CLOSE (R61). -/
  | meterWindowClose
  /-- METER_PERIOD_EXPIRY (R183). -/
  | meterPeriodExpiry (port : Port)
  /-- VOICE_START_PLAYING (R122). -/
  | voiceStartPlaying (v : Fin 12)
  /-- REFILL_REQUEST (R127). -/
  | refillRequest (v : Fin 12)
  /-- FETCH_GRANT (R147). -/
  | fetchGrant
  /-- FETCH_COMPLETION (R149): the fetch in flight has read these stored samples. -/
  | fetchCompletion (samples : List Word16)
  /-- FETCH_TIMEOUT (R150). -/
  | fetchTimeout
  /-- SCAN_READ_DONE (R142): the scan read in progress completes with these bytes. -/
  | scanReadDone (bytes : List Byte)
  /-- SCAN_READ_TIMEOUT (R142). -/
  | scanReadTimeout
  /-- DRAIN_FADE (R133). -/
  | drainFade (v : Fin 12)
  /-- PROMPT_COMPLETION (R124). -/
  | promptCompletion (v : Fin 12)
  /-- VOICE_POOL_GRANT (R160). -/
  | voicePoolGrant
  deriving DecidableEq, Repr

end Sys2Proof
end

