-- ==== Sys2Proof/Decode.lean ====
section
/-!
DEFINITION. The table of the FV1624 gives no row any bits: its rows are operations and events of a block, not
encoded instructions.  The byte layouts of the messages (chapter 11) are read by Machine/Format.lean and
Machine/Requests.lean.
-/

namespace Sys2Proof

/-- The command that a table word spells: none, since no row of spec/opcode_table.json has fixed bits or fields. -/
def decodeTableWord (_nbits _w : Nat) : Option Instr := none

end Sys2Proof
end

