-- ==== Sys2Proof/Config.lean ====
section
/-!
DEFINITION. The fixed quantities of the FV1624 that more than one rule uses.  The specification leaves no
value open that an implementation chooses, so this file holds no free value.
-/

namespace Sys2Proof.Config

/-- Half a sample period in nanoseconds (R27: 31.25 µs).
DESIGN CHOICE: notes/assumptions/31.md. -/
def halfPeriod : Nat := 31250

/-- Two sample periods in nanoseconds (R27, R30: 125 µs). -/
def syncGap : Nat := 125000

/-- Good syncs that qualify the highway (R28). -/
def goodSyncs : Nat := 64

/-- Entries a report queue holds (R176). -/
def reportDepth : Nat := 32

/-- Exchanges a port holds (R169). -/
def exchangeDepth : Nat := 4

/-- Entries a prompt queue holds (R153). -/
def queueDepth : Nat := 4

/-- Samples a voice buffer holds (R117). -/
def bufferSize : Nat := 256

/-- The low-water mark of a voice buffer, and the fill that ends priming (R122, R127). -/
def lowWater : Nat := 128

/-- Step moves of one voice at one frame event (R125). -/
def stepMoves : Nat := 8

/-- Consecutive timeouts that fail the store (R151). -/
def timeoutLimit : Nat := 4

/-- The greatest gain code (Conventions, "Gain codes"). -/
def gainMax : Nat := 8192

/-- Unity gain (Conventions, "Gain codes"). -/
def unity : Nat := 4096

end Sys2Proof.Config
end

