-- ==== Sys2Proof/Machine/State.lean ====
section
/-!
DEFINITION. The state of the FV1624, block by block as section "Block overview" names them, and its state after
reset.  State is plain data.  Where the specification names two views of one item (the refill flag and its mirror,
R146; the slot map and the bindings, R32; held exchanges, R168), the item is stored once and the other view is
computed in Machine/Ops.lean; notes/assumptions/27.md lists them.
-/

namespace Sys2Proof.Machine

/-- The faults of a step.  The specification gives no command of the part a fault, so there is none. -/
inductive Fault where
  deriving DecidableEq, Repr

/-- The refusals of a step. -/
inductive Refusal where
  /-- Raised by `exec` for a row that has no meaning yet.  Safe: nothing is claimed about such a row. -/
  | notModelled (mnemonic : String)
  deriving DecidableEq, Repr

/-! ### Frame timing unit (R25) -/

/-- The timing state (section 2.1). -/
inductive Timing where
  | freeRun
  | locking
  | locked
  deriving DecidableEq, Repr

/-- The state of the frame timing unit (R25). -/
structure Ftu where
  timing : Timing
  /-- The 32-bit frame count, which wraps. -/
  frameCount : BitVec 32
  /-- The good-sync counter, 0 to 64. -/
  goodSync : Nat
  /-- The sample index, 0 to 63. -/
  sampleIndex : Nat
  /-- The time of the last sync taken, in nanoseconds. -/
  lastSync : Nat
  /-- The model's own: the 64th sample period has ended and its frame event is not yet made. -/
  frameDue : Bool
  /-- The model's own: in LOCKED a good sync has ended a sample period that is not yet worked. -/
  periodMarked : Bool
  deriving DecidableEq, Repr

/-! ### Highway interface -/

/-- A binding: an in-slot and an out-slot (section 2.2). -/
structure SlotPair where
  inSlot : Fin 32
  outSlot : Fin 32
  deriving DecidableEq, Repr

/-- What a highway slot is bound to (section 2.2). -/
inductive Endpoint where
  | position (p : Fin 16)
  | channel (c : Fin 4)
  deriving DecidableEq, Repr

/-- A completed talk frame with its liveness (R87). -/
structure TalkFrame where
  samples : Frame
  live : Bool
  deriving DecidableEq, Repr

/-- The state of the highway interface.  The bindings of the positions stand in the position records. -/
structure Hwi where
  /-- The binding of each supervisor channel (R32, R35). -/
  channels : Vector (Option SlotPair) 4
  /-- The in-slot of each far party as bound when the current sample period began (R36). -/
  farSlot : Vector (Option (Fin 32)) 16
  /-- The in-slot of each channel as bound when the current sample period began (R36). -/
  talkSlot : Vector (Option (Fin 32)) 4
  /-- The far frames in collection, oldest sample first (R36). -/
  farInput : Vector Frame 16
  /-- The talk frames in collection (R36). -/
  talkInput : Vector Frame 4
  /-- The far frames completed at the last frame event (R36). -/
  far : Vector Frame 16
  /-- The talk frames completed at the last frame event, with their liveness (R36, R87). -/
  talk : Vector TalkFrame 4
  /-- The frame taken for each line at the last frame event; none when none has been taken for its binding
  (R37). -/
  lineOut : Vector (Option Frame) 16
  /-- The frame taken for each channel's out-slot (R37). -/
  supOut : Vector (Option Frame) 4
  /-- What the 32 output slots carry in the current sample period; none where a slot is not driven (R31, R37). -/
  driven : Vector (Option Sample) 32
  deriving DecidableEq, Repr

/-! ### Headset link interface (R38, R39) -/

/-- The headset link of one position. -/
structure Headset where
  /-- A whole upward frame has arrived since the last frame event. -/
  arrived : Bool
  /-- The latest mic frame received. -/
  latest : Frame
  /-- The status word of the latest upward frame. -/
  latestStatus : Word16
  /-- The mic frame completed at the last frame event. -/
  mic : Frame
  /-- The status word handed to the position controller at the last frame event; none is "no frame" (R15). -/
  handed : Option Word16
  /-- The earpiece frame begun at the last frame event (R39). -/
  earpiece : Frame
  /-- The model's own: a lock sync has cut off the upward frame under way (R28). -/
  cutOff : Bool
  deriving DecidableEq, Repr

/-! ### Position records (R1) -/

inductive PosState where
  | closed
  | opened
  | closing
  deriving DecidableEq, Repr

inductive Plan where
  | keep
  | clear
  deriving DecidableEq, Repr

inductive CallState where
  | idle
  | talk
  | hold
  deriving DecidableEq, Repr

inductive Band where
  | normal
  | low
  | critical
  deriving DecidableEq, Repr

inductive ReminderStatus where
  | stopped
  | running
  | expired
  deriving DecidableEq, Repr

inductive EchoMode where
  | off
  | adapt
  | freeze
  deriving DecidableEq, Repr

/-- The echo settings of a position (R65). -/
structure EchoSettings where
  mode : EchoMode
  muConv : Nat
  muTrack : Nat
  bulkDelay : Nat
  delta : Nat
  talkCode : Nat
  hangover : Nat
  deriving DecidableEq, Repr

/-- The noise settings of a context: enable and floor A (section 5.2). -/
structure NoiseSettings where
  enable : Bool
  floor : Nat
  deriving DecidableEq, Repr

/-- A position record (R1). -/
structure Position where
  state : PosState
  closePlan : Option Plan
  retained : Bool
  line : Option SlotPair
  call : CallState
  holdSource : Option (Fin 12)
  holdGain : Nat
  supervisionAllowed : Bool
  mute : Bool
  earGain : Nat
  sidetone : Nat
  promptGain : Nat
  announceGain : Nat
  buttonMute : Bool
  echo : EchoSettings
  noise : NoiseSettings
  batteryLow : Nat
  batteryCritical : Nat
  band : Band
  present : Bool
  presenceRun : Nat
  /-- The raw button level of the last frame: true is pressed. -/
  button : Bool
  releasedRun : Nat
  batteryLevel : Nat
  reminderInterval : Nat
  reminderRepeat : Bool
  reminderCounter : Nat
  reminderStatus : ReminderStatus
  mutedCount : Nat
  mutedIssued : Bool
  deriving DecidableEq, Repr

/-! ### Mix engine (R41) -/

/-- The source that a term records: a voice or a supervisor channel (R41). -/
inductive Src where
  | voice (v : Fin 12)
  | channel (c : Fin 4)
  deriving DecidableEq, Repr

/-- A term record: applied gain and recorded source (R41). -/
structure Term where
  gain : Nat
  source : Option Src
  deriving DecidableEq, Repr

/-- The four roles of EAR(p) (R46). -/
structure EarTerms where
  far : Term
  agentPrompt : Term
  linePrompt : Term
  talk : Term
  deriving DecidableEq, Repr

/-- The four roles of LINE(p) (R47). -/
structure LineTerms where
  mic : Term
  talk : Term
  linePrompt : Term
  hold : Term
  deriving DecidableEq, Repr

/-- The four roles of SUPOUT(c) (R48). -/
structure SupTerms where
  far : Term
  mic : Term
  linePrompt : Term
  other : Term
  deriving DecidableEq, Repr

/-- The duck factor of a position and its recorded duck values (R41). -/
structure Duck where
  factor : Nat
  level : Nat
  release : Nat
  deriving DecidableEq, Repr

/-- The state of an echo context (R64). -/
inductive EchoState where
  | off
  | converging
  | tracking
  deriving DecidableEq, Repr

/-- A meter window (R62). -/
structure MeterWindow where
  frames : Nat
  farPeak : Nat
  micPeak : Nat
  linePeak : Nat
  earPeak : Nat
  earClips : Nat
  lineClips : Nat
  supClips : Nat
  erle : Nat
  noiseGain : Nat
  echoState : EchoState
  deriving DecidableEq, Repr

/-- The state of the mix engine (R41), with the frames it produced at the last frame event (R59). -/
structure Mxe where
  earTerms : Vector EarTerms 16
  lineTerms : Vector LineTerms 16
  supTerms : Vector SupTerms 4
  duck : Vector Duck 16
  /-- Window clip counts of the EAR destinations (R58). -/
  earClips : Vector Nat 16
  /-- Window clip counts of the LINE destinations (R58). -/
  lineClips : Vector Nat 16
  /-- The window in progress of each position (R61). -/
  window : Vector MeterWindow 16
  /-- The last completed window of each position (R61). -/
  lastWindow : Vector MeterWindow 16
  ear : Vector Frame 16
  line : Vector Frame 16
  sup : Vector Frame 4
  deriving DecidableEq, Repr

/-! ### Echo canceller (R64) -/

/-- The output frame of an echo context, with its liveness (R87) and the state after it (R62). -/
structure EchoFrame where
  samples : Frame
  live : Bool
  state : EchoState
  deriving DecidableEq, Repr

/-- An echo context (R64). -/
structure EchoCtx where
  coeffs : List Int
  /-- The reference frames of the three most recent frame events, newest first. -/
  pending : List Frame
  /-- The 383 most recent reference samples, newest first. -/
  history : List Sample
  hangover : Nat
  state : EchoState
  good : Nat
  poor : Nat
  diverge : Nat
  generation : BitVec 16
  erle : Nat
  out : EchoFrame
  deriving DecidableEq, Repr

/-! ### Noise reducer (R83) -/

inductive NoiseState where
  | learn
  | pause
  | speech
  deriving DecidableEq, Repr

/-- The output frame of a noise context with its speech flag and applied gain (R83, R96). -/
structure NoiseFrame where
  samples : Frame
  speech : Bool
  gain : Nat
  deriving DecidableEq, Repr

/-- A noise context (R83).  `relearning` says that a binding of its channel restarted the learning, which has not completed
since (R35, R115).
DEDUCED: notes/assumptions/38.md. -/
structure NoiseCtx where
  state : NoiseState
  learned : Nat
  estimate : Nat
  hangover : Nat
  speechRun : Nat
  gain : Nat
  relearning : Bool
  out : NoiseFrame
  deriving DecidableEq, Repr

/-- The noise reducer: twenty contexts, and the settings of the four supervisor contexts (R83). -/
structure Nru where
  contexts : Vector NoiseCtx 20
  supSettings : Vector NoiseSettings 4
  deriving DecidableEq, Repr

/-! ### Session table (R100) -/

inductive SupMode where
  | idle
  | listen
  | whisper
  | barge
  deriving DecidableEq, Repr

inductive SessionEnd where
  | none
  | left
  | callEnded
  | closed
  | revoked
  | channelUnbound
  deriving DecidableEq, Repr

/-- A session record (R100). -/
structure Session where
  mode : SupMode
  target : Option (Fin 16)
  talkGain : Nat
  duckLevel : Nat
  release : Nat
  lastEnd : SessionEnd
  deriving DecidableEq, Repr

/-! ### Voice engine (R117) -/

/-- A step of a play list (section 7.2). -/
inductive Step where
  | clip (number : Nat)
  | silence (frames : Nat)
  | loop (target count : Nat)
  | mark (code : Nat)
  deriving DecidableEq, Repr

/-- The two queues of a position. -/
inductive QueueId where
  | agent
  | line
  deriving DecidableEq, Repr

inductive VoiceState where
  | free
  | priming
  | playing
  | draining
  deriving DecidableEq, Repr

/-- The use of a voice (R117). -/
inductive VoiceUse where
  | none
  | program
  | prompt (p : Fin 16) (q : QueueId)
  deriving DecidableEq, Repr

/-- The progress of the current CLIP step once begun (R117). -/
structure ClipProgress where
  offset : Nat
  remaining : Nat
  deriving DecidableEq, Repr

/-- The fade of a draining voice (R117). -/
inductive OutputRamp where
  | none
  | pending
  | done
  deriving DecidableEq, Repr

/-- A voice output frame with the use it was produced under (R118, R43). -/
structure VoiceFrame where
  samples : Frame
  use : VoiceUse
  deriving DecidableEq, Repr

/-- A voice record (R117).  Its fetch-in-flight flag is the store fetch engine's fetch in flight. -/
structure Voice where
  state : VoiceState
  use : VoiceUse
  drainedFor : Option (Fin 16)
  steps : List Step
  /-- The current step; none is the end of the list. -/
  current : Option Nat
  /-- The model's own: the fetch side has arrived at the current step (R125 "on arrival"). -/
  entered : Bool
  clip : Option ClipProgress
  silence : Nat
  /-- The loop counter of each step; none is inactive. -/
  loops : List (Option Nat)
  endFetched : Bool
  placed : Bool
  buffer : List Sample
  /-- Refill requested, with its mirror in the store fetch engine (R146). -/
  refill : Bool
  ramp : OutputRamp
  marks : List Nat
  underruns : Nat
  skipped : Nat
  /-- The output frame of the last frame event. -/
  out : VoiceFrame
  deriving DecidableEq, Repr

/-! ### Store fetch engine (R141) -/

inductive StoreState where
  | scanning
  | ready
  | unavailable
  deriving DecidableEq, Repr

inductive StoreFailure where
  | none
  | scan
  | timeout
  deriving DecidableEq, Repr

/-- The kinds of automatic prompt (R145). -/
inductive AutoKind where
  | reminder
  | muted
  | batteryLow
  | batteryCritical
  deriving DecidableEq, Repr

/-- A cached directory entry with its validity (R139). -/
structure DirEntry where
  start : Nat
  count : Nat
  rate : Nat
  trim : Nat
  valid : Bool
  deriving DecidableEq, Repr

/-- The cached settings record (R138): a clip number for each automatic prompt kind, or none. -/
structure StoreSettings where
  reminder : Option Nat
  muted : Option Nat
  batteryLow : Option Nat
  batteryCritical : Option Nat
  deriving DecidableEq, Repr

/-- The fetch in flight (R141, R148).  `expand` and `trim` are the model's copies of what the clip's directory
entry says at the grant; DEDUCED, notes/assumptions/26.md. -/
structure Fetch where
  voice : Fin 12
  address : Nat
  count : Nat
  expand : Nat
  trim : Nat
  deriving DecidableEq, Repr

/-- How far a scan has come (R142). -/
inductive Scan where
  /-- No read of a scan is in progress. -/
  | idle
  /-- The header is being read. -/
  | header
  /-- The directory is being read: the header, and the directory bytes read so far. -/
  | directory (head got : List Byte)
  deriving DecidableEq, Repr

/-- The state of the store fetch engine (R141).  Its refill flags are the voices' own. -/
structure Sfe where
  store : StoreState
  clipCount : Nat
  directory : List DirEntry
  settings : StoreSettings
  fetch : Option Fetch
  timeouts : Nat
  lastFailure : StoreFailure
  /-- Progress of the scan in progress (R142). -/
  scan : Scan
  /-- The model's own: the voice that R147 grants at once, until FETCH_GRANT makes the grant. -/
  owed : Option (Fin 12)
  deriving DecidableEq, Repr

/-! ### Prompt queue controller (R153) -/

inductive Origin where
  | desk
  | supervision
  | line
  | auto (k : AutoKind)
  deriving DecidableEq, Repr

/-- A prompt queue entry (R153).  Its state is PLAYING exactly when it holds a voice. -/
structure Entry where
  origin : Origin
  tag : Byte
  steps : List Step
  duck : Bool
  voice : Option (Fin 12)
  deriving DecidableEq, Repr

/-- The prompt queue controller (R153). -/
structure Pqc where
  agent : Vector (List Entry) 16
  line : Vector (List Entry) 16
  /-- The round-robin pointer. -/
  pointer : Fin 16
  deriving DecidableEq, Repr

/-! ### Control ports (R168) -/

inductive Status where
  | ok
  | busy
  | badRequest
  | notPermitted
  | badState
  | outOfRange
  | inUse
  | noResource
  | queueFull
  | changed
  | aborted
  deriving DecidableEq, Repr

/-- A request as its write transfer carried it: kind, tag, stated parameter length, parameter bytes (11.1). -/
structure Request where
  kind : Byte
  tag : Byte
  length : Byte
  params : List Byte
  deriving DecidableEq, Repr

/-- A response: header items and data bytes (R172). -/
structure Response where
  kind : Byte
  tag : Byte
  status : Status
  overflow : Bool
  data : List Byte
  deriving DecidableEq, Repr

inductive PromptOutcome where
  | complete
  | partly
  | cancelled
  deriving DecidableEq, Repr

/-- What a report says (section 10.2): its kind with its subject and fields. -/
inductive ReportBody where
  | positionClosed (p : Fin 16) (plan : Plan)
  | headsetPresent (p : Fin 16)
  | headsetAbsent (p : Fin 16)
  | button (p : Fin 16) (mute : Bool)
  | batteryLow (p : Fin 16) (level : Nat)
  | batteryCritical (p : Fin 16) (level : Nat)
  | holdReminder (p : Fin 16) (again : Bool)
  | mutedTalk (p : Fin 16)
  | ecDiverged (p : Fin 16) (generation : BitVec 16)
  | sessionEnded (c : Fin 4) (p : Fin 16) (reason : SessionEnd)
  | promptDone (p : Fin 16) (q : QueueId) (origin : Origin) (tag : Byte) (outcome : PromptOutcome) (underruns : Nat)
      (marks : List Nat)
  | programMark (v : Fin 12) (code : Nat)
  | storeReady (count : Nat)
  | storeFailed (cause : StoreFailure)
  | highwayLocked
  | highwayLost
  | resetDone
  | meter (p : Fin 16) (window : MeterWindow)
  deriving DecidableEq, Repr

/-- A report entry: what it says and the frame count when it was made (R175). -/
structure Report where
  body : ReportBody
  frame : BitVec 32
  deriving DecidableEq, Repr

/-- A meter period: a number of frames, or off (R182). -/
inductive MeterPeriod where
  | off
  | p16
  | p64
  | p250
  | p1000
  deriving DecidableEq, Repr

/-- The state of a control port (R168).  The held exchanges are the untaken requests, and the taken ones as their
unread responses. -/
structure PortState where
  untaken : List Request
  responses : List Response
  reports : List Report
  overflow : Bool
  mask : BitVec 16
  period : MeterPeriod
  /-- The meter period counter; none is inactive. -/
  counter : Option Nat
  /-- What the last write transfer sent in its closing bytes: the acceptance mark (R169). -/
  markOut : List Byte
  /-- What the last read transfer returned (R174). -/
  readOut : List Byte
  deriving DecidableEq, Repr

/-- The three control ports. -/
structure Cpt where
  line : PortState
  desk : PortState
  supervision : PortState
  deriving DecidableEq, Repr

/-! ### The frames taken at a frame event (R26) -/

/-- What the stages of the audio chains take at the current frame event: the frames that their upstream stages
completed at the frame event before, and the present fields as left there (R26, R69, R87). -/
structure Taken where
  mic : Vector Frame 16
  reference : Vector Frame 16
  present : Vector Bool 16
  echo : Vector EchoFrame 16
  erle : Vector Nat 16
  noise : Vector NoiseFrame 20
  far : Vector Frame 16
  talk : Vector TalkFrame 4
  ear : Vector Frame 16
  line : Vector Frame 16
  sup : Vector Frame 4
  voice : Vector VoiceFrame 12
  deriving DecidableEq, Repr

/-- The state of the part, and the queue of commands that wait for it. -/
structure State where
  /-- RSTN is asserted (R185). -/
  rstn : Bool
  ftu : Ftu
  hwi : Hwi
  hli : Vector Headset 16
  pct : Vector Position 16
  mxe : Mxe
  ecu : Vector EchoCtx 16
  nru : Nru
  sst : Vector Session 4
  vce : Vector Voice 12
  sfe : Sfe
  pqc : Pqc
  cpt : Cpt
  /-- The frames taken at the current frame event. -/
  taken : Taken
  /-- The model's own: the pieces of the current frame event's work that are not yet done. -/
  work : List Work
  /-- The model's own: the commands that wait, first in first out. -/
  pending : List Instr
  deriving DecidableEq, Repr

/-! ### Power-on values -/

/-- The frame timing unit after RSTN (R25). -/
def Ftu.powerOn : Ftu :=
  { timing := .freeRun, frameCount := 0, goodSync := 0, sampleIndex := 0, lastSync := 0, frameDue := false,
    periodMarked := false }

/-- A talk frame of zeros that is not live. -/
def TalkFrame.zero : TalkFrame := { samples := zeroFrame, live := false }

/-- The highway interface after RSTN: every slot unbound (R32), nothing driven (R31). -/
def Hwi.powerOn : Hwi :=
  { channels := Vector.replicate 4 none
    farSlot := Vector.replicate 16 none
    talkSlot := Vector.replicate 4 none
    farInput := Vector.replicate 16 []
    talkInput := Vector.replicate 4 []
    far := Vector.replicate 16 zeroFrame
    talk := Vector.replicate 4 TalkFrame.zero
    lineOut := Vector.replicate 16 none
    supOut := Vector.replicate 4 none
    driven := Vector.replicate 32 none }

/-- A headset link after RSTN: arrival flag clear, completed mic frame zeros (R38). -/
def Headset.powerOn : Headset :=
  { arrived := false, latest := zeroFrame, latestStatus := 0, mic := zeroFrame, handed := none,
    earpiece := zeroFrame, cutOff := false }

/-- The power-on echo settings (R65). -/
def EchoSettings.powerOn : EchoSettings :=
  { mode := .adapt, muConv := 128, muTrack := 32, bulkDelay := 0, delta := 1048576, talkCode := 8, hangover := 480 }

/-- The power-on noise settings (R83): enable on, floor 1024. -/
def NoiseSettings.powerOn : NoiseSettings := { enable := true, floor := 1024 }

/-- A position record after RSTN: the last column of R1's table. -/
def Position.powerOn : Position :=
  { state := .closed, closePlan := none, retained := false, line := none, call := .idle, holdSource := none,
    holdGain := 4096, supervisionAllowed := false, mute := false, earGain := 4096, sidetone := 512,
    promptGain := 4096, announceGain := 2048, buttonMute := false, echo := .powerOn, noise := .powerOn,
    batteryLow := 20, batteryCritical := 5, band := .normal, present := false, presenceRun := 0, button := false,
    releasedRun := 0, batteryLevel := 127, reminderInterval := 0, reminderRepeat := false, reminderCounter := 0,
    reminderStatus := .stopped, mutedCount := 0, mutedIssued := false }

/-- An absent term (R41). -/
def Term.absent : Term := { gain := 0, source := none }

def EarTerms.absent : EarTerms := { far := .absent, agentPrompt := .absent, linePrompt := .absent, talk := .absent }

def LineTerms.absent : LineTerms := { mic := .absent, talk := .absent, linePrompt := .absent, hold := .absent }

def SupTerms.absent : SupTerms := { far := .absent, mic := .absent, linePrompt := .absent, other := .absent }

/-- The duck factor and recorded values after either reset and after OPEN (R41). -/
def Duck.powerOn : Duck := { factor := 4096, level := 1024, release := 50 }

/-- A zeroed meter window with a frame count of 0 (R41).
DEDUCED: notes/assumptions/30.md. -/
def MeterWindow.empty : MeterWindow :=
  { frames := 0, farPeak := 0, micPeak := 0, linePeak := 0, earPeak := 0, earClips := 0, lineClips := 0,
    supClips := 0, erle := 0, noiseGain := 0, echoState := .off }

/-- The mix engine after RSTN (R41). -/
def Mxe.powerOn : Mxe :=
  { earTerms := Vector.replicate 16 .absent
    lineTerms := Vector.replicate 16 .absent
    supTerms := Vector.replicate 4 .absent
    duck := Vector.replicate 16 .powerOn
    earClips := Vector.replicate 16 0
    lineClips := Vector.replicate 16 0
    window := Vector.replicate 16 .empty
    lastWindow := Vector.replicate 16 .empty
    ear := Vector.replicate 16 zeroFrame
    line := Vector.replicate 16 zeroFrame
    sup := Vector.replicate 4 zeroFrame }

/-- 128 zero coefficients. -/
abbrev zeroCoeffs : List Int := List.replicate 128 0

/-- A reference history of zeros (R64). -/
abbrev zeroHistory : List Sample := List.replicate 383 0

def EchoFrame.zero : EchoFrame := { samples := zeroFrame, live := false, state := .off }

/-- An echo context after RSTN (R64). -/
def EchoCtx.powerOn : EchoCtx :=
  { coeffs := zeroCoeffs, pending := [zeroFrame, zeroFrame, zeroFrame], history := zeroHistory, hangover := 0,
    state := .off, good := 0, poor := 0, diverge := 0, generation := 0, erle := 0, out := .zero }

/-- A noise output frame of zeros with the speech flag off and the gain of a cleared context (R83). -/
def NoiseFrame.zero : NoiseFrame := { samples := zeroFrame, speech := false, gain := 4096 }

/-- A noise context after RSTN (R83). -/
def NoiseCtx.powerOn : NoiseCtx :=
  { state := .learn, learned := 0, estimate := 1, hangover := 0, speechRun := 0, gain := 4096, relearning := false,
    out := .zero }

def Nru.powerOn : Nru :=
  { contexts := Vector.replicate 20 .powerOn, supSettings := Vector.replicate 4 .powerOn }

/-- A session record after RSTN (R100). -/
def Session.powerOn : Session :=
  { mode := .idle, target := none, talkGain := 4096, duckLevel := 1024, release := 50, lastEnd := .none }

def VoiceFrame.zero : VoiceFrame := { samples := zeroFrame, use := .none }

/-- A voice record after either reset (R117). -/
def Voice.powerOn : Voice :=
  { state := .free, use := .none, drainedFor := none, steps := [], current := some 0, entered := false, clip := none,
    silence := 0, loops := List.replicate 8 none, endFetched := false, placed := false, buffer := [],
    refill := false, ramp := .none, marks := [], underruns := 0, skipped := 0, out := .zero }

/-- Every settings entry none (R141). -/
def StoreSettings.unset : StoreSettings :=
  { reminder := none, muted := none, batteryLow := none, batteryCritical := none }

/-- The store fetch engine after RSTN, before its release begins the scan (R141). -/
def Sfe.powerOn : Sfe :=
  { store := .scanning, clipCount := 0, directory := [], settings := .unset, fetch := none, timeouts := 0,
    lastFailure := .none, scan := .idle, owed := none }

/-- The prompt queues after either reset (R153). -/
def Pqc.powerOn : Pqc := { agent := Vector.replicate 16 [], line := Vector.replicate 16 [], pointer := 15 }

/-- A port after RSTN (R168). -/
def PortState.powerOn : PortState :=
  { untaken := [], responses := [], reports := [], overflow := false, mask := 0, period := .off, counter := none,
    markOut := [], readOut := [] }

def Cpt.powerOn : Cpt := { line := .powerOn, desk := .powerOn, supervision := .powerOn }

/-- Nothing taken: frames of zeros. -/
def Taken.powerOn : Taken :=
  { mic := Vector.replicate 16 zeroFrame
    reference := Vector.replicate 16 zeroFrame
    present := Vector.replicate 16 false
    echo := Vector.replicate 16 .zero
    erle := Vector.replicate 16 0
    noise := Vector.replicate 20 .zero
    far := Vector.replicate 16 zeroFrame
    talk := Vector.replicate 4 .zero
    ear := Vector.replicate 16 zeroFrame
    line := Vector.replicate 16 zeroFrame
    sup := Vector.replicate 4 zeroFrame
    voice := Vector.replicate 12 .zero }

/-- Every block at its power-on values, with RSTN as given and the given commands waiting.
DESIGN CHOICE: notes/assumptions/10.md. -/
def State.powerOn (rstn : Bool) (pending : List Instr) : State :=
  { rstn := rstn
    ftu := .powerOn
    hwi := .powerOn
    hli := Vector.replicate 16 .powerOn
    pct := Vector.replicate 16 .powerOn
    mxe := .powerOn
    ecu := Vector.replicate 16 .powerOn
    nru := .powerOn
    sst := Vector.replicate 4 .powerOn
    vce := Vector.replicate 12 .powerOn
    sfe := .powerOn
    pqc := .powerOn
    cpt := .powerOn
    taken := .powerOn
    work := []
    pending := pending }

/-- The state of the released part: power-on values with the scan of the store begun (R141, R185). -/
def State.released (pending : List Instr) : State :=
  let s := State.powerOn false pending
  { s with sfe := { s.sfe with scan := .header } }

/-- The machine right after reset: RSTN released, every block at its power-on values, the store scan begun
(R141, R185), no command waiting. -/
def State.reset : State := State.released []

end Sys2Proof.Machine
end

