-- ==== Sys2Proof/Machine/Operands.lean ====
section
/-!
DEFINITION. The arithmetic conventions of the specification, the reading of message parameters (R186) and the
elements of response data (R187).
-/

namespace Sys2Proof.Machine

/-! ### Fixed-point conventions -/

/-- `x` brought into the range `lo` to `hi` (Conventions, "Clamping"). -/
def clampInt (lo hi x : Int) : Int := if x < lo then lo else if hi < x then hi else x

/-- Clamped to sample range (Conventions). -/
def clampSample (x : Int) : Sample := clampInt (-32768) 32767 x

/-- A number brought into a range (Conventions, "Clamping"). -/
def clampNat (lo hi x : Nat) : Nat := if x < lo then lo else if hi < x then hi else x

/-- A gain code above 8192 is taken as 8192 (Conventions, "Gain codes"). -/
def gainCode (x : Nat) : Nat := min x Config.gainMax

/-- Half-up rounding by 2^12: floor((acc + 2048) / 4096). -/
def round12 (acc : Int) : Int := (acc + 2048) / 4096

/-- Half-up rounding by 2^15: floor((acc + 16384) / 32768). -/
def round15 (acc : Int) : Int := (acc + 16384) / 32768

/-- The gain of sample `j` on the ramp from `g0` to `g1` (R52, R95, R133): the change, times (j + 1) / 64,
truncated toward zero. -/
def rampGain (g0 g1 : Int) (j : Nat) : Int := g0 + Int.tdiv ((g1 - g0) * ((j : Int) + 1)) 64

/-- The largest absolute sample of a frame; |−32768| is 32768 (R62). -/
def peak (f : Frame) : Nat := f.foldl (fun m x => max m x.natAbs) 0

/-- The sum of the squares of the samples. -/
def energy (f : Frame) : Int := f.foldl (fun a x => a + x * x) 0

/-- A frame in collection made up to 64 samples with zeros (R36). -/
def padFrame (f : Frame) : Frame := (f ++ zeroFrame).take frameSize

/-- Each sample of a frame under the ramp from `g0` to `g1`, rounded by 2^12 (R95, R133). -/
def rampFrame (g0 g1 : Int) (f : Frame) : Frame :=
  (List.range frameSize).map (fun j => round12 (f.getD j 0 * rampGain g0 g1 j))

/-! ### Banks of like records -/

/-- Entry `i` of a bank changed by `f`. -/
def upd {α : Type} {n : Nat} (v : Vector α n) (i : Fin n) (f : α → α) : Vector α n := v.set i (f v[i])

/-- The position numbers, ascending. -/
def allPositions : List (Fin 16) := [0, 1, 2, 3, 4, 5, 6, 7, 8, 9, 10, 11, 12, 13, 14, 15]

/-- The supervisor channel numbers, ascending. -/
def allChannels : List (Fin 4) := [0, 1, 2, 3]

/-- The voice numbers, ascending. -/
def allVoices : List (Fin 12) := [0, 1, 2, 3, 4, 5, 6, 7, 8, 9, 10, 11]

/-- The noise context numbers, ascending. -/
def allNoise : List (Fin 20) := [0, 1, 2, 3, 4, 5, 6, 7, 8, 9, 10, 11, 12, 13, 14, 15, 16, 17, 18, 19]

/-- The ports. -/
def allPorts : List Port := [.line, .desk, .supervision]

/-- The noise context of a position: context p (section 5.1). -/
def noiseOfPosition (p : Fin 16) : Fin 20 := ⟨p.val, by omega⟩

/-- The noise context of a supervisor channel: context 16 + c (section 5.1). -/
def noiseOfChannel (c : Fin 4) : Fin 20 := ⟨16 + c.val, by omega⟩

/-! ### Little-endian bytes -/

/-- The number that bytes hold, the byte of least significance first (Conventions, "Numbers"). -/
def leNat : List Byte → Nat
  | [] => 0
  | b :: bs => b.toNat + 256 * leNat bs

/-- A number in `k` bytes, least significance first. -/
def leBytes : Nat → Nat → List Byte
  | 0, _ => []
  | k + 1, n => BitVec.ofNat 8 n :: leBytes k (n / 256)

/-- A number in one byte. -/
def byte1 (n : Nat) : List Byte := leBytes 1 n

/-- A number in two bytes. -/
def byte2 (n : Nat) : List Byte := leBytes 2 n

/-- A number in four bytes. -/
def byte4 (n : Nat) : List Byte := leBytes 4 n

/-- A two-valued item: 1 for yes, on, enabled, present or pressed (R187). -/
def byteBool (b : Bool) : List Byte := byte1 (if b then 1 else 0)

/-- A signed 16-bit item in two's complement (R187). -/
def byteInt16 (x : Int) : List Byte := byte2 (BitVec.ofInt 16 x).toNat

/-- An item that stands only in some states, of `k` bytes: every byte 0xFF while it is absent (R187). -/
def byteOpt (k : Nat) (o : Option Nat) : List Byte :=
  match o with
  | some n => leBytes k n
  | none => List.replicate k 0xFF

/-- A slot pair: an in-slot byte, then an out-slot byte (R187). -/
def byteSlots (o : Option SlotPair) : List Byte :=
  byteOpt 1 (o.map (fun b => b.inSlot.val)) ++ byteOpt 1 (o.map (fun b => b.outSlot.val))

/-! ### Reading parameters (R171, R186) -/

/-- A position number named by a request: 0 to 15, or check 4 fails. -/
def positionOf (b : Byte) : Except Status (Fin 16) :=
  if h : b.toNat < 16 then .ok ⟨b.toNat, h⟩ else .error .outOfRange

/-- A channel number named by a request: 0 to 3, or check 4 fails. -/
def channelOf (b : Byte) : Except Status (Fin 4) :=
  if h : b.toNat < 4 then .ok ⟨b.toNat, h⟩ else .error .outOfRange

/-- A voice number named by a request: 0 to 11, or check 4 fails. -/
def voiceOf (b : Byte) : Except Status (Fin 12) :=
  if h : b.toNat < 12 then .ok ⟨b.toNat, h⟩ else .error .outOfRange

/-- A highway slot number: 0 to 31; its owner refuses another with OUT_OF_RANGE (R33, R35). -/
def slotOf (n : Nat) : Option (Fin 32) := if h : n < 32 then some ⟨n, h⟩ else none

/-- A flag field: 0 for no or off, 1 for yes or on; any other value fails check 5. -/
def flagOf (n : Nat) : Except Status Bool :=
  match n with
  | 0 => .ok false
  | 1 => .ok true
  | _ => .error .badRequest

/-- A flag field that may be left out. -/
def flagOptOf (o : Option Nat) : Except Status (Option Bool) :=
  match o with
  | none => .ok none
  | some n => (flagOf n).map some

/-- An echo mode code: 0 OFF, 1 ADAPT, 2 FREEZE. -/
def echoModeOptOf (o : Option Nat) : Except Status (Option EchoMode) :=
  match o with
  | none => .ok none
  | some 0 => .ok (some .off)
  | some 1 => .ok (some .adapt)
  | some 2 => .ok (some .freeze)
  | some _ => .error .badRequest

/-- A close plan code: 0 KEEP, 1 CLEAR. -/
def planOf (b : Byte) : Except Status Plan :=
  match b.toNat with
  | 0 => .ok .keep
  | 1 => .ok .clear
  | _ => .error .badRequest

/-- A call state code: 0 IDLE, 1 TALK, 2 HOLD. -/
def callOf (b : Byte) : Except Status CallState :=
  match b.toNat with
  | 0 => .ok .idle
  | 1 => .ok .talk
  | 2 => .ok .hold
  | _ => .error .badRequest

/-- A session mode code of JOIN or CHANGE_MODE: 1 LISTEN, 2 WHISPER, 3 BARGE; IDLE is refused (R102, R106). -/
def modeOf (b : Byte) : Except Status SupMode :=
  match b.toNat with
  | 1 => .ok .listen
  | 2 => .ok .whisper
  | 3 => .ok .barge
  | _ => .error .badRequest

/-- A meter period code: 0 off, 1 to 4 for 16, 64, 250 and 1000 frames (R186). -/
def periodOf (b : Byte) : Except Status MeterPeriod :=
  match b.toNat with
  | 0 => .ok .off
  | 1 => .ok .p16
  | 2 => .ok .p64
  | 3 => .ok .p250
  | 4 => .ok .p1000
  | _ => .error .badRequest

/-- The fields that follow a field mask (R186): one size for each field of the kind.  Bit i of the mask says that
field i is given.  None when the bytes are not exactly the given fields, or when a mask bit above the last field
is set (check 3). -/
def maskedFields : List Nat → Nat → List Byte → Option (List (Option Nat))
  | [], mask, bytes => if mask = 0 ∧ bytes = [] then some [] else none
  | size :: sizes, mask, bytes =>
    if mask % 2 = 1 then
      if bytes.length < size then none
      else (maskedFields sizes (mask / 2) (bytes.drop size)).map (fun l => some (leNat (bytes.take size)) :: l)
    else (maskedFields sizes (mask / 2) bytes).map (fun l => none :: l)

/-! ### Play lists (R119, R186) -/

/-- A step list has exactly 1 + 4n bytes for its count byte n (check 3). -/
def stepsLengthOk : List Byte → Bool
  | [] => false
  | n :: rest => rest.length == 4 * n.toNat

/-- Step `i` of a list from its four bytes, or none where its form is refused by R119. -/
def stepOf (i : Nat) (kind a lo hi : Byte) : Option Step :=
  let b := leNat [lo, hi]
  match kind.toNat with
  | 1 => if b ≤ 511 then some (.clip b) else none
  | 2 => if 1 ≤ b ∧ b ≤ 4095 then some (.silence b) else none
  | 3 => if a.toNat < i ∧ b ≤ 255 then some (.loop a.toNat b) else none
  | 4 => some (.mark a.toNat)
  | _ => none

/-- The steps from step `i` on, four bytes a step. -/
def stepsFrom (i : Nat) : List Byte → Option (List Step)
  | kind :: a :: lo :: hi :: rest =>
    match stepOf i kind a lo hi with
    | none => none
    | some s => (stepsFrom (i + 1) rest).map (fun l => s :: l)
  | [] => some []
  | _ => none

/-- The validation of a step list (R119): 1 to 8 steps, each of a form R119 accepts. -/
def stepsOf : List Byte → Except Status (List Step)
  | [] => .error .badRequest
  | n :: rest =>
    if n.toNat = 0 ∨ 8 < n.toNat then .error .badRequest
    else
      match stepsFrom 0 rest with
      | some l => .ok l
      | none => .error .badRequest

end Sys2Proof.Machine
end

