-- ==== Sys2Proof/Machine/Flags.lean ====
section
/-!
DEFINITION. The report queues with their overflow flags and ATTN (R175 to R180).
-/

namespace Sys2Proof.Machine

/-- The class of a report is fixed by its kind (R175): true is URGENT. -/
def ReportBody.urgent : ReportBody → Bool
  | .batteryCritical _ _ => true
  | .storeFailed _ => true
  | .highwayLost => true
  | _ => false

/-- The class of a report entry: true is URGENT. -/
def Report.urgent (r : Report) : Bool := r.body.urgent

/-- The position of a METER entry, none for another kind (R178). -/
def Report.meterOf (r : Report) : Option (Fin 16) :=
  match r.body with
  | .meter p _ => some p
  | _ => none

/-- A METER entry for the same position as `r` (R178). -/
def Report.sameMeter (r held : Report) : Bool := r.meterOf.isSome && r.meterOf == held.meterOf

/-- An URGENT entry goes directly after the last URGENT entry, or to the head (R176). -/
def insertUrgent (l : List Report) (r : Report) : List Report :=
  l.takeWhile Report.urgent ++ r :: l.dropWhile Report.urgent

/-- An entry placed in a queue that has room (R176). -/
def insertReport (l : List Report) (r : Report) : List Report :=
  if r.urgent then insertUrgent l r else l ++ [r]

/-- An entry that arrives at a port's report queue (R176, R177, R178).  A STORE_FAILED goes ahead of an unread RESET_DONE
like any URGENT entry, though R143 and R184 have it behind.
DESIGN CHOICE: notes/assumptions/37.md. -/
def placeReport (ps : PortState) (r : Report) : PortState :=
  if ps.reports.any r.sameMeter then
    { ps with reports := ps.reports.map (fun h => if r.sameMeter h then r else h) }
  else if ps.reports.length < Config.reportDepth then
    { ps with reports := insertReport ps.reports r }
  else if r.urgent && ps.reports.any (fun h => !h.urgent) then
    { ps with reports := insertUrgent ps.reports.dropLast r, overflow := true }
  else
    { ps with overflow := true }

/-- The ATTN output of a port: asserted while its report queue holds an entry (R180), released while RSTN is
asserted (R185). -/
def attn (rstn : Bool) (ps : PortState) : Bool := !rstn && !ps.reports.isEmpty

/-- The exchanges a port holds: untaken requests, and taken ones whose response is unread (R168). -/
def PortState.held (ps : PortState) : Nat := ps.untaken.length + ps.responses.length

/-- Entries taken from the head of the report queue; the overflow flag is cleared when that empties the queue
(R179, R181). -/
def takeEntries (ps : PortState) (n : Nat) : PortState :=
  let rest := ps.reports.drop n
  { ps with reports := rest, overflow := if ps.reports.isEmpty || !rest.isEmpty then ps.overflow else false }

end Sys2Proof.Machine
end

