-- ==== Sys2Proof/Machine/Format.lean ====
section
/-!
DEFINITION. The byte layouts of the messages the part sends: response headers, report entries, step lists and the
codes of named values (chapter 11, R187), and the records of the prompt store (R138, R139, R188).
-/

namespace Sys2Proof.Machine

/-! ### Codes of named values (R187) -/

def Status.code : Status → Nat
  | .ok => 0
  | .busy => 1
  | .badRequest => 2
  | .notPermitted => 3
  | .badState => 4
  | .outOfRange => 5
  | .inUse => 6
  | .noResource => 7
  | .queueFull => 8
  | .changed => 9
  | .aborted => 10

def PosState.code : PosState → Nat
  | .closed => 0
  | .opened => 1
  | .closing => 2

def Plan.code : Plan → Nat
  | .keep => 0
  | .clear => 1

def CallState.code : CallState → Nat
  | .idle => 0
  | .talk => 1
  | .hold => 2

def Band.code : Band → Nat
  | .normal => 0
  | .low => 1
  | .critical => 2

def ReminderStatus.code : ReminderStatus → Nat
  | .stopped => 0
  | .running => 1
  | .expired => 2

def EchoMode.code : EchoMode → Nat
  | .off => 0
  | .adapt => 1
  | .freeze => 2

def EchoState.code : EchoState → Nat
  | .off => 0
  | .converging => 1
  | .tracking => 2

def NoiseState.code : NoiseState → Nat
  | .learn => 0
  | .pause => 1
  | .speech => 2

def SupMode.code : SupMode → Nat
  | .idle => 0
  | .listen => 1
  | .whisper => 2
  | .barge => 3

def SessionEnd.code : SessionEnd → Nat
  | .none => 0
  | .left => 1
  | .callEnded => 2
  | .closed => 3
  | .revoked => 4
  | .channelUnbound => 5

def VoiceState.code : VoiceState → Nat
  | .free => 0
  | .priming => 1
  | .playing => 2
  | .draining => 3

def StoreState.code : StoreState → Nat
  | .scanning => 0
  | .ready => 1
  | .unavailable => 2

def StoreFailure.code : StoreFailure → Nat
  | .none => 0
  | .scan => 1
  | .timeout => 2

def QueueId.code : QueueId → Nat
  | .agent => 0
  | .line => 1

def Origin.code : Origin → Nat
  | .desk => 0
  | .supervision => 1
  | .line => 2
  | .auto .reminder => 3
  | .auto .muted => 4
  | .auto .batteryLow => 5
  | .auto .batteryCritical => 6

def PromptOutcome.code : PromptOutcome → Nat
  | .complete => 0
  | .partly => 1
  | .cancelled => 2

def MeterPeriod.code : MeterPeriod → Nat
  | .off => 0
  | .p16 => 1
  | .p64 => 2
  | .p250 => 3
  | .p1000 => 4

/-- The frames of a meter period; none for off (R182). -/
def MeterPeriod.frames : MeterPeriod → Option Nat
  | .off => none
  | .p16 => some 16
  | .p64 => some 64
  | .p250 => some 250
  | .p1000 => some 1000

/-! ### Messages -/

/-- A response header followed by its data (11.1, R187). -/
def Response.bytes (r : Response) : List Byte :=
  [r.kind, r.tag] ++ byte1 r.status.code ++ byteBool r.overflow ++ byte2 r.data.length ++ r.data

/-- The header that reads none ready: bit 1 of the flags set and every other header byte 0 (R174, R187). -/
def noneReady : List Byte := [0, 0, 0, 2, 0, 0]

/-- A step in four bytes; an unused parameter reads 0 (11.1, R186). -/
def Step.bytes : Step → List Byte
  | .clip n => byte1 1 ++ byte1 0 ++ byte2 n
  | .silence n => byte1 2 ++ byte1 0 ++ byte2 n
  | .loop target count => byte1 3 ++ byte1 target ++ byte2 count
  | .mark code => byte1 4 ++ byte1 code ++ byte2 0

/-- A step list: a count byte, then the steps (11.1). -/
def stepListBytes (l : List Step) : List Byte := byte1 l.length ++ l.flatMap Step.bytes

/-- A list of marks: a count byte, then four code bytes, 0 beyond the count (R187). -/
def marksBytes (l : List Nat) : List Byte := byte1 l.length ++ ((l ++ [0, 0, 0, 0]).take 4).flatMap byte1

/-- A voice's use: a code byte, then a position byte and a queue byte, both 0xFF unless the use is PROMPT (R187). -/
def VoiceUse.bytes : VoiceUse → List Byte
  | .none => byte1 0 ++ [0xFF, 0xFF]
  | .program => byte1 1 ++ [0xFF, 0xFF]
  | .prompt p q => byte1 2 ++ byte1 p.val ++ byte1 q.code

/-- The report kind number (11.2). -/
def ReportBody.kind : ReportBody → Nat
  | .positionClosed _ _ => 0x81
  | .headsetPresent _ => 0x82
  | .headsetAbsent _ => 0x83
  | .button _ _ => 0x84
  | .batteryLow _ _ => 0x85
  | .batteryCritical _ _ => 0x86
  | .holdReminder _ _ => 0x87
  | .mutedTalk _ => 0x88
  | .ecDiverged _ _ => 0x89
  | .sessionEnded _ _ _ => 0x8A
  | .promptDone _ _ _ _ _ _ _ => 0x8B
  | .programMark _ _ => 0x8C
  | .storeReady _ => 0x8D
  | .storeFailed _ => 0x8E
  | .highwayLocked => 0x8F
  | .highwayLost => 0x90
  | .resetDone => 0x91
  | .meter _ _ => 0x92

/-- The subject byte (R187): position, channel or voice, 0xFF for none. -/
def ReportBody.subject : ReportBody → List Byte
  | .positionClosed p _ => byte1 p.val
  | .headsetPresent p => byte1 p.val
  | .headsetAbsent p => byte1 p.val
  | .button p _ => byte1 p.val
  | .batteryLow p _ => byte1 p.val
  | .batteryCritical p _ => byte1 p.val
  | .holdReminder p _ => byte1 p.val
  | .mutedTalk p => byte1 p.val
  | .ecDiverged p _ => byte1 p.val
  | .sessionEnded c _ _ => byte1 c.val
  | .promptDone p _ _ _ _ _ _ => byte1 p.val
  | .programMark v _ => byte1 v.val
  | .storeReady _ => [0xFF]
  | .storeFailed _ => [0xFF]
  | .highwayLocked => [0xFF]
  | .highwayLost => [0xFF]
  | .resetDone => [0xFF]
  | .meter p _ => byte1 p.val

/-- The fields of a meter window, in the order of the METER report (11.2). -/
def MeterWindow.bytes (w : MeterWindow) : List Byte :=
  byte1 w.frames ++ byte2 w.farPeak ++ byte2 w.micPeak ++ byte2 w.linePeak ++ byte2 w.earPeak ++
    byte2 w.earClips ++ byte2 w.lineClips ++ byte2 w.supClips ++ byte1 w.erle ++ byte2 w.noiseGain ++
    byte1 w.echoState.code

/-- The fields of a report, in the order of the report table (11.2). -/
def ReportBody.fields : ReportBody → List Byte
  | .positionClosed _ plan => byte1 plan.code
  | .headsetPresent _ => []
  | .headsetAbsent _ => []
  | .button _ mute => byteBool mute
  | .batteryLow _ level => byte1 level
  | .batteryCritical _ level => byte1 level
  | .holdReminder _ again => byteBool again
  | .mutedTalk _ => []
  | .ecDiverged _ generation => byte2 generation.toNat
  | .sessionEnded _ p reason => byte1 p.val ++ byte1 reason.code
  | .promptDone _ q origin tag outcome underruns marks =>
    byte1 q.code ++ byte1 origin.code ++ [tag] ++ byte1 outcome.code ++ byte2 underruns ++ marksBytes marks
  | .programMark _ code => byte1 code
  | .storeReady count => byte2 count
  | .storeFailed cause => byte1 cause.code
  | .highwayLocked => []
  | .highwayLost => []
  | .resetDone => []
  | .meter _ w => w.bytes

/-- A report entry in its 32 bytes (11.1, R187). -/
def Report.bytes (r : Report) : List Byte :=
  let f := r.body.fields
  byte1 r.body.kind ++ byteBool r.urgent ++ r.body.subject ++ byte1 f.length ++ byte4 r.frame.toNat ++
    (f ++ List.replicate 24 0).take 24

/-! ### Records of the prompt store -/

/-- The 16-bit words of a run of bytes, little-endian. -/
def storeWords : List Byte → List Nat
  | a :: b :: rest => leNat [a, b] :: storeWords rest
  | _ => []

/-- Header word `i` (R138). -/
def headerWord (head : List Byte) (i : Nat) : Nat := (storeWords head).getD i 0

/-- The checksum of R140: the 16-bit wrapping sum of the first fifteen header words and of the directory words. -/
def storeChecksum (head directory : List Byte) : Nat :=
  (((storeWords head).take 15).sum + (storeWords directory).sum) % 65536

/-- A settings entry: a clip number from 0 to 511, any other value none (R138). -/
def settingOf (n : Nat) : Option Nat := if n ≤ 511 then some n else none

/-- The settings record of a header (R138). -/
def settingsOf (head : List Byte) : StoreSettings :=
  { reminder := settingOf (headerWord head 2)
    muted := settingOf (headerWord head 3)
    batteryLow := settingOf (headerWord head 4)
    batteryCritical := settingOf (headerWord head 5) }

/-- A directory entry from its eight bytes (R139, R188): valid when it has at least one sample, an even start,
its end within 16,777,216 and a rate code of 1 or 2; the trim cached clamped to 8192. -/
def dirEntryOf (s0 s1 s2 c0 c1 c2 t0 t1 : Byte) : DirEntry :=
  let start := leNat [s0, s1, s2]
  let count := leNat [c0, c1, c2]
  let word := leNat [t0, t1]
  let rate := word / 16384
  { start := start, count := count, rate := rate, trim := gainCode (word % 16384)
    valid := decide (1 ≤ count) && start % 2 == 0 && decide (start + 2 * count ≤ 16777216) &&
      (rate == 1 || rate == 2) }

/-- The directory entries in clip-number order, eight bytes each (R139). -/
def directoryOf : List Byte → List DirEntry
  | s0 :: s1 :: s2 :: c0 :: c1 :: c2 :: t0 :: t1 :: rest =>
    dirEntryOf s0 s1 s2 c0 c1 c2 t0 t1 :: directoryOf rest
  | _ => []

/-- Output samples per stored sample: 1 at 16 kHz, 2 at 8 kHz (R148, R188). -/
def DirEntry.expand (e : DirEntry) : Nat := if e.rate = 2 then 2 else 1

end Sys2Proof.Machine
end

