-- ==== Sys2Proof/Machine/Ops.lean ====
section
/-!
DEFINITION. The named operations over the state that several commands share: changing one record, making reports,
ending sessions, draining voices, queueing and flushing prompts, granting voices and fetches, scanning the store.
-/

namespace Sys2Proof.Machine

/-! ### Changing one record -/

/-- Position record `p` changed by `f`. -/
def State.modPos (s : State) (p : Fin 16) (f : Position → Position) : State := { s with pct := upd s.pct p f }

/-- Echo context `p` changed by `f`. -/
def State.modEcho (s : State) (p : Fin 16) (f : EchoCtx → EchoCtx) : State := { s with ecu := upd s.ecu p f }

/-- Noise context `n` changed by `f`. -/
def State.modNoise (s : State) (n : Fin 20) (f : NoiseCtx → NoiseCtx) : State :=
  { s with nru := { s.nru with contexts := upd s.nru.contexts n f } }

/-- Session record `c` changed by `f`. -/
def State.modSession (s : State) (c : Fin 4) (f : Session → Session) : State := { s with sst := upd s.sst c f }

/-- Voice record `v` changed by `f`. -/
def State.modVoice (s : State) (v : Fin 12) (f : Voice → Voice) : State := { s with vce := upd s.vce v f }

/-- Headset link `p` changed by `f`. -/
def State.modHeadset (s : State) (p : Fin 16) (f : Headset → Headset) : State := { s with hli := upd s.hli p f }

/-- The state of a port. -/
def Cpt.get (c : Cpt) : Port → PortState
  | .line => c.line
  | .desk => c.desk
  | .supervision => c.supervision

/-- The control ports with one port's state replaced. -/
def Cpt.set (c : Cpt) (port : Port) (ps : PortState) : Cpt :=
  match port with
  | .line => { c with line := ps }
  | .desk => { c with desk := ps }
  | .supervision => { c with supervision := ps }

/-- Port `port` changed by `f`. -/
def State.modPort (s : State) (port : Port) (f : PortState → PortState) : State :=
  { s with cpt := s.cpt.set port (f (s.cpt.get port)) }

/-- The record of position `p`. -/
abbrev State.pos (s : State) (p : Fin 16) : Position := s.pct[p]

/-- The state of port `port`. -/
abbrev State.port (s : State) (port : Port) : PortState := s.cpt.get port

/-! ### Reports (R175) -/

/-- A report made for one port: it carries the frame count as it stands (R26). -/
def State.report (s : State) (port : Port) (body : ReportBody) : State :=
  s.modPort port (fun ps => placeReport ps { body := body, frame := s.ftu.frameCount })

/-- A report made for each of several ports (R175). -/
def State.reportAll (s : State) (ports : List Port) (body : ReportBody) : State :=
  ports.foldl (fun s port => s.report port body) s

/-! ### Views of state that is stored once -/

/-- The fetch-in-flight flag of a voice (R117): the engine's fetch in flight serves it. -/
def State.inFlight (s : State) (v : Fin 12) : Bool := s.sfe.fetch.any (fun f => f.voice == v)

/-- A voice in PROGRAM use (R118). -/
def Voice.inProgram (v : Voice) : Bool := v.use == .program && (v.state == .priming || v.state == .playing)

/-- A prompt voice (R118). -/
def Voice.isPrompt (v : Voice) : Bool :=
  (match v.use with
   | .prompt _ _ => true
   | _ => false) && (v.state == .priming || v.state == .playing)

/-- The endpoint bound to an input slot (R32): the slot map read from the bindings. -/
def State.inSlotOwner (s : State) (k : Fin 32) : Option Endpoint :=
  match allPositions.find? (fun p => (s.pos p).line.any (fun b => b.inSlot == k)) with
  | some p => some (.position p)
  | none => (allChannels.find? (fun c => s.hwi.channels[c].any (fun b => b.inSlot == k))).map .channel

/-- The endpoint bound to an output slot (R32). -/
def State.outSlotOwner (s : State) (k : Fin 32) : Option Endpoint :=
  match allPositions.find? (fun p => (s.pos p).line.any (fun b => b.outSlot == k)) with
  | some p => some (.position p)
  | none => (allChannels.find? (fun c => s.hwi.channels[c].any (fun b => b.outSlot == k))).map .channel

/-- A slot of the pair is in use by an endpoint other than `e` (R32). -/
def State.slotsInUse (s : State) (e : Endpoint) (b : SlotPair) : Bool :=
  allPositions.any (fun p => decide (Endpoint.position p ≠ e) &&
    (s.pos p).line.any (fun x => x.inSlot == b.inSlot || x.outSlot == b.outSlot)) ||
  allChannels.any (fun c => decide (Endpoint.channel c ≠ e) &&
    s.hwi.channels[c].any (fun x => x.inSlot == b.inSlot || x.outSlot == b.outSlot))

/-! ### Sessions (R104, R109) -/

/-- Channel `c` has a session on position `p`. -/
def State.sessionOn (s : State) (p : Fin 16) (c : Fin 4) : Bool :=
  s.sst[c].mode != .idle && s.sst[c].target == some p

/-- A talking mode: WHISPER or BARGE. -/
def SupMode.talking : SupMode → Bool
  | .whisper => true
  | .barge => true
  | _ => false

/-- Channel `c` has a talking session on position `p` (R104). -/
def State.talkingOn (s : State) (p : Fin 16) (c : Fin 4) : Bool := s.sessionOn p c && s.sst[c].mode.talking

/-- The number of sessions on a position (R104). -/
def State.sessionCount (s : State) (p : Fin 16) : Nat := (allChannels.filter (s.sessionOn p)).length

/-- The channel of the talking session on a position, if any. -/
def State.talker (s : State) (p : Fin 16) : Option (Fin 4) := allChannels.find? (s.talkingOn p)

/-- SUPOUT(c) ceases to exist: its terms become absent at once (R44). -/
def State.dropSup (s : State) (c : Fin 4) : State :=
  { s with mxe := { s.mxe with supTerms := s.mxe.supTerms.set c .absent } }

/-- The session record of channel `c` becomes IDLE with the given last end, and its SUPOUT ceases (R108, R109). -/
def State.idleSession (s : State) (c : Fin 4) (last : SessionEnd) : State :=
  (s.modSession c (fun x => { x with mode := .idle, target := none, lastEnd := last })).dropSup c

/-- A session ends by a cause other than LEAVE: the record becomes IDLE with the reason, and SESSION_ENDED goes to
the Supervision port (R109).  A record that is IDLE is not changed. -/
def State.endSession (s : State) (c : Fin 4) (reason : SessionEnd) : State :=
  if s.sst[c].mode = .idle then s
  else
    match s.sst[c].target with
    | none => s.idleSession c reason
    | some p => (s.idleSession c reason).report .supervision (.sessionEnded c p reason)

/-- Every session on position `p` ends, in channel order (R109, R110). -/
def State.endSessionsOn (s : State) (p : Fin 16) (reason : SessionEnd) : State :=
  allChannels.foldl (fun s c => if s.sessionOn p c then s.endSession c reason else s) s

/-! ### The store fetch engine (R141 to R151) -/

/-- The class of a waiting voice (R147): 0 for AGENT prompts, 1 for LINE prompts, 2 for programmes. -/
def fetchClass (v : Voice) : Nat :=
  match v.use with
  | .prompt _ .agent => 0
  | .prompt _ .line => 1
  | _ => 2

/-- The waiting refill flag that R147 serves: the lowest class, and within it the lowest voice number. -/
def State.bestFlag (s : State) : Option (Fin 12) :=
  match allVoices.find? (fun v => s.vce[v].refill && fetchClass s.vce[v] == 0) with
  | some v => some v
  | none =>
    match allVoices.find? (fun v => s.vce[v].refill && fetchClass s.vce[v] == 1) with
    | some v => some v
    | none => allVoices.find? (fun v => s.vce[v].refill)

/-- The voice whose flag the engine grants next: none while a fetch is in flight or the store is not READY; else
the one already owed a grant, or the best waiting flag (R147). -/
def State.nextFetch (s : State) : Option (Fin 12) :=
  if s.sfe.fetch.isSome || s.sfe.store != .ready then none
  else
    match s.sfe.owed with
    | some v => if s.vce[v].refill then some v else s.bestFlag
    | none => s.bestFlag

/-- Settles which voice is owed the next grant: the flag that is alone when the engine is idle keeps its claim over
flags set after it (R147).
DESIGN CHOICE: notes/assumptions/13.md. -/
def State.settleOwed (s : State) : State := { s with sfe := { s.sfe with owed := s.nextFetch } }

/-- The directory entry of the clip that a voice's current step names (R126, R139). -/
def clipEntry (directory : List DirEntry) (v : Voice) : Option DirEntry :=
  match v.current with
  | none => none
  | some i =>
    match v.steps[i]? with
    | some (.clip n) => directory[n]?
    | _ => none

/-- The stored samples that a grant reads (R148). -/
def fetchSize (remaining fill expand : Nat) : Nat :=
  min remaining (min ((Config.bufferSize - fill) / expand) (Config.lowWater / expand))

/-- The engine grants a fetch to the voice of `nextFetch` (R147, R148): the voice's flag is cleared, and the voice,
start address and size of the fetch are recorded. -/
def State.grantFetch (s : State) : State :=
  match s.nextFetch with
  | none => s
  | some v =>
    match s.vce[v].clip, clipEntry s.sfe.directory s.vce[v] with
    | some progress, some e =>
      let s1 := s.modVoice v (fun x => { x with refill := false })
      { s1 with
        sfe := { s1.sfe with
          fetch := some { voice := v, address := e.start + 2 * progress.offset,
                          count := fetchSize progress.remaining s.vce[v].buffer.length e.expand,
                          expand := e.expand, trim := e.trim }
          owed := none } }
    | _, _ => s

/-- A scan begins (R142): SCANNING, the cache and settings emptied, the timeout count 0, the header being read. -/
def State.startScan (s : State) : State :=
  { s with sfe := { s.sfe with store := .scanning, directory := [], clipCount := 0, settings := .unset, timeouts := 0,
                               scan := .header, owed := none } }

/-- A scan fails (R142): UNAVAILABLE, last failure SCAN, STORE_FAILED to all three ports. -/
def State.failScan (s : State) : State :=
  State.reportAll
    { s with sfe := { s.sfe with store := .unavailable, lastFailure := .scan, scan := .idle, owed := none } }
    allPorts (.storeFailed .scan)

/-- A scan succeeds (R142): the cache holds what was read, READY, STORE_READY to all three ports. -/
def State.passScan (s : State) (head directory : List Byte) : State :=
  State.reportAll
    { s with sfe := { s.sfe with store := .ready, clipCount := headerWord head 1, directory := directoryOf directory,
                                 settings := settingsOf head, scan := .idle } }
    allPorts (.storeReady (headerWord head 1))

/-- The store fails at the fourth consecutive timeout (R151). -/
def State.failStore (s : State) : State :=
  State.reportAll
    { s with sfe := { s.sfe with store := .unavailable, lastFailure := .timeout, owed := none } }
    allPorts (.storeFailed .timeout)

/-! ### Voices (R131 to R133) -/

/-- The values a voice takes when it is started (R131, R134).  Its output frame is kept with the use it was made for: a
role that has lost the voice may still ramp out over it (R43, R49). -/
def Voice.start (v : Voice) (use : VoiceUse) (steps : List Step) : Voice :=
  { v with state := .priming, use := use, drainedFor := none, steps := steps, current := some 0, entered := false,
           clip := none, silence := 0, loops := List.replicate 8 none, endFetched := false, placed := false, buffer := [],
           refill := false, ramp := .none, marks := [], underruns := 0, skipped := 0 }

/-- Entry into DRAINING (R132): the fetch side stops, the refill flag is cleared, the fade is pending. -/
def Voice.drain (v : Voice) (drainedFor : Option (Fin 16)) : Voice :=
  { v with state := .draining, drainedFor := drainedFor, refill := false, ramp := .pending }

/-- A voice becomes FREE: its use NONE, its drained-for position absent (R124, R133).
DESIGN CHOICE: notes/assumptions/28.md. -/
def Voice.release (v : Voice) : Voice := { v with state := .free, use := .none, drainedFor := none }

/-- A voice enters DRAINING, and the engine's claim on its flag ends (R132, R146). -/
def State.drainVoice (s : State) (v : Fin 12) (drainedFor : Option (Fin 16)) : State :=
  (s.modVoice v (fun x => x.drain drainedFor)).settleOwed

/-! ### Prompt queues (R153 to R165) -/

/-- A queue of a position. -/
def State.queue (s : State) (p : Fin 16) : QueueId → List Entry
  | .agent => s.pqc.agent[p]
  | .line => s.pqc.line[p]

/-- A queue of a position replaced. -/
def State.setQueue (s : State) (p : Fin 16) (q : QueueId) (l : List Entry) : State :=
  match q with
  | .agent => { s with pqc := { s.pqc with agent := s.pqc.agent.set p l } }
  | .line => { s with pqc := { s.pqc with line := s.pqc.line.set p l } }

/-- The voice of a queue's head, present while the head is PLAYING (R46). -/
def State.headVoice (s : State) (p : Fin 16) (q : QueueId) : Option (Fin 12) :=
  match s.queue p q with
  | [] => none
  | e :: _ => e.voice

/-- The port that receives an entry's PROMPT_DONE: the port of its origin, Desk for automatic entries (R163). -/
def Origin.port : Origin → Port
  | .desk => .desk
  | .supervision => .supervision
  | .line => .line
  | .auto _ => .desk

/-- The PROMPT_DONE report of a removed entry (R163). -/
def State.promptDone (s : State) (p : Fin 16) (q : QueueId) (e : Entry) (outcome : PromptOutcome) (underruns : Nat)
    (marks : List Nat) : State :=
  s.report e.origin.port (.promptDone p q e.origin e.tag outcome underruns marks)

/-- One removed entry is cancelled: a PLAYING entry's voice drains for the position, and PROMPT_DONE carries what
that voice held; a WAITING entry's carries none (R163, R164). -/
def State.cancelEntry (s : State) (p : Fin 16) (q : QueueId) (e : Entry) : State :=
  match e.voice with
  | none => s.promptDone p q e .cancelled 0 []
  | some v => (s.drainVoice v (some p)).promptDone p q e .cancelled s.vce[v].underruns s.vce[v].marks

/-- A queue is flushed: every entry removed and reported CANCELLED, head first (R164, R165). -/
def State.flushQueue (s : State) (p : Fin 16) (q : QueueId) : State :=
  (s.queue p q).foldl (fun s e => s.cancelEntry p q e) (s.setQueue p q [])

/-- A new WAITING entry joins the tail of a queue (R154). -/
def State.enqueue (s : State) (p : Fin 16) (q : QueueId) (e : Entry) : State := s.setQueue p q (s.queue p q ++ [e])

/-- The cached clip of an automatic prompt kind (R145). -/
def StoreSettings.clip (x : StoreSettings) : AutoKind → Option Nat
  | .reminder => x.reminder
  | .muted => x.muted
  | .batteryLow => x.batteryLow
  | .batteryCritical => x.batteryCritical

/-- The offer of an automatic prompt (R157, R158): an entry is made when the store is READY, its clip is cached, the
AGENT queue has room and holds no automatic entry of the kind. -/
def State.offer (s : State) (p : Fin 16) (k : AutoKind) : State :=
  match s.sfe.settings.clip k with
  | none => s
  | some n =>
    if s.sfe.store = .ready ∧ (s.queue p .agent).length < Config.queueDepth ∧
        (s.queue p .agent).all (fun e => e.origin != .auto k) then
      s.enqueue p .agent { origin := .auto k, tag := 0, steps := [.clip n], duck := true, voice := none }
    else s

/-- The heads in the order the arbiter visits them (R160): from the position after the pointer upward, wrapping,
the AGENT head before the LINE head. -/
def visitOrder (pointer : Fin 16) : List (Fin 16 × QueueId) :=
  (List.range 16).flatMap (fun i =>
    let p : Fin 16 := pointer + 1 + Fin.ofNat 16 i
    [(p, .agent), (p, .line)])

/-- The head of a queue is WAITING. -/
def State.headWaiting (s : State) (p : Fin 16) (q : QueueId) : Bool :=
  match s.queue p q with
  | [] => false
  | e :: _ => e.voice.isNone

/-- The lowest-numbered FREE voice. -/
def State.freeVoice (s : State) : Option (Fin 12) := allVoices.find? (fun v => s.vce[v].state == .free)

/-- One grant of the voice pool arbiter (R160, R161), if a voice is FREE and a head is WAITING. -/
def State.poolGrant (s : State) : State :=
  match s.freeVoice, (visitOrder s.pqc.pointer).find? (fun x => s.headWaiting x.1 x.2) with
  | some v, some (p, q) =>
    match s.queue p q with
    | [] => s
    | e :: rest =>
      let s1 := s.setQueue p q ({ e with voice := some v } :: rest)
      let s2 := s1.modVoice v (fun x => x.start (.prompt p q) e.steps)
      { s2 with pqc := { s2.pqc with pointer := p } }
  | _, _ => s

/-- Grants that stand are made one after another (R159): at most one for each voice. -/
def State.poolGrants : Nat → State → State
  | 0, s => s
  | n + 1, s => State.poolGrants n s.poolGrant

/-- The grants that R147 and R159 make at once. -/
def State.settleGrants (s : State) : State := (State.poolGrants 12 s).grantFetch

/-! ### Lines, calls and contexts -/

/-- The line binding of a position is released: both slots unbound, LINE(p) ceases to exist at once (R4, R34,
R44), and what was taken for the out-slot is no longer sent (R37). -/
def State.releaseLine (s : State) (p : Fin 16) : State :=
  let s1 := s.modPos p (fun x => { x with line := none })
  { s1 with
    mxe := { s1.mxe with lineTerms := s1.mxe.lineTerms.set p .absent }
    hwi := { s1.hwi with lineOut := s1.hwi.lineOut.set p none } }

/-- The reminder stop that goes with leaving HOLD (R13). -/
def Position.stopReminder (x : Position) : Position := { x with reminderStatus := .stopped }

/-- The IDLE effects (R13): sessions end with CALL_ENDED, the LINE queue is flushed. -/
def State.idleEffects (s : State) (p : Fin 16) : State := (s.endSessionsOn p .callEnded).flushQueue p .line

/-- A mute change from on to off zeroes the muted-talk count and its issued flag (R9, R18, R23). -/
def Position.setMute (x : Position) (on : Bool) : Position :=
  if x.mute && !on then { x with mute := on, mutedCount := 0, mutedIssued := false } else { x with mute := on }

/-- The coefficients of a context replaced outside a frame's work; the generation counts the change if a value
changes (R78). -/
def EchoCtx.setCoeffs (c : EchoCtx) (w : List Int) : EchoCtx :=
  { c with coeffs := w, generation := if c.coeffs = w then c.generation else c.generation + 1 }

/-- The hangover counter and the three frame counters become 0. -/
def EchoCtx.zeroCounters (c : EchoCtx) : EchoCtx := { c with hangover := 0, good := 0, poor := 0, diverge := 0 }

/-- A cleared noise context (R83); the output frame is not touched. -/
def NoiseCtx.clear (c : NoiseCtx) : NoiseCtx :=
  { c with state := .learn, learned := 0, estimate := 1, hangover := 0, speechRun := 0, gain := 4096 }

/-- Learning restarts (R97): LEARN with j, hangover and speech run 0; N and the applied gain are kept, and so is the
completed output frame with its speech flag (R93, R116). -/
def NoiseCtx.restart (c : NoiseCtx) : NoiseCtx := { c with state := .learn, learned := 0, hangover := 0, speechRun := 0 }

/-- Learning restarts at a binding of the context's channel, which is not found in SPEECH until it completes (R35, R115).
DEDUCED: notes/assumptions/38.md. -/
def NoiseCtx.rebind (c : NoiseCtx) : NoiseCtx := { c.restart with relearning := true }

/-- The noise settings in force for a context: a position's stand in its record, a channel's with the context. -/
def State.noiseSettings (s : State) (n : Fin 20) : NoiseSettings :=
  if h : n.val < 16 then (s.pos ⟨n.val, h⟩).noise else s.nru.supSettings[(⟨n.val - 16, by omega⟩ : Fin 4)]

end Sys2Proof.Machine
end

