-- ==== Sys2Proof/Machine/Requests.lean ====
section
/-!
DEFINITION. How a port takes a request (R170 to R173): the kinds with their numbers and rights, the common checks,
the response.
-/

namespace Sys2Proof.Machine

/-! ### Kinds and rights -/

/-- The request kinds (section 11.2). -/
inductive Kind where
  | openPosition
  | close
  | setDesk
  | setBattery
  | setSupervision
  | setCall
  | setReminder
  | ackReminder
  | readPosition
  | bindLine
  | unbindLine
  | setSupChannel
  | setEc
  | readCoeffs
  | setNr
  | setSupNr
  | join
  | changeMode
  | leave
  | readSession
  | startProgram
  | stopProgram
  | setHoldSource
  | readVoice
  | rescan
  | readStore
  | agentPrompt
  | coachPrompt
  | announce
  | clearAgentPrompts
  | clearAnnounce
  | takeReports
  | subscribeMeters
  | reset
  deriving DecidableEq, Repr

/-- The kind numbers of the request table (section 11.2). -/
def Kind.code : Kind → Byte
  | .openPosition => 0x01
  | .close => 0x02
  | .setDesk => 0x03
  | .setBattery => 0x04
  | .setSupervision => 0x05
  | .setCall => 0x06
  | .setReminder => 0x07
  | .ackReminder => 0x08
  | .readPosition => 0x09
  | .bindLine => 0x10
  | .unbindLine => 0x11
  | .setSupChannel => 0x12
  | .setEc => 0x18
  | .readCoeffs => 0x19
  | .setNr => 0x1A
  | .setSupNr => 0x1B
  | .join => 0x20
  | .changeMode => 0x21
  | .leave => 0x22
  | .readSession => 0x23
  | .startProgram => 0x28
  | .stopProgram => 0x29
  | .setHoldSource => 0x2A
  | .readVoice => 0x2B
  | .rescan => 0x30
  | .readStore => 0x31
  | .agentPrompt => 0x38
  | .coachPrompt => 0x39
  | .announce => 0x3A
  | .clearAgentPrompts => 0x3B
  | .clearAnnounce => 0x3C
  | .takeReports => 0x40
  | .subscribeMeters => 0x41
  | .reset => 0x48

/-- Every request kind, in the order of the request table. -/
def allKinds : List Kind :=
  [.openPosition, .close, .setDesk, .setBattery, .setSupervision, .setCall, .setReminder, .ackReminder, .readPosition,
   .bindLine, .unbindLine, .setSupChannel, .setEc, .readCoeffs, .setNr, .setSupNr, .join, .changeMode, .leave,
   .readSession, .startProgram, .stopProgram, .setHoldSource, .readVoice, .rescan, .readStore, .agentPrompt,
   .coachPrompt, .announce, .clearAgentPrompts, .clearAnnounce, .takeReports, .subscribeMeters, .reset]

/-- The kind that a kind byte names; none for one the part does not recognise. -/
def kindOf (b : Byte) : Option Kind := allKinds.find? (fun k => k.code == b)

/-- The ports that have the rights for a kind (R173). -/
def Kind.ports : Kind → List Port
  | .reset => [.line]
  | .bindLine => [.line]
  | .unbindLine => [.line]
  | .setCall => [.line]
  | .setHoldSource => [.line]
  | .setSupervision => [.line]
  | .setSupChannel => [.line]
  | .startProgram => [.line]
  | .stopProgram => [.line]
  | .announce => [.line]
  | .clearAnnounce => [.line]
  | .setReminder => [.line]
  | .rescan => [.line]
  | .close => [.desk, .line]
  | .openPosition => [.desk]
  | .setDesk => [.desk]
  | .setEc => [.desk]
  | .setNr => [.desk]
  | .setBattery => [.desk]
  | .agentPrompt => [.desk]
  | .clearAgentPrompts => [.desk]
  | .ackReminder => [.desk]
  | .join => [.supervision]
  | .changeMode => [.supervision]
  | .leave => [.supervision]
  | .coachPrompt => [.supervision]
  | .setSupNr => [.supervision]
  | .readPosition => [.line, .desk, .supervision]
  | .readVoice => [.line, .desk, .supervision]
  | .readSession => [.line, .desk, .supervision]
  | .readStore => [.line, .desk, .supervision]
  | .readCoeffs => [.line, .desk, .supervision]
  | .subscribeMeters => [.line, .desk, .supervision]
  | .takeReports => [.line, .desk, .supervision]

/-- A port may make requests of a kind (R173). -/
def Kind.allows (k : Kind) (port : Port) : Bool := k.ports.contains port

/-! ### Replies -/

/-- What an owner gives back for a request it has taken: its effect, the status and the data (R172). -/
structure Reply where
  state : State
  status : Status
  data : List Byte

/-- A request taken with its effect. -/
def State.okay (s : State) (data : List Byte) : Reply := { state := s, status := .ok, data := data }

/-- A request refused: no effect on any record, no data (R172). -/
def State.refuse (s : State) (status : Status) : Reply := { state := s, status := status, data := [] }

/-- A request whose parameters pass checks 3 to 5 goes to its owner; otherwise the failing check decides (R171). -/
def State.withArgs {α : Type} (s : State) (args : Except Status α) (own : α → Reply) : Reply :=
  match args with
  | .error e => s.refuse e
  | .ok a => own a

/-! ### Taking a request (R170, R171) -/

/-- A row of the request table takes a request of its own kind.  One whose kind the part does not recognise is
taken by whichever row comes (DESIGN CHOICE, notes/assumptions/2.md). -/
def Kind.takes (k : Kind) (r : Request) : Bool :=
  match kindOf r.kind with
  | none => true
  | some x => x == k

/-- The reply to a request (R171): check 1 on its kind, check 2 on its rights, the second half of check 3 on the
bytes carried; then `serve` makes the kind's own checks and the owner's.
DEDUCED: notes/assumptions/21.md. -/
def State.answer (s : State) (port : Port) (r : Request) (serve : State → Request → Reply) : Reply :=
  match kindOf r.kind with
  | none => s.refuse .badRequest
  | some k =>
    if k.allows port = false then s.refuse .notPermitted
    else if r.params.length ≠ r.length.toNat then s.refuse .badRequest
    else serve s r

/-- A response placed at the tail of a port's response queue (R170). -/
def State.respond (s : State) (port : Port) (x : Response) : State :=
  s.modPort port (fun ps => { ps with responses := ps.responses ++ [x] })

/-- The response to a request (R172): the header echoes kind and tag, and shows the overflow flag as it stood when
the request was taken. -/
def responseTo (r : Request) (overflow : Bool) (a : Reply) : Response :=
  { kind := r.kind, tag := r.tag, status := a.status, overflow := overflow, data := a.data }

/-- The oldest untaken request of a port, taken out of the held requests (R170). -/
def State.popRequest (s : State) (port : Port) (rest : List Request) : State :=
  s.modPort port (fun ps => { ps with untaken := rest })

/-- A port takes its oldest untaken request, when it is one that row `k` takes (R170): its effect is made and its
response placed.  With no such request, or while RSTN is asserted (R185), nothing happens.  The second component is
the status answered, none when nothing was taken.
DESIGN CHOICE: notes/assumptions/1.md. -/
def State.takeRequest (s : State) (port : Port) (k : Kind) (serve : State → Request → Reply) : State × Option Status :=
  if s.rstn then (s, none)
  else
    match (s.port port).untaken with
    | [] => (s, none)
    | r :: rest =>
      if k.takes r then
        let a := (s.popRequest port rest).answer port r serve
        (a.state.respond port (responseTo r (s.port port).overflow a), some a.status)
      else (s, none)

/-- The state after a port takes its oldest untaken request for row `k`. -/
def State.take (s : State) (port : Port) (k : Kind) (serve : State → Request → Reply) : State :=
  (s.takeRequest port k serve).1

/-- The outcome type of a command. -/
abbrev Result := Host.Outcome State Fault Refusal

end Sys2Proof.Machine
end

