-- ==== Sys2Proof/Machine/PositionRequests.lean ====
section
/-!
DEFINITION. The requests of the position controller: OPEN, CLOSE, SET_DESK, SET_BATTERY, SET_SUPERVISION, SET_CALL,
SET_REMINDER, ACK_REMINDER, READ_POSITION (chapter 1).
-/

namespace Sys2Proof.Machine

/-! ### OPEN (R3) -/

/-- The parameters of OPEN: position; plan, 0 FRESH, 1 USE_RETAINED.  The flag says USE_RETAINED. -/
def openArgs : List Byte → Except Status (Fin 16 × Bool)
  | [p, plan] => do
    let p ← positionOf p
    let useRetained ← flagOf plan.toNat
    pure (p, useRetained)
  | _ => .error .badRequest

/-- The echo context's part in OPEN (R79). -/
def EchoCtx.opened (c : EchoCtx) (retained : Bool) (mode : EchoMode) : EchoCtx :=
  let c1 := if retained then c else c.setCoeffs zeroCoeffs
  { c1.zeroCounters with state := if mode = .off then .off else .converging, erle := 0 }

/-- The noise context's part in OPEN (R98). -/
def NoiseCtx.opened (c : NoiseCtx) (retained : Bool) : NoiseCtx :=
  if retained then { c with state := .pause, learned := 16, hangover := 0, speechRun := 0, gain := 4096 } else c.clear

/-- The mix engine's part in OPEN (R41, R63).
DEDUCED: notes/assumptions/17.md. -/
def Mxe.opened (m : Mxe) (p : Fin 16) : Mxe :=
  { m with
    duck := m.duck.set p .powerOn
    window := m.window.set p .empty
    lastWindow := m.lastWindow.set p .empty
    earClips := m.earClips.set p 0
    lineClips := m.lineClips.set p 0 }

/-- The effect of OPEN (R3): `useRetained` is the plan. -/
def State.openPosition (s : State) (p : Fin 16) (useRetained : Bool) : State :=
  let retained := useRetained && (s.pos p).retained
  let s1 := s.modPos p (fun x =>
    { x with state := .opened, retained := false, band := .normal, mutedCount := 0, mutedIssued := false })
  let s2 := s1.modEcho p (fun c => c.opened retained (s.pos p).echo.mode)
  let s3 := s2.modNoise (noiseOfPosition p) (fun c => c.opened retained)
  { s3 with mxe := s3.mxe.opened p }

/-- The owner's checks of OPEN. -/
def serveOpen (s : State) (r : Request) : Reply :=
  s.withArgs (openArgs r.params) fun (p, useRetained) =>
    if (s.pos p).state = .closed then (s.openPosition p useRetained).okay (byteBool (useRetained && (s.pos p).retained))
    else s.refuse .badState

/-- OPEN, taken at a port. -/
def execOpen (port : Port) (s : State) : Result := .next (s.take port .openPosition serveOpen)

/-! ### CLOSE (R4, R5) -/

/-- The parameters of CLOSE: position; plan. -/
def closeArgs : List Byte → Except Status (Fin 16 × Plan)
  | [p, plan] => do
    let p ← positionOf p
    let plan ← planOf plan
    pure (p, plan)
  | _ => .error .badRequest

/-- The effect of a CLOSE taken in OPEN, in the order of R4. -/
def State.close (s : State) (p : Fin 16) (plan : Plan) : State :=
  let s1 := s.modPos p (fun x => { x with state := .closing, closePlan := some plan })
  let s2 := s1.endSessionsOn p .closed
  let s3 := (s2.flushQueue p .agent).flushQueue p .line
  let s4 := s3.modPos p (fun x => { x with call := .idle }.stopReminder)
  let s5 := s4.releaseLine p
  s5.modPos p (fun x => { x with band := .normal })

/-- The owner's checks of CLOSE: by the position's state. -/
def serveClose (s : State) (r : Request) : Reply :=
  s.withArgs (closeArgs r.params) fun (p, plan) =>
    match (s.pos p).state with
    | .closed => s.refuse .badState
    | .opened => (s.close p plan).okay []
    | .closing => (s.modPos p (fun x => { x with closePlan := some plan })).okay []

/-- CLOSE, taken at a port. -/
def execClose (port : Port) (s : State) : Result := .next (s.take port .close serveClose)

/-! ### SET_DESK (R9) -/

/-- The fields of SET_DESK, each none when left out. -/
structure DeskFields where
  mute : Option Bool
  earGain : Option Nat
  sidetone : Option Nat
  promptGain : Option Nat
  announceGain : Option Nat
  buttonMute : Option Bool

/-- The parameters of SET_DESK. -/
def deskArgs : List Byte → Except Status (Fin 16 × DeskFields)
  | p :: mask :: rest =>
    match maskedFields [1, 2, 2, 2, 2, 1] mask.toNat rest with
    | some [mute, ear, side, prompt, announce, button] => do
      let p ← positionOf p
      let mute ← flagOptOf mute
      let button ← flagOptOf button
      pure (p, { mute := mute, earGain := ear, sidetone := side, promptGain := prompt, announceGain := announce,
                 buttonMute := button })
    | _ => .error .badRequest
  | _ => .error .badRequest

/-- The desk settings after SET_DESK, clamped (R9). -/
def Position.setDesk (x : Position) (f : DeskFields) : Position :=
  { x.setMute (f.mute.getD x.mute) with
    earGain := (f.earGain.map gainCode).getD x.earGain
    sidetone := (f.sidetone.map (min 2048)).getD x.sidetone
    promptGain := (f.promptGain.map gainCode).getD x.promptGain
    announceGain := (f.announceGain.map gainCode).getD x.announceGain
    buttonMute := f.buttonMute.getD x.buttonMute }

/-- The six desk settings as response data.
DEDUCED: notes/assumptions/20.md. -/
def Position.deskBytes (x : Position) : List Byte :=
  byteBool x.mute ++ byte2 x.earGain ++ byte2 x.sidetone ++ byte2 x.promptGain ++ byte2 x.announceGain ++
    byteBool x.buttonMute

/-- The owner's checks of SET_DESK. -/
def serveSetDesk (s : State) (r : Request) : Reply :=
  s.withArgs (deskArgs r.params) fun (p, f) =>
    if (s.pos p).state = .closing then s.refuse .badState
    else (s.modPos p (fun x => x.setDesk f)).okay ((s.pos p).setDesk f).deskBytes

/-- SET_DESK, taken at a port. -/
def execSetDesk (port : Port) (s : State) : Result := .next (s.take port .setDesk serveSetDesk)

/-! ### SET_BATTERY (R10) -/

/-- The parameters of SET_BATTERY: position; low; critical. -/
def batteryArgs : List Byte → Except Status (Fin 16 × Nat × Nat)
  | [p, low, critical] => do
    let p ← positionOf p
    pure (p, low.toNat, critical.toNat)
  | _ => .error .badRequest

/-- The thresholds after SET_BATTERY (R10). -/
def Position.setBattery (x : Position) (low critical : Nat) : Position :=
  { x with batteryLow := clampNat 1 100 low, batteryCritical := min (clampNat 1 100 critical) (clampNat 1 100 low) }

/-- The owner's checks of SET_BATTERY. -/
def serveSetBattery (s : State) (r : Request) : Reply :=
  s.withArgs (batteryArgs r.params) fun (p, low, critical) =>
    if (s.pos p).state = .closing then s.refuse .badState
    else
      let x := (s.pos p).setBattery low critical
      (s.modPos p (fun x => x.setBattery low critical)).okay (byte1 x.batteryLow ++ byte1 x.batteryCritical)

/-- SET_BATTERY, taken at a port. -/
def execSetBattery (port : Port) (s : State) : Result := .next (s.take port .setBattery serveSetBattery)

/-! ### SET_SUPERVISION (R11) -/

/-- The parameters of SET_SUPERVISION: position; allowed. -/
def supervisionArgs : List Byte → Except Status (Fin 16 × Bool)
  | [p, allowed] => do
    let p ← positionOf p
    let allowed ← flagOf allowed.toNat
    pure (p, allowed)
  | _ => .error .badRequest

/-- The effect of SET_SUPERVISION: a change from yes to no revokes every session on the position (R11). -/
def State.setSupervision (s : State) (p : Fin 16) (allowed : Bool) : State :=
  let s1 := s.modPos p (fun x => { x with supervisionAllowed := allowed })
  if (s.pos p).supervisionAllowed && !allowed then s1.endSessionsOn p .revoked else s1

/-- The owner's checks of SET_SUPERVISION. -/
def serveSetSupervision (s : State) (r : Request) : Reply :=
  s.withArgs (supervisionArgs r.params) fun (p, allowed) =>
    if (s.pos p).state = .closing then s.refuse .badState else (s.setSupervision p allowed).okay []

/-- SET_SUPERVISION, taken at a port. -/
def execSetSupervision (port : Port) (s : State) : Result :=
  .next (s.take port .setSupervision serveSetSupervision)

/-! ### SET_CALL (R12, R13) -/

/-- The parameters of SET_CALL: position; state. -/
def callArgs : List Byte → Except Status (Fin 16 × CallState)
  | [p, c] => do
    let p ← positionOf p
    let c ← callOf c
    pure (p, c)
  | _ => .error .badRequest

/-- The reminder loaded and RUNNING on entering HOLD with an interval (R13). -/
def Position.startReminder (x : Position) : Position :=
  if x.reminderInterval = 0 then x else { x with reminderCounter := x.reminderInterval, reminderStatus := .running }

/-- The hold-source condition of a move into HOLD (R12). -/
def State.holdSourceGood (s : State) (p : Fin 16) : Bool :=
  match (s.pos p).holdSource with
  | none => true
  | some v => s.vce[v].inProgram

/-- The owner's checks of SET_CALL and its effect (R12, R13). -/
def State.setCall (s : State) (p : Fin 16) (c : CallState) : Reply :=
  let x := s.pos p
  if x.state = .opened ∧ x.line.isSome = true then
    match x.call, c with
    | .idle, .idle => s.okay []
    | .talk, .talk => s.okay []
    | .hold, .hold => s.okay []
    | .idle, .talk => (s.modPos p (fun x => { x with call := .talk })).okay []
    | .idle, .hold => s.refuse .badState
    | .talk, .hold =>
      if s.holdSourceGood p then (s.modPos p (fun x => { x with call := .hold }.startReminder)).okay []
      else s.refuse .badState
    | .hold, .talk => (s.modPos p (fun x => { x with call := .talk }.stopReminder)).okay []
    | .talk, .idle => ((s.modPos p (fun x => { x with call := .idle })).idleEffects p).okay []
    | .hold, .idle => ((s.modPos p (fun x => { x with call := .idle }.stopReminder)).idleEffects p).okay []
  else s.refuse .badState

/-- SET_CALL served. -/
def serveSetCall (s : State) (r : Request) : Reply :=
  s.withArgs (callArgs r.params) fun (p, c) => s.setCall p c

/-- SET_CALL, taken at a port. -/
def execSetCall (port : Port) (s : State) : Result := .next (s.take port .setCall serveSetCall)

/-! ### SET_REMINDER, ACK_REMINDER (R20, R22) -/

/-- The parameters of SET_REMINDER: position; seconds; repeat. -/
def reminderArgs : List Byte → Except Status (Fin 16 × Nat × Bool)
  | [p, s0, s1, again] => do
    let p ← positionOf p
    let again ← flagOf again.toNat
    pure (p, leNat [s0, s1], again)
  | _ => .error .badRequest

/-- The interval in frames for a seconds value (R20). -/
def reminderFrames (seconds : Nat) : Nat := if seconds = 0 then 0 else clampNat 10 600 seconds * 250

/-- The reminder fields after SET_REMINDER (R20). -/
def Position.setReminder (x : Position) (seconds : Nat) (again : Bool) : Position :=
  let n := reminderFrames seconds
  let y := { x with reminderInterval := n, reminderRepeat := again }
  if seconds = 0 then { y with reminderCounter := 0, reminderStatus := .stopped }
  else
    match x.reminderStatus with
    | .running => y
    | _ => { y with reminderCounter := n, reminderStatus := if x.call = .hold then .running else x.reminderStatus }

/-- The owner's checks of SET_REMINDER. -/
def serveSetReminder (s : State) (r : Request) : Reply :=
  s.withArgs (reminderArgs r.params) fun (p, seconds, again) =>
    if (s.pos p).state = .closing then s.refuse .badState
    else (s.modPos p (fun x => x.setReminder seconds again)).okay (byte4 (reminderFrames seconds))

/-- SET_REMINDER, taken at a port. -/
def execSetReminder (port : Port) (s : State) : Result := .next (s.take port .setReminder serveSetReminder)

/-- The parameters of a request that names a position alone. -/
def positionArg : List Byte → Except Status (Fin 16)
  | [p] => positionOf p
  | _ => .error .badRequest

/-- The owner's checks of ACK_REMINDER. -/
def serveAckReminder (s : State) (r : Request) : Reply :=
  s.withArgs (positionArg r.params) fun p =>
    let x := s.pos p
    if x.state = .opened ∧ x.call = .hold ∧ x.reminderInterval ≠ 0 then
      (s.modPos p (fun x => { x with reminderCounter := x.reminderInterval, reminderStatus := .running })).okay []
    else s.refuse .badState

/-- ACK_REMINDER, taken at a port. -/
def execAckReminder (port : Port) (s : State) : Result := .next (s.take port .ackReminder serveAckReminder)

/-! ### READ_POSITION (R24) -/

/-- The echo settings as response data (R65, R187). -/
def EchoSettings.bytes (e : EchoSettings) : List Byte :=
  byte1 e.mode.code ++ byte1 e.muConv ++ byte1 e.muTrack ++ byte2 e.bulkDelay ++ byte4 e.delta ++ byte1 e.talkCode ++
    byte2 e.hangover

/-- The noise settings as response data (R85, R187). -/
def NoiseSettings.bytes (n : NoiseSettings) : List Byte := byteBool n.enable ++ byte2 n.floor

/-- The record as READ_POSITION carries it, in the order of R24.
DEDUCED: notes/assumptions/20.md. -/
def Position.bytes (x : Position) : List Byte :=
  byte1 x.state.code ++ byteOpt 1 (x.closePlan.map Plan.code) ++ byteBool x.retained ++ byteSlots x.line ++
    byte1 x.call.code ++ byteOpt 1 (x.holdSource.map (fun v => v.val)) ++ byte2 x.holdGain ++
    byteBool x.supervisionAllowed ++ x.deskBytes ++ x.echo.bytes ++ x.noise.bytes ++
    byte1 x.batteryLow ++ byte1 x.batteryCritical ++ byte1 x.band.code ++
    byteBool x.present ++ byteBool x.button ++ byte1 x.batteryLevel ++
    byte4 x.reminderInterval ++ byteBool x.reminderRepeat ++ byte4 x.reminderCounter ++ byte1 x.reminderStatus.code ++
    byte2 x.mutedCount ++ byteBool x.mutedIssued

/-- READ_POSITION served. -/
def serveReadPosition (s : State) (r : Request) : Reply :=
  s.withArgs (positionArg r.params) fun p => s.okay (s.pos p).bytes

/-- READ_POSITION, taken at a port. -/
def execReadPosition (port : Port) (s : State) : Result := .next (s.take port .readPosition serveReadPosition)

end Sys2Proof.Machine
end

