-- ==== Sys2Proof/Machine/AudioRequests.lean ====
section
/-!
DEFINITION. The requests of the echo canceller and of the noise reducer: SET_EC, READ_COEFFS, SET_NR, SET_SUP_NR
(R65, R66, R81, R85, R86).
-/

namespace Sys2Proof.Machine

/-! ### SET_EC (R65, R66) -/

/-- The fields of SET_EC, each none when left out. -/
structure EchoFields where
  mode : Option EchoMode
  muConv : Option Nat
  muTrack : Option Nat
  bulkDelay : Option Nat
  delta : Option Nat
  talkCode : Option Nat
  hangover : Option Nat

/-- The parameters of SET_EC. -/
def echoArgs : List Byte → Except Status (Fin 16 × EchoFields)
  | p :: mask :: rest =>
    match maskedFields [1, 1, 1, 2, 4, 1, 2] mask.toNat rest with
    | some [mode, conv, track, bulk, delta, talk, hang] => do
      let p ← positionOf p
      let mode ← echoModeOptOf mode
      pure (p, { mode := mode, muConv := conv, muTrack := track, bulkDelay := bulk, delta := delta, talkCode := talk,
                 hangover := hang })
    | _ => .error .badRequest
  | _ => .error .badRequest

/-- The echo settings after SET_EC, clamped into the ranges of R65. -/
def EchoSettings.update (e : EchoSettings) (f : EchoFields) : EchoSettings :=
  { mode := f.mode.getD e.mode
    muConv := (f.muConv.map (clampNat 0 255)).getD e.muConv
    muTrack := (f.muTrack.map (clampNat 0 255)).getD e.muTrack
    bulkDelay := (f.bulkDelay.map (clampNat 0 255)).getD e.bulkDelay
    delta := (f.delta.map (clampNat 1024 16777215)).getD e.delta
    talkCode := (f.talkCode.map (clampNat 1 16)).getD e.talkCode
    hangover := (f.hangover.map (clampNat 0 4095)).getD e.hangover }

/-- The three frame counters at 0. -/
def EchoCtx.zeroFrameCounters (c : EchoCtx) : EchoCtx := { c with good := 0, poor := 0, diverge := 0 }

/-- Steps 1 to 3 of R66: the effects of a mode change. -/
def EchoCtx.changeMode (c : EchoCtx) (old new : EchoMode) : EchoCtx :=
  match old, new with
  | .off, .off => c
  | .off, .adapt => { c.zeroCounters with state := .converging }
  | .off, .freeze => { c.zeroCounters with state := .converging }
  | .adapt, .off => { c.zeroFrameCounters with state := .off }
  | .freeze, .off => { c.zeroFrameCounters with state := .off }
  | .adapt, .adapt => c
  | .adapt, .freeze => c
  | .freeze, .adapt => c
  | .freeze, .freeze => c

/-- Step 4 of R66: a changed bulk delay zeroes the coefficients and counters. -/
def EchoCtx.changeDelay (c : EchoCtx) (old new : EchoSettings) : EchoCtx :=
  if old.bulkDelay = new.bulkDelay then c
  else { (c.setCoeffs zeroCoeffs).zeroCounters with state := if new.mode = .off then .off else .converging }

/-- The effects of a SET_EC on the context of an OPEN position, in the order of R66. -/
def EchoCtx.applySettings (c : EchoCtx) (old new : EchoSettings) : EchoCtx :=
  let c1 := (c.changeMode old.mode new.mode).changeDelay old new
  { c1 with hangover := min c1.hangover new.hangover }

/-- The effect of SET_EC (R65, R66). -/
def State.setEc (s : State) (p : Fin 16) (f : EchoFields) : State :=
  let old := (s.pos p).echo
  let s1 := s.modPos p (fun x => { x with echo := x.echo.update f })
  if (s.pos p).state = .opened then s1.modEcho p (fun c => c.applySettings old (old.update f)) else s1

/-- The owner's checks of SET_EC. -/
def serveSetEc (s : State) (r : Request) : Reply :=
  s.withArgs (echoArgs r.params) fun (p, f) =>
    if (s.pos p).state = .closing then s.refuse .badState else (s.setEc p f).okay ((s.pos p).echo.update f).bytes

/-- SET_EC, taken at a port. -/
def execSetEc (port : Port) (s : State) : Result := .next (s.take port .setEc serveSetEc)

/-! ### READ_COEFFS (R81, R82) -/

/-- The parameters of READ_COEFFS: position; chunk; expected generation. -/
def coeffArgs : List Byte → Except Status (Fin 16 × Nat × Nat)
  | [p, chunk, g0, g1] => do
    let p ← positionOf p
    pure (p, chunk.toNat, leNat [g0, g1])
  | _ => .error .badRequest

/-- A chunk of 32 coefficients in tap order, then the generation (R81). -/
def EchoCtx.chunkBytes (c : EchoCtx) (chunk : Nat) : List Byte :=
  ((c.coeffs.drop (32 * chunk)).take 32).flatMap byteInt16 ++ byte2 c.generation.toNat

/-- The owner's check of READ_COEFFS and its status (R81). -/
def serveReadCoeffs (s : State) (r : Request) : Reply :=
  s.withArgs (coeffArgs r.params) fun (p, chunk, expected) =>
    if 3 < chunk then s.refuse .outOfRange
    else
      { state := s
        status := if chunk = 0 ∨ expected = s.ecu[p].generation.toNat then .ok else .changed
        data := s.ecu[p].chunkBytes chunk }

/-- READ_COEFFS, taken at a port. -/
def execReadCoeffs (port : Port) (s : State) : Result := .next (s.take port .readCoeffs serveReadCoeffs)

/-! ### SET_NR, SET_SUP_NR (R85, R86) -/

/-- The masked fields of the two noise requests: enable, floor. -/
def noiseFields (mask : Byte) (rest : List Byte) : Except Status (Option Nat × Option Nat) :=
  match maskedFields [1, 2] mask.toNat rest with
  | some [enable, floor] => .ok (enable, floor)
  | _ => .error .badRequest

/-- The noise settings after a request, the floor clamped (R85). -/
def NoiseSettings.update (n : NoiseSettings) (enable : Option Bool) (floor : Option Nat) : NoiseSettings :=
  { enable := enable.getD n.enable, floor := (floor.map (min 4096)).getD n.floor }

/-- The parameters of SET_NR: position; mask; enable, floor. -/
def nrArgs : List Byte → Except Status (Fin 16 × Option Bool × Option Nat)
  | p :: mask :: rest => do
    let (enable, floor) ← noiseFields mask rest
    let p ← positionOf p
    let enable ← flagOptOf enable
    pure (p, enable, floor)
  | _ => .error .badRequest

/-- The owner's checks of SET_NR. -/
def serveSetNr (s : State) (r : Request) : Reply :=
  s.withArgs (nrArgs r.params) fun (p, enable, floor) =>
    if (s.pos p).state = .closing then s.refuse .badState
    else (s.modPos p (fun x => { x with noise := x.noise.update enable floor })).okay
      ((s.pos p).noise.update enable floor).bytes

/-- SET_NR, taken at a port. -/
def execSetNr (port : Port) (s : State) : Result := .next (s.take port .setNr serveSetNr)

/-- The parameters of SET_SUP_NR: channel; mask; enable, floor. -/
def supNrArgs : List Byte → Except Status (Fin 4 × Option Bool × Option Nat)
  | c :: mask :: rest => do
    let (enable, floor) ← noiseFields mask rest
    let c ← channelOf c
    let enable ← flagOptOf enable
    pure (c, enable, floor)
  | _ => .error .badRequest

/-- SET_SUP_NR served: in every state of the channel (R86). -/
def serveSetSupNr (s : State) (r : Request) : Reply :=
  s.withArgs (supNrArgs r.params) fun (c, enable, floor) =>
    let x := s.nru.supSettings[c].update enable floor
    ({ s with nru := { s.nru with supSettings := s.nru.supSettings.set c x } }).okay x.bytes

/-- SET_SUP_NR, taken at a port. -/
def execSetSupNr (port : Port) (s : State) : Result := .next (s.take port .setSupNr serveSetSupNr)

end Sys2Proof.Machine
end

