-- ==== Sys2Proof/Machine/Echo.lean ====
section
/-!
DEFINITION. The work of an echo context at a frame event (R67 to R78).
-/

namespace Sys2Proof.Machine

/-- What a context carries from one microphone sample to the next, and the frame's sums (R68, R74). -/
structure EchoLoop where
  coeffs : List Int
  history : List Sample
  hangover : Nat
  /-- The output samples so far, newest first. -/
  outRev : List Sample
  /-- The microphone energy Sd so far. -/
  mic : Int
  /-- The error energy Se so far. -/
  err : Int
  /-- The reference energy P of the last sample. -/
  power : Int
  deriving DecidableEq, Repr

/-- What the supervision of a frame found (R75, R76). -/
inductive EchoEvent where
  | none
  | diverged
  | converged
  | lost
  deriving DecidableEq, Repr

/-- The filter inputs x[n−k], k = 0 to 127: the history held back by the bulk delay (R68). -/
def filterInput (history : List Sample) (bulkDelay : Nat) : List Sample := (history.drop bulkDelay).take 128

/-- The sum of products of two lists. -/
def dot (a b : List Int) : Int := (List.zipWith (fun x y => x * y) a b).sum

/-- A reference sample taken into the history, newest first (R68). -/
def pushHistory (history : List Sample) (r : Sample) : List Sample := (r :: history).take 383

/-- The step factor f (R73). -/
def stepFactor (mu : Nat) (e power : Int) (delta : Nat) : Int :=
  clampInt (-16777216) 16777216 (Int.tdiv ((mu : Int) * e * 4194304) (power + (delta : Int)))

/-- One coefficient moved by a learning sample (R73). -/
def moveCoeff (f : Int) (w x : Int) : Int := clampInt (-32768) 32767 (w + round15 (f * x))

/-- The step μ of a learning context: that of its state; none in OFF (R72). -/
def learnStep (set : EchoSettings) : EchoState → Option Nat
  | .off => none
  | .converging => some set.muConv
  | .tracking => some set.muTrack

/-- The echo estimate ŷ of a sample (R70). -/
def echoEstimate (coeffs x : List Int) : Sample := clampSample (round15 (dot coeffs x))

/-- Near-end speech at a sample (R71): |d| × 16 ≥ M × G. -/
def nearEnd (set : EchoSettings) (d : Sample) (x : List Sample) : Bool := decide (peak x * set.talkCode ≤ d.natAbs * 16)

/-- The hangover counter after a sample (R71). -/
def hangoverAfter (set : EchoSettings) (near : Bool) (hangover : Nat) : Nat :=
  if near then set.hangover else hangover - 1

/-- The work of one sample in FREEZE or ADAPT (R70 to R73): the reference taken, the filter, the double-talk
detector, and in ADAPT the learning. -/
def echoSample (set : EchoSettings) (state : EchoState) (l : EchoLoop) (d r : Sample) : EchoLoop :=
  let history := pushHistory l.history r
  let x := filterInput history set.bulkDelay
  let e := clampSample (d - echoEstimate l.coeffs x)
  let power := energy x
  let hangover := hangoverAfter set (nearEnd set d x) l.hangover
  let coeffs :=
    match set.mode, learnStep set state with
    | .adapt, some mu =>
      if hangover = 0 ∧ (set.delta : Int) ≤ power then
        List.zipWith (moveCoeff (stepFactor mu e power set.delta)) l.coeffs x
      else l.coeffs
    | _, _ => l.coeffs
  { coeffs := coeffs, history := history, hangover := hangover, outRev := e :: l.outRev,
    mic := l.mic + d * d, err := l.err + e * e, power := power }

/-- The 64 samples of a frame, microphone sample beside reference sample, in sample order. -/
def echoSamples (set : EchoSettings) (state : EchoState) (l : EchoLoop) (mic reference : Frame) : EchoLoop :=
  (List.zip mic reference).foldl (fun l dr => echoSample set state l dr.1 dr.2) l

/-- The reference frame taken into the history without filtering (R67, R69). -/
def pushFrame (history : List Sample) (reference : Frame) : List Sample := reference.foldl pushHistory history

/-- The ERLE index of a frame (R77): the largest k from 0 to 15 with Se × 2^k ≤ Sd, 0 when inactive, when Sd is 0
or when Se is above Sd. -/
def erleIndex (active : Bool) (mic err : Int) : Nat :=
  if active && decide (0 < mic) && decide (err ≤ mic) then
    ((List.range 16).filter (fun k => decide (err * 2 ^ k ≤ mic))).foldl max 0
  else 0

/-- The frame counters and state of a context as the supervision moves them. -/
structure EchoCounts where
  state : EchoState
  good : Nat
  poor : Nat
  diverge : Nat
  event : EchoEvent
  deriving DecidableEq, Repr

/-- Supervision of an active ADAPT frame (R74 to R76): the counters, then the divergence test, then the moves
between CONVERGING and TRACKING. -/
def supervise (state : EchoState) (good poor diverge : Nat) (mic err : Int) : EchoCounts :=
  let diverge1 := if state ≠ .off ∧ 2 * mic < err then diverge + 1 else 0
  let good1 := if state = .converging ∧ err * 16 ≤ mic then good + 1 else 0
  let poor1 := if state = .tracking ∧ mic < err * 2 then poor + 1 else 0
  if 8 ≤ diverge1 then { state := .converging, good := 0, poor := 0, diverge := 0, event := .diverged }
  else if 32 ≤ good1 then { state := .tracking, good := 0, poor := 0, diverge := diverge1, event := .converged }
  else if 8 ≤ poor1 then { state := .converging, good := 0, poor := 0, diverge := diverge1, event := .lost }
  else { state := state, good := good1, poor := poor1, diverge := diverge1, event := .none }

/-- A frame that is not filtered (the first four rows of R69): the reference is taken into the history, the output
is the microphone frame or zeros, the ERLE index is 0. -/
def echoPass (c : EchoCtx) (out : Frame) (live : Bool) (reference : Frame) : EchoCtx :=
  { c with history := pushFrame c.history reference, erle := 0,
           out := { samples := out, live := live, state := c.state } }

/-- A filtered frame (the last two rows of R69) with its supervision, generation count and ERLE index. -/
def echoFilter (set : EchoSettings) (c : EchoCtx) (mic reference : Frame) : EchoCtx × EchoEvent :=
  let l := echoSamples set c.state
    { coeffs := c.coeffs, history := c.history, hangover := c.hangover, outRev := [], mic := 0, err := 0, power := 0 }
    mic reference
  let active := decide ((set.delta : Int) ≤ l.power)
  let k : EchoCounts :=
    if set.mode = .adapt ∧ active = true then supervise c.state c.good c.poor c.diverge l.mic l.err
    else { state := c.state, good := c.good, poor := c.poor, diverge := c.diverge, event := .none }
  let coeffs := if k.event = .diverged then zeroCoeffs else l.coeffs
  ({ c.setCoeffs coeffs with
      history := l.history, hangover := l.hangover, state := k.state, good := k.good, poor := k.poor,
      diverge := k.diverge, erle := erleIndex active l.mic l.err,
      out := { samples := l.outRev.reverse, live := true, state := k.state } },
   k.event)

/-- The work of a context for one frame by R69's table: position state, headset, mode. -/
def echoWork (state : PosState) (present : Bool) (set : EchoSettings) (c : EchoCtx) (mic reference : Frame) :
    EchoCtx × EchoEvent :=
  match state, present, set.mode with
  | .opened, true, .off => (echoPass c mic true reference, .none)
  | .opened, true, _ => echoFilter set c mic reference
  | _, _, _ => (echoPass c zeroFrame false reference, .none)

/-- The work of echo context `p` at the current frame event, with its event. -/
def State.echoResult (s : State) (p : Fin 16) : EchoCtx × EchoEvent :=
  echoWork (s.pos p).state s.taken.present[p] (s.pos p).echo s.ecu[p] s.taken.mic[p] s.taken.reference[p]

/-- The piece of frame work of echo context `p` (R69); a divergence is reported to the Desk port with the
generation after the frame (R75). -/
def State.runEcho (s : State) (p : Fin 16) : State :=
  let r := s.echoResult p
  let s1 := s.modEcho p (fun _ => r.1)
  if r.2 = .diverged then s1.report .desk (.ecDiverged p r.1.generation) else s1

end Sys2Proof.Machine
end

