-- ==== Sys2Proof/Machine/Mix.lean ====
section
/-!
DEFINITION. The work of the mix engine at a frame event: duck factors, routes, mix sums and meter windows
(R42 to R63).
-/

namespace Sys2Proof.Machine

/-! ### Terms (R49, R52, R53) -/

/-- What a term gives to one frame: its source frame, the ramp it uses, and the record it leaves. -/
structure TermUse where
  frame : Frame
  start : Nat
  target : Nat
  cut : Bool
  record : Term
  deriving DecidableEq, Repr

/-- The gain that a term uses at sample `j`: 0 throughout when it is cut (R53), else the ramp of R52. -/
def TermUse.gainAt (u : TermUse) (j : Nat) : Int := if u.cut then 0 else rampGain u.start u.target j

/-- A term with a present source moves to its target, or is cut (R52, R53). -/
def useTerm (source : Option Src) (frame : Frame) (start target : Nat) (cut : Bool) : TermUse :=
  { frame := frame, start := start, target := target, cut := cut,
    record := { gain := if cut then 0 else target, source := source } }

/-- The term of a role whose source never changes: the far party or the microphone (R46 to R48). -/
def fixedTerm (t : Term) (frame : Frame) (target : Nat) (cut : Bool) : TermUse := useTerm none frame t.gain target cut

/-- An absent term. -/
def noTerm : TermUse := { frame := zeroFrame, start := 0, target := 0, cut := false, record := .absent }

/-- The term of a role that names a voice or a channel (R49): an unchanged source moves from the applied gain, a
newly named one from 0, and a source no longer named ramps out, or is cut, and leaves the term absent.  A channel whose
session ended and was joined anew on the position since the derivation before is an unchanged source.
DESIGN CHOICE: notes/assumptions/36.md. -/
def namedTerm (frameOf : Src → Frame) (t : Term) (named : Option Src) (target : Nat) (cut departCut : Bool) : TermUse :=
  match named with
  | some x => useTerm (some x) (frameOf x) (if t.source = some x then t.gain else 0) target cut
  | none =>
    match t.source with
    | none => noTerm
    | some x => { frame := frameOf x, start := t.gain, target := 0, cut := departCut, record := .absent }

/-- The accumulator of a destination at sample `j` (R57). -/
def mixAcc (terms : List TermUse) (j : Nat) : Int := (terms.map (fun u => u.frame.getD j 0 * u.gainAt j)).sum

/-- The produced frame of a destination (R57). -/
def mixFrame (terms : List TermUse) : Frame := (List.range frameSize).map (fun j => clampSample (round12 (mixAcc terms j)))

/-- The output samples that needed clamping (R58). -/
def mixClips (terms : List TermUse) : Nat :=
  ((List.range frameSize).filter (fun j =>
    decide (clampSample (round12 (mixAcc terms j)) ≠ round12 (mixAcc terms j)))).length

/-! ### Sources (R42, R43) -/

/-- The frame that voice `v` produced at the frame event before, when it carries the expected use, else zeros (R43).  For a
role that has lost its voice the label alone decides, whatever the voice has been started for since.
DESIGN CHOICE: notes/assumptions/41.md. -/
def State.voiceSource (s : State) (v : Fin 12) (use : VoiceUse) : Frame :=
  if s.taken.voice[v].use = use then s.taken.voice[v].samples else zeroFrame

/-- TALK(c): the output frame of noise context 16 + c. -/
def State.talkSource (s : State) (c : Fin 4) : Frame := s.taken.noise[noiseOfChannel c].samples

/-- MIC(p): the output frame of noise context p. -/
def State.micSource (s : State) (p : Fin 16) : Frame := s.taken.noise[noiseOfPosition p].samples

/-- The frame of a source in a role that names `named` and expects a voice of the given use (R42, R43).  A named voice that
is PRIMING gives zeros: its output frame may still be that of the entry or programme before (R43, R51, R131).
DEDUCED: notes/assumptions/34.md. -/
def State.sourceFrame (s : State) (use : VoiceUse) (named : Option Src) : Src → Frame
  | .voice v => if named = some (.voice v) ∧ s.vce[v].state = .priming then zeroFrame else s.voiceSource v use
  | .channel c => s.talkSource c

/-- The term of a role that names `named`, a voice of the given use or a channel (R43, R49). -/
def State.roleTerm (s : State) (use : VoiceUse) (t : Term) (named : Option Src) (target : Nat) (cut departCut : Bool) :
    TermUse :=
  namedTerm (s.sourceFrame use named) t named target cut departCut

/-! ### The duck factor (R54 to R56) -/

/-- The mix engine finds channel `c` in SPEECH (R54): by the flag of the frame its noise context completed before (R96), but
never from a binding until learning completes (R35, R115).
DEDUCED: notes/assumptions/38.md. -/
def State.foundInSpeech (s : State) (c : Fin 4) : Bool :=
  s.taken.noise[noiseOfChannel c].speech && !s.nru.contexts[noiseOfChannel c].relearning

/-- The channel of a WHISPER session on `p` that is found in SPEECH (R54). -/
def State.whisperer (s : State) (p : Fin 16) : Option (Fin 4) :=
  allChannels.find? (fun c => s.sessionOn p c && s.sst[c].mode == .whisper && s.foundInSpeech c)

/-- A ducking AGENT prompt plays at `p` (R54). -/
def State.duckingPrompt (s : State) (p : Fin 16) : Bool :=
  match s.queue p .agent with
  | [] => false
  | e :: _ => e.voice.isSome && e.duck

/-- The duck level and release length in force while the gate is open; none while it is closed (R54, R55). -/
def State.duckGate (s : State) (p : Fin 16) : Option (Nat × Nat) :=
  match s.whisperer p with
  | some c => some (s.sst[c].duckLevel, s.sst[c].release)
  | none => if s.duckingPrompt p then some (1024, 50) else none

/-- The step of a release (R56): ceil((4096 − L) / R), and 1 when that is 0. -/
def duckStep (level release : Nat) : Nat := max 1 ((4096 - level + (release - 1)) / release)

/-- The duck factor and recorded values after a frame event (R55, R56). -/
def Duck.next (d : Duck) (gate : Option (Nat × Nat)) : Duck :=
  match gate with
  | some (level, release) => { factor := min d.factor level, level := level, release := release }
  | none => { d with factor := min 4096 (d.factor + duckStep d.level d.release) }

/-! ### Derivation (R46 to R48) -/

/-- The terms of EAR(p) (R46), with the duck factor `d` after its update. -/
def State.earUses (s : State) (p : Fin 16) (d : Nat) : List TermUse :=
  let t := s.mxe.earTerms[p]
  let x := s.pos p
  let talker := s.talker p
  let talkGain : Nat := match talker with
    | some c => s.sst[c].talkGain
    | none => 0
  [ fixedTerm t.far s.taken.far[p] (if x.call = .talk then x.earGain * d / 4096 else 0) false,
    s.roleTerm (.prompt p .agent) t.agentPrompt ((s.headVoice p .agent).map .voice) x.promptGain false false,
    s.roleTerm (.prompt p .line) t.linePrompt ((s.headVoice p .line).map .voice) x.announceGain false false,
    s.roleTerm .none t.talk (talker.map .channel) talkGain false false ]

/-- The terms of LINE(p) (R47). -/
def State.lineUses (s : State) (p : Fin 16) : List TermUse :=
  let t := s.mxe.lineTerms[p]
  let x := s.pos p
  let talker := s.talker p
  let talkGain : Nat := match talker with
    | some c => s.sst[c].talkGain
    | none => 0
  let barge := talker.any (fun c => s.sst[c].mode == .barge)
  let announcing := (s.headVoice p .line).isSome
  [ fixedTerm t.mic (s.micSource p) 4096 (!(x.call == .talk && !x.mute)),
    s.roleTerm .none t.talk (talker.map .channel) talkGain (!(barge && x.call == .talk))
      (x.call != .talk),
    s.roleTerm (.prompt p .line) t.linePrompt ((s.headVoice p .line).map .voice) 4096 false false,
    s.roleTerm .program t.hold (x.holdSource.map .voice)
      (if x.call = .hold ∧ announcing = false then x.holdGain else 0) false false ]

/-- The terms of SUPOUT(c) for the session's target position (R48). -/
def State.supUses (s : State) (c : Fin 4) (p : Fin 16) : List TermUse :=
  let t := s.mxe.supTerms[c]
  let x := s.pos p
  let talker := s.talker p
  let other := allChannels.find? (fun k => k != c && s.talkingOn p k)
  let otherGain : Nat := match other with
    | some k => s.sst[k].talkGain
    | none => 0
  [ fixedTerm t.far s.taken.far[p] (if x.call = .talk then 4096 else 0) false,
    fixedTerm t.mic (s.micSource p) 4096 (!(!x.mute && (x.call == .talk || talker.isSome))),
    s.roleTerm (.prompt p .line) t.linePrompt ((s.headVoice p .line).map .voice) 4096 false false,
    s.roleTerm .none t.other (other.map .channel) otherGain false false ]

/-- The record that role `i` of a destination leaves. -/
def recordAt (uses : List TermUse) (i : Nat) : Term :=
  match uses[i]? with
  | some u => u.record
  | none => .absent

/-- The term records that EAR(p) leaves. -/
def earRecords (uses : List TermUse) : EarTerms :=
  { far := recordAt uses 0, agentPrompt := recordAt uses 1, linePrompt := recordAt uses 2, talk := recordAt uses 3 }

/-- The term records that LINE(p) leaves. -/
def lineRecords (uses : List TermUse) : LineTerms :=
  { mic := recordAt uses 0, talk := recordAt uses 1, linePrompt := recordAt uses 2, hold := recordAt uses 3 }

/-- The term records that SUPOUT(c) leaves. -/
def supRecords (uses : List TermUse) : SupTerms :=
  { far := recordAt uses 0, mic := recordAt uses 1, linePrompt := recordAt uses 2, other := recordAt uses 3 }

/-- The target position of SUPOUT(c) while it exists: the channel is bound and its session is not IDLE (R44). -/
def State.supTarget (s : State) (c : Fin 4) : Option (Fin 16) :=
  if s.hwi.channels[c].isSome ∧ s.sst[c].mode ≠ .idle then s.sst[c].target else none

/-! ### Production (R57, R58, R62) -/

/-- What a meter window takes in of one frame event (R62). -/
def MeterWindow.measure (w : MeterWindow) (far mic line ear : Frame) (earClips lineClips supClips erle noiseGain : Nat)
    (echo : EchoState) : MeterWindow :=
  { frames := w.frames + 1
    farPeak := max w.farPeak (peak far)
    micPeak := max w.micPeak (peak mic)
    linePeak := max w.linePeak (peak line)
    earPeak := max w.earPeak (peak ear)
    earClips := earClips
    lineClips := lineClips
    supClips := min 1024 (w.supClips + supClips)
    erle := erle
    noiseGain := noiseGain
    echoState := echo }

/-- The mix engine's part for EAR(p) and LINE(p) at one frame event, derived from `view`.
DEDUCED: notes/assumptions/18.md. -/
def mixPosition (view : State) (m : Mxe) (p : Fin 16) : Mxe :=
  let d := view.mxe.duck[p].next (view.duckGate p)
  let ear := view.earUses p d.factor
  let m1 := { m with
    duck := m.duck.set p d
    earTerms := m.earTerms.set p (earRecords ear)
    earClips := m.earClips.set p (view.mxe.earClips[p] + mixClips ear)
    ear := m.ear.set p (mixFrame ear) }
  if (view.pos p).line.isSome then
    let line := view.lineUses p
    { m1 with
      lineTerms := m1.lineTerms.set p (lineRecords line)
      lineClips := m1.lineClips.set p (view.mxe.lineClips[p] + mixClips line)
      line := m1.line.set p (mixFrame line) }
  else { m1 with lineTerms := m1.lineTerms.set p .absent, line := m1.line.set p zeroFrame }

/-- The mix engine's part for SUPOUT(c) at one frame event, derived from `view`. -/
def mixChannel (view : State) (m : Mxe) (c : Fin 4) : Mxe :=
  match view.supTarget c with
  | some p =>
    let uses := view.supUses c p
    { m with supTerms := m.supTerms.set c (supRecords uses), sup := m.sup.set c (mixFrame uses) }
  | none => { m with supTerms := m.supTerms.set c .absent, sup := m.sup.set c zeroFrame }

/-- The clipped samples of the SUPOUT destinations whose session targets `p` (R58, R62). -/
def State.supClipsOn (s : State) (p : Fin 16) : Nat :=
  (allChannels.map (fun c =>
    match s.supTarget c with
    | some q => if q = p then mixClips (s.supUses c q) else 0
    | none => 0)).sum

/-- The measurement of position `p` into its window in progress (R62): `m` holds the frames just produced. -/
def measurePosition (view : State) (m : Mxe) (p : Fin 16) : Mxe :=
  { m with
    window := m.window.set p
      (m.window[p].measure view.taken.far[p] (view.micSource p) m.line[p] m.ear[p] m.earClips[p] m.lineClips[p]
        (view.supClipsOn p) view.taken.erle[p] view.taken.noise[noiseOfPosition p].gain view.taken.echo[p].state) }

/-- The mix engine's work at a frame event (R45): every destination derived from one view of the records, then
measured. -/
def State.runMix (s : State) : State :=
  let m1 := allPositions.foldl (mixPosition s) s.mxe
  let m2 := allChannels.foldl (mixChannel s) m1
  { s with mxe := allPositions.foldl (measurePosition s) m2 }

/-- The meter windows close at the frame event whose frame count is a multiple of 16: the window in progress becomes
the last completed one, a new window begins and the window clip counts restart at 0 (R61). -/
def State.closeWindows (s : State) : State :=
  { s with mxe := { s.mxe with
      lastWindow := s.mxe.window
      window := Vector.replicate 16 .empty
      earClips := Vector.replicate 16 0
      lineClips := Vector.replicate 16 0 } }

/-- A frame event at which windows close (R61). -/
def State.windowDue (s : State) : Bool := s.ftu.frameCount.toNat % 16 == 0

/-- The piece of frame work that closes the windows when their frame count has come (R61). -/
def State.runMeterClose (s : State) : State := if s.windowDue then s.closeWindows else s

end Sys2Proof.Machine
end

