-- ==== Sys2Proof/Machine/Noise.lean ====
section
/-!
DEFINITION. The work of a noise context at a frame event (R87 to R97).
-/

namespace Sys2Proof.Machine

/-- What the work of a noise frame found (R90, R91, R93). -/
inductive NoiseEvent where
  | none
  | learned
  | hangoverEnd
  | restarted
  deriving DecidableEq, Repr

/-- The frame energy E (R89): floor(S / 64). -/
def frameEnergy (f : Frame) : Nat := (energy f / 64).toNat

/-- The noise estimate after a live frame in LEARN (R90). -/
def learnEstimate (n j e : Nat) : Nat := max 1 ((n * j + e) / (j + 1))

/-- The noise estimate after a live non-speech frame found in PAUSE (R92). -/
def trackEstimate (n e : Nat) : Nat := if e < n then n - (n - e) / 4 else min e (n + n / 64 + 1)

/-- A frame is a speech frame when E ≥ 4 × N (R91). -/
def speechFrame (n e : Nat) : Bool := decide (4 * n ≤ e)

/-- The moves of a frame worked in LEARN (R90); the frame that completes learning ends what a binding began (R35). -/
def learnMove (c : NoiseCtx) (live : Bool) (e : Nat) : NoiseCtx :=
  if live then
    let c1 := { c with estimate := learnEstimate c.estimate c.learned e, learned := c.learned + 1 }
    if c1.learned = 16 then { c1 with state := .pause, hangover := 0, speechRun := 0, relearning := false }
    else c1
  else c

/-- The state and hangover after a frame classed in PAUSE or SPEECH (R91). -/
def speechMove (c : NoiseCtx) (speech : Bool) : NoiseCtx :=
  if speech then { c with state := .speech, hangover := 12 }
  else if c.state = .speech then
    if 1 < c.hangover then { c with hangover := c.hangover - 1 } else { c with state := .pause, hangover := 0 }
  else c

/-- The estimate after a classed frame (R92): updated by a live non-speech frame that found the context in PAUSE. -/
def estimateMove (before after : NoiseCtx) (live speech : Bool) (e : Nat) : NoiseCtx :=
  if before.state = .pause ∧ live = true ∧ speech = false then { after with estimate := trackEstimate after.estimate e }
  else after

/-- The speech run after a classed frame (R93). -/
def runMove (c : NoiseCtx) : NoiseCtx :=
  { c with speechRun := if c.state = .speech then c.speechRun + 1 else 0 }

/-- The moves of a frame worked in PAUSE or SPEECH, before a restart (R91 to R93). -/
def classedMove (c : NoiseCtx) (live : Bool) (e : Nat) : NoiseCtx :=
  let speech := speechFrame c.estimate e
  runMove (estimateMove c (speechMove c speech) live speech e)

/-- The target gain of a frame (R94): `learning` says that it was worked in LEARN, `c` is the context after the
moves. -/
def targetGain (set : NoiseSettings) (learning : Bool) (c : NoiseCtx) (e : Nat) : Nat :=
  if !set.enable then 4096
  else if learning then 4096
  else if c.state = .speech then 4096
  else if 2 * c.estimate ≤ e then (set.floor + 4096) / 2
  else set.floor

/-- The work of one frame (R89 to R96) with what it found.  The output frame carries the speech flag of the frame's
own moves; a restart at the end of the frame (R93) leaves the frame as chosen.
DEDUCED: notes/assumptions/16.md. -/
def noiseFrame (set : NoiseSettings) (c : NoiseCtx) (input : Frame) (live : Bool) : NoiseCtx × NoiseEvent :=
  let e := frameEnergy input
  let learning := decide (c.state = .learn)
  let c1 := if learning then learnMove c live e else classedMove c live e
  let target := targetGain set learning c1 e
  let c2 := { c1 with
    gain := target
    out := { samples := rampFrame c.gain target input, speech := decide (c1.state = .speech), gain := target } }
  if learning then (c2, if c1.state = .pause then .learned else .none)
  else if 2500 ≤ c1.speechRun then (c2.restart, .restarted)
  else (c2, if c.state = .speech ∧ c1.state = .pause then .hangoverEnd else .none)

/-- A frozen context (R88): zero samples, the held speech flag and the held applied gain handed on. -/
def noiseFrozen (c : NoiseCtx) : NoiseCtx :=
  { c with out := { samples := zeroFrame, speech := c.out.speech, gain := c.gain } }

/-- The work of noise context `n` at the current frame event (R87, R88), with its event. -/
def State.noiseResult (s : State) (n : Fin 20) : NoiseCtx × NoiseEvent :=
  let c := s.nru.contexts[n]
  if h : n.val < 16 then
    let p : Fin 16 := ⟨n.val, h⟩
    if (s.pos p).state = .opened then noiseFrame (s.noiseSettings n) c s.taken.echo[p].samples s.taken.echo[p].live
    else (noiseFrozen c, .none)
  else
    let t := s.taken.talk[(⟨n.val - 16, by omega⟩ : Fin 4)]
    noiseFrame (s.noiseSettings n) c t.samples t.live

/-- The piece of frame work of noise context `n`. -/
def State.runNoise (s : State) (n : Fin 20) : State := s.modNoise n (fun _ => (s.noiseResult n).1)

end Sys2Proof.Machine
end

