-- ==== Sys2Proof/Machine/PositionWork.lean ====
section
/-!
DEFINITION. What the position controller does for a position at a frame event: presence, button, battery, reminder,
muted talk (R15 to R23) and close completion (R7, R8).
-/

namespace Sys2Proof.Machine

/-! ### The status word (R15, 11.3) -/

/-- The raw presence handed over: bit 0; "no frame" is absent. -/
def rawPresent (handed : Option Word16) : Bool := handed.any (fun w => w.getLsbD 0)

/-- The raw button level handed over: bit 1; "no frame" is released. -/
def rawButton (handed : Option Word16) : Bool := handed.any (fun w => w.getLsbD 1)

/-- The battery level field after a hand-over: bits 8 to 14, 101 to 126 read as 127; "no frame" keeps it. -/
def rawBattery (old : Nat) (handed : Option Word16) : Nat :=
  match handed with
  | none => old
  | some w =>
    let b := w.toNat / 256 % 128
    if b ≤ 100 then b else 127

/-- The status word read into the record: button level and battery level (R15). -/
def Position.readStatus (x : Position) (handed : Option Word16) : Position :=
  { x with button := rawButton handed, batteryLevel := rawBattery x.batteryLevel handed }

/-! ### Presence (R16, R17) -/

/-- The debounce of the present field (R16): the eighth differing frame in a row changes the field. -/
def Position.debounce (x : Position) (raw : Bool) : Position :=
  if raw = x.present then { x with presenceRun := 0 }
  else if x.presenceRun < 7 then { x with presenceRun := x.presenceRun + 1 }
  else { x with present := raw, presenceRun := 0, band := if raw then x.band else .normal }

/-- The presence piece of position `p`: the report of a change while OPEN or CLOSING (R16), and the restart of
learning at an arrival while OPEN (R17, R97). -/
def State.runPresence (s : State) (p : Fin 16) : State :=
  let handed := s.hli[p].handed
  let s1 := s.modPos p (fun x => (x.readStatus handed).debounce (rawPresent handed))
  if (s1.pos p).present = (s.pos p).present then s1
  else if (s1.pos p).present then
    match (s1.pos p).state with
    | .closed => s1
    | .closing => s1.report .desk (.headsetPresent p)
    | .opened => (s1.modNoise (noiseOfPosition p) NoiseCtx.restart).report .desk (.headsetPresent p)
  else if (s1.pos p).state = .closed then s1
  else s1.report .desk (.headsetAbsent p)

/-- The presence piece would change the present field (R16). -/
def State.presenceDue (s : State) (p : Fin 16) : Bool :=
  decide (rawPresent s.hli[p].handed ≠ (s.pos p).present) && decide (7 ≤ (s.pos p).presenceRun)

/-! ### Button (R18) -/

/-- A press: pressed after at least two released frame events. -/
def Position.pressed (x : Position) : Bool := x.button && decide (2 ≤ x.releasedRun)

/-- The button piece of position `p` (R18). -/
def State.runButton (s : State) (p : Fin 16) : State :=
  let x := s.pos p
  let s1 := s.modPos p (fun x => { x with releasedRun := if x.button then 0 else min 2 (x.releasedRun + 1) })
  if x.pressed ∧ x.state = .opened then
    let s2 := if x.buttonMute then s1.modPos p (fun y => y.setMute (!x.mute)) else s1
    s2.report .desk (.button p (s2.pos p).mute)
  else s1

/-! ### Battery (R19) -/

/-- The band after an evaluation at level `l` other than 127: at most one move, the first condition that holds. -/
def Band.next (b : Band) (l low critical : Nat) : Band :=
  match b with
  | .normal => if l ≤ critical then .critical else if l ≤ low then .low else .normal
  | .low => if l ≤ critical then .critical else if low + 3 ≤ l then .normal else .low
  | .critical => if critical + 3 ≤ l then .low else .critical

/-- The battery piece of position `p` (R19): reports and automatic prompts of a fall. -/
def State.runBattery (s : State) (p : Fin 16) : State :=
  let x := s.pos p
  if x.state = .opened ∧ x.present = true then
    if x.batteryLevel = 127 then s.modPos p (fun x => { x with band := .normal })
    else
      let b := x.band.next x.batteryLevel x.batteryLow x.batteryCritical
      let s1 := s.modPos p (fun x => { x with band := b })
      match x.band, b with
      | .normal, .low => (s1.report .desk (.batteryLow p x.batteryLevel)).offer p .batteryLow
      | .normal, .critical =>
        (s1.reportAll [.desk, .line] (.batteryCritical p x.batteryLevel)).offer p .batteryCritical
      | .low, .critical =>
        (s1.reportAll [.desk, .line] (.batteryCritical p x.batteryLevel)).offer p .batteryCritical
      | _, _ => s1
  else s

/-! ### Hold reminder (R21) -/

/-- The reminder of position `p` expires at its next count (R21). -/
def State.reminderDue (s : State) (p : Fin 16) : Bool :=
  (s.pos p).reminderStatus == .running && decide ((s.pos p).reminderCounter ≤ 1)

/-- The reminder piece of position `p` (R21). -/
def State.runReminder (s : State) (p : Fin 16) : State :=
  let x := s.pos p
  if x.reminderStatus = .running then
    if x.reminderCounter ≤ 1 then
      let s1 := s.modPos p (fun x =>
        if x.reminderRepeat then { x with reminderCounter := x.reminderInterval }
        else { x with reminderCounter := 0, reminderStatus := .expired })
      (s1.reportAll [.desk, .line] (.holdReminder p x.reminderRepeat)).offer p .reminder
    else s.modPos p (fun x => { x with reminderCounter := x.reminderCounter - 1 })
  else s

/-! ### Muted talk (R23) -/

/-- A frame event that counts toward muted talk (R23): OPEN, mute on, and the noise context in SPEECH as of its last
completed frame. -/
def State.mutedSpeech (s : State) (p : Fin 16) : Bool :=
  (s.pos p).state == .opened && (s.pos p).mute && s.taken.noise[noiseOfPosition p].speech

/-- The muted-talk count of position `p` reaches 500 with issued no at its next count (R23). -/
def State.mutedDue (s : State) (p : Fin 16) : Bool :=
  s.mutedSpeech p && decide (499 ≤ (s.pos p).mutedCount) && !(s.pos p).mutedIssued

/-- The muted-talk piece of position `p` (R23). -/
def State.runMuted (s : State) (p : Fin 16) : State :=
  if s.mutedSpeech p then
    let s1 := s.modPos p (fun x => { x with mutedCount := min 500 (x.mutedCount + 1) })
    if s.mutedDue p then
      ((s1.modPos p (fun x => { x with mutedIssued := true })).report .desk (.mutedTalk p)).offer p .muted
    else s1
  else s

/-! ### Close completion (R7, R8) -/

/-- A voice is DRAINING for position `p` (R7). -/
def State.drainsFor (s : State) (p : Fin 16) : Bool :=
  allVoices.any (fun v => s.vce[v].state == .draining && s.vce[v].drainedFor == some p)

/-- The close of position `p` completes at its check (R7). -/
def State.closeDue (s : State) (p : Fin 16) : Bool := (s.pos p).state == .closing && !s.drainsFor p

/-- The echo context at close completion (R8, R80). -/
def EchoCtx.closed (c : EchoCtx) (plan : Plan) : EchoCtx :=
  let c1 := match plan with
    | .keep => c
    | .clear => c.setCoeffs zeroCoeffs
  { c1.zeroCounters with state := .off }

/-- The noise context at close completion (R8, R99). -/
def NoiseCtx.closed (c : NoiseCtx) (plan : Plan) : NoiseCtx :=
  match plan with
  | .keep => c
  | .clear => c.clear

/-- Close completion (R8): CLOSED, the stored plan applied and absent, POSITION_CLOSED to Desk and Line. -/
def State.completeClose (s : State) (p : Fin 16) (plan : Plan) : State :=
  let s1 := s.modPos p (fun x => { x with state := .closed, closePlan := none, retained := plan == .keep })
  let s2 := (s1.modEcho p (fun c => c.closed plan)).modNoise (noiseOfPosition p) (fun c => c.closed plan)
  s2.reportAll [.desk, .line] (.positionClosed p plan)

/-- The completion check of position `p` at a frame event (R7). -/
def State.runClose (s : State) (p : Fin 16) : State :=
  if s.closeDue p then
    match (s.pos p).closePlan with
    | some plan => s.completeClose p plan
    | none => s
  else s

end Sys2Proof.Machine
end

