-- ==== Sys2Proof/Machine/VoiceEngine.lean ====
section
/-!
DEFINITION. The work of a voice at a frame event (R120 to R133) and the end of a fetch (R128, R129, R149, R150).
-/

namespace Sys2Proof.Machine

/-! ### The fetch side (R120, R121, R125 to R127, R130) -/

/-- What the fetch side reads outside its voice: the store state and the directory cache (R126). -/
structure FetchView where
  store : StoreState
  directory : List DirEntry
  deriving DecidableEq, Repr

/-- A voice with the PROGRAM_MARK codes its fetch side has passed (R121). -/
structure Fetching where
  voice : Voice
  marks : List Nat
  deriving DecidableEq, Repr

/-- What the fetch side does at its step: what it may do while it stays, and what it does if it may also leave. -/
structure StepAct where
  stay : Fetching
  leave : Option Fetching
  deriving DecidableEq, Repr

/-- The free space of the buffer (R125). -/
def Voice.space (v : Voice) : Nat := Config.bufferSize - v.buffer.length

/-- A step move: the current step becomes `target`, on which the fetch side has not yet arrived (R125). -/
def Voice.moveTo (v : Voice) (target : Option Nat) : Voice := { v with current := target, entered := false, clip := none }

/-- The step after step `i`, or the end of the list. -/
def Voice.nextStep (v : Voice) (i : Nat) : Option Nat := if i + 1 < v.steps.length then some (i + 1) else none

/-- Step `i` is left for the next (R125). -/
def Voice.goOn (v : Voice) (i : Nat) : Voice := v.moveTo (v.nextStep i)

/-- Zero samples placed at the end of the buffer by a SILENCE step, as many as remain and as fit (R125). -/
def Voice.placeSilence (v : Voice) : Voice :=
  let k := min v.silence v.space
  { v with buffer := v.buffer ++ List.replicate k 0, silence := v.silence - k, placed := v.placed || decide (0 < k) }

/-- The fetch side's arrival at its step (R125): a SILENCE step's length is loaded, a CLIP step's progress is none. -/
def Voice.arrive (v : Voice) (step : Step) : Voice :=
  if v.entered then v
  else
    match step with
    | .silence frames => { v with entered := true, silence := frames * frameSize }
    | .clip _ => { v with entered := true, clip := none }
    | .loop _ _ => { v with entered := true }
    | .mark _ => { v with entered := true }

/-- A MARK step passed (R121): a programme's code is reported, a prompt's code joins its list of at most four. -/
def Fetching.passMark (f : Fetching) (code : Nat) : Fetching :=
  match f.voice.use with
  | .program => { f with marks := f.marks ++ [code] }
  | _ =>
    if f.voice.marks.length < 4 then { f with voice := { f.voice with marks := f.voice.marks ++ [code] } } else f

/-- The loop counter of step `i`. -/
def Voice.loopCounter (v : Voice) (i : Nat) : Option Nat := v.loops.getD i none

/-- A LOOP step passed (R120): its counter is loaded if inactive; a count of 0 jumps forever; otherwise the counter
decreases, and the fetch side jumps while it is above 0 and goes on when it reaches 0. -/
def Voice.passLoop (v : Voice) (i target count : Nat) : Voice :=
  let c := (v.loopCounter i).getD count
  if count = 0 then ({ v with loops := v.loops.set i (some c) }).moveTo (some target)
  else if 1 < c then ({ v with loops := v.loops.set i (some (c - 1)) }).moveTo (some target)
  else ({ v with loops := v.loops.set i none }).goOn i

/-- A CLIP step skipped (R126): the skipped count rises, the refill flag is cleared, the step is left. -/
def Voice.skipClip (v : Voice) (i : Nat) : Voice :=
  ({ v with skipped := min 255 (v.skipped + 1), refill := false }).goOn i

/-- A begun CLIP step (R126, R127): left when its samples have all been fetched, skipped when the store is
UNAVAILABLE, and otherwise asking for samples at or below the low-water mark while the store is READY. -/
def begunClip (view : FetchView) (f : Fetching) (i : Nat) (progress : ClipProgress) : StepAct :=
  let v := f.voice
  if progress.remaining = 0 then { stay := f, leave := some { f with voice := v.goOn i } }
  else
    match view.store with
    | .unavailable => { stay := f, leave := some { f with voice := v.skipClip i } }
    | .scanning => { stay := f, leave := none }
    | .ready =>
      { stay := { f with voice := { v with refill := v.refill || decide (v.buffer.length ≤ Config.lowWater) } },
        leave := none }

/-- A CLIP step (R126): one not yet begun waits, is skipped or is begun by the store state and its directory
entry. -/
def clipAct (view : FetchView) (f : Fetching) (i n : Nat) : StepAct :=
  let v := f.voice
  match v.clip with
  | some progress => begunClip view f i progress
  | none =>
    match view.store with
    | .scanning => { stay := f, leave := none }
    | .unavailable => { stay := f, leave := some { f with voice := v.skipClip i } }
    | .ready =>
      match view.directory[n]? with
      | none => { stay := f, leave := some { f with voice := v.skipClip i } }
      | some e =>
        if e.valid then
          let progress : ClipProgress := { offset := 0, remaining := e.count }
          begunClip view { f with voice := { v with clip := some progress } } i progress
        else { stay := f, leave := some { f with voice := v.skipClip i } }

/-- The fetch side at step `i` (R125).
DEDUCED: notes/assumptions/14.md. -/
def stepAct (view : FetchView) (f : Fetching) (i : Nat) (step : Step) : StepAct :=
  let f1 := { f with voice := f.voice.arrive step }
  match step with
  | .mark code =>
    let g := f1.passMark code
    { stay := f1, leave := some { g with voice := g.voice.goOn i } }
  | .loop target count => { stay := f1, leave := some { f1 with voice := f1.voice.passLoop i target count } }
  | .silence _ =>
    let v := f1.voice.placeSilence
    { stay := { f1 with voice := v }, leave := if v.silence = 0 then some { f1 with voice := v.goOn i } else none }
  | .clip n => clipAct view f1 i n

/-- The wrap of a programme's list (R130). -/
def Voice.wrap (v : Voice) : Voice :=
  { (v.moveTo (some 0)) with loops := List.replicate 8 none, placed := false }

/-- The fetch side with `moves` step moves left (R125).  It stops when it must wait at its step, at the end of a
prompt's list (end-fetched, R130), and after the wrap of a pass that placed nothing (DEDUCED, notes/assumptions/15.md). -/
def fetchSide (view : FetchView) : Nat → Fetching → Fetching
  | moves, f =>
    match f.voice.current with
    | none =>
      match f.voice.use with
      | .program =>
        match moves with
        | 0 => f
        | m + 1 =>
          if f.voice.placed then fetchSide view m { f with voice := f.voice.wrap }
          else if frameSize ≤ f.voice.space then
            { f with voice := ({ f.voice with buffer := f.voice.buffer ++ zeroFrame }).wrap }
          else f
      | _ => { f with voice := { f.voice with endFetched := true } }
    | some i =>
      match f.voice.steps[i]? with
      | none => f
      | some step =>
        let act := stepAct view f i step
        match moves with
        | 0 => act.stay
        | m + 1 =>
          match act.leave with
          | none => act.stay
          | some g => fetchSide view m g

/-! ### The play side (R122, R123, R133) -/

/-- The priming test (R122): 128 buffered samples, or end-fetched. -/
def Voice.primed (v : Voice) : Bool :=
  v.state == .priming && (decide (Config.lowWater ≤ v.buffer.length) || v.endFetched)

/-- A voice that passes the priming test becomes PLAYING (R122). -/
def Voice.prime (v : Voice) : Voice := if v.primed then { v with state := .playing } else v

/-- The output of a PLAYING voice (R123): the 64 oldest samples, made up with zeros; a short frame before end-fetched
is an underrun. -/
def Voice.play (v : Voice) : Voice :=
  { v with
    out := { samples := padFrame v.buffer, use := v.use }
    buffer := v.buffer.drop frameSize
    underruns := if v.buffer.length < frameSize ∧ v.endFetched = false then min 65535 (v.underruns + 1)
                 else v.underruns }

/-- The fade of a draining voice (R133): the next 64 samples under gains from 4032 down to 0; the rest of the buffer
is discarded. -/
def Voice.fade (v : Voice) : Voice :=
  { v with out := { samples := rampFrame 4096 0 (padFrame v.buffer), use := v.use }, buffer := [], ramp := .done }

/-- A voice that outputs zeros. -/
def Voice.silent (v : Voice) : Voice := { v with out := { samples := zeroFrame, use := v.use } }

/-- The output of a voice by its state (R122): `inFlight` says that a fetch for it is in flight.  A draining voice
whose fade has been played becomes FREE when no fetch is in flight (R133). -/
def Voice.output (v : Voice) (inFlight : Bool) : Voice :=
  match v.state with
  | .free => v.silent
  | .priming => v.silent
  | .playing => v.play
  | .draining =>
    let v1 := if v.ramp = .pending then v.fade else v.silent
    if inFlight then v1 else v1.release

/-- The completion condition of a prompt voice (R124). -/
def Voice.completes (v : Voice) : Bool := v.state == .playing && v.isPrompt && v.endFetched && v.buffer.isEmpty

/-- A voice after its priming test and output. -/
def Voice.played (v : Voice) (inFlight : Bool) : Voice := v.prime.output inFlight

/-- The fetch side of a voice at a frame event: it works while PRIMING or PLAYING without end-fetched, and waits
while a fetch for it is in flight (R122, R127). -/
def Voice.fetched (v : Voice) (inFlight : Bool) (view : FetchView) : Fetching :=
  if (v.state == .priming || v.state == .playing) && !v.endFetched && !inFlight then
    fetchSide view Config.stepMoves { voice := v, marks := [] }
  else { voice := v, marks := [] }

/-- The completion of a prompt on voice `v` (R124, R162): the voice becomes FREE, its entry leaves the head of its
queue and PROMPT_DONE is made. -/
def State.completePrompt (s : State) (v : Fin 12) : State :=
  let x := s.vce[v]
  let s1 := s.modVoice v Voice.release
  match x.use with
  | .prompt p q =>
    match s1.queue p q with
    | [] => s1
    | e :: rest =>
      if e.voice = some v then
        (s1.setQueue p q rest).promptDone p q e (if x.skipped = 0 then .complete else .partly) x.underruns x.marks
      else s1
  | _ => s1

/-- The piece of frame work of voice `v`, as one piece (R122). -/
def State.runVoice (s : State) (v : Fin 12) : State :=
  let s1 := s.modVoice v (fun x => x.played (s.inFlight v))
  if s1.vce[v].completes then s1.completePrompt v
  else
    let f := s1.vce[v].fetched (s.inFlight v) { store := s.sfe.store, directory := s.sfe.directory }
    let s2 := (s1.modVoice v (fun _ => f.voice)).settleOwed
    f.marks.foldl (fun s code => s.report .line (.programMark v code)) s2

/-! ### The end of a fetch (R128, R129, R149, R150) -/

/-- The output samples of one stored sample (R128): scaled by the trim, clamped, placed once or twice. -/
def placedSample (trim expand : Nat) (x : Sample) : List Sample :=
  List.replicate expand (clampSample (round12 (x * (trim : Int))))

/-- The output samples of a fetch (R128). -/
def placedSamples (f : Fetch) (stored : List Word16) : List Sample :=
  stored.flatMap (fun w => placedSample f.trim f.expand (sampleOf w))

/-- A completed fetch reaches a PRIMING or PLAYING voice (R128). -/
def Voice.receive (v : Voice) (f : Fetch) (stored : List Word16) : Voice :=
  { v with
    buffer := v.buffer ++ placedSamples f stored
    placed := true
    clip := v.clip.map (fun c => { offset := c.offset + f.count, remaining := c.remaining - f.count }) }

/-- The end of a fetch for a DRAINING voice (R133): nothing is placed; a voice whose fade is done becomes FREE. -/
def Voice.endDrainFetch (v : Voice) : Voice := if v.ramp = .done then v.release else v

/-- A voice is told of the completion of its fetch (R128, R133). -/
def Voice.fetchDone (v : Voice) (f : Fetch) (stored : List Word16) : Voice :=
  match v.state with
  | .priming => v.receive f stored
  | .playing => v.receive f stored
  | .draining => v.endDrainFetch
  | .free => v

/-- A voice is told of the timeout of its fetch (R129, R133). -/
def Voice.fetchLost (v : Voice) : Voice :=
  match v.state with
  | .draining => v.endDrainFetch
  | _ => v

/-- The fetch in flight completes with all its samples (R149). -/
def State.completeFetch (s : State) (f : Fetch) (stored : List Word16) : State :=
  let s1 := s.modVoice f.voice (fun v => v.fetchDone f stored)
  ({ s1 with sfe := { s1.sfe with fetch := none, timeouts := 0 } }).settleOwed

/-- The fetch in flight times out (R150); the fourth in a row fails the store (R151). -/
def State.timeoutFetch (s : State) (f : Fetch) : State :=
  let s1 := s.modVoice f.voice Voice.fetchLost
  let n := min Config.timeoutLimit (s1.sfe.timeouts + 1)
  let s2 := { s1 with sfe := { s1.sfe with fetch := none, timeouts := n } }
  if n = Config.timeoutLimit then s2.failStore else s2.settleOwed

end Sys2Proof.Machine
end

