-- ==== Sys2Proof/Machine/FrameWork.lean ====
section
/-!
DEFINITION. The frame event (R26): what the links complete, the earpiece and highway outputs, the meter periods, and
the pieces of work with the orders in which they may be done; then the sample period, the syncs and the gap
(R27 to R31, R36).
-/

namespace Sys2Proof.Machine

/-! ### Earpiece output (R39, R40) -/

/-- The sidetone term of a sample (R39). -/
def sidetone (gain : Nat) (m : Sample) : Int := round12 (m * (gain : Int))

/-- The sidetone term is present: OPEN, mute off, headset present (R39). -/
def Position.hasSidetone (x : Position) : Bool := x.state == .opened && !x.mute && x.present

/-- The earpiece frame before sidetone: the echo reference (R40). -/
def State.earReference (s : State) (p : Fin 16) : Frame :=
  if (s.pos p).state = .closed then zeroFrame else s.taken.ear[p]

/-- The earpiece frame that the headset link begins (R39). -/
def State.earpieceFrame (s : State) (p : Fin 16) : Frame :=
  let x := s.pos p
  if x.state = .closed then zeroFrame
  else
    (List.range frameSize).map (fun j =>
      clampSample (s.taken.ear[p].getD j 0 +
        (if x.hasSidetone then sidetone x.sidetone ((s.taken.noise[noiseOfPosition p].samples).getD j 0) else 0)))

/-- The earpiece piece of position `p`: the frame begun, and the reference handed to the echo context, which keeps
the three most recent (R39, R40, R67). -/
def State.runEarpiece (s : State) (p : Fin 16) : State :=
  let s1 := s.modHeadset p (fun h => { h with earpiece := s.earpieceFrame p })
  s1.modEcho p (fun c => { c with pending := (s.earReference p :: c.pending).take 3 })

/-! ### Highway output (R31, R37) -/

/-- The frame that the highway interface takes for the line of position `p` (R37).
DEDUCED: notes/assumptions/18.md. -/
def State.lineTake (s : State) (p : Fin 16) : Option Frame :=
  if s.ftu.timing = .locked ∧ (s.pos p).line.isSome then
    some (if (s.pos p).call = .idle then zeroFrame else s.taken.line[p])
  else none

/-- The frame that the highway interface takes for channel `c` (R37), though its session ended and was joined anew since
that frame was produced.
DESIGN CHOICE: notes/assumptions/39.md. -/
def State.supTake (s : State) (c : Fin 4) : Option Frame :=
  if s.ftu.timing = .locked ∧ s.hwi.channels[c].isSome then
    some (if s.sst[c].mode = .idle then zeroFrame else s.taken.sup[c])
  else none

/-- Sample `j` of a taken frame; zeros while no frame has been taken for the binding (R37).
DEDUCED: notes/assumptions/19.md. -/
def takenSample (o : Option Frame) (j : Nat) : Sample :=
  match o with
  | none => 0
  | some f => f.getD j 0

/-- What the 32 output slots carry in the sample period of index `j`: nothing while not LOCKED (R31); else sample j
of the frame taken for each bound slot (R37). -/
def State.drive (s : State) (j : Nat) : Vector (Option Sample) 32 :=
  if s.ftu.timing = .locked then
    let d := allPositions.foldl (fun (d : Vector (Option Sample) 32) p =>
      match (s.pos p).line with
      | none => d
      | some b => d.set b.outSlot (some (takenSample s.hwi.lineOut[p] j))) (Vector.replicate 32 none)
    allChannels.foldl (fun (d : Vector (Option Sample) 32) c =>
      match s.hwi.channels[c] with
      | none => d
      | some b => d.set b.outSlot (some (takenSample s.hwi.supOut[c] j))) d
  else Vector.replicate 32 none

/-- The output slots driven anew for the current sample period. -/
def State.driveNow (s : State) : State := { s with hwi := { s.hwi with driven := s.drive s.ftu.sampleIndex } }

/-- The highway output piece: the frame each out-slot will send is taken (R37), and its first sample driven, by the
bindings as they stand now.
DESIGN CHOICE: notes/assumptions/35.md. -/
def State.runHighwayOut (s : State) : State :=
  let h := allPositions.foldl (fun (h : Hwi) (p : Fin 16) => { h with lineOut := h.lineOut.set p (s.lineTake p) }) s.hwi
  let h2 := allChannels.foldl (fun (h : Hwi) (c : Fin 4) => { h with supOut := h.supOut.set c (s.supTake c) }) h
  State.driveNow { s with hwi := h2 }

/-! ### Meter periods (R183) -/

/-- The meter period of a port expires at its next count (R183). -/
def State.meterDue (s : State) (port : Port) : Bool :=
  (s.port port).counter.any (fun c => decide (c ≤ 1))

/-- The METER reports of an expiry: each position of the mask that is OPEN, ascending (R183). -/
def State.meterReports (s : State) (port : Port) : State :=
  allPositions.foldl (fun s p =>
    if (s.port port).mask.getLsbD p.val && (s.pos p).state == .opened then
      s.report port (.meter p s.mxe.lastWindow[p])
    else s) s

/-- The meter period piece of a port (R183). -/
def State.runMeterPeriod (s : State) (port : Port) : State :=
  match (s.port port).counter with
  | none => s
  | some c =>
    if c ≤ 1 then (s.modPort port (fun ps => { ps with counter := ps.period.frames })).meterReports port
    else s.modPort port (fun ps => { ps with counter := some (c - 1) })

/-! ### The pieces of a frame event's work -/

/-- Every piece of the work of a frame event, in the order in which they are done when nothing orders them: the
order of spec/95_what_each_step_holds.md.
DESIGN CHOICE: notes/assumptions/3.md. -/
def allWork : List Work :=
  allPositions.flatMap (fun p => [.presence p, .button p, .battery p, .reminder p, .muted p]) ++
  allPositions.map .echo ++ allNoise.map .noise ++ [.mix, .meterClose] ++ allPositions.map .earpiece ++
  [.highwayOut] ++ allVoices.map .voice ++ allPositions.map .close ++ allPorts.map .meterPeriod

/-- The pieces that come before a piece: R15 gives the order of one position's evaluations, and R61 adds the
measurements of a frame event before its windows close. -/
def workBefore : Work → List Work
  | .button p => [.presence p]
  | .battery p => [.presence p, .button p]
  | .reminder p => [.presence p, .button p, .battery p]
  | .muted p => [.presence p, .button p, .battery p, .reminder p]
  | .meterClose => [.mix]
  | _ => []

/-- The effect of one piece of work. -/
def State.runWork (s : State) : Work → State
  | .presence p => s.runPresence p
  | .button p => s.runButton p
  | .battery p => s.runBattery p
  | .reminder p => s.runReminder p
  | .muted p => s.runMuted p
  | .echo p => s.runEcho p
  | .noise n => s.runNoise n
  | .mix => s.runMix
  | .meterClose => s.runMeterClose
  | .earpiece p => s.runEarpiece p
  | .highwayOut => s.runHighwayOut
  | .voice v => s.runVoice v
  | .close p => s.runClose p
  | .meterPeriod port => s.runMeterPeriod port

/-- One piece of work done, if it still stands; it then stands no longer. -/
def State.workOne (s : State) (w : Work) : State :=
  if w ∈ s.work then State.runWork { s with work := s.work.erase w } w else s

/-- A piece of work done after the pieces that come before it. -/
def State.doWork (s : State) (w : Work) : State :=
  if w ∈ s.work then (workBefore w ++ [w]).foldl State.workOne s else s

/-- A piece of work done, with the grants that stand after it made at once (R147, R159). -/
def State.doWorkGrant (s : State) (w : Work) : State :=
  if w ∈ s.work then (s.doWork w).settleGrants else s

/-- The pieces that still stand done in their usual order, but for those held back. -/
def State.finishWork (s : State) (held : List Work) : State :=
  (allWork.filter (fun w => !held.contains w)).foldl State.doWorkGrant s

/-- What the stages take at this frame event: the frames completed at the frame event before (R26). -/
def State.takeFrames (s : State) : Taken :=
  { mic := allPositions.foldl (fun (v : Vector Frame 16) (p : Fin 16) => v.set p s.hli[p].mic) (Vector.replicate 16 zeroFrame)
    reference := allPositions.foldl (fun (v : Vector Frame 16) (p : Fin 16) => v.set p (s.ecu[p].pending.getD 1 zeroFrame))
      (Vector.replicate 16 zeroFrame)
    present := allPositions.foldl (fun (v : Vector Bool 16) (p : Fin 16) => v.set p (s.pos p).present) (Vector.replicate 16 false)
    echo := allPositions.foldl (fun (v : Vector EchoFrame 16) (p : Fin 16) => v.set p s.ecu[p].out) (Vector.replicate 16 .zero)
    erle := allPositions.foldl (fun (v : Vector Nat 16) (p : Fin 16) => v.set p s.ecu[p].erle) (Vector.replicate 16 0)
    noise := allNoise.foldl (fun (v : Vector NoiseFrame 20) (n : Fin 20) => v.set n s.nru.contexts[n].out)
      (Vector.replicate 20 .zero)
    far := s.hwi.far
    talk := s.hwi.talk
    ear := s.mxe.ear
    line := s.mxe.line
    sup := s.mxe.sup
    voice := allVoices.foldl (fun (v : Vector VoiceFrame 12) (x : Fin 12) => v.set x s.vce[x].out) (Vector.replicate 12 .zero) }

/-- A headset link at a frame event (R38): the arrived frame completes and its status word is handed over, or zeros
and "no frame"; the arrival flag is then cleared. -/
def Headset.complete (h : Headset) : Headset :=
  { h with
    mic := if h.arrived then h.latest else zeroFrame
    handed := if h.arrived then some h.latestStatus else none
    arrived := false
    cutOff := false }

/-- The talk frame of channel `c` that completes, with its liveness: bound, and the highway LOCKED (R36, R87). -/
def State.talkFrame (s : State) (c : Fin 4) : TalkFrame :=
  { samples := padFrame s.hwi.talkInput[c], live := s.hwi.channels[c].isSome && s.ftu.timing == .locked }

/-- The highway interface at a frame event (R36, R87): the collected frames complete, zeros where nothing was
collected. -/
def State.completeInputs (s : State) : Hwi :=
  let h1 := allPositions.foldl (fun (h : Hwi) (p : Fin 16) => { h with far := h.far.set p (padFrame s.hwi.farInput[p]) }) s.hwi
  let h2 := allChannels.foldl (fun (h : Hwi) (c : Fin 4) =>
    { h with talk := h.talk.set c (s.talkFrame c) }) h1
  { h2 with farInput := Vector.replicate 16 [], talkInput := Vector.replicate 4 [] }

/-- A frame event is made (R26): the frame count increases, the sample index returns to 0, the links complete their
frames, and the work of every block stands to be done. -/
def State.beginFrame (s : State) : State :=
  { s with
    ftu := { s.ftu with frameCount := s.ftu.frameCount + 1, sampleIndex := 0, frameDue := false }
    taken := s.takeFrames
    hli := allPositions.foldl (fun (v : Vector Headset 16) (p : Fin 16) => upd v p Headset.complete) s.hli
    hwi := s.completeInputs
    work := allWork }

/-- A frame event that is due is made, once the work of the one before it is done. -/
def State.beginDue (s : State) : State := if s.ftu.frameDue then (s.finishWork []).beginFrame else s

/-- The frame event that is due and its work: the pieces of `order` first, then the rest but for `held`. -/
def State.frameEvent (s : State) (order held : List Work) : State :=
  (order.foldl State.doWork s.beginDue).finishWork held

/-- What has come to hold is done before time passes: the frame event that is due, its work, and the grants that
stand (R26, R147, R159).
DESIGN CHOICE: notes/assumptions/5.md. -/
def State.settle (s : State) : State := (s.frameEvent [] []).settleGrants

/-! ### Sample periods (R26, R36) -/

/-- The in-slots as bound now, for the sample period that begins (R36). -/
def State.latchSlots (s : State) : State :=
  let far := allPositions.foldl (fun (v : Vector (Option (Fin 32)) 16) (p : Fin 16) =>
    v.set p ((s.pos p).line.map SlotPair.inSlot)) s.hwi.farSlot
  let talk := allChannels.foldl (fun (v : Vector (Option (Fin 32)) 4) (c : Fin 4) =>
    v.set c (s.hwi.channels[c].map SlotPair.inSlot)) s.hwi.talkSlot
  { s with hwi := { s.hwi with farSlot := far, talkSlot := talk } }

/-- The sample that an input frame collects in a sample period (R36): the slot's sample when the period was a highway
period and a slot was bound, else zero. -/
def inputSample (highway : Bool) (slots : List Word16) (slot : Option (Fin 32)) : Sample :=
  match slot with
  | some k => if highway then sampleOf (slots.getD k.val 0) else 0
  | none => 0

/-- Every input frame collects its sample of the sample period that ends (R36). -/
def State.collect (s : State) (highway : Bool) (slots : List Word16) : State :=
  let h1 := allPositions.foldl (fun (h : Hwi) (p : Fin 16) =>
    { h with farInput := upd h.farInput p (fun f => f ++ [inputSample highway slots h.farSlot[p]]) }) s.hwi
  let h2 := allChannels.foldl (fun (h : Hwi) (c : Fin 4) =>
    { h with talkInput := upd h.talkInput c (fun f => f ++ [inputSample highway slots h.talkSlot[c]]) }) h1
  { s with hwi := h2 }

/-- A sample period ends (R26, R36): its samples are collected, the next period's slots are latched, and the sample
index advances, or at index 63 a frame event falls due.  A binding or release taken between that and the frame event
finds the in-slots of sample period 0 latched, and its out-slot not yet driven.
DESIGN CHOICE: notes/assumptions/35.md. -/
def State.endPeriod (s : State) (highway : Bool) (slots : List Word16) : State :=
  let s1 := (s.collect highway slots).latchSlots
  if s.ftu.sampleIndex < 63 then
    State.driveNow { s1 with ftu := { s1.ftu with sampleIndex := s.ftu.sampleIndex + 1, periodMarked := false } }
  else { s1 with ftu := { s1.ftu with frameDue := true, periodMarked := false } }

/-! ### Syncs and the gap (R27 to R31) -/

/-- The lock sync (R28): LOCKED; the frame in progress ends with a frame event at this sync; HIGHWAY_LOCKED carries
its frame count, and is made before any of that frame event's work (DESIGN CHOICE, notes/assumptions/33.md: R175
leaves its place among the frame event's other Line reports open).  A frame cut short cuts off the upward frames under
way (DEDUCED, notes/assumptions/22.md).  A binding or release taken before that frame event's output work finds the
in-slots of sample period 0 latched (DESIGN CHOICE, notes/assumptions/35.md). -/
def State.lock (s : State) (t : Nat) : State :=
  let due := s.ftu.frameDue
  let s1 := s.finishWork []
  let s2 := State.beginFrame
    { s1 with ftu := { s1.ftu with timing := .locked, goodSync := Config.goodSyncs, lastSync := t } }
  let s3 := allPositions.foldl (fun s p => s.modHeadset p (fun h => { h with cutOff := !due })) s2
  s3.latchSlots.report .line .highwayLocked

/-- A sync seen in FREE_RUN starts qualification (R27). -/
def State.startQualifying (s : State) (t : Nat) : State :=
  { s with ftu := { s.ftu with timing := .locking, goodSync := 0, lastSync := t } }

/-- A sample period that a good sync has ended and that no SAMPLE_PERIOD has worked is ended with zero slot
samples.
DESIGN CHOICE: notes/assumptions/6.md. -/
def State.settlePeriod (s : State) : State := if s.ftu.periodMarked then s.settle.endPeriod true [] else s

/-- The FTU returns to FREE_RUN with the good-sync counter 0 (R30); nothing is driven any more (R31). -/
def State.toFreeRun (s : State) : State :=
  { s with
    ftu := { s.ftu with timing := .freeRun, goodSync := 0 }
    hwi := { s.hwi with driven := Vector.replicate 32 none } }

/-- The gap of R30 is reached.  From LOCKING the FTU returns to FREE_RUN.  From LOCKED the sample period of the last
sync ends on local timing, HIGHWAY_LOST goes to the Line port, and the period after it, in which no sync marks a
sample, ends at the moment of the change.
DESIGN CHOICE: notes/assumptions/7.md. -/
def State.loseSync (s : State) (slots : List Word16) (order : List Work) : State :=
  match s.ftu.timing with
  | .freeRun => s
  | .locking => s.toFreeRun
  | .locked =>
    let s1 := (s.settle.settlePeriod.settle).endPeriod true slots
    let s2 := if s1.ftu.frameDue then s1.frameEvent order [] else s1
    (s2.toFreeRun.report .line .highwayLost).endPeriod false []

/-- A sync within the gap, by the timing state and its distance from the last sync taken (R27 to R29). -/
def State.sync (s : State) (t : Nat) : State :=
  match s.ftu.timing with
  | .freeRun => s.startQualifying t
  | .locking =>
    if t - s.ftu.lastSync < Config.halfPeriod then { s with ftu := { s.ftu with goodSync := 0, lastSync := t } }
    else if s.ftu.goodSync + 1 < Config.goodSyncs then
      { s with ftu := { s.ftu with goodSync := s.ftu.goodSync + 1, lastSync := t } }
    else s.lock t
  | .locked =>
    if t - s.ftu.lastSync < Config.halfPeriod then s
    else
      let s1 := s.settlePeriod
      { s1 with ftu := { s1.ftu with lastSync := t, periodMarked := true } }

/-- A sync seen at time `t` (R27 to R30): one that comes after the gap finds the FTU in FREE_RUN.
DESIGN CHOICE: notes/assumptions/7.md. -/
def State.seeSync (s : State) (t : Nat) : State :=
  if s.ftu.timing ≠ .freeRun ∧ Config.syncGap < t - s.ftu.lastSync then (s.loseSync [] []).sync t else s.sync t

/-- A sample period ends, by the local clock, or in LOCKED where a good sync has marked its end (R26, R29). -/
def State.samplePeriod (s : State) (slots : List Word16) : State :=
  if s.ftu.timing = .locked then
    if s.ftu.periodMarked then s.settle.endPeriod true slots else s
  else s.settle.endPeriod false []

/-! ### Single events of a frame event -/

/-- The event of a piece of work taken by itself: the pieces before it are done, and the piece is done where its
event comes about; where the piece does not stand, or its event does not come about, nothing happens.
DESIGN CHOICE: notes/assumptions/4.md. -/
def State.eventWork (s : State) (w : Work) (due : State → Bool) : State :=
  if s.rstn = false ∧ w ∈ s.work then
    let s1 := (workBefore w).foldl State.workOne s
    if due s1 then s1.workOne w else s
  else s

end Sys2Proof.Machine
end

