-- ==== Sys2Proof/Machine/FrameCommands.lean ====
section
/-!
DEFINITION. The commands of time and of the audio links: SAMPLE_PERIOD, FRAME_EVENT, HIGHWAY_SYNC, SYNC_GAP_TIMEOUT,
HEADSET_FRAME_ARRIVAL, and the single events of a frame event's work (R16 to R38, R61, R75, R76, R90, R91, R93,
R122, R124, R127, R133, R183).  While RSTN is asserted none of them has an effect (notes/assumptions/12.md).
-/

namespace Sys2Proof.Machine

/-! ### Time -/

/-- SAMPLE_PERIOD (R26, R36). -/
def execSamplePeriod (slots : List Word16) (s : State) : Result := .next (if s.rstn then s else s.samplePeriod slots)

/-- FRAME_EVENT (R26). -/
def execFrameEvent (order held : List Work) (s : State) : Result :=
  .next (if s.rstn then s else s.frameEvent order held)

/-- HIGHWAY_SYNC (R27 to R29). -/
def execHighwaySync (t : Nat) (s : State) : Result := .next (if s.rstn then s else s.seeSync t)

/-- SYNC_GAP_TIMEOUT (R30). -/
def execSyncGapTimeout (slots : List Word16) (order : List Work) (s : State) : Result :=
  .next (if s.rstn then s else s.loseSync slots order)

/-! ### The headset links (R38) -/

/-- An upward frame has arrived whole (R38): 64 samples and the status word, with its framing, not cut off. -/
def Headset.whole (h : Headset) (words : List Word16) (framed : Bool) : Bool :=
  words.length == 65 && framed && !h.cutOff

/-- An upward frame that arrives whole is stored and sets the arrival flag; another is discarded (R38). -/
def Headset.arrive (h : Headset) (words : List Word16) (framed : Bool) : Headset :=
  if h.whole words framed then
    { h with arrived := true, latest := (words.take 64).map sampleOf, latestStatus := words.getD 64 0 }
  else { h with cutOff := false }

/-- HEADSET_FRAME_ARRIVAL (R38). -/
def execHeadsetFrameArrival (p : Fin 16) (words : List Word16) (framed : Bool) (s : State) : Result :=
  .next (if s.rstn then s else s.modHeadset p (fun h => h.arrive words framed))

/-! ### Single events of the position controller -/

/-- PRESENCE_CHANGE (R16). -/
def execPresenceChange (p : Fin 16) (s : State) : Result :=
  .next (s.eventWork (.presence p) (fun s => s.presenceDue p))

/-- REMINDER_EXPIRY (R21). -/
def execReminderExpiry (p : Fin 16) (s : State) : Result :=
  .next (s.eventWork (.reminder p) (fun s => s.reminderDue p))

/-- MUTED_TALK_COUNT_FULL (R23). -/
def execMutedTalkCountFull (p : Fin 16) (s : State) : Result :=
  .next (s.eventWork (.muted p) (fun s => s.mutedDue p))

/-- CLOSE_COMPLETION (R7, R8). -/
def execCloseCompletion (p : Fin 16) (s : State) : Result :=
  .next (s.eventWork (.close p) (fun s => s.closeDue p))

/-! ### Single events of the echo canceller and of the noise reducer -/

/-- EC_DIVERGENCE (R75). -/
def execEcDivergence (p : Fin 16) (s : State) : Result :=
  .next (s.eventWork (.echo p) (fun s => (s.echoResult p).2 == .diverged))

/-- EC_CONVERGED (R76). -/
def execEcConverged (p : Fin 16) (s : State) : Result :=
  .next (s.eventWork (.echo p) (fun s => (s.echoResult p).2 == .converged))

/-- EC_LOST_TRACKING (R76). -/
def execEcLostTracking (p : Fin 16) (s : State) : Result :=
  .next (s.eventWork (.echo p) (fun s => (s.echoResult p).2 == .lost))

/-- NR_LEARN_COMPLETE (R90). -/
def execNrLearnComplete (n : Fin 20) (s : State) : Result :=
  .next (s.eventWork (.noise n) (fun s => (s.noiseResult n).2 == .learned))

/-- NR_HANGOVER_END (R91). -/
def execNrHangoverEnd (n : Fin 20) (s : State) : Result :=
  .next (s.eventWork (.noise n) (fun s => (s.noiseResult n).2 == .hangoverEnd))

/-- NR_SPEECH_RUN_RESTART (R93). -/
def execNrSpeechRunRestart (n : Fin 20) (s : State) : Result :=
  .next (s.eventWork (.noise n) (fun s => (s.noiseResult n).2 == .restarted))

/-! ### Meters -/

/-- METER_WINDOW_CLOSE (R61). -/
def execMeterWindowClose (s : State) : Result := .next (s.eventWork .meterClose State.windowDue)

/-- METER_PERIOD_EXPIRY (R183). -/
def execMeterPeriodExpiry (port : Port) (s : State) : Result :=
  .next (s.eventWork (.meterPeriod port) (fun s => s.meterDue port))

/-! ### Single events of the voice engine -/

/-- VOICE_START_PLAYING (R122). -/
def execVoiceStartPlaying (v : Fin 12) (s : State) : Result :=
  .next (s.eventWork (.voice v) (fun s => s.vce[v].primed))

/-- The refill flag of voice `v` is newly set by its work (R127). -/
def State.refillDue (s : State) (v : Fin 12) : Bool := !s.vce[v].refill && (s.runVoice v).vce[v].refill

/-- REFILL_REQUEST (R127). -/
def execRefillRequest (v : Fin 12) (s : State) : Result := .next (s.eventWork (.voice v) (fun s => s.refillDue v))

/-- Voice `v` plays its fade at its work (R133). -/
def State.fadeDue (s : State) (v : Fin 12) : Bool := s.vce[v].state == .draining && s.vce[v].ramp == .pending

/-- DRAIN_FADE (R133). -/
def execDrainFade (v : Fin 12) (s : State) : Result := .next (s.eventWork (.voice v) (fun s => s.fadeDue v))

/-- The prompt on voice `v` completes at its work (R124). -/
def State.completionDue (s : State) (v : Fin 12) : Bool := (s.vce[v].played (s.inFlight v)).completes

/-- PROMPT_COMPLETION (R124). -/
def execPromptCompletion (v : Fin 12) (s : State) : Result :=
  .next (s.eventWork (.voice v) (fun s => s.completionDue v))

end Sys2Proof.Machine
end

