-- ==== Sys2Proof/Machine/HighwayRequests.lean ====
section
/-!
DEFINITION. The requests of the highway interface: BIND_LINE, UNBIND_LINE, SET_SUP_CHANNEL (R33 to R35, R115).
-/

namespace Sys2Proof.Machine

/-- A pair of slot numbers, each within 0 to 31 (R33, R35). -/
def slotPairOf (i o : Nat) : Option SlotPair :=
  match slotOf i, slotOf o with
  | some i, some o => some { inSlot := i, outSlot := o }
  | _, _ => none

/-! ### BIND_LINE (R33) -/

/-- The parameters of BIND_LINE: position; in-slot; out-slot.  The slots are checked by the owner. -/
def bindArgs : List Byte → Except Status (Fin 16 × Nat × Nat)
  | [p, i, o] => do
    let p ← positionOf p
    pure (p, i.toNat, o.toNat)
  | _ => .error .badRequest

/-- The effect of BIND_LINE (R33): the slots held are released and the pair is bound.  A LINE that comes into
existence starts its clip count at 0 (R58); no frame has yet been taken for the binding (R37).
DEDUCED: notes/assumptions/19.md. -/
def State.bindLine (s : State) (p : Fin 16) (b : SlotPair) : State :=
  let s1 := s.modPos p (fun x => { x with line := some b })
  { s1 with
    hwi := { s1.hwi with lineOut := s1.hwi.lineOut.set p none }
    mxe := if (s.pos p).line.isNone then { s1.mxe with lineClips := s1.mxe.lineClips.set p 0 } else s1.mxe }

/-- The owner's checks of BIND_LINE, in the order of R33. -/
def serveBindLine (s : State) (r : Request) : Reply :=
  s.withArgs (bindArgs r.params) fun (p, i, o) =>
    if (s.pos p).state = .opened ∧ (s.pos p).call = .idle then
      match slotPairOf i o with
      | none => s.refuse .outOfRange
      | some b => if s.slotsInUse (.position p) b then s.refuse .inUse else (s.bindLine p b).okay []
    else s.refuse .badState

/-- BIND_LINE, taken at a port. -/
def execBindLine (port : Port) (s : State) : Result := .next (s.take port .bindLine serveBindLine)

/-! ### UNBIND_LINE (R34) -/

/-- The effect of UNBIND_LINE (R34): a call that is up goes IDLE with its effects before the slots are released. -/
def State.unbindLine (s : State) (p : Fin 16) : State :=
  match (s.pos p).call with
  | .idle => s.releaseLine p
  | .talk => ((s.modPos p (fun x => { x with call := .idle })).idleEffects p).releaseLine p
  | .hold => ((s.modPos p (fun x => { x with call := .idle }.stopReminder)).idleEffects p).releaseLine p

/-- The owner's checks of UNBIND_LINE. -/
def serveUnbindLine (s : State) (r : Request) : Reply :=
  s.withArgs (positionArg r.params) fun p =>
    if (s.pos p).state = .opened ∧ (s.pos p).line.isSome = true then (s.unbindLine p).okay [] else s.refuse .badState

/-- UNBIND_LINE, taken at a port. -/
def execUnbindLine (port : Port) (s : State) : Result := .next (s.take port .unbindLine serveUnbindLine)

/-! ### SET_SUP_CHANNEL (R35) -/

/-- The parameters of SET_SUP_CHANNEL: channel; a slot pair or nothing, by the length. -/
def supChannelArgs : List Byte → Except Status (Fin 4 × Option (Nat × Nat))
  | [c] => do
    let c ← channelOf c
    pure (c, none)
  | [c, i, o] => do
    let c ← channelOf c
    pure (c, some (i.toNat, o.toNat))
  | _ => .error .badRequest

/-- A channel's session is rebound to new slots: it is bound already, and its session is not IDLE (R115). -/
def State.rebindsSession (s : State) (c : Fin 4) : Bool := s.hwi.channels[c].isSome && s.sst[c].mode != .idle

/-- A pair bound to a channel, whose noise context restarts (R35, R97).  Under a session that goes on, the frame taken
for the listening mix moves to the new out-slot (R115); for any other binding no frame has yet been taken (R37).
DEDUCED: notes/assumptions/19.md. -/
def State.bindChannel (s : State) (c : Fin 4) (b : SlotPair) : State :=
  { s.modNoise (noiseOfChannel c) NoiseCtx.rebind with
    hwi := { s.hwi with
      channels := s.hwi.channels.set c (some b)
      supOut := if s.rebindsSession c then s.hwi.supOut else s.hwi.supOut.set c none } }

/-- A channel's slots released, and its session ended (R35); nothing for a channel that is unbound already. -/
def State.unbindChannel (s : State) (c : Fin 4) : State :=
  if s.hwi.channels[c].isSome then
    let s1 := { s with
      hwi := { s.hwi with channels := s.hwi.channels.set c none, supOut := s.hwi.supOut.set c none } }
    (s1.endSession c .channelUnbound).dropSup c
  else s

/-- The owner's checks of SET_SUP_CHANNEL, in the order of R35. -/
def serveSetSupChannel (s : State) (r : Request) : Reply :=
  s.withArgs (supChannelArgs r.params) fun (c, slots) =>
    match slots with
    | none => (s.unbindChannel c).okay []
    | some (i, o) =>
      match slotPairOf i o with
      | none => s.refuse .outOfRange
      | some b => if s.slotsInUse (.channel c) b then s.refuse .inUse else (s.bindChannel c b).okay []

/-- SET_SUP_CHANNEL, taken at a port. -/
def execSetSupChannel (port : Port) (s : State) : Result := .next (s.take port .setSupChannel serveSetSupChannel)

end Sys2Proof.Machine
end

