-- ==== Sys2Proof/Machine/StoreCommands.lean ====
section
/-!
DEFINITION. The requests of the store fetch engine, RESCAN and READ_STORE (R144, R152), and the events at the store
port: the fetch grant and the ends of fetches and of scan reads (R142, R147 to R151).
-/

namespace Sys2Proof.Machine

/-! ### RESCAN, READ_STORE -/

/-- The parameters of a request that carries none. -/
def noArgs : List Byte → Except Status Unit
  | [] => .ok ()
  | _ => .error .badRequest

/-- The owner's checks of RESCAN, in the order of R144. -/
def serveRescan (s : State) (r : Request) : Reply :=
  s.withArgs (noArgs r.params) fun _ =>
    if allVoices.any (fun v => s.vce[v].state != .free) then s.refuse .inUse
    else if s.sfe.store = .scanning then s.refuse .badState
    else s.startScan.okay []

/-- RESCAN, taken at a port. -/
def execRescan (port : Port) (s : State) : Result := .next (s.take port .rescan serveRescan)

/-- The set of voices whose refill flags are set, bit v for voice v (R152, R187). -/
def State.refillMask (s : State) : Nat := (allVoices.map (fun v => if s.vce[v].refill then 2 ^ v.val else 0)).sum

/-- The store state as READ_STORE carries it, in the order of R152. -/
def State.storeBytes (s : State) : List Byte :=
  let e := s.sfe
  byte1 e.store.code ++ byte2 e.clipCount ++
    byteOpt 2 e.settings.reminder ++ byteOpt 2 e.settings.muted ++ byteOpt 2 e.settings.batteryLow ++
    byteOpt 2 e.settings.batteryCritical ++ byte2 s.refillMask ++
    byteOpt 1 (e.fetch.map (fun f => f.voice.val)) ++ byteOpt 2 (e.fetch.map (fun f => f.count)) ++
    byte1 e.timeouts ++ byte1 e.lastFailure.code

/-- READ_STORE served. -/
def serveReadStore (s : State) (r : Request) : Reply :=
  s.withArgs (noArgs r.params) fun _ => s.okay s.storeBytes

/-- READ_STORE, taken at a port. -/
def execReadStore (port : Port) (s : State) : Result := .next (s.take port .readStore serveReadStore)

/-! ### Fetches (R147 to R151) -/

/-- FETCH_GRANT: the engine grants the fetch that stands, if one does (R147, R148). -/
def execFetchGrant (s : State) : Result := .next (if s.rstn then s else s.grantFetch)

/-- FETCH_COMPLETION: the fetch in flight has read all its stored samples (R149).
DESIGN CHOICE: notes/assumptions/25.md. -/
def execFetchCompletion (samples : List Word16) (s : State) : Result :=
  .next (match s.sfe.fetch with
    | none => s
    | some f => if s.rstn = false ∧ samples.length = f.count then s.completeFetch f samples else s)

/-- FETCH_TIMEOUT: the fetch in flight has not completed 2 ms after its grant (R150, R151). -/
def execFetchTimeout (s : State) : Result :=
  .next (match s.sfe.fetch with
    | none => s
    | some f => if s.rstn = false then s.timeoutFetch f else s)

/-! ### Scan reads (R142) -/

/-- The end of a scan whose reads are done (R140, R142): the checksum decides. -/
def State.endScan (s : State) (head directory : List Byte) : State :=
  if storeChecksum head directory = headerWord head 15 then s.passScan head directory else s.failScan

/-- A scan's header has been read (R142, R138): its format word and clip count are checked; with a clip count of 0
the directory step reads nothing. -/
def State.headerRead (s : State) (head : List Byte) : State :=
  if headerWord head 0 ≠ 0x1624 ∨ 512 < headerWord head 1 then s.failScan
  else if headerWord head 1 = 0 then s.endScan head []
  else { s with sfe := { s.sfe with scan := .directory head [] } }

/-- A read of the directory has brought bytes (R142): with 8 × clip count of them the scan ends. -/
def State.directoryRead (s : State) (head got bytes : List Byte) : State :=
  let all := (got ++ bytes).take (8 * headerWord head 1)
  if all.length = 8 * headerWord head 1 then s.endScan head all
  else { s with sfe := { s.sfe with scan := .directory head all } }

/-- SCAN_READ_DONE: the scan read in progress completes with these bytes (R142).  A header read brings exactly 32.
DESIGN CHOICE: notes/assumptions/25.md. -/
def execScanReadDone (bytes : List Byte) (s : State) : Result :=
  .next (if s.rstn then s
    else
      match s.sfe.scan with
      | .idle => s
      | .header => if bytes.length = 32 then s.headerRead bytes else s
      | .directory head got => s.directoryRead head got bytes)

/-- SCAN_READ_TIMEOUT: a scan read in progress times out and fails the scan (R142). -/
def execScanReadTimeout (s : State) : Result :=
  .next (if s.rstn = true ∨ s.sfe.scan = .idle then s else s.failScan)

end Sys2Proof.Machine
end

