-- ==== Sys2Proof/Machine/PortCommands.lean ====
section
/-!
DEFINITION. The power-on reset input, the transfers of the control ports and the requests that the control ports
take themselves: RSTN_ASSERT, RSTN_RELEASE, WRITE_TRANSFER, READ_TRANSFER, TAKE_REPORTS, SUBSCRIBE_METERS, RESET
(R169, R174, R181, R182, R184, R185).
-/

namespace Sys2Proof.Machine

/-! ### RSTN (R185) -/

/-- RSTN_ASSERT: every block takes its power-on values and stays at them; the waiting commands are the queue's.
DEDUCED: notes/assumptions/12.md. -/
def execRstnAssert (s : State) : Result := .next (State.powerOn true s.pending)

/-- RSTN_RELEASE: the part leaves reset with every block at its power-on values and the store scan begun. -/
def execRstnRelease (s : State) : Result := .next (if s.rstn then State.released s.pending else s)

/-! ### Transfers (R169, R174) -/

/-- The request that a write transfer carries; none when it ends before the header is complete (R169).
DEDUCED: notes/assumptions/21.md. -/
def requestOf : List Byte → Option Request
  | kind :: tag :: length :: params => some { kind := kind, tag := tag, length := length, params := params }
  | _ => none

/-- The BUSY mark with its response header (R169, R187). -/
def busyMark (r : Request) (overflow : Bool) : List Byte :=
  0x02 :: Response.bytes { kind := r.kind, tag := r.tag, status := .busy, overflow := overflow, data := [] }

/-- A write transfer at a port in operation (R169). -/
def PortState.write (ps : PortState) (bytes : List Byte) : PortState :=
  match requestOf bytes with
  | none => { ps with markOut := [0x00] }
  | some r =>
    if ps.held < Config.exchangeDepth then { ps with untaken := ps.untaken ++ [r], markOut := [0x01] }
    else { ps with markOut := busyMark r ps.overflow }

/-- WRITE_TRANSFER; while RSTN is asserted it carries no request and no mark is sent (R185, R187). -/
def execWriteTransfer (port : Port) (bytes : List Byte) (s : State) : Result :=
  .next (s.modPort port (fun ps => if s.rstn then { ps with markOut := [] } else ps.write bytes))

/-- A read transfer at a port in operation (R174). -/
def PortState.read (ps : PortState) : PortState :=
  match ps.responses with
  | [] => { ps with readOut := noneReady }
  | x :: rest => { ps with responses := rest, readOut := x.bytes }

/-- READ_TRANSFER; while RSTN is asserted it returns no response (R185). -/
def execReadTransfer (port : Port) (s : State) : Result :=
  .next (s.modPort port (fun ps => if s.rstn then { ps with readOut := [] } else ps.read))

/-! ### TAKE_REPORTS (R181) -/

/-- The parameters of TAKE_REPORTS: max. -/
def maxArg : List Byte → Except Status Nat
  | [n] => .ok n.toNat
  | _ => .error .badRequest

/-- The entries that a TAKE_REPORTS of this max removes (R181). -/
def PortState.taken (ps : PortState) (max : Nat) : List Report := ps.reports.take (clampNat 1 8 max)

/-- TAKE_REPORTS served at its own port. -/
def serveTakeReports (port : Port) (s : State) (r : Request) : Reply :=
  s.withArgs (maxArg r.params) fun max =>
    let entries := (s.port port).taken max
    (s.modPort port (fun ps => takeEntries ps (clampNat 1 8 max))).okay
      (byte1 entries.length ++ entries.flatMap Report.bytes)

/-- TAKE_REPORTS, taken at a port. -/
def execTakeReports (port : Port) (s : State) : Result := .next (s.take port .takeReports (serveTakeReports port))

/-! ### SUBSCRIBE_METERS (R182) -/

/-- The parameters of SUBSCRIBE_METERS: mask; period code. -/
def meterArgs : List Byte → Except Status (BitVec 16 × MeterPeriod)
  | [m0, m1, code] => do
    let period ← periodOf code
    pure (BitVec.ofNat 16 (leNat [m0, m1]), period)
  | _ => .error .badRequest

/-- SUBSCRIBE_METERS served at its own port (R182): any mask is taken, that of a CLOSING position too.
DESIGN CHOICE: notes/assumptions/24.md, notes/assumptions/40.md. -/
def serveSubscribeMeters (port : Port) (s : State) (r : Request) : Reply :=
  s.withArgs (meterArgs r.params) fun (mask, period) =>
    (s.modPort port (fun ps => { ps with mask := mask, period := period, counter := period.frames })).okay
      (byte2 mask.toNat ++ byte1 period.code)

/-- SUBSCRIBE_METERS, taken at a port. -/
def execSubscribeMeters (port : Port) (s : State) : Result :=
  .next (s.take port .subscribeMeters (serveSubscribeMeters port))

/-! ### RESET (R184) -/

/-- RESET served: no owner's checks; the reset itself follows the response (R184). -/
def serveReset (s : State) (r : Request) : Reply := s.withArgs (noArgs r.params) fun _ => s.okay []

/-- The ABORTED response to an untaken request (R184). -/
def PortState.aborted (ps : PortState) (r : Request) : Response :=
  { kind := r.kind, tag := r.tag, status := .aborted, overflow := ps.overflow, data := [] }

/-- A port through a soft reset (R168, R184): the untaken requests are answered ABORTED in arrival order, the report
queue is emptied, the overflow flag cleared and the subscription ended. -/
def PortState.softReset (ps : PortState) : PortState :=
  { ps with
    untaken := []
    responses := ps.responses ++ ps.untaken.map ps.aborted
    reports := []
    overflow := false
    mask := 0
    period := .off
    counter := none }

/-- An echo context through a soft reset (R64); `wasClosed` says that its position was CLOSED. -/
def EchoCtx.softReset (c : EchoCtx) (wasClosed : Bool) : EchoCtx :=
  let c1 := if wasClosed then c else c.setCoeffs zeroCoeffs
  { EchoCtx.powerOn with coeffs := c1.coeffs, generation := c1.generation }

/-- A noise context through a soft reset (R84); `keep` says that it belongs to a position that was CLOSED. -/
def NoiseCtx.softReset (c : NoiseCtx) (keep : Bool) : NoiseCtx :=
  { NoiseCtx.powerOn with estimate := if keep then c.estimate else 1 }

/-- The position of a noise context was CLOSED. -/
def State.contextClosed (s : State) (n : Fin 20) : Bool :=
  if h : n.val < 16 then (s.pos ⟨n.val, h⟩).state == .closed else false

/-- The headset link through a soft reset (R38). -/
def Headset.softReset (h : Headset) : Headset := { h with arrived := false, mic := zeroFrame }

/-- The mix engine through a soft reset (R41): its state after RSTN; the frames last produced are not named there
and stay. -/
def Mxe.softReset (m : Mxe) : Mxe := { Mxe.powerOn with ear := m.ear, line := m.line, sup := m.sup }

/-- The talk frames through a soft reset: no channel is bound any more, so none of them is live, and the cleared
supervisor contexts learn nothing until their channels are bound anew (R32, R84).
DESIGN CHOICE: notes/assumptions/11.md. -/
def talkUnbound (talk : Vector TalkFrame 4) : Vector TalkFrame 4 :=
  allChannels.foldl (fun (v : Vector TalkFrame 4) (c : Fin 4) => upd v c (fun x => { x with live := false })) talk

/-- The highway interface through a soft reset (R32): every slot unbound, and no talk frame live. -/
def Hwi.softReset (h : Hwi) : Hwi :=
  { h with
    channels := Vector.replicate 4 none
    talk := talkUnbound h.talk
    lineOut := Vector.replicate 16 none
    supOut := Vector.replicate 4 none }

/-- The frames taken at the current frame event through a soft reset: those whose source the reset zeroes are
zeroed, and no talk frame is live.  The present fields captured for it (R69) become absent with the position records.
DESIGN CHOICE: notes/assumptions/11.md. -/
def Taken.softReset (t : Taken) : Taken :=
  { Taken.powerOn with far := t.far, talk := talkUnbound t.talk, ear := t.ear, line := t.line, sup := t.sup }

/-- The store fetch engine through a soft reset (R143), before the scan it may begin. -/
def Sfe.softReset (e : Sfe) : Sfe := { e with fetch := none, timeouts := 0, owed := none }

/-- Every block but the control ports and the timing unit takes its soft-reset values (R184, step 4).
DESIGN CHOICE: notes/assumptions/11.md. -/
def State.resetBlocks (s : State) : State :=
  let s1 := { s with
    hwi := s.hwi.softReset
    hli := allPositions.foldl (fun (v : Vector Headset 16) (p : Fin 16) => upd v p Headset.softReset) s.hli
    pct := allPositions.foldl (fun (v : Vector Position 16) (p : Fin 16) =>
      upd v p (fun x => { Position.powerOn with retained := x.retained })) s.pct
    mxe := s.mxe.softReset
    ecu := allPositions.foldl (fun (v : Vector EchoCtx 16) (p : Fin 16) =>
      upd v p (fun c => c.softReset ((s.pos p).state == .closed))) s.ecu
    nru := { contexts := allNoise.foldl (fun (v : Vector NoiseCtx 20) (n : Fin 20) =>
               upd v n (fun c => c.softReset (s.contextClosed n))) s.nru.contexts
             supSettings := Vector.replicate 4 .powerOn }
    sst := Vector.replicate 4 .powerOn
    vce := Vector.replicate 12 .powerOn
    sfe := s.sfe.softReset
    pqc := .powerOn
    taken := s.taken.softReset }
  if s.sfe.store = .ready then s1 else s1.startScan

/-- The change that a taken RESET makes after its response, in the order of R184. -/
def State.softReset (s : State) : State :=
  let s1 := { s with cpt := { line := s.cpt.line.softReset, desk := s.cpt.desk.softReset,
                              supervision := s.cpt.supervision.softReset } }
  s1.resetBlocks.reportAll allPorts .resetDone

/-- RESET, taken at a port: the response is made first (R184). -/
def execReset (port : Port) (s : State) : Result :=
  .next (match s.takeRequest port .reset serveReset with
    | (s1, some .ok) => s1.softReset
    | (s1, _) => s1)

end Sys2Proof.Machine
end

