-- ==== Sys2Proof/Machine/PromptRequests.lean ====
section
/-!
DEFINITION. The requests of the prompt queue controller: AGENT_PROMPT, COACH_PROMPT, ANNOUNCE, CLEAR_AGENT_PROMPTS,
CLEAR_ANNOUNCE (R154 to R156, R164), and the event VOICE_POOL_GRANT (R159 to R161).
-/

namespace Sys2Proof.Machine

/-- The parameters of AGENT_PROMPT and COACH_PROMPT: position; duck; step list. -/
def promptArgs : List Byte → Except Status (Fin 16 × Bool × List Step)
  | p :: duck :: list =>
    if stepsLengthOk list then do
      let p ← positionOf p
      let duck ← flagOf duck.toNat
      let steps ← stepsOf list
      pure (p, duck, steps)
    else .error .badRequest
  | _ => .error .badRequest

/-- The parameters of ANNOUNCE: position; step list. -/
def announceArgs : List Byte → Except Status (Fin 16 × List Step)
  | p :: list =>
    if stepsLengthOk list then do
      let p ← positionOf p
      let steps ← stepsOf list
      pure (p, steps)
    else .error .badRequest
  | _ => .error .badRequest

/-- An entry joins the tail of a queue that has room; the data are its place and the queue's count (R154). -/
def State.joinTail (s : State) (p : Fin 16) (q : QueueId) (e : Entry) : Reply :=
  let n := (s.queue p q).length
  if n < Config.queueDepth then (s.enqueue p q e).okay (byte1 n ++ byte1 (n + 1)) else s.refuse .queueFull

/-- The owner's checks of AGENT_PROMPT (R154). -/
def serveAgentPrompt (s : State) (r : Request) : Reply :=
  s.withArgs (promptArgs r.params) fun (p, duck, steps) =>
    if (s.pos p).state = .opened then
      s.joinTail p .agent { origin := .desk, tag := r.tag, steps := steps, duck := duck, voice := none }
    else s.refuse .badState

/-- AGENT_PROMPT, taken at a port. -/
def execAgentPrompt (port : Port) (s : State) : Result := .next (s.take port .agentPrompt serveAgentPrompt)

/-- The owner's checks of COACH_PROMPT (R155). -/
def serveCoachPrompt (s : State) (r : Request) : Reply :=
  s.withArgs (promptArgs r.params) fun (p, duck, steps) =>
    if (s.pos p).state ≠ .opened then s.refuse .badState
    else if (s.pos p).supervisionAllowed then
      s.joinTail p .agent { origin := .supervision, tag := r.tag, steps := steps, duck := duck, voice := none }
    else s.refuse .notPermitted

/-- COACH_PROMPT, taken at a port. -/
def execCoachPrompt (port : Port) (s : State) : Result := .next (s.take port .coachPrompt serveCoachPrompt)

/-- The owner's checks of ANNOUNCE (R156). -/
def serveAnnounce (s : State) (r : Request) : Reply :=
  s.withArgs (announceArgs r.params) fun (p, steps) =>
    if (s.pos p).state = .opened ∧ (s.pos p).call ≠ .idle then
      s.joinTail p .line { origin := .line, tag := r.tag, steps := steps, duck := false, voice := none }
    else s.refuse .badState

/-- ANNOUNCE, taken at a port. -/
def execAnnounce (port : Port) (s : State) : Result := .next (s.take port .announce serveAnnounce)

/-- A queue cleared by a request (R164): refused while CLOSING, else flushed, with the number removed. -/
def State.clearQueue (s : State) (p : Fin 16) (q : QueueId) : Reply :=
  if (s.pos p).state = .closing then s.refuse .badState
  else (s.flushQueue p q).okay (byte1 (s.queue p q).length)

/-- CLEAR_AGENT_PROMPTS served. -/
def serveClearAgentPrompts (s : State) (r : Request) : Reply :=
  s.withArgs (positionArg r.params) fun p => s.clearQueue p .agent

/-- CLEAR_AGENT_PROMPTS, taken at a port. -/
def execClearAgentPrompts (port : Port) (s : State) : Result :=
  .next (s.take port .clearAgentPrompts serveClearAgentPrompts)

/-- CLEAR_ANNOUNCE served. -/
def serveClearAnnounce (s : State) (r : Request) : Reply :=
  s.withArgs (positionArg r.params) fun p => s.clearQueue p .line

/-- CLEAR_ANNOUNCE, taken at a port. -/
def execClearAnnounce (port : Port) (s : State) : Result := .next (s.take port .clearAnnounce serveClearAnnounce)

/-- VOICE_POOL_GRANT: one grant of the voice pool arbiter, if one stands (R159 to R161). -/
def execVoicePoolGrant (s : State) : Result := .next (if s.rstn then s else s.poolGrant)

end Sys2Proof.Machine
end

