-- ==== Sys2Proof/Machine/SessionRequests.lean ====
section
/-!
DEFINITION. The requests of the session table: JOIN, CHANGE_MODE, LEAVE, READ_SESSION (chapter 6).
-/

namespace Sys2Proof.Machine

/-! ### JOIN (R102, R103) -/

/-- The fields of a JOIN, with the defaults for those left out and the clamps of R102. -/
structure JoinFields where
  channel : Fin 4
  position : Fin 16
  mode : SupMode
  talkGain : Nat
  duckLevel : Nat
  release : Nat

/-- The parameters of JOIN: channel; position; mode; mask; talk gain, duck level, release. -/
def joinArgs : List Byte → Except Status JoinFields
  | c :: p :: mode :: mask :: rest =>
    match maskedFields [2, 2, 2] mask.toNat rest with
    | some [talk, duck, release] => do
      let c ← channelOf c
      let p ← positionOf p
      let mode ← modeOf mode
      pure { channel := c, position := p, mode := mode
             talkGain := gainCode (talk.getD 4096)
             duckLevel := min 4096 (duck.getD 1024)
             release := clampNat 1 250 (release.getD 50) }
    | _ => .error .badRequest
  | _ => .error .badRequest

/-- The status that the checks of R103 give a JOIN, in their order. -/
def State.joinStatus (s : State) (f : JoinFields) : Status :=
  let x := s.pos f.position
  if s.hwi.channels[f.channel].isNone then .badState
  else if s.sst[f.channel].mode ≠ .idle then .badState
  else if ¬(x.state = .opened ∧ (x.call = .talk ∨ x.call = .hold)) then .badState
  else if x.supervisionAllowed = false then .notPermitted
  else if 2 ≤ s.sessionCount f.position then .noResource
  else if f.mode.talking = true ∧ (s.talker f.position).isSome = true then .inUse
  else .ok

/-- The session record that a JOIN writes (R103). -/
def JoinFields.session (f : JoinFields) : Session :=
  { mode := f.mode, target := some f.position, talkGain := f.talkGain, duckLevel := f.duckLevel,
    release := f.release, lastEnd := .none }

/-- The owner's checks of JOIN. -/
def serveJoin (s : State) (r : Request) : Reply :=
  s.withArgs (joinArgs r.params) fun f =>
    match s.joinStatus f with
    | .ok => (s.modSession f.channel (fun _ => f.session)).okay (byte2 f.talkGain ++ byte2 f.duckLevel ++ byte2 f.release)
    | status => s.refuse status

/-- JOIN, taken at a port. -/
def execJoin (port : Port) (s : State) : Result := .next (s.take port .join serveJoin)

/-! ### CHANGE_MODE (R106) -/

/-- The parameters of CHANGE_MODE: channel; mode. -/
def changeModeArgs : List Byte → Except Status (Fin 4 × SupMode)
  | [c, mode] => do
    let c ← channelOf c
    let mode ← modeOf mode
    pure (c, mode)
  | _ => .error .badRequest

/-- Another session on the target position of channel `c` talks (R106). -/
def State.otherTalks (s : State) (c : Fin 4) : Bool :=
  match s.sst[c].target with
  | none => false
  | some p => allChannels.any (fun k => decide (k ≠ c) && s.talkingOn p k)

/-- The owner's checks of CHANGE_MODE. -/
def serveChangeMode (s : State) (r : Request) : Reply :=
  s.withArgs (changeModeArgs r.params) fun (c, mode) =>
    if s.sst[c].mode = .idle then s.refuse .badState
    else if mode.talking && s.otherTalks c then s.refuse .inUse
    else (s.modSession c (fun x => { x with mode := mode })).okay []

/-- CHANGE_MODE, taken at a port. -/
def execChangeMode (port : Port) (s : State) : Result := .next (s.take port .changeMode serveChangeMode)

/-! ### LEAVE (R108) -/

/-- The parameters of a request that names a channel alone. -/
def channelArg : List Byte → Except Status (Fin 4)
  | [c] => channelOf c
  | _ => .error .badRequest

/-- The owner's checks of LEAVE. -/
def serveLeave (s : State) (r : Request) : Reply :=
  s.withArgs (channelArg r.params) fun c =>
    if s.sst[c].mode = .idle then s.refuse .badState else (s.idleSession c .left).okay []

/-- LEAVE, taken at a port. -/
def execLeave (port : Port) (s : State) : Result := .next (s.take port .leave serveLeave)

/-! ### READ_SESSION (R116) -/

/-- A session as READ_SESSION carries it, in the order of R116. -/
def State.sessionBytes (s : State) (c : Fin 4) : List Byte :=
  let x := s.sst[c]
  let n := s.nru.contexts[noiseOfChannel c]
  byte1 x.mode.code ++ byteOpt 1 (x.target.map (fun p => p.val)) ++ byte2 x.talkGain ++ byte2 x.duckLevel ++
    byte2 x.release ++ byte1 x.lastEnd.code ++ byteSlots s.hwi.channels[c] ++ byte1 n.state.code ++
    byteBool n.out.speech

/-- READ_SESSION served. -/
def serveReadSession (s : State) (r : Request) : Reply :=
  s.withArgs (channelArg r.params) fun c => s.okay (s.sessionBytes c)

/-- READ_SESSION, taken at a port. -/
def execReadSession (port : Port) (s : State) : Result := .next (s.take port .readSession serveReadSession)

end Sys2Proof.Machine
end

