-- ==== Sys2Proof/Machine/VoiceRequests.lean ====
section
/-!
DEFINITION. The requests of the voice engine: START_PROGRAM, STOP_PROGRAM, SET_HOLD_SOURCE, READ_VOICE
(R134 to R137).
-/

namespace Sys2Proof.Machine

/-! ### START_PROGRAM (R134) -/

/-- The parameters of START_PROGRAM: voice; step list. -/
def startArgs : List Byte → Except Status (Fin 12 × List Step)
  | v :: list =>
    if stepsLengthOk list then do
      let v ← voiceOf v
      let steps ← stepsOf list
      pure (v, steps)
    else .error .badRequest
  | _ => .error .badRequest

/-- The owner's checks of START_PROGRAM. -/
def serveStartProgram (s : State) (r : Request) : Reply :=
  s.withArgs (startArgs r.params) fun (v, steps) =>
    if s.vce[v].state = .free then (s.modVoice v (fun x => x.start .program steps)).okay []
    else s.refuse .inUse

/-- START_PROGRAM, taken at a port. -/
def execStartProgram (port : Port) (s : State) : Result := .next (s.take port .startProgram serveStartProgram)

/-! ### STOP_PROGRAM (R135) -/

/-- The parameters of a request that names a voice alone. -/
def voiceArg : List Byte → Except Status (Fin 12)
  | [v] => voiceOf v
  | _ => .error .badRequest

/-- Some position in HOLD has voice `v` as its hold source (R135). -/
def State.holdsOn (s : State) (v : Fin 12) : Bool :=
  allPositions.any (fun p => (s.pos p).call == .hold && (s.pos p).holdSource == some v)

/-- The owner's checks of STOP_PROGRAM, in the order of R135. -/
def serveStopProgram (s : State) (r : Request) : Reply :=
  s.withArgs (voiceArg r.params) fun v =>
    if s.holdsOn v then s.refuse .inUse
    else if s.vce[v].inProgram then (s.drainVoice v none).okay []
    else s.refuse .badState

/-- STOP_PROGRAM, taken at a port. -/
def execStopProgram (port : Port) (s : State) : Result := .next (s.take port .stopProgram serveStopProgram)

/-! ### SET_HOLD_SOURCE (R136) -/

/-- A source field: 0xFF is none; any other value above 11 fails check 4 (R186). -/
def sourceOf (b : Byte) : Except Status (Option (Fin 12)) :=
  if b = 0xFF then .ok none else (voiceOf b).map some

/-- The parameters of SET_HOLD_SOURCE: position; source; hold gain or nothing, by the length. -/
def holdArgs : List Byte → Except Status (Fin 16 × Option (Fin 12) × Option Nat)
  | [p, v] => do
    let p ← positionOf p
    let v ← sourceOf v
    pure (p, v, none)
  | [p, v, g0, g1] => do
    let p ← positionOf p
    let v ← sourceOf v
    pure (p, v, some (leNat [g0, g1]))
  | _ => .error .badRequest

/-- The hold fields after SET_HOLD_SOURCE (R136). -/
def Position.setHold (x : Position) (source : Option (Fin 12)) (gain : Option Nat) : Position :=
  { x with holdSource := source, holdGain := (gain.map gainCode).getD x.holdGain }

/-- The owner's checks of SET_HOLD_SOURCE. -/
def serveSetHoldSource (s : State) (r : Request) : Reply :=
  s.withArgs (holdArgs r.params) fun (p, source, gain) =>
    if (s.pos p).state = .closing then s.refuse .badState
    else if source.any (fun v => !s.vce[v].inProgram) then s.refuse .badState
    else (s.modPos p (fun x => x.setHold source gain)).okay
      (byteOpt 1 (source.map (fun v => v.val)) ++ byte2 ((s.pos p).setHold source gain).holdGain)

/-- SET_HOLD_SOURCE, taken at a port. -/
def execSetHoldSource (port : Port) (s : State) : Result := .next (s.take port .setHoldSource serveSetHoldSource)

/-! ### READ_VOICE (R137) -/

/-- A voice as READ_VOICE carries it, in the order of R137; a current step at the end of its list reads 8. -/
def State.voiceBytes (s : State) (v : Fin 12) : List Byte :=
  let x := s.vce[v]
  byte1 x.state.code ++ x.use.bytes ++ byteOpt 1 (x.drainedFor.map (fun p => p.val)) ++ stepListBytes x.steps ++
    byte1 (x.current.getD 8) ++ byteOpt 4 (x.clip.map (fun c => c.remaining)) ++ byte2 x.buffer.length ++
    byteBool x.endFetched ++ byteBool x.refill ++ byteBool (s.inFlight v) ++ byte2 x.underruns ++ byte1 x.skipped ++
    marksBytes x.marks

/-- READ_VOICE served. -/
def serveReadVoice (s : State) (r : Request) : Reply :=
  s.withArgs (voiceArg r.params) fun v => s.okay (s.voiceBytes v)

/-- READ_VOICE, taken at a port. -/
def execReadVoice (port : Port) (s : State) : Result := .next (s.take port .readVoice serveReadVoice)

end Sys2Proof.Machine
end

