-- ==== Sys2Proof/Machine/Dispatch.lean ====
section
/-!
DEFINITION. The meaning of every command: one arm per constructor of `Instr`, one direct call each.
-/

namespace Sys2Proof.Machine

/-- The effect of a command on everything but the queue of waiting commands. -/
def exec (i : Instr) (s : State) : Host.Outcome State Fault Refusal :=
  match i with
  | .rstnAssert => Sys2Proof.Machine.execRstnAssert s
  | .rstnRelease => Sys2Proof.Machine.execRstnRelease s
  | .writeTransfer port bytes => Sys2Proof.Machine.execWriteTransfer port bytes s
  | .readTransfer port => Sys2Proof.Machine.execReadTransfer port s
  | .openPosition port => Sys2Proof.Machine.execOpen port s
  | .closePosition port => Sys2Proof.Machine.execClose port s
  | .setDesk port => Sys2Proof.Machine.execSetDesk port s
  | .setBattery port => Sys2Proof.Machine.execSetBattery port s
  | .setSupervision port => Sys2Proof.Machine.execSetSupervision port s
  | .setCall port => Sys2Proof.Machine.execSetCall port s
  | .setReminder port => Sys2Proof.Machine.execSetReminder port s
  | .ackReminder port => Sys2Proof.Machine.execAckReminder port s
  | .readPosition port => Sys2Proof.Machine.execReadPosition port s
  | .bindLine port => Sys2Proof.Machine.execBindLine port s
  | .unbindLine port => Sys2Proof.Machine.execUnbindLine port s
  | .setSupChannel port => Sys2Proof.Machine.execSetSupChannel port s
  | .setEc port => Sys2Proof.Machine.execSetEc port s
  | .readCoeffs port => Sys2Proof.Machine.execReadCoeffs port s
  | .setNr port => Sys2Proof.Machine.execSetNr port s
  | .setSupNr port => Sys2Proof.Machine.execSetSupNr port s
  | .join port => Sys2Proof.Machine.execJoin port s
  | .changeMode port => Sys2Proof.Machine.execChangeMode port s
  | .leave port => Sys2Proof.Machine.execLeave port s
  | .readSession port => Sys2Proof.Machine.execReadSession port s
  | .startProgram port => Sys2Proof.Machine.execStartProgram port s
  | .stopProgram port => Sys2Proof.Machine.execStopProgram port s
  | .setHoldSource port => Sys2Proof.Machine.execSetHoldSource port s
  | .readVoice port => Sys2Proof.Machine.execReadVoice port s
  | .rescan port => Sys2Proof.Machine.execRescan port s
  | .readStore port => Sys2Proof.Machine.execReadStore port s
  | .agentPrompt port => Sys2Proof.Machine.execAgentPrompt port s
  | .coachPrompt port => Sys2Proof.Machine.execCoachPrompt port s
  | .announce port => Sys2Proof.Machine.execAnnounce port s
  | .clearAgentPrompts port => Sys2Proof.Machine.execClearAgentPrompts port s
  | .clearAnnounce port => Sys2Proof.Machine.execClearAnnounce port s
  | .takeReports port => Sys2Proof.Machine.execTakeReports port s
  | .subscribeMeters port => Sys2Proof.Machine.execSubscribeMeters port s
  | .reset port => Sys2Proof.Machine.execReset port s
  | .samplePeriod slots => Sys2Proof.Machine.execSamplePeriod slots s
  | .frameEvent order held => Sys2Proof.Machine.execFrameEvent order held s
  | .highwaySync t => Sys2Proof.Machine.execHighwaySync t s
  | .syncGapTimeout slots order => Sys2Proof.Machine.execSyncGapTimeout slots order s
  | .headsetFrameArrival p words framed => Sys2Proof.Machine.execHeadsetFrameArrival p words framed s
  | .presenceChange p => Sys2Proof.Machine.execPresenceChange p s
  | .reminderExpiry p => Sys2Proof.Machine.execReminderExpiry p s
  | .mutedTalkCountFull p => Sys2Proof.Machine.execMutedTalkCountFull p s
  | .closeCompletion p => Sys2Proof.Machine.execCloseCompletion p s
  | .ecDivergence p => Sys2Proof.Machine.execEcDivergence p s
  | .ecConverged p => Sys2Proof.Machine.execEcConverged p s
  | .ecLostTracking p => Sys2Proof.Machine.execEcLostTracking p s
  | .nrLearnComplete n => Sys2Proof.Machine.execNrLearnComplete n s
  | .nrHangoverEnd n => Sys2Proof.Machine.execNrHangoverEnd n s
  | .nrSpeechRunRestart n => Sys2Proof.Machine.execNrSpeechRunRestart n s
  | .meterWindowClose => Sys2Proof.Machine.execMeterWindowClose s
  | .meterPeriodExpiry port => Sys2Proof.Machine.execMeterPeriodExpiry port s
  | .voiceStartPlaying v => Sys2Proof.Machine.execVoiceStartPlaying v s
  | .refillRequest v => Sys2Proof.Machine.execRefillRequest v s
  | .fetchGrant => Sys2Proof.Machine.execFetchGrant s
  | .fetchCompletion samples => Sys2Proof.Machine.execFetchCompletion samples s
  | .fetchTimeout => Sys2Proof.Machine.execFetchTimeout s
  | .scanReadDone bytes => Sys2Proof.Machine.execScanReadDone bytes s
  | .scanReadTimeout => Sys2Proof.Machine.execScanReadTimeout s
  | .drainFade v => Sys2Proof.Machine.execDrainFade v s
  | .promptCompletion v => Sys2Proof.Machine.execPromptCompletion v s
  | .voicePoolGrant => Sys2Proof.Machine.execVoicePoolGrant s

end Sys2Proof.Machine
end

