-- ==== Sys2Proof/Safety.lean ====
section
/-!
DEFINITION. The words in which claims about the part are made: which request a row takes, how a port is left by an
answer, the laws that the specification calls "a law of the part", and what a safe run is.
-/

namespace Sys2Proof.Machine

/-! ### Requests and answers -/

/-- The port and kind of a row of the request table; none for the other rows. -/
def requestRow : Instr → Option (Port × Kind)
  | .rstnAssert => none
  | .rstnRelease => none
  | .writeTransfer _ _ => none
  | .readTransfer _ => none
  | .openPosition port => some (port, .openPosition)
  | .closePosition port => some (port, .close)
  | .setDesk port => some (port, .setDesk)
  | .setBattery port => some (port, .setBattery)
  | .setSupervision port => some (port, .setSupervision)
  | .setCall port => some (port, .setCall)
  | .setReminder port => some (port, .setReminder)
  | .ackReminder port => some (port, .ackReminder)
  | .readPosition port => some (port, .readPosition)
  | .bindLine port => some (port, .bindLine)
  | .unbindLine port => some (port, .unbindLine)
  | .setSupChannel port => some (port, .setSupChannel)
  | .setEc port => some (port, .setEc)
  | .readCoeffs port => some (port, .readCoeffs)
  | .setNr port => some (port, .setNr)
  | .setSupNr port => some (port, .setSupNr)
  | .join port => some (port, .join)
  | .changeMode port => some (port, .changeMode)
  | .leave port => some (port, .leave)
  | .readSession port => some (port, .readSession)
  | .startProgram port => some (port, .startProgram)
  | .stopProgram port => some (port, .stopProgram)
  | .setHoldSource port => some (port, .setHoldSource)
  | .readVoice port => some (port, .readVoice)
  | .rescan port => some (port, .rescan)
  | .readStore port => some (port, .readStore)
  | .agentPrompt port => some (port, .agentPrompt)
  | .coachPrompt port => some (port, .coachPrompt)
  | .announce port => some (port, .announce)
  | .clearAgentPrompts port => some (port, .clearAgentPrompts)
  | .clearAnnounce port => some (port, .clearAnnounce)
  | .takeReports port => some (port, .takeReports)
  | .subscribeMeters port => some (port, .subscribeMeters)
  | .reset port => some (port, .reset)
  | .samplePeriod _ => none
  | .frameEvent _ _ => none
  | .highwaySync _ => none
  | .syncGapTimeout _ _ => none
  | .headsetFrameArrival _ _ _ => none
  | .presenceChange _ => none
  | .reminderExpiry _ => none
  | .mutedTalkCountFull _ => none
  | .closeCompletion _ => none
  | .ecDivergence _ => none
  | .ecConverged _ => none
  | .ecLostTracking _ => none
  | .nrLearnComplete _ => none
  | .nrHangoverEnd _ => none
  | .nrSpeechRunRestart _ => none
  | .meterWindowClose => none
  | .meterPeriodExpiry _ => none
  | .voiceStartPlaying _ => none
  | .refillRequest _ => none
  | .fetchGrant => none
  | .fetchCompletion _ => none
  | .fetchTimeout => none
  | .scanReadDone _ => none
  | .scanReadTimeout => none
  | .drainFade _ => none
  | .promptCompletion _ => none
  | .voicePoolGrant => none

/-- The part is out of reset and the oldest untaken request of `port` is `r`, with `rest` behind it (R170). -/
abbrev State.offers (s : State) (port : Port) (r : Request) (rest : List Request) : Prop :=
  s.rstn = false ∧ (s.port port).untaken = r :: rest

/-- The request is of this kind, and its transfer carried as many parameter bytes as its header states (R171). -/
abbrev Request.whole (r : Request) (k : Kind) : Prop := r.kind = k.code ∧ r.params.length = r.length.toNat

/-- A request of kind `k` that a port with the rights for it has at the head, in a part out of reset. -/
abbrev State.asks (s : State) (port : Port) (k : Kind) (r : Request) (rest : List Request) : Prop :=
  s.offers port r rest ∧ r.whole k ∧ k.allows port = true

/-- The response to `r` with this status and data, under the overflow flag of the port (R172). -/
def Request.answer (r : Request) (overflow : Bool) (status : Status) (data : List Byte) : Response :=
  { kind := r.kind, tag := r.tag, status := status, overflow := overflow, data := data }

/-- The ports once `port` has taken its oldest request, with `rest` behind it (R170). -/
def Cpt.taking (c : Cpt) (port : Port) (rest : List Request) : Cpt := c.set port { c.get port with untaken := rest }

/-- The ports once a response has joined the tail of a port's response queue (R170). -/
def Cpt.responding (c : Cpt) (port : Port) (x : Response) : Cpt :=
  c.set port { c.get port with responses := (c.get port).responses ++ [x] }

/-- The ports once `port` has taken `r` and answered it, when nothing else reached a port (R170, R172). -/
def Cpt.answered (c : Cpt) (port : Port) (r : Request) (rest : List Request) (status : Status) (data : List Byte) : Cpt :=
  (c.taking port rest).responding port (r.answer (c.get port).overflow status data)

/-- The ports once a report that carries this frame count is placed at one of them (R175 to R178). -/
def Cpt.place (c : Cpt) (frame : BitVec 32) (port : Port) (body : ReportBody) : Cpt :=
  c.set port (placeReport (c.get port) { body := body, frame := frame })

/-- The ports once the sessions on a position have ended: one SESSION_ENDED for each, in channel order (R109). -/
def State.placeEndings (s : State) (p : Fin 16) (reason : SessionEnd) (c : Cpt) : Cpt :=
  allChannels.foldl (fun c k =>
    if s.sessionOn p k then c.place s.ftu.frameCount .supervision (.sessionEnded k p reason) else c) c

/-- The PROMPT_DONE of a cancelled entry: what its voice held, or nothing while WAITING (R163). -/
def State.cancelBody (s : State) (p : Fin 16) (q : QueueId) (e : Entry) : ReportBody :=
  match e.voice with
  | none => .promptDone p q e.origin e.tag .cancelled 0 []
  | some v => .promptDone p q e.origin e.tag .cancelled s.vce[v].underruns s.vce[v].marks

/-- The ports once a queue has been flushed: one PROMPT_DONE for each entry, head first, to the port of its origin
(R163, R165). -/
def State.placeCancels (s : State) (p : Fin 16) (q : QueueId) (c : Cpt) : Cpt :=
  (s.queue p q).foldl (fun c e => c.place s.ftu.frameCount e.origin.port (s.cancelBody p q e)) c

/-- A voice is held by an entry of a queue. -/
def State.heldBy (s : State) (p : Fin 16) (q : QueueId) (v : Fin 12) : Bool :=
  (s.queue p q).any (fun e => e.voice == some v)

/-- The prompt queues once an automatic prompt of kind `k` has been offered to position `p` (R157): one entry more at
the tail of the AGENT queue when the store is READY with a clip for the kind, the queue has room and holds no
automatic entry of the kind. -/
def State.afterOffer (s : State) (p : Fin 16) (k : AutoKind) : Pqc :=
  match s.sfe.settings.clip k with
  | none => s.pqc
  | some n =>
    if s.sfe.store = .ready ∧ s.pqc.agent[p].length < 4 ∧ ∀ e ∈ s.pqc.agent[p], e.origin ≠ .auto k then
      { s.pqc with agent := s.pqc.agent.set p (s.pqc.agent[p] ++
          [{ origin := .auto k, tag := 0, steps := [.clip n], duck := true, voice := none }]) }
    else s.pqc

/-- What an acceptable parameter list gives; none where a common check fails on it. -/
def argsOf {α : Type} : Except Status α → Option α
  | .ok a => some a
  | .error _ => none

/-- The position that a request with acceptable parameters names (R6); none where it names none, and a meter mask names none.
DESIGN CHOICE: notes/assumptions/40.md. -/
def Kind.named (k : Kind) (params : List Byte) : Option (Fin 16) :=
  match k with
  | .openPosition => (argsOf (openArgs params)).map (fun a => a.1)
  | .close => (argsOf (closeArgs params)).map (fun a => a.1)
  | .setDesk => (argsOf (deskArgs params)).map (fun a => a.1)
  | .setBattery => (argsOf (batteryArgs params)).map (fun a => a.1)
  | .setSupervision => (argsOf (supervisionArgs params)).map (fun a => a.1)
  | .setCall => (argsOf (callArgs params)).map (fun a => a.1)
  | .setReminder => (argsOf (reminderArgs params)).map (fun a => a.1)
  | .ackReminder => argsOf (positionArg params)
  | .readPosition => argsOf (positionArg params)
  | .bindLine => (argsOf (bindArgs params)).map (fun a => a.1)
  | .unbindLine => argsOf (positionArg params)
  | .setSupChannel => none
  | .setEc => (argsOf (echoArgs params)).map (fun a => a.1)
  | .readCoeffs => (argsOf (coeffArgs params)).map (fun a => a.1)
  | .setNr => (argsOf (nrArgs params)).map (fun a => a.1)
  | .setSupNr => none
  | .join => (argsOf (joinArgs params)).map (fun a => a.position)
  | .changeMode => none
  | .leave => none
  | .readSession => none
  | .startProgram => none
  | .stopProgram => none
  | .setHoldSource => (argsOf (holdArgs params)).map (fun a => a.1)
  | .readVoice => none
  | .rescan => none
  | .readStore => none
  | .agentPrompt => (argsOf (promptArgs params)).map (fun a => a.1)
  | .coachPrompt => (argsOf (promptArgs params)).map (fun a => a.1)
  | .announce => (argsOf (announceArgs params)).map (fun a => a.1)
  | .clearAgentPrompts => argsOf (positionArg params)
  | .clearAnnounce => argsOf (positionArg params)
  | .takeReports => none
  | .subscribeMeters => none
  | .reset => none

/-! ### Parameters as the request table lists them (R171, R186) -/

/-- How the parameters of a kind are laid out (section 11.2): one of several lengths; a head, a field mask and fields
of these sizes; or a head and a step list. -/
inductive Layout where
  | lengths (l : List Nat)
  | masked (head : Nat) (sizes : List Nat)
  | steps (head : Nat)
  deriving DecidableEq, Repr

/-- The layout of each kind's parameters (section 11.2, with the sizes of R186). -/
def Kind.layout : Kind → Layout
  | .openPosition => .lengths [2]
  | .close => .lengths [2]
  | .setDesk => .masked 1 [1, 2, 2, 2, 2, 1]
  | .setBattery => .lengths [3]
  | .setSupervision => .lengths [2]
  | .setCall => .lengths [2]
  | .setReminder => .lengths [4]
  | .ackReminder => .lengths [1]
  | .readPosition => .lengths [1]
  | .bindLine => .lengths [3]
  | .unbindLine => .lengths [1]
  | .setSupChannel => .lengths [1, 3]
  | .setEc => .masked 1 [1, 1, 1, 2, 4, 1, 2]
  | .readCoeffs => .lengths [4]
  | .setNr => .masked 1 [1, 2]
  | .setSupNr => .masked 1 [1, 2]
  | .join => .masked 3 [2, 2, 2]
  | .changeMode => .lengths [2]
  | .leave => .lengths [1]
  | .readSession => .lengths [1]
  | .startProgram => .steps 1
  | .stopProgram => .lengths [1]
  | .setHoldSource => .lengths [2, 4]
  | .readVoice => .lengths [1]
  | .rescan => .lengths [0]
  | .readStore => .lengths [0]
  | .agentPrompt => .steps 2
  | .coachPrompt => .steps 2
  | .announce => .steps 1
  | .clearAgentPrompts => .lengths [1]
  | .clearAnnounce => .lengths [1]
  | .takeReports => .lengths [1]
  | .subscribeMeters => .lengths [3]
  | .reset => .lengths [0]

/-- A parameter list has a length that the layout allows (check 3 of R171, with R186): a mask names no field above the
last, and exactly the given fields follow it; a step list has 1 + 4n bytes for its count byte n. -/
def Layout.fits (layout : Layout) (params : List Byte) : Bool :=
  match layout with
  | .lengths l => l.contains params.length
  | .masked head sizes =>
    match params[head]? with
    | none => false
    | some mask =>
      decide (mask.toNat < 2 ^ sizes.length) &&
        params.length == head + 1 +
          ((List.range sizes.length).map (fun i => if mask.getLsbD i then sizes.getD i 0 else 0)).sum
  | .steps head =>
    match params[head]? with
    | none => false
    | some n => params.length == head + 1 + 4 * n.toNat

/-- The limits of the position, voice and channel numbers that a kind's parameters begin with (check 4 of R171). -/
def Kind.limits : Kind → List Nat
  | .setSupChannel => [4]
  | .setSupNr => [4]
  | .join => [4, 16]
  | .changeMode => [4]
  | .leave => [4]
  | .readSession => [4]
  | .startProgram => [12]
  | .stopProgram => [12]
  | .readVoice => [12]
  | .rescan => []
  | .readStore => []
  | .takeReports => []
  | .subscribeMeters => []
  | .reset => []
  | _ => [16]

/-- Every position, voice and channel number named is in range (check 4 of R171); a hold source is a voice, or 0xFF for
none (R186). -/
def Kind.inRange (k : Kind) (params : List Byte) : Bool :=
  (k.limits.zip params).all (fun x => decide (x.2.toNat < x.1)) &&
    (decide (k ≠ .setHoldSource) || params.getD 1 0 == 0xFF || decide ((params.getD 1 0).toNat < 12))

/-- A step list that passes the validation of R119: 1 to 8 steps, each of one of the four kinds with its parameter in
range. -/
def stepsAcceptable (list : List Byte) : Bool :=
  let byte (i : Nat) : Nat := (list.getD i 0).toNat
  decide (1 ≤ byte 0 ∧ byte 0 ≤ 8) &&
    (List.range (byte 0)).all (fun i =>
      let b := byte (3 + 4 * i) + 256 * byte (4 + 4 * i)
      match byte (1 + 4 * i) with
      | 1 => decide (b ≤ 511)
      | 2 => decide (1 ≤ b ∧ b ≤ 4095)
      | 3 => decide (byte (2 + 4 * i) < i ∧ b ≤ 255)
      | 4 => true
      | _ => false)

/-- Every field that takes one of a set of named values holds one of them, and a step list is acceptable (check 5 of
R171, R186). -/
def Kind.valuesNamed (k : Kind) (params : List Byte) : Bool :=
  let byte (i : Nat) : Nat := (params.getD i 0).toNat
  match k with
  | .openPosition => decide (byte 1 ≤ 1)
  | .close => decide (byte 1 ≤ 1)
  | .setDesk =>
    (decide (byte 1 % 2 = 0) || decide (byte 2 ≤ 1)) &&
      (decide (byte 1 / 32 % 2 = 0) || decide ((params.getLastD 0).toNat ≤ 1))
  | .setSupervision => decide (byte 1 ≤ 1)
  | .setCall => decide (byte 1 ≤ 2)
  | .setReminder => decide (byte 3 ≤ 1)
  | .setEc => decide (byte 1 % 2 = 0) || decide (byte 2 ≤ 2)
  | .setNr => decide (byte 1 % 2 = 0) || decide (byte 2 ≤ 1)
  | .setSupNr => decide (byte 1 % 2 = 0) || decide (byte 2 ≤ 1)
  | .join => decide (1 ≤ byte 2 ∧ byte 2 ≤ 3)
  | .changeMode => decide (1 ≤ byte 1 ∧ byte 1 ≤ 3)
  | .startProgram => stepsAcceptable (params.drop 1)
  | .agentPrompt => decide (byte 1 ≤ 1) && stepsAcceptable (params.drop 2)
  | .coachPrompt => decide (byte 1 ≤ 1) && stepsAcceptable (params.drop 2)
  | .announce => stepsAcceptable (params.drop 1)
  | .subscribeMeters => decide (byte 2 ≤ 4)
  | _ => true

/-! ### The pieces of a frame event -/

/-- A frame event is under way whose piece `w` comes next, with `held` naming every other piece that stands
(notes/assumptions/3.md). -/
abbrev State.atPiece (s : State) (w : Work) (held : List Work) : Prop :=
  s.rstn = false ∧ s.ftu.frameDue = false ∧ w ∈ s.work ∧ (∀ x ∈ workBefore w, x ∉ s.work) ∧ ∀ x ∈ s.work.erase w, x ∈ held

/-- Noise context `n` works this frame: its position is OPEN or it is a channel's; the settings in force, the input
frame and its liveness are these (R87, R88). -/
abbrev State.hears (s : State) (n : Fin 20) (set : NoiseSettings) (input : Frame) (live : Bool) : Prop :=
  (∃ p, n = noiseOfPosition p ∧ (s.pos p).state = .opened ∧ set = (s.pos p).noise ∧
    input = s.taken.echo[p].samples ∧ live = s.taken.echo[p].live) ∨
  ∃ c : Fin 4, n = noiseOfChannel c ∧ set = s.nru.supSettings[c] ∧ input = s.taken.talk[c].samples ∧
    live = s.taken.talk[c].live

/-- The frame that a source gives to a role that names `named` (R42, R43, R51, R131): a voice's output frame of the frame
event before, or zeros when its label is not the use that the role expects or when the role names it and it is PRIMING;
a channel's noise output frame. -/
def State.roleFrame (s : State) (use : VoiceUse) (named : Option Src) : Src → Frame
  | .voice v =>
    if s.taken.voice[v].use ≠ use ∨ (named = some (.voice v) ∧ s.vce[v].state = .priming) then List.replicate 64 0
    else s.taken.voice[v].samples
  | .channel c => s.taken.noise[noiseOfChannel c].samples

/-- What a role that names a voice or a channel adds at sample `j` (R49, R52, R53): a source still named moves from the
applied gain, a newly named one from 0, and one no longer named ramps out; `cut` and `gone` say that the term, or the
departing term, is cut. -/
def State.roleShare (s : State) (use : VoiceUse) (t : Term) (named : Option Src) (target : Nat) (cut gone : Bool)
    (j : Nat) : Int :=
  match named, t.source with
  | some x, _ =>
    (s.roleFrame use named x).getD j 0 *
      (if cut then 0 else rampGain ((if t.source = some x then t.gain else 0 : Nat) : Int) target j)
  | none, some x => (s.roleFrame use named x).getD j 0 * (if gone then 0 else rampGain t.gain 0 j)
  | none, none => 0

/-- What the far-party or the microphone role adds at sample `j` (R52, R53). -/
def fixedShare (frame : Frame) (t : Term) (target : Nat) (cut : Bool) (j : Nat) : Int :=
  frame.getD j 0 * (if cut then 0 else rampGain t.gain target j)

/-- The record that a role leaves (R41, R49): its source with the gain of sample 63, or absent when none is named. -/
def roleAfter (named : Option Src) (target : Nat) (cut : Bool) : Term :=
  match named with
  | some x => { gain := if cut then 0 else target, source := some x }
  | none => { gain := 0, source := none }

/-- The talk gain of a channel's session; 0 where there is none (R46 to R48). -/
def State.talkGainOf (s : State) (c : Option (Fin 4)) : Nat :=
  match c with
  | some c => s.sst[c].talkGain
  | none => 0

/-- The channel of the talking session on `p` whose mode is BARGE while the call is in TALK: the one case in which a
supervisor's talk reaches the line (R47). -/
def State.bargesIn (s : State) (p : Fin 16) : Bool :=
  (s.talker p).any (fun c => s.sst[c].mode == .barge) && (s.pos p).call == .talk

/-- A channel other than `c` with a talking session on `p` (R48). -/
def State.otherTalker (s : State) (c : Fin 4) (p : Fin 16) : Option (Fin 4) :=
  allChannels.find? (fun k => k != c && s.talkingOn p k)

/-- The target gain of the far party in EAR(p), under duck factor `d` (R46). -/
def State.farTarget (s : State) (p : Fin 16) (d : Nat) : Nat :=
  if (s.pos p).call = .talk then (s.pos p).earGain * d / 4096 else 0

/-- The target gain of the hold term in LINE(p) (R47, R51). -/
def State.holdTarget (s : State) (p : Fin 16) : Nat :=
  if (s.pos p).call = .hold ∧ s.headVoice p .line = none then (s.pos p).holdGain else 0

/-- The agent's microphone is cut from the line of `p` (R47). -/
def State.micCut (s : State) (p : Fin 16) : Bool := decide ((s.pos p).call ≠ .talk) || (s.pos p).mute

/-- The agent's microphone is cut from a supervisor's mix of `p` (R48). -/
def State.supMicCut (s : State) (p : Fin 16) : Bool :=
  (s.pos p).mute || (decide ((s.pos p).call ≠ .talk) && (s.talker p).isNone)

/-- The accumulator of EAR(p) at sample `j`, under duck factor `d` (R46, R57). -/
def State.earSum (s : State) (p : Fin 16) (d j : Nat) : Int :=
  let t := s.mxe.earTerms[p]
  let x := s.pos p
  fixedShare s.taken.far[p] t.far (s.farTarget p d) false j +
    s.roleShare (.prompt p .agent) t.agentPrompt ((s.headVoice p .agent).map .voice) x.promptGain false false j +
    s.roleShare (.prompt p .line) t.linePrompt ((s.headVoice p .line).map .voice) x.announceGain false false j +
    s.roleShare .none t.talk ((s.talker p).map .channel) (s.talkGainOf (s.talker p)) false false j

/-- The accumulator of LINE(p) at sample `j` (R47, R57). -/
def State.lineSum (s : State) (p : Fin 16) (j : Nat) : Int :=
  let t := s.mxe.lineTerms[p]
  let x := s.pos p
  fixedShare s.taken.noise[noiseOfPosition p].samples t.mic 4096 (s.micCut p) j +
    s.roleShare .none t.talk ((s.talker p).map .channel) (s.talkGainOf (s.talker p)) (!s.bargesIn p)
      (decide (x.call ≠ .talk)) j +
    s.roleShare (.prompt p .line) t.linePrompt ((s.headVoice p .line).map .voice) 4096 false false j +
    s.roleShare .program t.hold (x.holdSource.map .voice) (s.holdTarget p) false false j

/-- The accumulator of SUPOUT(c) for target position `p` at sample `j` (R48, R57). -/
def State.supSum (s : State) (c : Fin 4) (p : Fin 16) (j : Nat) : Int :=
  let t := s.mxe.supTerms[c]
  fixedShare s.taken.far[p] t.far (if (s.pos p).call = .talk then 4096 else 0) false j +
    fixedShare s.taken.noise[noiseOfPosition p].samples t.mic 4096 (s.supMicCut p) j +
    s.roleShare (.prompt p .line) t.linePrompt ((s.headVoice p .line).map .voice) 4096 false false j +
    s.roleShare .none t.other ((s.otherTalker c p).map .channel) (s.talkGainOf (s.otherTalker c p)) false false j

/-- The frame of a destination from its accumulator: rounded half-up by 2^12 and clamped (R57). -/
def producedFrame (acc : Nat → Int) : Frame :=
  (List.range 64).map (fun j => max (-32768) (min 32767 ((acc j + 2048) / 4096)))

/-- The samples of a destination that needed clamping (R58). -/
def clippedSamples (acc : Nat → Int) : Nat :=
  ((List.range 64).filter (fun j =>
    decide ((acc j + 2048) / 4096 < -32768 ∨ 32767 < (acc j + 2048) / 4096))).length

/-- Nothing that has come to hold is left undone: no frame event due, no piece of its work standing, no grant
standing (R26, R147, R159). -/
abbrev State.quiet (s : State) : Prop :=
  s.ftu.frameDue = false ∧ s.work = [] ∧ (s.freeVoice = none ∨ ∀ p q, s.headWaiting p q = false) ∧ s.nextFetch = none

/-! ### Fetch grants -/

/-- The class of a waiting refill flag, by its voice's use (R147): AGENT prompts first, then LINE prompts, then
programmes. -/
def Voice.rank (v : Voice) : Nat :=
  match v.use with
  | .prompt _ .agent => 0
  | .prompt _ .line => 1
  | .program => 2
  | .none => 2

/-- `v` is first among the voices whose refill flags wait: of the first class present, the lowest number (R147). -/
def State.FirstFlag (s : State) (v : Fin 12) : Prop :=
  s.vce[v].refill = true ∧ ∀ w : Fin 12, s.vce[w].refill = true →
    s.vce[v].rank < s.vce[w].rank ∨ (s.vce[v].rank = s.vce[w].rank ∧ v ≤ w)

/-- The next grant falls to `v` when it was owed to `owed` (R147): a voice owed it keeps it while its flag waits, and
otherwise it falls to the first flag (notes/assumptions/13.md). -/
def State.GrantFalls (s : State) (owed : Option (Fin 12)) (v : Fin 12) : Prop :=
  (owed = some v ∧ s.vce[v].refill = true) ∨ ((∀ w : Fin 12, owed = some w → s.vce[w].refill = false) ∧ s.FirstFlag v)

/-- `next` is the voice owed the next grant once a fetch has ended with the flags of `s` waiting (R147): none while the
store is not READY or no flag waits. -/
def State.Owes (s : State) (owed next : Option (Fin 12)) : Prop :=
  (∀ v : Fin 12, s.sfe.store = .ready → s.GrantFalls owed v → next = some v) ∧
    (s.sfe.store ≠ .ready ∨ (∀ v : Fin 12, s.vce[v].refill = false) → next = none)

/-! ### Laws of the part -/

/-- The law of a report queue (R176, R177): at most 32 reports, all URGENT reports ahead of all NORMAL ones, and at
most one METER report per position. -/
def ReportsLawful (l : List Report) : Prop :=
  l.length ≤ 32 ∧ l.Pairwise (fun a b => b.urgent = true → a.urgent = true) ∧
    l.Pairwise (fun a b => a.sameMeter b = false)

/-- The law of the report queues (R177), with the overflow flag clear while a queue is empty (R179). -/
def State.ReportLaw (s : State) : Prop :=
  ∀ port, ReportsLawful (s.port port).reports ∧ ((s.port port).reports = [] → (s.port port).overflow = false)

/-- Each port holds at most four exchanges (R168, R169). -/
def State.ExchangeLaw (s : State) : Prop := ∀ port, (s.port port).held ≤ 4

/-- The automatic kind of an entry. -/
def Entry.autoKind (e : Entry) : Option AutoKind :=
  match e.origin with
  | .auto k => some k
  | _ => none

/-- The law of one prompt queue (R153): at most 4 entries, only the head PLAYING, and no two automatic entries of
one kind. -/
def QueueLawful (l : List Entry) : Prop :=
  l.length ≤ 4 ∧ (∀ e ∈ l.tail, e.voice = none) ∧
    l.Pairwise (fun a b => a.autoKind.isSome = true → a.autoKind ≠ b.autoKind)

/-- Every PLAYING entry holds a voice that plays for it: in use for its position and queue, PRIMING or PLAYING
(R118, R153). -/
def State.EntryVoices (s : State) : Prop :=
  ∀ p q, ∀ e ∈ s.queue p q, ∀ v : Fin 12, e.voice = some v →
    s.vce[v].use = .prompt p q ∧ (s.vce[v].state = .priming ∨ s.vce[v].state = .playing)

/-- The law of the prompt queues (R153) with the voices their entries hold (R118). -/
def State.PromptLaw (s : State) : Prop := (∀ p q, QueueLawful (s.queue p q)) ∧ s.EntryVoices

/-- A voice is in one of the four conditions of R118: FREE, in PROGRAM use, held by the one entry of the queue that its
use names, or DRAINING; an entry holds it in no other. -/
def State.VoiceCondition (s : State) (v : Fin 12) : Prop :=
  let x := s.vce[v]
  let unheld : Prop := ∀ p q, s.heldBy p q v = false
  (x.state = .free ∧ x.use = .none ∧ unheld) ∨
  ((x.state = .priming ∨ x.state = .playing) ∧ x.use = .program ∧ unheld) ∨
  ((x.state = .priming ∨ x.state = .playing) ∧ ∃ p q, x.use = .prompt p q ∧ s.heldBy p q v = true ∧
    ∀ p' q', s.heldBy p' q' v = true → p' = p ∧ q' = q) ∨
  (x.state = .draining ∧ unheld)

/-- The laws of the voices: each in one of its four conditions (R118), no buffer above 256 samples (R128), and the voice
of the fetch in flight never FREE (R133). -/
def State.VoiceLaw (s : State) : Prop :=
  (∀ v : Fin 12, s.VoiceCondition v ∧ s.vce[v].buffer.length ≤ 256) ∧
    ∀ f, s.sfe.fetch = some f → s.vce[f.voice].state ≠ .free

/-- What the laws of the voices rest on (R125 to R128, R132): the buffer of a PRIMING or PLAYING voice has room for what
its fetch in flight will place, and its fetch side waits, short of its list's end; a refill flag stands only on such a
voice, at a begun CLIP step with samples remaining. -/
def State.FetchLaw (s : State) : Prop :=
  (∀ f, s.sfe.fetch = some f → (s.vce[f.voice].state = .priming ∨ s.vce[f.voice].state = .playing) →
    s.vce[f.voice].endFetched = false ∧ s.vce[f.voice].refill = false ∧
      s.vce[f.voice].buffer.length + f.count * f.expand ≤ 256) ∧
  ∀ v : Fin 12, s.vce[v].refill = true → (s.vce[v].state = .priming ∨ s.vce[v].state = .playing) ∧
    s.vce[v].endFetched = false ∧ s.vce[v].entered = true ∧
    ∃ i n q, s.vce[v].current = some i ∧ s.vce[v].steps[i]? = some (.clip n) ∧ s.vce[v].clip = some q ∧ 0 < q.remaining

/-- The hold source of every position in HOLD is none or a voice in PROGRAM use (R14, R136). -/
def State.HoldLaw (s : State) : Prop :=
  ∀ p, (s.pos p).call = .hold → ∀ v : Fin 12, (s.pos p).holdSource = some v → s.vce[v].inProgram = true

/-- The law of the sessions on a position (R104): at most two, at most one of them talking. -/
def State.SessionLimits (s : State) : Prop :=
  ∀ p, s.sessionCount p ≤ 2 ∧ ∀ c k, s.talkingOn p c = true → s.talkingOn p k = true → c = k

/-- A session stands on a good footing (R109): an OPEN position with call state TALK or HOLD and supervision
allowed, and a bound channel. -/
def State.SessionFooting (s : State) : Prop :=
  ∀ c : Fin 4, s.sst[c].mode ≠ .idle → ∃ p, s.sst[c].target = some p ∧ (s.pos p).state = .opened ∧
    (s.pos p).call ≠ .idle ∧ (s.pos p).supervisionAllowed = true ∧ s.hwi.channels[c].isSome = true

/-- The law of a position record: the close plan is present exactly while CLOSING (R1), retained only while CLOSED
(R2, R3), a line binding only while OPEN (R4, R33), a call only on a bound line (R12, R156), the reminder RUNNING
only in HOLD (R21), the critical threshold not above the low one (R10). -/
def Position.Lawful (x : Position) : Prop :=
  (x.closePlan.isSome = true ↔ x.state = .closing) ∧ (x.retained = true → x.state = .closed) ∧
    (x.line.isSome = true → x.state = .opened) ∧ (x.call ≠ .idle → x.line.isSome = true) ∧
    (x.reminderStatus = .running → x.call = .hold) ∧ x.batteryCritical ≤ x.batteryLow

/-- Every position record keeps its law. -/
def State.PositionLaw (s : State) : Prop := ∀ p, (s.pos p).Lawful

/-- The binding of an endpoint (section 2.2). -/
def State.binding (s : State) : Endpoint → Option SlotPair
  | .position p => (s.pos p).line
  | .channel c => s.hwi.channels[c]

/-- No highway slot is bound to two endpoints in the same direction (R32). -/
def State.SlotLaw (s : State) : Prop :=
  ∀ e f b c, e ≠ f → s.binding e = some b → s.binding f = some c → b.inSlot ≠ c.inSlot ∧ b.outSlot ≠ c.outSlot

/-- The gains of a position record are gain codes (R9, R136). -/
def Position.GainsLawful (x : Position) : Prop :=
  x.earGain ≤ 8192 ∧ x.promptGain ≤ 8192 ∧ x.announceGain ≤ 8192 ∧ x.holdGain ≤ 8192

/-- Every applied mix gain lies between 0 and 8192 (R52), with what that rests on: gain codes of at most 8192 and
duck factors of at most 4096 (R41, R46, R102). -/
def State.GainLaw (s : State) : Prop :=
  (∀ p : Fin 16, (s.pos p).GainsLawful ∧ s.mxe.duck[p].factor ≤ 4096) ∧ (∀ c : Fin 4, s.sst[c].talkGain ≤ 8192) ∧
    (∀ p : Fin 16, s.mxe.earTerms[p].far.gain ≤ 8192 ∧ s.mxe.earTerms[p].agentPrompt.gain ≤ 8192 ∧
      s.mxe.earTerms[p].linePrompt.gain ≤ 8192 ∧ s.mxe.earTerms[p].talk.gain ≤ 8192) ∧
    (∀ p : Fin 16, s.mxe.lineTerms[p].mic.gain ≤ 8192 ∧ s.mxe.lineTerms[p].talk.gain ≤ 8192 ∧
      s.mxe.lineTerms[p].linePrompt.gain ≤ 8192 ∧ s.mxe.lineTerms[p].hold.gain ≤ 8192) ∧
    (∀ c : Fin 4, s.mxe.supTerms[c].far.gain ≤ 8192 ∧ s.mxe.supTerms[c].mic.gain ≤ 8192 ∧
      s.mxe.supTerms[c].linePrompt.gain ≤ 8192 ∧ s.mxe.supTerms[c].other.gain ≤ 8192)

/-- Every applied noise gain and every floor is at most 4096 (R85, R86, R95); a channel whose learning a binding restarted
is in LEARN until it completes (R35). -/
def State.NoiseLaw (s : State) : Prop :=
  (∀ n : Fin 20, s.nru.contexts[n].gain ≤ 4096) ∧ (∀ p : Fin 16, (s.pos p).noise.floor ≤ 4096) ∧
    ∀ c : Fin 4, s.nru.supSettings[c].floor ≤ 4096 ∧
      (s.nru.contexts[noiseOfChannel c].relearning = true → s.nru.contexts[noiseOfChannel c].state = .learn)

/-- Every applied noise gain is at its floor or above (R95). -/
def State.FloorLaw (s : State) : Prop :=
  (∀ p : Fin 16, (s.pos p).noise.floor ≤ s.nru.contexts[noiseOfPosition p].gain) ∧
    ∀ c : Fin 4, s.nru.supSettings[c].floor ≤ s.nru.contexts[noiseOfChannel c].gain

/-- An applied gain and its floor, before and after a step (R95): the gain is at its floor or above, or it stands as it
was while its floor has been raised in this step, or had been already. -/
def GainHeld (floor gain floor' gain' : Nat) : Prop :=
  floor' ≤ gain' ∨ (gain' = gain ∧ (floor < floor' ∨ gain < floor))

/-- A step from `s` to `t` leaves every applied noise gain within its law (R95). -/
def State.GainsHeld (s t : State) : Prop :=
  (∀ p : Fin 16, GainHeld (s.pos p).noise.floor s.nru.contexts[noiseOfPosition p].gain (t.pos p).noise.floor
    t.nru.contexts[noiseOfPosition p].gain) ∧
  ∀ c : Fin 4, GainHeld s.nru.supSettings[c].floor s.nru.contexts[noiseOfChannel c].gain t.nru.supSettings[c].floor
    t.nru.contexts[noiseOfChannel c].gain

/-- The roles of a destination name sources of their own kind (R46 to R48): a talking-supervisor role a channel, a
prompt or hold role a voice, and the far-party and microphone roles none. -/
def State.TermLaw (s : State) : Prop :=
  (∀ p : Fin 16, s.mxe.earTerms[p].far.source = none ∧ (∀ c, s.mxe.earTerms[p].agentPrompt.source ≠ some (.channel c)) ∧
    (∀ c, s.mxe.earTerms[p].linePrompt.source ≠ some (.channel c)) ∧
    ∀ v, s.mxe.earTerms[p].talk.source ≠ some (.voice v)) ∧
  (∀ p : Fin 16, s.mxe.lineTerms[p].mic.source = none ∧ (∀ v, s.mxe.lineTerms[p].talk.source ≠ some (.voice v)) ∧
    (∀ c, s.mxe.lineTerms[p].linePrompt.source ≠ some (.channel c)) ∧
    ∀ c, s.mxe.lineTerms[p].hold.source ≠ some (.channel c)) ∧
  ∀ k : Fin 4, s.mxe.supTerms[k].far.source = none ∧ s.mxe.supTerms[k].mic.source = none ∧
    (∀ c, s.mxe.supTerms[k].linePrompt.source ≠ some (.channel c)) ∧
    ∀ v, s.mxe.supTerms[k].other.source ≠ some (.voice v)

/-- A sample in sample range (Conventions, "Samples"). -/
def InRange (x : Sample) : Prop := -32768 ≤ x ∧ x ≤ 32767

/-- A frame of samples in range. -/
def FrameInRange (f : Frame) : Prop := ∀ x ∈ f, InRange x

/-- Every sample leaving the part lies in sample range (R57), with the mix frames it is taken from. -/
def State.RangeLaw (s : State) : Prop :=
  (∀ p : Fin 16, FrameInRange s.hli[p].earpiece ∧ FrameInRange s.mxe.line[p] ∧ FrameInRange s.taken.line[p] ∧
    ∀ f, s.hwi.lineOut[p] = some f → FrameInRange f) ∧
  (∀ c : Fin 4, FrameInRange s.mxe.sup[c] ∧ FrameInRange s.taken.sup[c] ∧ ∀ f, s.hwi.supOut[c] = some f → FrameInRange f) ∧
  (∀ (k : Fin 32) x, s.hwi.driven[k] = some x → InRange x)

/-! ### Safe runs -/

/-- A run is safe when no step of it stops. -/
def State.Runs (s : State) : Prop := ∃ t, step s = .next t

end Sys2Proof.Machine
end

