-- ==== Sys2Proof/Certificates/Slice0/Obligations.lean ====
section
/-!
DEFINITION. The statements about the model that are to be proved.  A request row is stated at a port that has the
rights for it, with a request of its kind at the head (`State.asks`); the next state is written out as the state
before with exactly the fields that change, so each such statement is its own frame.
-/

open Sys2Proof Sys2Proof.Machine

/-! ### The queue of commands -/

/-- A step carries out the command at the front of the queue with the rest of the queue; an empty queue idles (the
model's choice, notes/assumptions/8.md). -/
def Obligations.StepTakesFrontCommand : Prop :=
  (∀ (c : Instr) (s : State) (rest : List Instr),
    step { s with pending := c :: rest } = exec c { s with pending := rest }) ∧
  ∀ s : State, s.pending = [] → step s = .next s

/-- Every command completes in every state, and none touches the queue of waiting commands. That a command which comes
while its event is not due is carried out with no effect is the model's choice (notes/assumptions/4.md). -/
def Obligations.EveryCommandCompletes : Prop :=
  ∀ (c : Instr) (s : State), ∃ t, exec c s = .next t ∧ t.pending = s.pending

/-! ### Reset -/

/-- R1, R64, R83: the release of RSTN leaves the sixteen position records at the values of R1's table, their echo
contexts zeroed and their noise contexts cleared. That no liveness, echo state or gain of 4096 travels with the output
frames of the reset but these is the model's choice (notes/assumptions/10.md). -/
def Obligations.ReleaseSetsPositionRecords : Prop :=
  ∀ s : State, s.rstn = true → ∃ t, exec .rstnRelease s = .next t ∧ ∀ p : Fin 16,
    t.pos p =
      { state := .closed, closePlan := none, retained := false, line := none, call := .idle, holdSource := none,
        holdGain := 4096, supervisionAllowed := false, mute := false, earGain := 4096, sidetone := 512,
        promptGain := 4096, announceGain := 2048, buttonMute := false,
        echo := { mode := .adapt, muConv := 128, muTrack := 32, bulkDelay := 0, delta := 1048576, talkCode := 8,
                  hangover := 480 },
        noise := { enable := true, floor := 1024 },
        batteryLow := 20, batteryCritical := 5, band := .normal, present := false, presenceRun := 0, button := false,
        releasedRun := 0, batteryLevel := 127, reminderInterval := 0, reminderRepeat := false, reminderCounter := 0,
        reminderStatus := .stopped, mutedCount := 0, mutedIssued := false } ∧
    t.ecu[p] =
      { coeffs := List.replicate 128 0, pending := List.replicate 3 (List.replicate 64 0),
        history := List.replicate 383 0, hangover := 0, state := .off, good := 0, poor := 0, diverge := 0,
        generation := 0, erle := 0, out := { samples := List.replicate 64 0, live := false, state := .off } } ∧
    t.nru.contexts[noiseOfPosition p] =
      { state := .learn, learned := 0, estimate := 1, hangover := 0, speechRun := 0, gain := 4096,
        relearning := false, out := { samples := List.replicate 64 0, speech := false, gain := 4096 } }

/-- R25, R32, R38, R41, R83, R100, R117, R141, R142, R153, R168, R185: what the release of RSTN leaves in the other
blocks. What the rules leave unsaid (the gain that travels with a noise output frame among it) is the model's choice
(notes/assumptions/10.md), and so are the empty meter mask (notes/assumptions/24.md) and what a window without a frame
holds (notes/assumptions/30.md). -/
def Obligations.ReleaseSetsOtherBlocks : Prop :=
  ∀ s : State, s.rstn = true → ∃ t, exec .rstnRelease s = .next t ∧ t.rstn = false ∧ t.pending = s.pending ∧
    (t.ftu.timing = .freeRun ∧ t.ftu.frameCount = 0 ∧ t.ftu.goodSync = 0 ∧ t.ftu.sampleIndex = 0) ∧
    (∀ p : Fin 16, t.hli[p].arrived = false ∧ t.hli[p].mic = List.replicate 64 0) ∧
    (∀ k : Fin 32, t.hwi.driven[k] = none) ∧
    (∀ c : Fin 4, t.hwi.channels[c] = none ∧
      t.sst[c] = { mode := .idle, target := none, talkGain := 4096, duckLevel := 1024, release := 50,
                   lastEnd := .none } ∧
      t.nru.supSettings[c] = { enable := true, floor := 1024 } ∧
      t.nru.contexts[noiseOfChannel c] =
        { state := .learn, learned := 0, estimate := 1, hangover := 0, speechRun := 0, gain := 4096,
          relearning := false, out := { samples := List.replicate 64 0, speech := false, gain := 4096 } }) ∧
    (let absent : Term := { gain := 0, source := none }
      let empty : MeterWindow :=
        { frames := 0, farPeak := 0, micPeak := 0, linePeak := 0, earPeak := 0, earClips := 0, lineClips := 0
          supClips := 0, erle := 0, noiseGain := 0, echoState := .off };
      (∀ p : Fin 16, t.mxe.duck[p] = { factor := 4096, level := 1024, release := 50 } ∧ t.mxe.earClips[p] = 0 ∧
        t.mxe.lineClips[p] = 0 ∧ t.mxe.window[p] = empty ∧ t.mxe.lastWindow[p] = empty ∧
        t.mxe.earTerms[p] = { far := absent, agentPrompt := absent, linePrompt := absent, talk := absent } ∧
        t.mxe.lineTerms[p] = { mic := absent, talk := absent, linePrompt := absent, hold := absent } ∧
        t.queue p .agent = [] ∧ t.queue p .line = []) ∧
      ∀ c : Fin 4, t.mxe.supTerms[c] = { far := absent, mic := absent, linePrompt := absent, other := absent }) ∧
    (∀ v : Fin 12, t.vce[v] =
      { state := .free, use := .none, drainedFor := none, steps := [], current := some 0, entered := false
        clip := none, silence := 0, loops := List.replicate 8 none, endFetched := false, placed := false, buffer := []
        refill := false, ramp := .none, marks := [], underruns := 0, skipped := 0, out := t.vce[v].out }) ∧
    (t.sfe.store = .scanning ∧ t.sfe.clipCount = 0 ∧ t.sfe.directory = [] ∧ t.sfe.fetch = none ∧ t.sfe.timeouts = 0 ∧
      t.sfe.lastFailure = .none ∧ t.sfe.scan = .header ∧ ∀ k, t.sfe.settings.clip k = none) ∧
    t.pqc.pointer = 15 ∧
    ∀ port, (t.port port).untaken = [] ∧ (t.port port).responses = [] ∧ (t.port port).reports = [] ∧
      (t.port port).overflow = false ∧ (t.port port).mask = 0 ∧ (t.port port).period = .off ∧
      (t.port port).counter = none ∧ attn t.rstn (t.port port) = false

/-- R185: asserting RSTN releases ATTN on every port; while it is asserted a write transfer carries no request and a
read transfer returns no response.  That no other command but the release has an effect then is the model's choice
(notes/assumptions/12.md). -/
def Obligations.AssertedResetHoldsThePart : Prop :=
  (∀ s : State, ∃ t, exec .rstnAssert s = .next t ∧ t.rstn = true ∧ ∀ port, attn t.rstn (t.port port) = false) ∧
  ∀ s : State, s.rstn = true →
    (∀ port bytes, exec (.writeTransfer port bytes) s =
      .next { s with cpt := s.cpt.set port { s.cpt.get port with markOut := [] } }) ∧
    (∀ port, exec (.readTransfer port) s =
      .next { s with cpt := s.cpt.set port { s.cpt.get port with readOut := [] } }) ∧
    ∀ c, c ≠ .rstnAssert → c ≠ .rstnRelease → (∀ port bytes, c ≠ .writeTransfer port bytes) →
      (∀ port, c ≠ .readTransfer port) → exec c s = .next s

/-! ### Transfers -/

/-- R169: a write transfer is not received when it ends before the header is complete; its request is held as an
untaken exchange when fewer than 4 are held, and answered BUSY when 4 are. -/
def Obligations.WriteTransferIsMarked : Prop :=
  ∀ (s : State) (port : Port), s.rstn = false →
    (∀ bytes, bytes.length < 3 → exec (.writeTransfer port bytes) s =
      .next { s with cpt := s.cpt.set port { s.cpt.get port with markOut := [0x00] } }) ∧
    ∀ kind tag length params,
      ((s.port port).held < 4 → exec (.writeTransfer port (kind :: tag :: length :: params)) s =
        .next { s with cpt := s.cpt.set port { s.cpt.get port with
          untaken := (s.port port).untaken ++ [{ kind := kind, tag := tag, length := length, params := params }]
          markOut := [0x01] } }) ∧
      (4 ≤ (s.port port).held → exec (.writeTransfer port (kind :: tag :: length :: params)) s =
        .next { s with cpt := s.cpt.set port { s.cpt.get port with
          markOut := [0x02, kind, tag, 1, if (s.port port).overflow then 1 else 0, 0, 0] } })

/-- R174: a read transfer returns and removes the head of the response queue and releases its exchange; on an empty
response queue it returns the header that reads none ready and changes nothing else.  A BUSY answer never joins that
queue. -/
def Obligations.ReadTransferReturnsHead : Prop :=
  ∀ (s : State) (port : Port), s.rstn = false →
    (∀ x rest, (s.port port).responses = x :: rest → ∃ t, exec (.readTransfer port) s = .next t ∧
      t = { s with cpt := s.cpt.set port { s.cpt.get port with
            responses := rest
            readOut := [x.kind, x.tag, BitVec.ofNat 8 x.status.code, if x.overflow then 1 else 0] ++
              byte2 x.data.length ++ x.data } } ∧
      (t.port port).held + 1 = (s.port port).held) ∧
    ((s.port port).responses = [] → exec (.readTransfer port) s =
      .next { s with cpt := s.cpt.set port { s.cpt.get port with readOut := [0, 0, 0, 2, 0, 0] } }) ∧
    ∀ kind tag length params, 4 ≤ (s.port port).held →
      ∃ t, exec (.writeTransfer port (kind :: tag :: length :: params)) s = .next t ∧
        (t.port port).responses = (s.port port).responses

/-! ### How requests are taken -/

/-- R119, R171, R186: the common checks refuse a request in their order, with no other effect: an unrecognised kind;
missing rights; a length that the kind does not allow or that the transfer did not carry; a position, voice or channel
number out of range; a named value or a step list that is none. That surplus bytes fail the length check is the model's
reading (notes/assumptions/21.md), and that any row of the port takes a request of an unrecognised kind is the model's
form (notes/assumptions/2.md). -/
def Obligations.CommonChecksRefuse : Prop :=
  ∀ (c : Instr) (port : Port) (k : Kind) (s : State) (r : Request) (rest : List Request),
    requestRow c = some (port, k) → s.offers port r rest →
    (kindOf r.kind = none →
      exec c s = .next { s with cpt := s.cpt.answered port r rest .badRequest [] }) ∧
    (r.kind = k.code → k.allows port = false →
      exec c s = .next { s with cpt := s.cpt.answered port r rest .notPermitted [] }) ∧
    (r.kind = k.code → k.allows port = true → r.params.length ≠ r.length.toNat →
      exec c s = .next { s with cpt := s.cpt.answered port r rest .badRequest [] }) ∧
    (r.whole k → k.allows port = true → k.layout.fits r.params = false →
      exec c s = .next { s with cpt := s.cpt.answered port r rest .badRequest [] }) ∧
    (r.whole k → k.allows port = true → k.layout.fits r.params = true → k.inRange r.params = false →
      exec c s = .next { s with cpt := s.cpt.answered port r rest .outOfRange [] }) ∧
    (r.whole k → k.allows port = true → k.layout.fits r.params = true → k.inRange r.params = true →
      k.valuesNamed r.params = false →
      exec c s = .next { s with cpt := s.cpt.answered port r rest .badRequest [] })

/-- R170, R172: a request that a row takes leaves the untaken ones and is answered once: exactly one response joins the
tail of the responses of its port, with its kind and tag and the overflow flag as it stood, whatever the status, and no
other port's requests or responses change (for RESET, whose ABORTED answers follow its own, the response stands in that
place). One answered with any status but OK or CHANGED has no other effect.  A row takes only the oldest untaken
request, and only one of its own kind, else nothing happens (the model's reading of the rows,
notes/assumptions/1.md). -/
def Obligations.RequestsAreAnsweredOnce : Prop :=
  ∀ (c : Instr) (port : Port) (k : Kind) (s : State), requestRow c = some (port, k) →
    (∀ r rest, s.offers port r rest → k.takes r = true →
      ∃ t status data, exec c s = .next t ∧
        (t.port port).responses[(s.port port).responses.length]? =
          some (r.answer (s.port port).overflow status data) ∧
        (k ≠ .reset →
          (t.port port).untaken = rest ∧
          (t.port port).responses = (s.port port).responses ++ [r.answer (s.port port).overflow status data] ∧
          ∀ x, x ≠ port → (t.port x).untaken = (s.port x).untaken ∧ (t.port x).responses = (s.port x).responses) ∧
        (status ≠ .ok → status ≠ .changed →
          data = [] ∧ t = { s with cpt := s.cpt.answered port r rest status [] })) ∧
    ((s.port port).untaken = [] → exec c s = .next s) ∧
    ∀ r rest, (s.port port).untaken = r :: rest → (∃ x, kindOf r.kind = some x ∧ x ≠ k) → exec c s = .next s

/-- R5, R6: while a position is CLOSING every request that names it, but CLOSE, READ_POSITION and READ_COEFFS, is
refused with BAD_STATE and changes nothing; a CLOSE replaces the stored plan and has no other effect.  A CLOSE of a
CLOSED position is refused with BAD_STATE. That a meter mask names no position in this sense is the model's choice
(notes/assumptions/40.md). -/
def Obligations.ClosingPositionRequests : Prop :=
  (∀ (c : Instr) (port : Port) (k : Kind) (s : State) (r : Request) (rest : List Request) (p : Fin 16),
    requestRow c = some (port, k) → s.asks port k r rest → k.named r.params = some p →
    (s.pos p).state = .closing → k ≠ .close → k ≠ .readPosition → k ≠ .readCoeffs →
    exec c s = .next { s with cpt := s.cpt.answered port r rest .badState [] }) ∧
  ∀ (s : State) (port : Port) (r : Request) (rest : List Request) (p : Fin 16) (plan : Plan),
    s.asks port .close r rest → closeArgs r.params = .ok (p, plan) →
    ((s.pos p).state = .closing → exec (.closePosition port) s = .next { s with
      pct := upd s.pct p (fun x => { x with closePlan := some plan })
      cpt := s.cpt.answered port r rest .ok [] }) ∧
    ((s.pos p).state = .closed →
      exec (.closePosition port) s = .next { s with cpt := s.cpt.answered port r rest .badState [] })

/-- R102, R119, R186: the parameters are taken in the order of the request table, with the sizes of R186; a field mask
says which of the fields follow it, and those left out are told apart from those given. -/
def Obligations.ParametersInTableOrder : Prop :=
  (∀ p : Fin 16, ∀ c : Fin 4, ∀ v : Fin 12, ∀ a b d e f g h i j : Byte,
    let n (x : Nat) : Byte := BitVec.ofNat 8 x
    let two (x y : Byte) : Nat := x.toNat + 256 * y.toNat
    openArgs [n p.val, 0] = .ok (p, false) ∧ openArgs [n p.val, 1] = .ok (p, true) ∧
    closeArgs [n p.val, 0] = .ok (p, .keep) ∧ closeArgs [n p.val, 1] = .ok (p, .clear) ∧
    deskArgs [n p.val, 0x3F, 1, a, b, d, e, f, g, h, i, 0] = .ok (p,
      { mute := some true, earGain := some (two a b), sidetone := some (two d e), promptGain := some (two f g)
        announceGain := some (two h i), buttonMute := some false }) ∧
    batteryArgs [n p.val, a, b] = .ok (p, a.toNat, b.toNat) ∧
    supervisionArgs [n p.val, 0] = .ok (p, false) ∧ supervisionArgs [n p.val, 1] = .ok (p, true) ∧
    callArgs [n p.val, 0] = .ok (p, .idle) ∧ callArgs [n p.val, 1] = .ok (p, .talk) ∧
    callArgs [n p.val, 2] = .ok (p, .hold) ∧
    reminderArgs [n p.val, a, b, 1] = .ok (p, two a b, true) ∧
    positionArg [n p.val] = .ok p ∧ channelArg [n c.val] = .ok c ∧ voiceArg [n v.val] = .ok v ∧
    bindArgs [n p.val, a, b] = .ok (p, a.toNat, b.toNat) ∧
    supChannelArgs [n c.val] = .ok (c, none) ∧ supChannelArgs [n c.val, a, b] = .ok (c, some (a.toNat, b.toNat)) ∧
    echoArgs [n p.val, 0x7F, 2, a, b, d, e, f, g, h, i, j, a, b] = .ok (p,
      { mode := some .freeze, muConv := some a.toNat, muTrack := some b.toNat, bulkDelay := some (two d e)
        delta := some (two f g + 65536 * two h i), talkCode := some j.toNat, hangover := some (two a b) }) ∧
    coeffArgs [n p.val, 3, a, b] = .ok (p, 3, two a b) ∧
    nrArgs [n p.val, 2, a, b] = .ok (p, none, some (two a b)) ∧
    supNrArgs [n c.val, 3, 0, a, b] = .ok (c, some false, some (two a b)) ∧
    joinArgs [n c.val, n p.val, 2, 7, a, b, d, e, f, g] = .ok
      { channel := c, position := p, mode := .whisper, talkGain := min 8192 (two a b), duckLevel := min 4096 (two d e)
        release := max 1 (min 250 (two f g)) } ∧
    joinArgs [n c.val, n p.val, 1, 0] = .ok
      { channel := c, position := p, mode := .listen, talkGain := 4096, duckLevel := 1024, release := 50 } ∧
    joinArgs [n c.val, n p.val, 0, 0] = .error .badRequest ∧
    changeModeArgs [n c.val, 2] = .ok (c, .whisper) ∧ changeModeArgs [n c.val, 0] = .error .badRequest ∧
    holdArgs [n p.val, 0xFF] = .ok (p, none, none) ∧
    holdArgs [n p.val, n v.val, a, b] = .ok (p, some v, some (two a b)) ∧
    startArgs [n v.val, 1, 4, 0, a, b] = .ok (v, [.mark 0]) ∧
    promptArgs [n p.val, 1, 1, 1, 0, 40, 0] = .ok (p, true, [.clip 40]) ∧
    announceArgs [n p.val, 2, 2, 0, 7, 1, 3, 0, 5, 0] = .ok (p, [.silence 263, .loop 0 5]) ∧
    maxArg [a] = .ok a.toNat ∧
    meterArgs [a, b, 3] = .ok (BitVec.ofNat 16 (two a b), .p250)) ∧
  ∀ (sizes : List Nat) (fields : List (Option (List Byte))),
    List.Forall₂ (fun size field => ∀ bytes, field = some bytes → bytes.length = size) sizes fields →
    maskedFields sizes (fields.foldr (fun field mask => (if field.isSome then 1 else 0) + 2 * mask) 0)
        (fields.flatMap (fun field => field.getD [])) =
      some (fields.map (Option.map leNat))

/-! ### Positions -/

/-- R3, R41, R63, R79, R98: OPEN of a CLOSED position, with the retained contexts put back into use or the contexts
started afresh, the duck factor at 4096 and the meter windows new; in OPEN or CLOSING it is refused with BAD_STATE. That
the window clip counts restart (notes/assumptions/17.md) and what a window without a frame holds
(notes/assumptions/30.md) are the model's reading. -/
def Obligations.OpenStartsPosition : Prop :=
  ∀ (s : State) (port : Port) (r : Request) (rest : List Request) (p : Fin 16) (useRetained : Bool),
    s.asks port .openPosition r rest → openArgs r.params = .ok (p, useRetained) →
    ((s.pos p).state ≠ .closed →
      exec (.openPosition port) s = .next { s with cpt := s.cpt.answered port r rest .badState [] }) ∧
    ((s.pos p).state = .closed →
      let back : Bool := useRetained && (s.pos p).retained
      exec (.openPosition port) s = .next { s with
        pct := upd s.pct p (fun x => { x with
          state := .opened, retained := false, band := .normal, mutedCount := 0, mutedIssued := false })
        ecu := upd s.ecu p (fun c => { c with
          coeffs := if back = true then c.coeffs else List.replicate 128 0
          generation := if back = true ∨ c.coeffs = List.replicate 128 0 then c.generation else c.generation + 1
          hangover := 0, good := 0, poor := 0, diverge := 0, erle := 0
          state := if (s.pos p).echo.mode = .off then .off else .converging })
        nru := { s.nru with contexts := upd s.nru.contexts (noiseOfPosition p) (fun c =>
          if back = true then { c with state := .pause, learned := 16, hangover := 0, speechRun := 0, gain := 4096 }
          else { c with state := .learn, learned := 0, estimate := 1, hangover := 0, speechRun := 0, gain := 4096 }) }
        mxe := { s.mxe with
          duck := s.mxe.duck.set p { factor := 4096, level := 1024, release := 50 }
          window := s.mxe.window.set p .empty
          lastWindow := s.mxe.lastWindow.set p .empty
          earClips := s.mxe.earClips.set p 0
          lineClips := s.mxe.lineClips.set p 0 }
        cpt := s.cpt.answered port r rest .ok [if back = true then 1 else 0] })

/-- R4, R109, R132, R163, R165: CLOSE of an OPEN position: CLOSING with the plan, its sessions ended, both queues
flushed and the voices that played their heads draining for it, the call IDLE, the line released; the reports are
made sessions first, then AGENT entries, then LINE entries, and the response is OK. -/
def Obligations.CloseDisconnectsPosition : Prop :=
  ∀ (s : State) (port : Port) (r : Request) (rest : List Request) (p : Fin 16) (plan : Plan),
    s.asks port .close r rest → closeArgs r.params = .ok (p, plan) → (s.pos p).state = .opened →
    ∃ t, exec (.closePosition port) s = .next t ∧
      t = { s with
        pct := upd s.pct p (fun x => { x with
          state := .closing, closePlan := some plan, line := none, call := .idle, reminderStatus := .stopped,
          band := .normal })
        sst := t.sst
        vce := t.vce
        sfe := { s.sfe with owed := t.sfe.owed }
        pqc := { s.pqc with agent := s.pqc.agent.set p [], line := s.pqc.line.set p [] }
        mxe := { s.mxe with supTerms := t.mxe.supTerms, lineTerms := s.mxe.lineTerms.set p .absent }
        hwi := { s.hwi with lineOut := s.hwi.lineOut.set p none }
        cpt := (s.placeCancels p .line (s.placeCancels p .agent
          (s.placeEndings p .closed (s.cpt.taking port rest)))).responding port
            (r.answer (s.port port).overflow .ok []) } ∧
      (∀ c : Fin 4, t.sst[c] =
        if s.sessionOn p c = true then { s.sst[c] with mode := .idle, target := none, lastEnd := .closed }
        else s.sst[c]) ∧
      (∀ c : Fin 4, t.mxe.supTerms[c] = if s.sessionOn p c = true then .absent else s.mxe.supTerms[c]) ∧
      (∀ v : Fin 12, t.vce[v] =
        if s.heldBy p .agent v = true ∨ s.heldBy p .line v = true then
          { s.vce[v] with state := .draining, drainedFor := some p, refill := false, ramp := .pending }
        else s.vce[v])

/-- R9: SET_DESK writes the fields it carries, the gains clamped; a mute change from on to off zeroes the muted-talk
count and issued; the response carries the values now held. Which items the response data hold is the model's reading
(notes/assumptions/20.md). -/
def Obligations.SetDeskWritesSettings : Prop :=
  ∀ (s : State) (port : Port) (r : Request) (rest : List Request) (p : Fin 16) (f : DeskFields),
    s.asks port .setDesk r rest → deskArgs r.params = .ok (p, f) → (s.pos p).state ≠ .closing →
    let x := s.pos p
    let mute := f.mute.getD x.mute
    let ear := (f.earGain.map (fun g => min g 8192)).getD x.earGain
    let side := (f.sidetone.map (fun g => min g 2048)).getD x.sidetone
    let prompt := (f.promptGain.map (fun g => min g 8192)).getD x.promptGain
    let announce := (f.announceGain.map (fun g => min g 8192)).getD x.announceGain
    let button := f.buttonMute.getD x.buttonMute
    exec (.setDesk port) s = .next { s with
      pct := s.pct.set p { x with
        mute := mute, earGain := ear, sidetone := side, promptGain := prompt, announceGain := announce
        buttonMute := button
        mutedCount := if x.mute = true ∧ mute = false then 0 else x.mutedCount
        mutedIssued := if x.mute = true ∧ mute = false then false else x.mutedIssued }
      cpt := s.cpt.answered port r rest .ok
        ([if mute then 1 else 0] ++ byte2 ear ++ byte2 side ++ byte2 prompt ++ byte2 announce ++
          [if button then 1 else 0]) }

/-- R10: SET_BATTERY is a Desk request; from the Desk port it clamps each threshold to 1 to 100, then the critical one
to the low one, leaves the band as it is and carries the two values back; in CLOSING it is refused with BAD_STATE, and
from another port with NOT_PERMITTED. -/
def Obligations.SetBatteryClampsThresholds : Prop :=
  ∀ (s : State) (port : Port) (r : Request) (rest : List Request) (p : Fin 16) (low critical : Nat),
    s.offers port r rest → r.whole .setBattery → batteryArgs r.params = .ok (p, low, critical) →
    let l := max 1 (min 100 low)
    let k := min (max 1 (min 100 critical)) l
    (port ≠ .desk →
      exec (.setBattery port) s = .next { s with cpt := s.cpt.answered port r rest .notPermitted [] }) ∧
    (port = .desk → (s.pos p).state = .closing →
      exec (.setBattery port) s = .next { s with cpt := s.cpt.answered port r rest .badState [] }) ∧
    (port = .desk → (s.pos p).state ≠ .closing → exec (.setBattery port) s = .next { s with
      pct := upd s.pct p (fun x => { x with batteryLow := l, batteryCritical := k })
      cpt := s.cpt.answered port r rest .ok [BitVec.ofNat 8 l, BitVec.ofNat 8 k] })

/-- R11: SET_SUPERVISION writes the flag; a change from yes to no ends every session on the position with REVOKED and
a report for each, and any other write ends nothing. -/
def Obligations.SetSupervisionRevokes : Prop :=
  ∀ (s : State) (port : Port) (r : Request) (rest : List Request) (p : Fin 16) (allowed : Bool),
    s.asks port .setSupervision r rest → supervisionArgs r.params = .ok (p, allowed) → (s.pos p).state ≠ .closing →
    (¬((s.pos p).supervisionAllowed = true ∧ allowed = false) → exec (.setSupervision port) s = .next { s with
      pct := upd s.pct p (fun x => { x with supervisionAllowed := allowed })
      cpt := s.cpt.answered port r rest .ok [] }) ∧
    ((s.pos p).supervisionAllowed = true → allowed = false → ∃ t, exec (.setSupervision port) s = .next t ∧
      t = { s with
        pct := upd s.pct p (fun x => { x with supervisionAllowed := false })
        sst := t.sst
        mxe := { s.mxe with supTerms := t.mxe.supTerms }
        cpt := (s.placeEndings p .revoked (s.cpt.taking port rest)).responding port
          (r.answer (s.port port).overflow .ok []) } ∧
      (∀ c : Fin 4, t.sst[c] =
        if s.sessionOn p c = true then { s.sst[c] with mode := .idle, target := none, lastEnd := .revoked }
        else s.sst[c]) ∧
      ∀ c : Fin 4, t.mxe.supTerms[c] = if s.sessionOn p c = true then .absent else s.mxe.supTerms[c])

/-- R12, R13: SET_CALL on an OPEN and bound position between IDLE, TALK and HOLD, but for the moves into IDLE; a move
into HOLD is refused when the hold source names a voice that is not in PROGRAM use; unbound or not OPEN it is refused
with BAD_STATE. -/
def Obligations.SetCallMoves : Prop :=
  ∀ (s : State) (port : Port) (r : Request) (rest : List Request) (p : Fin 16) (call : CallState),
    s.asks port .setCall r rest → callArgs r.params = .ok (p, call) →
    (¬((s.pos p).state = .opened ∧ (s.pos p).line.isSome = true) →
      exec (.setCall port) s = .next { s with cpt := s.cpt.answered port r rest .badState [] }) ∧
    ((s.pos p).state = .opened → (s.pos p).line.isSome = true →
      ((s.pos p).call = call →
        exec (.setCall port) s = .next { s with cpt := s.cpt.answered port r rest .ok [] }) ∧
      ((s.pos p).call = .idle → call = .talk → exec (.setCall port) s = .next { s with
        pct := upd s.pct p (fun x => { x with call := .talk })
        cpt := s.cpt.answered port r rest .ok [] }) ∧
      ((s.pos p).call = .idle → call = .hold →
        exec (.setCall port) s = .next { s with cpt := s.cpt.answered port r rest .badState [] }) ∧
      ((s.pos p).call = .talk → call = .hold →
        (∀ v : Fin 12, (s.pos p).holdSource = some v → s.vce[v].use = .program ∧
          (s.vce[v].state = .priming ∨ s.vce[v].state = .playing)) →
        exec (.setCall port) s = .next { s with
          pct := upd s.pct p (fun x => { x with
            call := .hold
            reminderCounter := if x.reminderInterval = 0 then x.reminderCounter else x.reminderInterval
            reminderStatus := if x.reminderInterval = 0 then x.reminderStatus else .running })
          cpt := s.cpt.answered port r rest .ok [] }) ∧
      ((s.pos p).call = .talk → call = .hold →
        (∀ v : Fin 12, (s.pos p).holdSource = some v →
          ¬(s.vce[v].use = .program ∧ (s.vce[v].state = .priming ∨ s.vce[v].state = .playing))) →
        (s.pos p).holdSource ≠ none →
        exec (.setCall port) s = .next { s with cpt := s.cpt.answered port r rest .badState [] }) ∧
      ((s.pos p).call = .hold → call = .talk → exec (.setCall port) s = .next { s with
        pct := upd s.pct p (fun x => { x with call := .talk, reminderStatus := .stopped })
        cpt := s.cpt.answered port r rest .ok [] }))

/-- R13, R34: SET_CALL IDLE from TALK or HOLD, and UNBIND_LINE, make the IDLE effects: the sessions on the position
end with CALL_ENDED, the LINE queue is flushed, the AGENT queue is not touched; UNBIND_LINE then releases the
slots. -/
def Obligations.CallEndsWithIdleEffects : Prop :=
  ∀ (s : State) (port : Port) (r : Request) (rest : List Request) (p : Fin 16) (unbind : Bool),
    (if unbind = true then s.asks port .unbindLine r rest ∧ positionArg r.params = .ok p
     else s.asks port .setCall r rest ∧ callArgs r.params = .ok (p, .idle)) →
    (s.pos p).state = .opened → (s.pos p).line.isSome = true → (s.pos p).call ≠ .idle →
    ∃ t, exec (if unbind = true then .unbindLine port else .setCall port) s = .next t ∧
      t = { s with
        pct := upd s.pct p (fun x => { x with
          call := .idle
          line := if unbind = true then none else x.line
          reminderStatus := if x.call = .hold then .stopped else x.reminderStatus })
        sst := t.sst
        vce := t.vce
        sfe := { s.sfe with owed := t.sfe.owed }
        pqc := { s.pqc with line := s.pqc.line.set p [] }
        mxe := { s.mxe with
          supTerms := t.mxe.supTerms
          lineTerms := if unbind = true then s.mxe.lineTerms.set p .absent else s.mxe.lineTerms }
        hwi := { s.hwi with lineOut := if unbind = true then s.hwi.lineOut.set p none else s.hwi.lineOut }
        cpt := (s.placeCancels p .line (s.placeEndings p .callEnded (s.cpt.taking port rest))).responding port
          (r.answer (s.port port).overflow .ok []) } ∧
      (∀ c : Fin 4, t.sst[c] =
        if s.sessionOn p c = true then { s.sst[c] with mode := .idle, target := none, lastEnd := .callEnded }
        else s.sst[c]) ∧
      (∀ c : Fin 4, t.mxe.supTerms[c] = if s.sessionOn p c = true then .absent else s.mxe.supTerms[c]) ∧
      (∀ v : Fin 12, t.vce[v] =
        if s.heldBy p .line v = true then
          { s.vce[v] with state := .draining, drainedFor := some p, refill := false, ramp := .pending }
        else s.vce[v])

/-- R20, R22: SET_REMINDER writes the interval and the repeat flag and loads or keeps the counter by the status and the
call state; ACK_REMINDER reloads the counter and sets RUNNING in HOLD with an interval, and is refused with BAD_STATE
otherwise. Which items the response data hold is the model's reading (notes/assumptions/20.md). -/
def Obligations.ReminderRequests : Prop :=
  (∀ (s : State) (port : Port) (r : Request) (rest : List Request) (p : Fin 16) (seconds : Nat) (again : Bool),
    s.asks port .setReminder r rest → reminderArgs r.params = .ok (p, seconds, again) → (s.pos p).state ≠ .closing →
    let frames := if seconds = 0 then 0 else max 10 (min 600 seconds) * 250
    exec (.setReminder port) s = .next { s with
      pct := upd s.pct p (fun x => { x with
        reminderInterval := frames
        reminderRepeat := again
        reminderCounter := if seconds ≠ 0 ∧ x.reminderStatus = .running then x.reminderCounter else frames
        reminderStatus :=
          if seconds = 0 then .stopped
          else if x.reminderStatus ≠ .running ∧ x.call = .hold then .running
          else x.reminderStatus })
      cpt := s.cpt.answered port r rest .ok (byte4 frames) }) ∧
  ∀ (s : State) (port : Port) (r : Request) (rest : List Request) (p : Fin 16),
    s.asks port .ackReminder r rest → positionArg r.params = .ok p →
    let due := (s.pos p).state = .opened ∧ (s.pos p).call = .hold ∧ (s.pos p).reminderInterval ≠ 0
    (due → exec (.ackReminder port) s = .next { s with
      pct := upd s.pct p (fun x => { x with reminderCounter := x.reminderInterval, reminderStatus := .running })
      cpt := s.cpt.answered port r rest .ok [] }) ∧
    (¬due → exec (.ackReminder port) s = .next { s with cpt := s.cpt.answered port r rest .badState [] })

/-- R24, R116, R137, R152, R187: the requests that read a position, a session, a voice or the store are taken in every
state and change nothing; their data are the items of the record in the rule's order, each of its size, a named value by
its place among its values, a flag as 0 or 1, and an item that is absent with every byte 0xFF. Little-endian numbers of
two and four bytes are written so in every message. Which sizes the items have that no request names is the model's
reading (notes/assumptions/20.md). -/
def Obligations.ReadsChangeNothing : Prop :=
  let one (n : Nat) : List Byte := [BitVec.ofNat 8 n]
  let two (n : Nat) : List Byte := [BitVec.ofNat 8 n, BitVec.ofNat 8 (n / 256)]
  let four (n : Nat) : List Byte :=
    [BitVec.ofNat 8 n, BitVec.ofNat 8 (n / 256), BitVec.ofNat 8 (n / 65536), BitVec.ofNat 8 (n / 16777216)]
  let flag (b : Bool) : List Byte := if b = true then [1] else [0]
  let oneOr (o : Option Nat) : List Byte := (o.map one).getD [0xFF]
  let twoOr (o : Option Nat) : List Byte := (o.map two).getD [0xFF, 0xFF]
  let fourOr (o : Option Nat) : List Byte := (o.map four).getD [0xFF, 0xFF, 0xFF, 0xFF]
  let slots (o : Option SlotPair) : List Byte :=
    oneOr (o.map (fun b => b.inSlot.val)) ++ oneOr (o.map (fun b => b.outSlot.val))
  let step (x : Step) : List Byte :=
    match x with
    | .clip n => [1, 0] ++ two n
    | .silence n => [2, 0] ++ two n
    | .loop target count => [3] ++ one target ++ two count
    | .mark code => [4] ++ one code ++ [0, 0]
  (∀ n, byte2 n = two n ∧ byte4 n = four n) ∧ (∀ x : Int, byteInt16 x = two (x % 65536).toNat) ∧
  ∀ (s : State) (port : Port) (r : Request) (rest : List Request),
    (∀ p, s.asks port .readPosition r rest → positionArg r.params = .ok p →
      let x := s.pos p
      let data : List Byte :=
        one ([PosState.closed, .opened, .closing].idxOf x.state) ++
          oneOr (x.closePlan.map (fun a => [Plan.keep, .clear].idxOf a)) ++ flag x.retained ++ slots x.line ++
          one ([CallState.idle, .talk, .hold].idxOf x.call) ++ oneOr (x.holdSource.map (fun v => v.val)) ++
          two x.holdGain ++ flag x.supervisionAllowed ++
          flag x.mute ++ two x.earGain ++ two x.sidetone ++ two x.promptGain ++ two x.announceGain ++
          flag x.buttonMute ++
          one ([EchoMode.off, .adapt, .freeze].idxOf x.echo.mode) ++ one x.echo.muConv ++ one x.echo.muTrack ++
          two x.echo.bulkDelay ++ four x.echo.delta ++ one x.echo.talkCode ++ two x.echo.hangover ++
          flag x.noise.enable ++ two x.noise.floor ++
          one x.batteryLow ++ one x.batteryCritical ++ one ([Band.normal, .low, .critical].idxOf x.band) ++
          flag x.present ++ flag x.button ++ one x.batteryLevel ++
          four x.reminderInterval ++ flag x.reminderRepeat ++ four x.reminderCounter ++
          one ([ReminderStatus.stopped, .running, .expired].idxOf x.reminderStatus) ++
          two x.mutedCount ++ flag x.mutedIssued
      exec (.readPosition port) s = .next { s with cpt := s.cpt.answered port r rest .ok data }) ∧
    (∀ c, s.asks port .readSession r rest → channelArg r.params = .ok c →
      let x := s.sst[c]
      let n := s.nru.contexts[noiseOfChannel c]
      let data : List Byte :=
        one ([SupMode.idle, .listen, .whisper, .barge].idxOf x.mode) ++ oneOr (x.target.map (fun p => p.val)) ++
          two x.talkGain ++ two x.duckLevel ++ two x.release ++
          one ([SessionEnd.none, .left, .callEnded, .closed, .revoked, .channelUnbound].idxOf x.lastEnd) ++
          slots s.hwi.channels[c] ++ one ([NoiseState.learn, .pause, .speech].idxOf n.state) ++ flag n.out.speech
      exec (.readSession port) s = .next { s with cpt := s.cpt.answered port r rest .ok data }) ∧
    (∀ v, s.asks port .readVoice r rest → voiceArg r.params = .ok v →
      let x := s.vce[v]
      let data : List Byte :=
        one ([VoiceState.free, .priming, .playing, .draining].idxOf x.state) ++
          (match x.use with
            | .none => [0, 0xFF, 0xFF]
            | .program => [1, 0xFF, 0xFF]
            | .prompt p q => [2] ++ one p.val ++ one ([QueueId.agent, .line].idxOf q)) ++
          oneOr (x.drainedFor.map (fun p => p.val)) ++ one x.steps.length ++ x.steps.flatMap step ++
          one (x.current.getD 8) ++ fourOr (x.clip.map (fun a => a.remaining)) ++ two x.buffer.length ++
          flag x.endFetched ++ flag x.refill ++ flag (decide (∃ f, s.sfe.fetch = some f ∧ f.voice = v)) ++
          two x.underruns ++ one x.skipped ++ one x.marks.length ++ ((x.marks ++ [0, 0, 0, 0]).take 4).flatMap one
      exec (.readVoice port) s = .next { s with cpt := s.cpt.answered port r rest .ok data }) ∧
    (s.asks port .readStore r rest → r.params = [] →
      let e := s.sfe
      let data : List Byte :=
        one ([StoreState.scanning, .ready, .unavailable].idxOf e.store) ++ two e.clipCount ++
          twoOr e.settings.reminder ++ twoOr e.settings.muted ++ twoOr e.settings.batteryLow ++
          twoOr e.settings.batteryCritical ++
          two ((allVoices.map (fun v => if s.vce[v].refill = true then 2 ^ v.val else 0)).sum) ++
          oneOr (e.fetch.map (fun f => f.voice.val)) ++ twoOr (e.fetch.map (fun f => f.count)) ++
          one e.timeouts ++ one ([StoreFailure.none, .scan, .timeout].idxOf e.lastFailure)
      exec (.readStore port) s = .next { s with cpt := s.cpt.answered port r rest .ok data })

/-! ### The highway slot map -/

/-- R33, R34: BIND_LINE checks the position, the slot numbers and their use in that order and binds the pair;
UNBIND_LINE in IDLE releases both slots alone, and is refused with BAD_STATE when not OPEN and bound. That a new
binding sends zeros until the next frame event and that a line's clip count starts at 0 are the model's reading
(notes/assumptions/19.md, notes/assumptions/17.md). -/
def Obligations.LineBindings : Prop :=
  (∀ (s : State) (port : Port) (r : Request) (rest : List Request) (p : Fin 16) (i o : Nat),
    s.asks port .bindLine r rest → bindArgs r.params = .ok (p, i, o) →
    (¬((s.pos p).state = .opened ∧ (s.pos p).call = .idle) →
      exec (.bindLine port) s = .next { s with cpt := s.cpt.answered port r rest .badState [] }) ∧
    ((s.pos p).state = .opened → (s.pos p).call = .idle → (31 < i ∨ 31 < o) →
      exec (.bindLine port) s = .next { s with cpt := s.cpt.answered port r rest .outOfRange [] }) ∧
    (∀ b : SlotPair, (s.pos p).state = .opened → (s.pos p).call = .idle → b.inSlot.val = i → b.outSlot.val = o →
      ((∃ e x, e ≠ .position p ∧ s.binding e = some x ∧ (x.inSlot = b.inSlot ∨ x.outSlot = b.outSlot)) →
        exec (.bindLine port) s = .next { s with cpt := s.cpt.answered port r rest .inUse [] }) ∧
      ((∀ e x, e ≠ .position p → s.binding e = some x → x.inSlot ≠ b.inSlot ∧ x.outSlot ≠ b.outSlot) →
        exec (.bindLine port) s = .next { s with
          pct := upd s.pct p (fun x => { x with line := some b })
          hwi := { s.hwi with lineOut := s.hwi.lineOut.set p none }
          mxe := { s.mxe with
            lineClips := if (s.pos p).line = none then s.mxe.lineClips.set p 0 else s.mxe.lineClips }
          cpt := s.cpt.answered port r rest .ok [] }))) ∧
  ∀ (s : State) (port : Port) (r : Request) (rest : List Request) (p : Fin 16),
    s.asks port .unbindLine r rest → positionArg r.params = .ok p →
    (¬((s.pos p).state = .opened ∧ (s.pos p).line.isSome = true) →
      exec (.unbindLine port) s = .next { s with cpt := s.cpt.answered port r rest .badState [] }) ∧
    ((s.pos p).state = .opened → (s.pos p).line.isSome = true → (s.pos p).call = .idle →
      exec (.unbindLine port) s = .next { s with
        pct := upd s.pct p (fun x => { x with line := none })
        mxe := { s.mxe with lineTerms := s.mxe.lineTerms.set p .absent }
        hwi := { s.hwi with lineOut := s.hwi.lineOut.set p none }
        cpt := s.cpt.answered port r rest .ok [] })

/-- R32, R35, R37, R97, R109, R115: SET_SUP_CHANNEL binds a pair and restarts the learning of the channel's noise
context, is refused with OUT_OF_RANGE for a slot above 31 and then with IN_USE for a slot of another endpoint, or
releases the slots and ends the channel's session with CHANNEL_UNBOUND and a report. A channel rebound under a session
keeps the session and the frame that its listening mix is sending. That this frame stays and any other new binding sends
zeros until the next frame event is the model's reading (notes/assumptions/19.md), and so is the mark of a learning that a
binding restarted (notes/assumptions/38.md). -/
def Obligations.ChannelBindings : Prop :=
  ∀ (s : State) (port : Port) (r : Request) (rest : List Request) (c : Fin 4),
    s.asks port .setSupChannel r rest →
    (∀ b : SlotPair, supChannelArgs r.params = .ok (c, some (b.inSlot.val, b.outSlot.val)) →
      (∀ e x, e ≠ .channel c → s.binding e = some x → x.inSlot ≠ b.inSlot ∧ x.outSlot ≠ b.outSlot) →
      exec (.setSupChannel port) s = .next { s with
        hwi := { s.hwi with
          channels := s.hwi.channels.set c (some b)
          supOut := if s.hwi.channels[c] ≠ none ∧ s.sst[c].mode ≠ .idle then s.hwi.supOut
            else s.hwi.supOut.set c none }
        nru := { s.nru with contexts := upd s.nru.contexts (noiseOfChannel c) (fun n => { n with
          state := .learn, learned := 0, hangover := 0, speechRun := 0, relearning := true }) }
        cpt := s.cpt.answered port r rest .ok [] }) ∧
    (∀ i o : Nat, supChannelArgs r.params = .ok (c, some (i, o)) → (31 < i ∨ 31 < o) →
      exec (.setSupChannel port) s = .next { s with cpt := s.cpt.answered port r rest .outOfRange [] }) ∧
    (∀ b : SlotPair, supChannelArgs r.params = .ok (c, some (b.inSlot.val, b.outSlot.val)) →
      (∃ e x, e ≠ .channel c ∧ s.binding e = some x ∧ (x.inSlot = b.inSlot ∨ x.outSlot = b.outSlot)) →
      exec (.setSupChannel port) s = .next { s with cpt := s.cpt.answered port r rest .inUse [] }) ∧
    (supChannelArgs r.params = .ok (c, none) →
      (s.hwi.channels[c] = none →
        exec (.setSupChannel port) s = .next { s with cpt := s.cpt.answered port r rest .ok [] }) ∧
      (s.hwi.channels[c] ≠ none →
        let h := { s.hwi with channels := s.hwi.channels.set c none, supOut := s.hwi.supOut.set c none }
        let m := { s.mxe with supTerms := s.mxe.supTerms.set c .absent }
        (s.sst[c].mode = .idle → exec (.setSupChannel port) s = .next { s with
          hwi := h, mxe := m, cpt := s.cpt.answered port r rest .ok [] }) ∧
        (∀ p, s.sst[c].mode ≠ .idle → s.sst[c].target = some p → exec (.setSupChannel port) s = .next { s with
          hwi := h
          mxe := m
          sst := upd s.sst c (fun x => { x with mode := .idle, target := none, lastEnd := .channelUnbound })
          cpt := ((s.cpt.taking port rest).place s.ftu.frameCount .supervision
            (.sessionEnded c p .channelUnbound)).responding port (r.answer (s.port port).overflow .ok []) })))

/-! ### Echo and noise settings -/

/-- R65, R66: SET_EC writes the fields it carries, clamped; on an OPEN position the mode change, then the bulk delay
change, then the lowered hangover act on the context; on a CLOSED one only the settings change. Which items the
response data hold is the model's reading (notes/assumptions/20.md). -/
def Obligations.SetEcWritesAndActs : Prop :=
  ∀ (s : State) (port : Port) (r : Request) (rest : List Request) (p : Fin 16) (f : EchoFields),
    s.asks port .setEc r rest → echoArgs r.params = .ok (p, f) → (s.pos p).state ≠ .closing →
    let old := (s.pos p).echo
    let new : EchoSettings :=
      { mode := f.mode.getD old.mode
        muConv := (f.muConv.map (fun x => min 255 x)).getD old.muConv
        muTrack := (f.muTrack.map (fun x => min 255 x)).getD old.muTrack
        bulkDelay := (f.bulkDelay.map (fun x => min 255 x)).getD old.bulkDelay
        delta := (f.delta.map (fun x => max 1024 (min 16777215 x))).getD old.delta
        talkCode := (f.talkCode.map (fun x => max 1 (min 16 x))).getD old.talkCode
        hangover := (f.hangover.map (fun x => min 4095 x)).getD old.hangover }
    let c := s.ecu[p]
    let toOff : Prop := old.mode ≠ .off ∧ new.mode = .off
    let fromOff : Prop := old.mode = .off ∧ new.mode ≠ .off
    let moved : Prop := old.bulkDelay ≠ new.bulkDelay
    exec (.setEc port) s = .next { s with
      pct := upd s.pct p (fun x => { x with echo := new })
      ecu := if (s.pos p).state = .opened then s.ecu.set p { c with
          coeffs := if moved then List.replicate 128 0 else c.coeffs
          generation := if moved ∧ c.coeffs ≠ List.replicate 128 0 then c.generation + 1 else c.generation
          state := if toOff then .off else if fromOff then .converging
            else if moved then (if new.mode = .off then .off else .converging) else c.state
          good := if toOff ∨ fromOff ∨ moved then 0 else c.good
          poor := if toOff ∨ fromOff ∨ moved then 0 else c.poor
          diverge := if toOff ∨ fromOff ∨ moved then 0 else c.diverge
          hangover := min (if fromOff ∨ moved then 0 else c.hangover) new.hangover }
        else s.ecu
      cpt := s.cpt.answered port r rest .ok
        ([BitVec.ofNat 8 new.mode.code, BitVec.ofNat 8 new.muConv, BitVec.ofNat 8 new.muTrack] ++
          byte2 new.bulkDelay ++ byte4 new.delta ++ [BitVec.ofNat 8 new.talkCode] ++ byte2 new.hangover) }

/-- R81: READ_COEFFS returns one chunk of 32 coefficients with the generation and changes nothing; it is CHANGED for a
later chunk whose expected generation is not the current one, and OUT_OF_RANGE for a chunk above 3. Which items the
response data hold is the model's reading (notes/assumptions/20.md). -/
def Obligations.ReadCoeffsShowsGeneration : Prop :=
  ∀ (s : State) (port : Port) (r : Request) (rest : List Request) (p : Fin 16) (chunk expected : Nat),
    s.asks port .readCoeffs r rest → coeffArgs r.params = .ok (p, chunk, expected) →
    (3 < chunk → exec (.readCoeffs port) s = .next { s with cpt := s.cpt.answered port r rest .outOfRange [] }) ∧
    (chunk ≤ 3 →
      let data := ((s.ecu[p].coeffs.drop (32 * chunk)).take 32).flatMap byteInt16 ++ byte2 s.ecu[p].generation.toNat
      let same : Prop := chunk = 0 ∨ expected = s.ecu[p].generation.toNat
      (same → exec (.readCoeffs port) s = .next { s with cpt := s.cpt.answered port r rest .ok data }) ∧
      (¬same → exec (.readCoeffs port) s = .next { s with cpt := s.cpt.answered port r rest .changed data }))

/-- R85, R86: SET_NR and SET_SUP_NR write the fields they carry, the floor clamped to 4096, and change no state of the
context. Which items the response data hold is the model's reading (notes/assumptions/20.md). -/
def Obligations.NoiseSettingsWritten : Prop :=
  ∀ (s : State) (port : Port) (r : Request) (rest : List Request) (enable : Option Bool) (floor : Option Nat),
    (∀ p, s.asks port .setNr r rest → nrArgs r.params = .ok (p, enable, floor) → (s.pos p).state ≠ .closing →
      let e := enable.getD (s.pos p).noise.enable
      let a := (floor.map (fun x => min 4096 x)).getD (s.pos p).noise.floor
      exec (.setNr port) s = .next { s with
        pct := upd s.pct p (fun x => { x with noise := { enable := e, floor := a } })
        cpt := s.cpt.answered port r rest .ok ([if e then 1 else 0] ++ byte2 a) }) ∧
    ∀ c : Fin 4, s.asks port .setSupNr r rest → supNrArgs r.params = .ok (c, enable, floor) →
      let e := enable.getD s.nru.supSettings[c].enable
      let a := (floor.map (fun x => min 4096 x)).getD s.nru.supSettings[c].floor
      exec (.setSupNr port) s = .next { s with
        nru := { s.nru with supSettings := s.nru.supSettings.set c { enable := e, floor := a } }
        cpt := s.cpt.answered port r rest .ok ([if e then 1 else 0] ++ byte2 a) }

/-! ### Sessions -/

/-- R102, R103: a JOIN's fields left out take their defaults and those given are clamped; a JOIN that passes the six
checks writes the session record and is answered with the three values held; the first check that fails gives the
status, and nothing else changes. Which items the response data hold is the model's
reading (notes/assumptions/20.md). -/
def Obligations.JoinChecksInOrder : Prop :=
  (∀ (c : Fin 4) (p : Fin 16) (mode : SupMode) (talk duck release : Option (Byte × Byte)), mode ≠ .idle →
    let two (x : Byte × Byte) : Nat := x.1.toNat + 256 * x.2.toNat
    let bytes (x : Option (Byte × Byte)) : List Byte := (x.map (fun y => [y.1, y.2])).getD []
    let bit (x : Option (Byte × Byte)) : Nat := if x.isSome then 1 else 0
    joinArgs ([BitVec.ofNat 8 c.val, BitVec.ofNat 8 p.val, BitVec.ofNat 8 mode.code,
        BitVec.ofNat 8 (bit talk + 2 * bit duck + 4 * bit release)] ++ bytes talk ++ bytes duck ++ bytes release) =
      .ok
        { channel := c, position := p, mode := mode
          talkGain := (talk.map (fun x => min 8192 (two x))).getD 4096
          duckLevel := (duck.map (fun x => min 4096 (two x))).getD 1024
          release := (release.map (fun x => max 1 (min 250 (two x)))).getD 50 }) ∧
  ∀ (s : State) (port : Port) (r : Request) (rest : List Request) (f : JoinFields),
    s.asks port .join r rest → joinArgs r.params = .ok f →
    let x := s.pos f.position
    let refused (status : Status) : Prop :=
      exec (.join port) s = .next { s with cpt := s.cpt.answered port r rest status [] }
    let bound : Prop := s.hwi.channels[f.channel] ≠ none
    let free : Prop := s.sst[f.channel].mode = .idle
    let up : Prop := x.state = .opened ∧ (x.call = .talk ∨ x.call = .hold)
    let talks : Prop := f.mode = .whisper ∨ f.mode = .barge
    let joined : Session :=
      { mode := f.mode, target := some f.position, talkGain := f.talkGain, duckLevel := f.duckLevel
        release := f.release, lastEnd := .none }
    (¬bound → refused .badState) ∧
    (bound → ¬free → refused .badState) ∧
    (bound → free → ¬up → refused .badState) ∧
    (bound → free → up → x.supervisionAllowed = false → refused .notPermitted) ∧
    (bound → free → up → x.supervisionAllowed = true → 2 ≤ s.sessionCount f.position → refused .noResource) ∧
    (bound → free → up → x.supervisionAllowed = true → s.sessionCount f.position < 2 → talks →
      (∃ k, s.talkingOn f.position k = true) → refused .inUse) ∧
    (bound → free → up → x.supervisionAllowed = true → s.sessionCount f.position < 2 →
      (talks → ∀ k, s.talkingOn f.position k = false) → exec (.join port) s = .next { s with
        sst := s.sst.set f.channel joined
        cpt := s.cpt.answered port r rest .ok (byte2 f.talkGain ++ byte2 f.duckLevel ++ byte2 f.release) })

/-- R106, R108: CHANGE_MODE writes the mode of a session unless another session on its position talks and the new mode
does; LEAVE makes the record IDLE with last end LEFT and no report; both are refused with BAD_STATE on an IDLE
record. -/
def Obligations.SessionModeAndLeave : Prop :=
  ∀ (s : State) (port : Port) (r : Request) (rest : List Request) (c : Fin 4),
    (∀ mode, s.asks port .changeMode r rest → changeModeArgs r.params = .ok (c, mode) →
      let other : Prop := ∃ k p, k ≠ c ∧ s.sst[c].target = some p ∧ s.talkingOn p k = true
      let talks : Prop := mode = .whisper ∨ mode = .barge
      (s.sst[c].mode = .idle →
        exec (.changeMode port) s = .next { s with cpt := s.cpt.answered port r rest .badState [] }) ∧
      (s.sst[c].mode ≠ .idle → talks → other →
        exec (.changeMode port) s = .next { s with cpt := s.cpt.answered port r rest .inUse [] }) ∧
      (s.sst[c].mode ≠ .idle → ¬(talks ∧ other) → exec (.changeMode port) s = .next { s with
        sst := upd s.sst c (fun x => { x with mode := mode })
        cpt := s.cpt.answered port r rest .ok [] })) ∧
    (s.asks port .leave r rest → channelArg r.params = .ok c →
      (s.sst[c].mode = .idle →
        exec (.leave port) s = .next { s with cpt := s.cpt.answered port r rest .badState [] }) ∧
      (s.sst[c].mode ≠ .idle → exec (.leave port) s = .next { s with
        sst := upd s.sst c (fun x => { x with mode := .idle, target := none, lastEnd := .left })
        mxe := { s.mxe with supTerms := s.mxe.supTerms.set c .absent }
        cpt := s.cpt.answered port r rest .ok [] }))

/-! ### Programmes -/

/-- R134, R135: START_PROGRAM starts a FREE voice in PROGRAM use and is refused with IN_USE otherwise; STOP_PROGRAM
drains a voice in PROGRAM use, and is refused with IN_USE while a position in HOLD names it, else with BAD_STATE when
it is not in PROGRAM use. -/
def Obligations.ProgramsStartAndStop : Prop :=
  ∀ (s : State) (port : Port) (r : Request) (rest : List Request) (v : Fin 12),
    (∀ steps, s.asks port .startProgram r rest → startArgs r.params = .ok (v, steps) →
      (s.vce[v].state ≠ .free →
        exec (.startProgram port) s = .next { s with cpt := s.cpt.answered port r rest .inUse [] }) ∧
      (s.vce[v].state = .free → exec (.startProgram port) s = .next { s with
        vce := upd s.vce v (fun x => { x with
          state := .priming, use := .program, drainedFor := none, steps := steps, current := some 0, entered := false
          clip := none, silence := 0, loops := List.replicate 8 none, endFetched := false, placed := false
          buffer := [], refill := false, ramp := .none, marks := [], underruns := 0, skipped := 0 })
        cpt := s.cpt.answered port r rest .ok [] })) ∧
    (s.asks port .stopProgram r rest → voiceArg r.params = .ok v →
      let named : Prop := ∃ p, (s.pos p).call = .hold ∧ (s.pos p).holdSource = some v
      let program : Prop := s.vce[v].use = .program ∧ (s.vce[v].state = .priming ∨ s.vce[v].state = .playing)
      (named → exec (.stopProgram port) s = .next { s with cpt := s.cpt.answered port r rest .inUse [] }) ∧
      (¬named → ¬program →
        exec (.stopProgram port) s = .next { s with cpt := s.cpt.answered port r rest .badState [] }) ∧
      (¬named → program → ∃ owed, exec (.stopProgram port) s = .next { s with
        vce := upd s.vce v (fun x => { x with
          state := .draining, drainedFor := none, refill := false, ramp := .pending })
        sfe := { s.sfe with owed := owed }
        cpt := s.cpt.answered port r rest .ok [] }))

/-- R136: SET_HOLD_SOURCE writes the hold source and the hold gain, clamped; a source that names a voice not in PROGRAM
use, or a CLOSING position, is refused with BAD_STATE. Which items the response data hold is the model's reading
(notes/assumptions/20.md). -/
def Obligations.SetHoldSourceWrites : Prop :=
  ∀ (s : State) (port : Port) (r : Request) (rest : List Request) (p : Fin 16) (source : Option (Fin 12))
    (gain : Option Nat), s.asks port .setHoldSource r rest → holdArgs r.params = .ok (p, source, gain) →
    let good : Prop := (s.pos p).state ≠ .closing ∧ ∀ v : Fin 12, source = some v →
      s.vce[v].use = .program ∧ (s.vce[v].state = .priming ∨ s.vce[v].state = .playing)
    let g := (gain.map (fun x => min x 8192)).getD (s.pos p).holdGain
    (¬good → exec (.setHoldSource port) s = .next { s with cpt := s.cpt.answered port r rest .badState [] }) ∧
    (good → exec (.setHoldSource port) s = .next { s with
      pct := upd s.pct p (fun x => { x with holdSource := source, holdGain := g })
      cpt := s.cpt.answered port r rest .ok
        ([match source with
          | none => 0xFF
          | some v => BitVec.ofNat 8 v.val] ++ byte2 g) })

/-! ### Prompts -/

/-- R154, R155, R156: a prompt request that passes its checks joins the tail of its queue, WAITING, and is answered
with its place and the queue's count; a full queue refuses it with QUEUE_FULL. Which items the response data hold is
the model's reading (notes/assumptions/20.md). -/
def Obligations.PromptsJoinTheTail : Prop :=
  ∀ (s : State) (port : Port) (r : Request) (rest : List Request) (p : Fin 16) (duck : Bool) (steps : List Step),
    let agent := s.pqc.agent[p]
    let line := s.pqc.line[p]
    let entry (origin : Origin) (duck : Bool) : Entry :=
      { origin := origin, tag := r.tag, steps := steps, duck := duck, voice := none }
    let place (n : Nat) : List Byte := [BitVec.ofNat 8 n, BitVec.ofNat 8 (n + 1)]
    (s.asks port .agentPrompt r rest → promptArgs r.params = .ok (p, duck, steps) → (s.pos p).state ≠ .opened →
      exec (.agentPrompt port) s = .next { s with cpt := s.cpt.answered port r rest .badState [] }) ∧
    (s.asks port .agentPrompt r rest → promptArgs r.params = .ok (p, duck, steps) → (s.pos p).state = .opened →
      (4 ≤ agent.length →
        exec (.agentPrompt port) s = .next { s with cpt := s.cpt.answered port r rest .queueFull [] }) ∧
      (agent.length < 4 → exec (.agentPrompt port) s = .next { s with
        pqc := { s.pqc with agent := s.pqc.agent.set p (agent ++ [entry .desk duck]) }
        cpt := s.cpt.answered port r rest .ok (place agent.length) })) ∧
    (s.asks port .coachPrompt r rest → promptArgs r.params = .ok (p, duck, steps) → (s.pos p).state ≠ .opened →
      exec (.coachPrompt port) s = .next { s with cpt := s.cpt.answered port r rest .badState [] }) ∧
    (s.asks port .coachPrompt r rest → promptArgs r.params = .ok (p, duck, steps) → (s.pos p).state = .opened →
      ((s.pos p).supervisionAllowed = false →
        exec (.coachPrompt port) s = .next { s with cpt := s.cpt.answered port r rest .notPermitted [] }) ∧
      ((s.pos p).supervisionAllowed = true → 4 ≤ agent.length →
        exec (.coachPrompt port) s = .next { s with cpt := s.cpt.answered port r rest .queueFull [] }) ∧
      ((s.pos p).supervisionAllowed = true → agent.length < 4 → exec (.coachPrompt port) s = .next { s with
        pqc := { s.pqc with agent := s.pqc.agent.set p (agent ++ [entry .supervision duck]) }
        cpt := s.cpt.answered port r rest .ok (place agent.length) })) ∧
    (s.asks port .announce r rest → announceArgs r.params = .ok (p, steps) →
      (¬((s.pos p).state = .opened ∧ (s.pos p).call ≠ .idle) →
        exec (.announce port) s = .next { s with cpt := s.cpt.answered port r rest .badState [] }) ∧
      ((s.pos p).state = .opened → (s.pos p).call ≠ .idle → 4 ≤ line.length →
        exec (.announce port) s = .next { s with cpt := s.cpt.answered port r rest .queueFull [] }) ∧
      ((s.pos p).state = .opened → (s.pos p).call ≠ .idle → line.length < 4 →
        exec (.announce port) s = .next { s with
          pqc := { s.pqc with line := s.pqc.line.set p (line ++ [entry .line false]) }
          cpt := s.cpt.answered port r rest .ok (place line.length) }))

/-- R164: CLEAR_AGENT_PROMPTS and CLEAR_ANNOUNCE empty their queue, the voice of a PLAYING entry drains for the
position, every entry is reported CANCELLED head first, and the response carries the number removed. -/
def Obligations.ClearsFlushTheQueue : Prop :=
  ∀ (s : State) (port : Port) (r : Request) (rest : List Request) (p : Fin 16) (q : QueueId),
    s.asks port (match q with
      | .agent => .clearAgentPrompts
      | .line => .clearAnnounce) r rest → positionArg r.params = .ok p → (s.pos p).state ≠ .closing →
    ∃ t, exec (match q with
      | .agent => .clearAgentPrompts port
      | .line => .clearAnnounce port) s = .next t ∧
      t = { s with
        vce := t.vce
        sfe := { s.sfe with owed := t.sfe.owed }
        pqc := match q with
          | .agent => { s.pqc with agent := s.pqc.agent.set p [] }
          | .line => { s.pqc with line := s.pqc.line.set p [] }
        cpt := (s.placeCancels p q (s.cpt.taking port rest)).responding port
          (r.answer (s.port port).overflow .ok [BitVec.ofNat 8 (s.queue p q).length]) } ∧
      ∀ v : Fin 12, t.vce[v] =
        if s.heldBy p q v = true then
          { s.vce[v] with state := .draining, drainedFor := some p, refill := false, ramp := .pending }
        else s.vce[v]

/-- R131, R160, R161: a pool grant gives the lowest-numbered FREE voice to the first WAITING head in the visiting
order, which begins after the pointer and looks at each position's AGENT head before its LINE head; the pointer becomes
that head's position. That a grant which does not stand has no effect is the model's choice (notes/assumptions/4.md); that
the voice keeps the output frame it made before, from which the new entry takes zeros, is its reading
(notes/assumptions/34.md). -/
def Obligations.PoolGrantVisitsInTurn : Prop :=
  (∀ (s : State) (v : Fin 12) (i : Fin 16) (q : QueueId) (e : Entry) (others : List Entry),
    let p : Fin 16 := s.pqc.pointer + 1 + i
    s.rstn = false → s.vce[v].state = .free → (∀ w : Fin 12, w < v → s.vce[w].state ≠ .free) →
    s.queue p q = e :: others → e.voice = none →
    (∀ j : Fin 16, j < i → ∀ y, s.headWaiting (s.pqc.pointer + 1 + j) y = false) →
    (q = .line → s.headWaiting p .agent = false) →
    ∃ t, exec .voicePoolGrant s = .next t ∧
      t = { s with
        pqc := { (s.setQueue p q ({ e with voice := some v } :: others)).pqc with pointer := p }
        vce := upd s.vce v (fun x => { x with
          state := .priming, use := .prompt p q, drainedFor := none, steps := e.steps, current := some 0
          entered := false, clip := none, silence := 0, loops := List.replicate 8 none, endFetched := false
          placed := false, buffer := [], refill := false, ramp := .none, marks := [], underruns := 0
          skipped := 0 }) }) ∧
  ∀ s : State, (∀ v : Fin 12, s.vce[v].state ≠ .free) ∨ (∀ p q, s.headWaiting p q = false) →
    exec .voicePoolGrant s = .next s

/-! ### The prompt store -/

/-- R142, R144: RESCAN is refused with IN_USE while any voice is not FREE, then with BAD_STATE while SCANNING; else a
scan begins: SCANNING, the cache and settings emptied, the timeout count 0. -/
def Obligations.RescanBeginsScan : Prop :=
  ∀ (s : State) (port : Port) (r : Request) (rest : List Request),
    s.asks port .rescan r rest → r.params = [] →
    ((∃ v : Fin 12, s.vce[v].state ≠ .free) →
      exec (.rescan port) s = .next { s with cpt := s.cpt.answered port r rest .inUse [] }) ∧
    ((∀ v : Fin 12, s.vce[v].state = .free) → s.sfe.store = .scanning →
      exec (.rescan port) s = .next { s with cpt := s.cpt.answered port r rest .badState [] }) ∧
    ((∀ v : Fin 12, s.vce[v].state = .free) → s.sfe.store ≠ .scanning →
      exec (.rescan port) s = .next { s with
        sfe := { s.sfe with
          store := .scanning, directory := [], clipCount := 0, timeouts := 0, scan := .header, owed := none
          settings := { reminder := none, muted := none, batteryLow := none, batteryCritical := none } }
        cpt := s.cpt.answered port r rest .ok [] })

/-- R147, R148: a grant falls to the voice that is owed it while its refill flag waits, and otherwise to a waiting flag
of the first class present (AGENT prompts, LINE prompts, programmes) and within it to the lowest voice; this is also the
voice chosen whenever it is settled who is owed the next grant. With the store READY and no fetch in flight the grant
clears the flag, and the fetch carries the address and size of R148; with a fetch in flight, a store not READY or no
flag there is none. That a voice owed the grant keeps it (notes/assumptions/13.md), and that a grant which does not stand
has no effect (notes/assumptions/4.md), are the model's choice; that the fetch carries the clip's expansion and trim with
it is its reading (notes/assumptions/26.md). -/
def Obligations.FetchGrantServesByClass : Prop :=
  (∀ s : State,
    (∀ v : Fin 12, s.sfe.fetch = none → s.sfe.store = .ready → s.GrantFalls s.sfe.owed v → s.nextFetch = some v) ∧
    (s.sfe.fetch ≠ none ∨ s.sfe.store ≠ .ready ∨ (∀ v : Fin 12, s.vce[v].refill = false) →
      s.nextFetch = none ∧ exec .fetchGrant s = .next s)) ∧
  ∀ (s : State) (v : Fin 12) (progress : ClipProgress) (i n : Nat) (entry : DirEntry),
    s.rstn = false → s.sfe.store = .ready → s.sfe.fetch = none → s.GrantFalls s.sfe.owed v →
    s.vce[v].clip = some progress → s.vce[v].current = some i → s.vce[v].steps[i]? = some (.clip n) →
    s.sfe.directory[n]? = some entry →
    let e := if entry.rate = 2 then 2 else 1
    exec .fetchGrant s = .next { s with
      vce := upd s.vce v (fun x => { x with refill := false })
      sfe := { s.sfe with
        owed := none
        fetch := some
          { voice := v
            address := entry.start + 2 * progress.offset
            count := min progress.remaining (min ((256 - s.vce[v].buffer.length) / e) (128 / e))
            expand := e
            trim := entry.trim } } }

/-- R128, R133, R147, R149: a completed fetch ends with the timeout count 0; its samples, scaled, clamped and expanded,
join the buffer of a PRIMING or PLAYING voice; a DRAINING voice takes none, and becomes FREE if its fade is done. The
next grant then falls to the first of the waiting flags by class and number. That it waits for FETCH_GRANT
(notes/assumptions/13.md) and what a freed voice keeps beside (notes/assumptions/28.md) are the model's choice, and that
the trim and the expansion are those that the fetch carries is its reading (notes/assumptions/26.md). -/
def Obligations.FetchCompletionPlacesSamples : Prop :=
  ∀ (s : State) (f : Fetch) (stored : List Word16),
    s.rstn = false → s.sfe.fetch = some f → stored.length = f.count →
    ∃ t, exec (.fetchCompletion stored) s = .next t ∧
      t = { s with
        vce := t.vce
        sfe := { s.sfe with fetch := none, timeouts := 0, owed := t.sfe.owed } } ∧
      t.Owes s.sfe.owed t.sfe.owed ∧
      (∀ w : Fin 12, w ≠ f.voice → t.vce[w] = s.vce[w]) ∧
      (s.vce[f.voice].state = .priming ∨ s.vce[f.voice].state = .playing →
        t.vce[f.voice] = { s.vce[f.voice] with
          buffer := s.vce[f.voice].buffer ++ stored.flatMap (fun w =>
            List.replicate f.expand (max (-32768) (min 32767 ((w.toInt * (f.trim : Int) + 2048) / 4096)) : Int))
          placed := true
          clip := s.vce[f.voice].clip.map (fun c =>
            { offset := c.offset + f.count, remaining := c.remaining - f.count }) }) ∧
      (s.vce[f.voice].state = .draining →
        t.vce[f.voice] = if s.vce[f.voice].ramp = .done then
            { s.vce[f.voice] with state := .free, use := .none, drainedFor := none }
          else s.vce[f.voice])

/-- R129, R133, R147, R150, R151: a fetch that times out places nothing and raises the count of consecutive timeouts; the
fourth in a row makes the store UNAVAILABLE with a STORE_FAILED report to every port. Short of that the next grant falls
to the first of the waiting flags by class and number. That it waits for FETCH_GRANT (notes/assumptions/13.md) and what a
freed voice keeps beside (notes/assumptions/28.md) are the model's choice. -/
def Obligations.FetchTimeoutCounts : Prop :=
  ∀ (s : State) (f : Fetch), s.rstn = false → s.sfe.fetch = some f →
    ∃ t, exec .fetchTimeout s = .next t ∧
      (∀ w : Fin 12, t.vce[w] =
        if w = f.voice ∧ s.vce[w].state = .draining ∧ s.vce[w].ramp = .done then
          { s.vce[w] with state := .free, use := .none, drainedFor := none }
        else s.vce[w]) ∧
      t.Owes s.sfe.owed t.sfe.owed ∧
      (s.sfe.timeouts < 3 → t = { s with
        vce := t.vce
        sfe := { s.sfe with fetch := none, timeouts := s.sfe.timeouts + 1, owed := t.sfe.owed } }) ∧
      (3 ≤ s.sfe.timeouts → t = { s with
        vce := t.vce
        sfe := { s.sfe with
          fetch := none, timeouts := 4, owed := none, store := .unavailable, lastFailure := .timeout }
        cpt := ((s.cpt.place s.ftu.frameCount .line (.storeFailed .timeout)).place s.ftu.frameCount .desk
          (.storeFailed .timeout)).place s.ftu.frameCount .supervision (.storeFailed .timeout) })

/-- R138 to R140, R142, R188: a scan reads a 32-byte header and fails on a wrong format word or a clip count above 512;
with the whole directory read (at once, for a clip count of 0) it succeeds when the checksum matches and fails when it
does not; a read that times out fails it. Success caches the directory and the settings and reports STORE_READY to every
port; failure makes the store UNAVAILABLE and reports STORE_FAILED. Header words, the checksum, the settings and the
directory entries with their validity are read from the bytes as the statement first says. -/
def Obligations.ScanReadsTheStore : Prop :=
  (∀ head dir : List Byte, head.length = 32 →
    let word (l : List Byte) (i : Nat) : Nat := (l.getD (2 * i) 0).toNat + 256 * (l.getD (2 * i + 1) 0).toNat
    let setting (i : Nat) : Option Nat := if word head i ≤ 511 then some (word head i) else none
    (∀ i, i < 16 → headerWord head i = word head i) ∧
    settingsOf head =
      { reminder := setting 2, muted := setting 3, batteryLow := setting 4, batteryCritical := setting 5 } ∧
    ∀ n, dir.length = 8 * n →
      storeChecksum head dir =
        (((List.range 15).map (word head)).sum + ((List.range (4 * n)).map (word dir)).sum) % 65536 ∧
      (directoryOf dir).length = n ∧
      ∀ c, c < n →
        let byte (i : Nat) : Nat := (dir.getD (8 * c + i) 0).toNat
        let start := byte 0 + 256 * byte 1 + 65536 * byte 2
        let count := byte 3 + 256 * byte 4 + 65536 * byte 5
        let rate := word dir (4 * c + 3) / 16384
        (directoryOf dir)[c]? = some
          { start := start, count := count, rate := rate, trim := min (word dir (4 * c + 3) % 16384) 8192
            valid := decide (1 ≤ count ∧ start % 2 = 0 ∧ start + 2 * count ≤ 16777216 ∧ (rate = 1 ∨ rate = 2)) }) ∧
  ∀ s : State, s.rstn = false →
    let failed := { s with
      sfe := { s.sfe with store := .unavailable, lastFailure := .scan, scan := .idle, owed := none }
      cpt := ((s.cpt.place s.ftu.frameCount .line (.storeFailed .scan)).place s.ftu.frameCount .desk
        (.storeFailed .scan)).place s.ftu.frameCount .supervision (.storeFailed .scan) }
    let passed (head directory : List Byte) := { s with
      sfe := { s.sfe with
        store := .ready, clipCount := headerWord head 1, directory := directoryOf directory
        settings := settingsOf head, scan := .idle }
      cpt := ((s.cpt.place s.ftu.frameCount .line (.storeReady (headerWord head 1))).place s.ftu.frameCount .desk
        (.storeReady (headerWord head 1))).place s.ftu.frameCount .supervision (.storeReady (headerWord head 1)) }
    (∀ head, s.sfe.scan = .header → head.length = 32 →
      (headerWord head 0 ≠ 0x1624 ∨ 512 < headerWord head 1 → exec (.scanReadDone head) s = .next failed) ∧
      (headerWord head 0 = 0x1624 → headerWord head 1 = 0 →
        (storeChecksum head [] = headerWord head 15 → exec (.scanReadDone head) s = .next (passed head [])) ∧
        (storeChecksum head [] ≠ headerWord head 15 → exec (.scanReadDone head) s = .next failed)) ∧
      (headerWord head 0 = 0x1624 → 1 ≤ headerWord head 1 → headerWord head 1 ≤ 512 →
        exec (.scanReadDone head) s = .next { s with sfe := { s.sfe with scan := .directory head [] } })) ∧
    (∀ head got bytes, s.sfe.scan = .directory head got →
      (got.length + bytes.length < 8 * headerWord head 1 → exec (.scanReadDone bytes) s = .next { s with
        sfe := { s.sfe with scan := .directory head (got ++ bytes) } }) ∧
      (got.length + bytes.length = 8 * headerWord head 1 →
        (storeChecksum head (got ++ bytes) = headerWord head 15 →
          exec (.scanReadDone bytes) s = .next (passed head (got ++ bytes))) ∧
        (storeChecksum head (got ++ bytes) ≠ headerWord head 15 → exec (.scanReadDone bytes) s = .next failed))) ∧
    (s.sfe.scan ≠ .idle → exec .scanReadTimeout s = .next failed)

/-! ### Reports, meters, soft reset -/

/-- R175 to R182, R187: a report that arrives at a port goes to the tail when NORMAL and after the last URGENT one when
URGENT; at a full queue a NORMAL one is lost, an URGENT one takes the place of the newest NORMAL one, or is lost where
none is held, and each loss sets the overflow flag; a METER for a position whose METER is held replaces it in its place;
ATTN is asserted while an entry is held. An entry's 32 bytes are its kind, class, subject, field count, frame count and
fields. TAKE_REPORTS removes up to max entries from the head of the port's own queue, max taken as 1 to 8, and returns
their number and the entries in queue order; removing the last clears the overflow flag, which the response shows as it
stood before. SUBSCRIBE_METERS replaces the port's mask and period and loads the period counter, or makes it inactive.
Which items the response data hold is the model's reading (notes/assumptions/20.md); that the mask is kept with a period
of off (notes/assumptions/24.md), that the bit of a CLOSING position in it does not name the position to R6
(notes/assumptions/40.md) and that a STORE_FAILED goes ahead of an unread RESET_DONE like any URGENT report
(notes/assumptions/37.md) are its choice. -/
def Obligations.ReportRequests : Prop :=
  (∀ (c : Cpt) (frame : BitVec 32) (port : Port) (body : ReportBody),
    let ps := c.get port
    let r : Report := { body := body, frame := frame }
    let urgent (x : Report) : Prop :=
      (∃ p level, x.body = .batteryCritical p level) ∨ (∃ cause, x.body = .storeFailed cause) ∨ x.body = .highwayLost
    let meter (x : Report) (p : Fin 16) : Prop := ∃ w, x.body = .meter p w
    let left (l : List Report) (lost : Bool) : Cpt :=
      c.set port { ps with reports := l, overflow := ps.overflow || lost }
    (∀ p ahead x behind, meter r p → ps.reports = ahead ++ x :: behind → meter x p →
      (∀ y ∈ ahead ++ behind, ¬meter y p) → c.place frame port body = left (ahead ++ r :: behind) false) ∧
    (∀ ahead behind, (∀ p, meter r p → ∀ x ∈ ps.reports, ¬meter x p) → ps.reports = ahead ++ behind →
      (∀ x ∈ ahead, urgent x) → (∀ x ∈ behind, ¬urgent x) →
      (ps.reports.length < 32 → ¬urgent r → c.place frame port body = left (ps.reports ++ [r]) false) ∧
      (ps.reports.length < 32 → urgent r → c.place frame port body = left (ahead ++ r :: behind) false) ∧
      (32 ≤ ps.reports.length → ¬urgent r → c.place frame port body = left ps.reports true) ∧
      (32 ≤ ps.reports.length → urgent r → behind ≠ [] →
        c.place frame port body = left (ahead ++ r :: behind.dropLast) true) ∧
      (32 ≤ ps.reports.length → urgent r → behind = [] → c.place frame port body = left ps.reports true))) ∧
  (∀ (rstn : Bool) (ps : PortState), attn rstn ps = true ↔ rstn = false ∧ ps.reports ≠ []) ∧
  (∀ (frame : BitVec 32) (p : Fin 16) (c : Fin 4) (v : Fin 12) (yes : Bool) (n : Nat) (generation : BitVec 16) (tag : Byte),
    let one (n : Nat) : Byte := BitVec.ofNat 8 n
    let flag : Byte := if yes = true then 1 else 0
    let entry (body : ReportBody) (kind : Byte) (urgent : Byte) (subject : Byte) (fields : List Byte) : Prop :=
      Report.bytes { body := body, frame := frame } =
        [kind, urgent, subject, one fields.length] ++ byte4 frame.toNat ++ fields ++
          List.replicate (24 - fields.length) 0
    entry (.positionClosed p .keep) 0x81 0 (one p.val) [0] ∧ entry (.positionClosed p .clear) 0x81 0 (one p.val) [1] ∧
    entry (.headsetPresent p) 0x82 0 (one p.val) [] ∧ entry (.headsetAbsent p) 0x83 0 (one p.val) [] ∧
    entry (.button p yes) 0x84 0 (one p.val) [flag] ∧ entry (.batteryLow p n) 0x85 0 (one p.val) [one n] ∧
    entry (.batteryCritical p n) 0x86 1 (one p.val) [one n] ∧ entry (.holdReminder p yes) 0x87 0 (one p.val) [flag] ∧
    entry (.mutedTalk p) 0x88 0 (one p.val) [] ∧
    entry (.ecDiverged p generation) 0x89 0 (one p.val) (byte2 generation.toNat) ∧
    (∀ reason, entry (.sessionEnded c p reason) 0x8A 0 (one c.val)
      [one p.val, one ([SessionEnd.none, .left, .callEnded, .closed, .revoked, .channelUnbound].idxOf reason)]) ∧
    (∀ q origin outcome (marks : List Nat), marks.length ≤ 4 →
      entry (.promptDone p q origin tag outcome n marks) 0x8B 0 (one p.val)
        ([one ([QueueId.agent, .line].idxOf q),
          one ([Origin.desk, .supervision, .line, .auto .reminder, .auto .muted, .auto .batteryLow,
            .auto .batteryCritical].idxOf origin), tag,
          one ([PromptOutcome.complete, .partly, .cancelled].idxOf outcome)] ++ byte2 n ++ [one marks.length] ++
          marks.map one ++ List.replicate (4 - marks.length) 0)) ∧
    entry (.programMark v n) 0x8C 0 (one v.val) [one n] ∧ entry (.storeReady n) 0x8D 0 0xFF (byte2 n) ∧
    (∀ cause, entry (.storeFailed cause) 0x8E 1 0xFF [one ([StoreFailure.none, .scan, .timeout].idxOf cause)]) ∧
    entry .highwayLocked 0x8F 0 0xFF [] ∧ entry .highwayLost 0x90 1 0xFF [] ∧ entry .resetDone 0x91 0 0xFF [] ∧
    ∀ w : MeterWindow, entry (.meter p w) 0x92 0 (one p.val)
      ([one w.frames] ++ byte2 w.farPeak ++ byte2 w.micPeak ++ byte2 w.linePeak ++ byte2 w.earPeak ++
        byte2 w.earClips ++ byte2 w.lineClips ++ byte2 w.supClips ++ [one w.erle] ++ byte2 w.noiseGain ++
        [one ([EchoState.off, .converging, .tracking].idxOf w.echoState)])) ∧
  ∀ (s : State) (port : Port) (r : Request) (rest : List Request),
    (∀ max, s.asks port .takeReports r rest → maxArg r.params = .ok max →
      let n := if max = 0 then 1 else min 8 max
      let held := (s.port port).reports
      exec (.takeReports port) s = .next { s with
        cpt := (s.cpt.set port { s.cpt.get port with
          untaken := rest
          reports := held.drop n
          overflow := if held ≠ [] ∧ held.length ≤ n then false else (s.port port).overflow }).responding port
            (r.answer (s.port port).overflow .ok
              ([BitVec.ofNat 8 (min n held.length)] ++ (held.take n).flatMap Report.bytes)) }) ∧
    ∀ mask period, s.asks port .subscribeMeters r rest → meterArgs r.params = .ok (mask, period) →
      exec (.subscribeMeters port) s = .next { s with
        cpt := (s.cpt.set port { s.cpt.get port with
          untaken := rest
          mask := mask
          period := period
          counter := match period with
            | .off => none
            | .p16 => some 16
            | .p64 => some 64
            | .p250 => some 250
            | .p1000 => some 1000 }).responding port
            (r.answer (s.port port).overflow .ok (byte2 mask.toNat ++ [BitVec.ofNat 8 period.code])) }

/-- R184 with R2, R25, R32, R38, R41, R64, R84, R101, R117, R143, R153: RESET answers OK, then ABORTED to every untaken
request in arrival order, empties the report queues, gives every block its soft-reset values and places RESET_DONE
alone in each report queue; the timing unit and the retained flags keep their values, and a CLOSED position's context
keeps its coefficients and its estimate. What the rules leave unsaid keeps its value, but that no talk frame stays
live, as notes/assumptions/11.md says; what travels with the zeroed output frames is notes/assumptions/10.md's, the
empty meter mask notes/assumptions/24.md's, the empty window notes/assumptions/30.md's. -/
def Obligations.ResetRestoresEveryBlock : Prop :=
  ∀ (s : State) (port : Port) (r : Request) (rest : List Request), s.asks port .reset r rest → r.params = [] →
    ∃ t, exec (.reset port) s = .next t ∧
      t = { s with
        hwi := { s.hwi with
          channels := t.hwi.channels, talk := t.hwi.talk, lineOut := t.hwi.lineOut, supOut := t.hwi.supOut }
        hli := t.hli
        pct := t.pct
        mxe := t.mxe
        ecu := t.ecu
        nru := t.nru
        sst := t.sst
        vce := t.vce
        sfe := t.sfe
        pqc := { agent := t.pqc.agent, line := t.pqc.line, pointer := 15 }
        taken := t.taken
        cpt := t.cpt } ∧
      (∀ p : Fin 16, t.pos p = { Position.powerOn with retained := (s.pos p).retained } ∧ t.queue p .agent = [] ∧
        t.queue p .line = [] ∧ t.hwi.lineOut[p] = none ∧
        t.hli[p] = { s.hli[p] with arrived := false, mic := List.replicate 64 0 }) ∧
      (∀ c : Fin 4, t.sst[c] = Session.powerOn ∧ t.hwi.channels[c] = none ∧ t.hwi.supOut[c] = none ∧
        t.hwi.talk[c] = { s.hwi.talk[c] with live := false } ∧
        t.taken.talk[c] = { s.taken.talk[c] with live := false }) ∧
      (∀ v : Fin 12, t.vce[v] = Voice.powerOn) ∧
      (t.mxe.ear = s.mxe.ear ∧ t.mxe.line = s.mxe.line ∧ t.mxe.sup = s.mxe.sup ∧
        (∀ p : Fin 16, t.mxe.earTerms[p] = .absent ∧ t.mxe.lineTerms[p] = .absent ∧
          t.mxe.duck[p] = { factor := 4096, level := 1024, release := 50 } ∧ t.mxe.earClips[p] = 0 ∧
          t.mxe.lineClips[p] = 0 ∧ t.mxe.window[p] = MeterWindow.empty ∧ t.mxe.lastWindow[p] = MeterWindow.empty) ∧
        ∀ c : Fin 4, t.mxe.supTerms[c] = .absent) ∧
      (let cleared (estimate : Nat) : NoiseCtx :=
          { state := .learn, learned := 0, estimate := estimate, hangover := 0, speechRun := 0, gain := 4096
            relearning := false, out := { samples := List.replicate 64 0, speech := false, gain := 4096 } };
        (∀ p : Fin 16, t.nru.contexts[noiseOfPosition p] =
          cleared (if (s.pos p).state = .closed then s.nru.contexts[noiseOfPosition p].estimate else 1)) ∧
        ∀ c : Fin 4, t.nru.contexts[noiseOfChannel c] = cleared 1 ∧
          t.nru.supSettings[c] = { enable := true, floor := 1024 }) ∧
      (∀ p : Fin 16, t.ecu[p] =
        { coeffs := if (s.pos p).state = .closed then s.ecu[p].coeffs else List.replicate 128 0
          pending := List.replicate 3 (List.replicate 64 0)
          history := List.replicate 383 0
          hangover := 0
          state := .off
          good := 0
          poor := 0
          diverge := 0
          generation :=
            if (s.pos p).state = .closed ∨ s.ecu[p].coeffs = List.replicate 128 0 then s.ecu[p].generation
            else s.ecu[p].generation + 1
          erle := 0
          out := { samples := List.replicate 64 0, live := false, state := .off } }) ∧
      (s.sfe.store = .ready → t.sfe = { s.sfe with fetch := none, timeouts := 0, owed := none }) ∧
      (s.sfe.store ≠ .ready → t.sfe = { s.sfe with
        store := .scanning, directory := [], clipCount := 0, timeouts := 0, scan := .header, owed := none, fetch := none
        settings := { reminder := none, muted := none, batteryLow := none, batteryCritical := none } }) ∧
      ∀ x, (t.port x).untaken = [] ∧ (t.port x).overflow = false ∧ (t.port x).mask = 0 ∧ (t.port x).period = .off ∧
        (t.port x).counter = none ∧
        (t.port x).reports = [{ body := .resetDone, frame := s.ftu.frameCount }] ∧
        (t.port x).responses =
          if x = port then
            (s.port x).responses ++ [r.answer (s.port x).overflow .ok []] ++
              rest.map (fun y => y.answer (s.port x).overflow .aborted [])
          else (s.port x).responses ++ (s.port x).untaken.map (fun y => y.answer (s.port x).overflow .aborted [])

/-! ### Time and the audio links -/

/-- R26, R36, R37: with nothing left undone, a sample period collects one sample for every far party and channel (the
bound in-slot's while LOCKED, else zero), takes the in-slots as bound for the next period, and advances the sample
index and the output slots, or at index 63 makes a frame event fall due. In LOCKED only a period that a good sync has
marked ends. The command's form in LOCKED and its wait for what is due are the model's (notes/assumptions/5.md,
notes/assumptions/6.md), and so is that the in-slots of a frame's first period are those bound when index 63 ends
(notes/assumptions/35.md). -/
def Obligations.SamplePeriodAdvances : Prop :=
  ∀ (s : State) (slots : List Word16), s.rstn = false → s.quiet →
    let locked : Prop := s.ftu.timing = .locked
    let heard (slot : Option (Fin 32)) : Sample :=
      match slot with
      | none => 0
      | some k => if locked then (slots.getD k.val 0).toInt else 0
    (locked → s.ftu.periodMarked = false → exec (.samplePeriod slots) s = .next s) ∧
    ((locked → s.ftu.periodMarked = true) → ∃ t, exec (.samplePeriod slots) s = .next t ∧
      t = { s with
        ftu := { s.ftu with
          sampleIndex := if s.ftu.sampleIndex < 63 then s.ftu.sampleIndex + 1 else s.ftu.sampleIndex
          frameDue := decide (63 ≤ s.ftu.sampleIndex)
          periodMarked := false }
        hwi := { s.hwi with
          farInput := t.hwi.farInput, talkInput := t.hwi.talkInput, farSlot := t.hwi.farSlot
          talkSlot := t.hwi.talkSlot, driven := t.hwi.driven } } ∧
      (∀ p : Fin 16, t.hwi.farInput[p] = s.hwi.farInput[p] ++ [heard s.hwi.farSlot[p]] ∧
        t.hwi.farSlot[p] = (s.pos p).line.map (fun b => b.inSlot)) ∧
      (∀ c : Fin 4, t.hwi.talkInput[c] = s.hwi.talkInput[c] ++ [heard s.hwi.talkSlot[c]] ∧
        t.hwi.talkSlot[c] = s.hwi.channels[c].map (fun b => b.inSlot)) ∧
      (63 ≤ s.ftu.sampleIndex → t.hwi.driven = s.hwi.driven) ∧
      (s.ftu.sampleIndex < 63 → ¬locked → ∀ k : Fin 32, t.hwi.driven[k] = none) ∧
      (s.ftu.sampleIndex < 63 → locked → s.SlotLaw →
        (∀ (p : Fin 16) b, (s.pos p).line = some b →
          t.hwi.driven[b.outSlot] = some ((s.hwi.lineOut[p].getD []).getD (s.ftu.sampleIndex + 1) 0)) ∧
        (∀ (c : Fin 4) b, s.hwi.channels[c] = some b →
          t.hwi.driven[b.outSlot] = some ((s.hwi.supOut[c].getD []).getD (s.ftu.sampleIndex + 1) 0)) ∧
        ∀ k : Fin 32, (∀ e b, s.binding e = some b → b.outSlot ≠ k) → t.hwi.driven[k] = none))

/-- R26, R36, R38, R42, R67, R69: a frame event that is due increases the frame count and returns the sample index to 0,
completes the mic and far and talk frames that the links collected, and does every piece of the work but those held
back. The frames that its stages take are those that stood completed at the frame event before, the echo reference is
the one handed over at the frame event before that, and the present field is the one left then. That the command names
the order and the pieces held back is the model's form (notes/assumptions/3.md). -/
def Obligations.FrameEventIsMade : Prop :=
  ∀ (s : State) (order held : List Work), s.rstn = false → s.ftu.frameDue = true → s.work = [] →
    ∃ t, exec (.frameEvent order held) s = .next t ∧
      t.ftu = { s.ftu with frameCount := s.ftu.frameCount + 1, sampleIndex := 0, frameDue := false } ∧
      (∀ w, w ∈ t.work → w ∈ held) ∧
      (t.taken.far = s.hwi.far ∧ t.taken.talk = s.hwi.talk ∧ t.taken.ear = s.mxe.ear ∧ t.taken.line = s.mxe.line ∧
        t.taken.sup = s.mxe.sup ∧ (∀ v : Fin 12, t.taken.voice[v] = s.vce[v].out) ∧
        (∀ n : Fin 20, t.taken.noise[n] = s.nru.contexts[n].out) ∧
        ∀ p : Fin 16, t.taken.reference[p] = s.ecu[p].pending.getD 1 (List.replicate 64 0) ∧
          t.taken.present[p] = (s.pos p).present ∧ t.taken.mic[p] = s.hli[p].mic ∧ t.taken.echo[p] = s.ecu[p].out ∧ t.taken.erle[p] = s.ecu[p].erle) ∧
      (∀ p : Fin 16, t.hli[p].arrived = false ∧
        t.hli[p].mic = (if s.hli[p].arrived = true then s.hli[p].latest else List.replicate 64 0) ∧
        t.hli[p].handed = (if s.hli[p].arrived = true then some s.hli[p].latestStatus else none)) ∧
      (∀ p : Fin 16, t.hwi.far[p] = (s.hwi.farInput[p] ++ List.replicate 64 0).take 64 ∧ t.hwi.farInput[p] = []) ∧
      ∀ c : Fin 4, t.hwi.talk[c].samples = (s.hwi.talkInput[c] ++ List.replicate 64 0).take 64 ∧
        t.hwi.talk[c].live = (s.hwi.channels[c].isSome && s.ftu.timing == .locked) ∧ t.hwi.talkInput[c] = []

/-- R31, R37, R39 to R43, R46 to R58: the mix of a frame event is derived whole from the records as they stand: each
duck factor follows its gate; every EAR, LINE and SUPOUT term moves from its applied gain to its target, from 0 for a
newly named source, out for one no longer named, or is cut, and a voice's frame enters a role only under the use that
the role expects; the sums are rounded and clamped, and the clamped samples counted. At a frame event done in its usual
order every earpiece frame is zeros while CLOSED, else the EAR mix of the frame event before with the sidetone term,
clamped; the reference handed over is that EAR mix; and each bound out-slot is given the LINE or SUPOUT mix of the frame
event before, or zeros, whose sample 0 it then drives while LOCKED; no other slot is driven. The pieces of a frame
event's work and their usual order are the model's (notes/assumptions/3.md), what stands for a LINE or SUPOUT that does
not exist is its reading (notes/assumptions/18.md), and so is that a role gives zeros while the voice it names is PRIMING,
whatever frame that voice made before (notes/assumptions/34.md), and that from a binding until learning completes a
whisper ducks nothing, whatever flag the frame completed before it carries (notes/assumptions/38.md). That a role which
has lost its voice goes by the label alone (notes/assumptions/41.md), that a channel whose session ended and was joined
anew there since the derivation before is a source still named (notes/assumptions/36.md), that a session joined anew
sends the frame produced for the one before (notes/assumptions/39.md) and that sample 0 is driven by the bindings as the
frame event finds them (notes/assumptions/35.md), are its choice. -/
def Obligations.FrameEventBuildsOutputs : Prop :=
  (∀ (s : State) (held : List Work), s.atPiece .mix held → ∃ t, exec (.frameEvent [.mix] held) s = .next t ∧
    t = { s with work := s.work.erase .mix, mxe := t.mxe } ∧
    (∀ p : Fin 16,
      let d := s.mxe.duck[p]
      let whispers (c : Fin 4) : Prop := s.sessionOn p c = true ∧ s.sst[c].mode = .whisper ∧
        s.taken.noise[noiseOfChannel c].speech = true ∧ s.nru.contexts[noiseOfChannel c].relearning = false
      let prompts : Prop := ∃ e rest, s.queue p .agent = e :: rest ∧ e.voice.isSome = true ∧ e.duck = true
      (∀ c, whispers c → (∀ k, whispers k → k = c) → t.mxe.duck[p] =
        { factor := min d.factor s.sst[c].duckLevel, level := s.sst[c].duckLevel, release := s.sst[c].release }) ∧
      ((∀ c, ¬whispers c) → prompts →
        t.mxe.duck[p] = { factor := min d.factor 1024, level := 1024, release := 50 }) ∧
      ((∀ c, ¬whispers c) → ¬prompts → t.mxe.duck[p] = { d with
        factor := min 4096 (d.factor + max 1 ((4096 - d.level + (d.release - 1)) / d.release)) })) ∧
    (∀ p : Fin 16,
      let x := s.pos p
      let d := t.mxe.duck[p].factor
      let talker := (s.talker p).map Src.channel
      t.mxe.ear[p] = producedFrame (s.earSum p d) ∧
      t.mxe.earClips[p] = s.mxe.earClips[p] + clippedSamples (s.earSum p d) ∧
      t.mxe.earTerms[p] =
        { far := { gain := s.farTarget p d, source := none }
          agentPrompt := roleAfter ((s.headVoice p .agent).map .voice) x.promptGain false
          linePrompt := roleAfter ((s.headVoice p .line).map .voice) x.announceGain false
          talk := roleAfter talker (s.talkGainOf (s.talker p)) false } ∧
      (x.line.isSome = true →
        t.mxe.line[p] = producedFrame (s.lineSum p) ∧
        t.mxe.lineClips[p] = s.mxe.lineClips[p] + clippedSamples (s.lineSum p) ∧
        t.mxe.lineTerms[p] =
          { mic := { gain := if s.micCut p = true then 0 else 4096, source := none }
            talk := roleAfter talker (s.talkGainOf (s.talker p)) (!s.bargesIn p)
            linePrompt := roleAfter ((s.headVoice p .line).map .voice) 4096 false
            hold := roleAfter (x.holdSource.map .voice) (s.holdTarget p) false }) ∧
      (x.line = none →
        t.mxe.line[p] = List.replicate 64 0 ∧ t.mxe.lineClips[p] = s.mxe.lineClips[p] ∧ t.mxe.lineTerms[p] = .absent)) ∧
    ∀ c : Fin 4,
      let produced : Prop := s.hwi.channels[c].isSome = true ∧ s.sst[c].mode ≠ .idle
      (∀ p, produced → s.sst[c].target = some p →
        t.mxe.sup[c] = producedFrame (s.supSum c p) ∧
        t.mxe.supTerms[c] =
          { far := { gain := if (s.pos p).call = .talk then 4096 else 0, source := none }
            mic := { gain := if s.supMicCut p = true then 0 else 4096, source := none }
            linePrompt := roleAfter ((s.headVoice p .line).map .voice) 4096 false
            other := roleAfter ((s.otherTalker c p).map .channel) (s.talkGainOf (s.otherTalker c p)) false }) ∧
      (¬produced → t.mxe.sup[c] = List.replicate 64 0 ∧ t.mxe.supTerms[c] = .absent)) ∧
  ∀ s : State, s.rstn = false → s.ftu.frameDue = true → s.work = [] →
    ∃ t, exec (.frameEvent [] []) s = .next t ∧ t.work = [] ∧
      (∀ p : Fin 16,
        let closed : Prop := (s.pos p).state = .closed
        let side : Prop := (s.pos p).state = .opened ∧ (t.pos p).mute = false ∧ (t.pos p).present = true
        let mic := s.nru.contexts[noiseOfPosition p].out.samples
        t.hli[p].earpiece = (List.range 64).map (fun j =>
          if closed then 0
          else max (-32768) (min 32767 (s.mxe.ear[p].getD j 0 +
            if side then (mic.getD j 0 * ((s.pos p).sidetone : Int) + 2048) / 4096 else 0))) ∧
        t.ecu[p].pending =
          ((if closed then List.replicate 64 0 else s.mxe.ear[p]) :: s.ecu[p].pending).take 3) ∧
      (∀ p : Fin 16, t.hwi.lineOut[p] =
        if s.ftu.timing = .locked ∧ (s.pos p).line.isSome = true then
          some (if (s.pos p).call = .idle then List.replicate 64 0 else s.mxe.line[p])
        else none) ∧
      (∀ c : Fin 4, t.hwi.supOut[c] =
        if s.ftu.timing = .locked ∧ s.hwi.channels[c].isSome = true then
          some (if s.sst[c].mode = .idle then List.replicate 64 0 else s.mxe.sup[c])
        else none) ∧
      (s.ftu.timing ≠ .locked → ∀ k : Fin 32, t.hwi.driven[k] = none) ∧
      (s.ftu.timing = .locked → s.SlotLaw →
        (∀ (p : Fin 16) b, (s.pos p).line = some b →
          t.hwi.driven[b.outSlot] = some (if (s.pos p).call = .idle then 0 else s.mxe.line[p].getD 0 0)) ∧
        (∀ (c : Fin 4) b, s.hwi.channels[c] = some b →
          t.hwi.driven[b.outSlot] = some (if s.sst[c].mode = .idle then 0 else s.mxe.sup[c].getD 0 0)) ∧
        ∀ k : Fin 32, (∀ e b, s.binding e = some b → b.outSlot ≠ k) → t.hwi.driven[k] = none)

/-- R27, R28, R29: what a sync does by the timing state and its distance from the last sync taken, in nanoseconds;
the 64th good sync locks, with a frame event at that sync and a HIGHWAY_LOCKED report that carries its count; a sync
that comes after the gap finds the part in FREE_RUN.  That a good sync in LOCKED only marks the period for
SAMPLE_PERIOD, and first ends a marked one with zero slot samples, is the model's form (notes/assumptions/6.md), and so
are the two periods that a gap ends (notes/assumptions/7.md) and the pieces that stand at the lock
(notes/assumptions/3.md).  The limits in nanoseconds and a time before the last sync counted as near
(notes/assumptions/31.md), and HIGHWAY_LOCKED placed before the frame event's work (notes/assumptions/33.md), are the
model's choice. -/
def Obligations.SyncsAreClassed : Prop :=
  ∀ (s : State) (time : Nat), s.rstn = false →
    let near : Prop := time < s.ftu.lastSync + 31250
    let good : Prop := s.ftu.lastSync + 31250 ≤ time ∧ time ≤ s.ftu.lastSync + 125000
    (s.ftu.timing = .freeRun → exec (.highwaySync time) s =
      .next { s with ftu := { s.ftu with timing := .locking, goodSync := 0, lastSync := time } }) ∧
    (s.ftu.timing = .locking → near → exec (.highwaySync time) s =
      .next { s with ftu := { s.ftu with goodSync := 0, lastSync := time } }) ∧
    (s.ftu.timing = .locking → good → s.ftu.goodSync < 63 → exec (.highwaySync time) s =
      .next { s with ftu := { s.ftu with goodSync := s.ftu.goodSync + 1, lastSync := time } }) ∧
    (s.ftu.timing = .locking → good → 63 ≤ s.ftu.goodSync → s.work = [] → ∃ t, exec (.highwaySync time) s = .next t ∧
      t = { s with
        ftu := { s.ftu with
          timing := .locked, goodSync := 64, lastSync := time, frameCount := s.ftu.frameCount + 1, sampleIndex := 0
          frameDue := false }
        taken := t.taken
        hli := t.hli
        hwi := t.hwi
        work := t.work
        cpt := s.cpt.place (s.ftu.frameCount + 1) .line .highwayLocked } ∧
      (∀ w, w ∈ t.work) ∧
      ∀ p : Fin 16, t.hli[p].arrived = false ∧
        t.hli[p].mic = if s.hli[p].arrived = true then s.hli[p].latest else List.replicate 64 0) ∧
    (s.ftu.timing = .locked → near → exec (.highwaySync time) s = .next s) ∧
    (s.ftu.timing = .locked → good → s.ftu.periodMarked = false → exec (.highwaySync time) s =
      .next { s with ftu := { s.ftu with lastSync := time, periodMarked := true } }) ∧
    (s.ftu.timing = .locked → good → s.ftu.periodMarked = true →
      ∃ u, exec (.samplePeriod []) s = .next u ∧ exec (.highwaySync time) s =
        .next { u with ftu := { u.ftu with lastSync := time, periodMarked := true } }) ∧
    (s.ftu.timing ≠ .freeRun → s.ftu.lastSync + 125000 < time →
      ∃ u, exec (.syncGapTimeout [] []) s = .next u ∧ u.ftu.timing = .freeRun ∧ exec (.highwaySync time) s =
        .next { u with ftu := { u.ftu with timing := .locking, goodSync := 0, lastSync := time } })

/-- R30, R31: the gap ends LOCKING with no report; from LOCKED it ends two sample periods, the second with zero input
samples, and sends HIGHWAY_LOST to the Line port; either way FREE_RUN, good-sync counter 0, nothing driven.  That the
two periods end in one command is the model's form (notes/assumptions/7.md), and that the gap changes nothing in
FREE_RUN is its choice (notes/assumptions/4.md). -/
def Obligations.GapReturnsToFreeRun : Prop :=
  ∀ (s : State) (slots : List Word16) (order : List Work), s.rstn = false →
    (s.ftu.timing = .freeRun → exec (.syncGapTimeout slots order) s = .next s) ∧
    (s.ftu.timing = .locking → exec (.syncGapTimeout slots order) s = .next { s with
      ftu := { s.ftu with timing := .freeRun, goodSync := 0 }
      hwi := { s.hwi with driven := Vector.replicate 32 none } }) ∧
    (s.ftu.timing = .locked → s.quiet → s.ftu.periodMarked = false →
      ∃ t, exec (.syncGapTimeout slots order) s = .next t ∧
        (∀ k : Fin 32, t.hwi.driven[k] = none) ∧
        t.ftu = { s.ftu with
          timing := .freeRun
          goodSync := 0
          frameCount := if s.ftu.sampleIndex < 63 then s.ftu.frameCount else s.ftu.frameCount + 1
          sampleIndex :=
            if s.ftu.sampleIndex < 62 then s.ftu.sampleIndex + 2
            else if s.ftu.sampleIndex = 62 then 63
            else 1
          frameDue := decide (s.ftu.sampleIndex = 62) } ∧
        (s.ftu.sampleIndex < 63 →
          t = { s with
            ftu := t.ftu
            hwi := { s.hwi with
              farInput := t.hwi.farInput, talkInput := t.hwi.talkInput, farSlot := t.hwi.farSlot
              talkSlot := t.hwi.talkSlot, driven := t.hwi.driven }
            cpt := s.cpt.place s.ftu.frameCount .line .highwayLost } ∧
          (∀ p : Fin 16, t.hwi.farInput[p] = s.hwi.farInput[p] ++
            [match s.hwi.farSlot[p] with
              | none => 0
              | some k => (slots.getD k.val 0).toInt, 0]) ∧
          ∀ c : Fin 4, t.hwi.talkInput[c] = s.hwi.talkInput[c] ++
            [match s.hwi.talkSlot[c] with
              | none => 0
              | some k => (slots.getD k.val 0).toInt, 0]) ∧
        (63 ≤ s.ftu.sampleIndex →
          (∃ c : Cpt, t.cpt = c.place (s.ftu.frameCount + 1) .line .highwayLost) ∧
          (∀ p : Fin 16, t.hwi.farInput[p] = [0] ∧ t.hwi.far[p] =
            (s.hwi.farInput[p] ++ [match s.hwi.farSlot[p] with
              | none => 0
              | some k => (slots.getD k.val 0).toInt] ++ List.replicate 64 0).take 64) ∧
          ∀ c : Fin 4, t.hwi.talkInput[c] = [0] ∧ t.hwi.talk[c].samples =
            (s.hwi.talkInput[c] ++ [match s.hwi.talkSlot[c] with
              | none => 0
              | some k => (slots.getD k.val 0).toInt] ++ List.replicate 64 0).take 64))

/-- R38: an upward frame of 65 words that keeps the framing and was not cut off sets the arrival flag and replaces the
latest mic frame and status word; any other is discarded. Which frame is cut off at a lock sync is the model's reading
(notes/assumptions/22.md). -/
def Obligations.UpwardFramesArriveWhole : Prop :=
  ∀ (s : State) (p : Fin 16) (samples : List Word16) (status : Word16) (words : List Word16) (framed : Bool),
    s.rstn = false →
    (samples.length = 64 → s.hli[p].cutOff = false →
      exec (.headsetFrameArrival p (samples ++ [status]) true) s = .next { s with
        hli := upd s.hli p (fun h => { h with
          arrived := true, latest := samples.map (fun w => w.toInt), latestStatus := status }) }) ∧
    (words.length ≠ 65 ∨ framed = false ∨ s.hli[p].cutOff = true →
      exec (.headsetFrameArrival p words framed) s = .next { s with
        hli := upd s.hli p (fun h => { h with cutOff := false }) })

/-! ### Events of the position controller at a frame event -/

/-- R15 to R19, R97, R157: the eighth frame event in a row at which the raw presence differs changes the present field,
reports it for an OPEN or CLOSING position, restarts the learning of an OPEN position's noise context on arrival, and
returns the band to NORMAL on leaving; at any other the run counts on or restarts and the status word is read. A button
press, after two released frame events, toggles mute where button mute is enabled and is reported, for an OPEN position.
The battery band of an OPEN position with its headset makes at most one move, a fall with its report and its prompt.
That an event which does not come about leaves everything as it is, is the model's choice (notes/assumptions/4.md); the
pieces of a frame event are its form (notes/assumptions/3.md). -/
def Obligations.PresenceChanges : Prop :=
  (∀ (s : State) (p : Fin 16), s.rstn = false → .presence p ∈ s.work →
    let raw : Bool := s.hli[p].handed.any (fun w => w.getLsbD 0)
    (raw = (s.pos p).present ∨ (s.pos p).presenceRun < 7 → exec (.presenceChange p) s = .next s) ∧
    (raw ≠ (s.pos p).present → 7 ≤ (s.pos p).presenceRun → exec (.presenceChange p) s = .next { s with
      work := s.work.erase (.presence p)
      pct := upd s.pct p (fun x => { x with
        present := raw
        presenceRun := 0
        band := if raw = true then x.band else .normal
        button := s.hli[p].handed.any (fun w => w.getLsbD 1)
        batteryLevel := match s.hli[p].handed with
          | none => x.batteryLevel
          | some w => if w.toNat / 256 % 128 ≤ 100 then w.toNat / 256 % 128 else 127 })
      nru := if raw = true ∧ (s.pos p).state = .opened then
          { s.nru with contexts := upd s.nru.contexts (noiseOfPosition p) (fun n => { n with
              state := .learn, learned := 0, hangover := 0, speechRun := 0 }) }
        else s.nru
      cpt := if (s.pos p).state = .closed then s.cpt
        else s.cpt.place s.ftu.frameCount .desk (if raw = true then .headsetPresent p else .headsetAbsent p) })) ∧
  (∀ (s : State) (p : Fin 16) (held : List Work), s.atPiece (.presence p) held →
    let raw : Bool := s.hli[p].handed.any (fun w => w.getLsbD 0)
    let counted (run : Nat) : State := { s with
      work := s.work.erase (.presence p)
      pct := upd s.pct p (fun x => { x with
        presenceRun := run
        button := s.hli[p].handed.any (fun w => w.getLsbD 1)
        batteryLevel := match s.hli[p].handed with
          | none => x.batteryLevel
          | some w => if w.toNat / 256 % 128 ≤ 100 then w.toNat / 256 % 128 else 127 }) }
    (raw = (s.pos p).present → exec (.frameEvent [.presence p] held) s = .next (counted 0)) ∧
    (raw ≠ (s.pos p).present → (s.pos p).presenceRun < 7 →
      exec (.frameEvent [.presence p] held) s = .next (counted ((s.pos p).presenceRun + 1)))) ∧
  (∀ (s : State) (p : Fin 16) (held : List Work), s.atPiece (.button p) held →
    let x := s.pos p
    let press : Prop := x.button = true ∧ 2 ≤ x.releasedRun ∧ x.state = .opened
    let mute : Bool := if x.buttonMute then !x.mute else x.mute
    (¬press → exec (.frameEvent [.button p] held) s = .next { s with
      work := s.work.erase (.button p)
      pct := s.pct.set p { x with releasedRun := if x.button = true then 0 else min 2 (x.releasedRun + 1) } }) ∧
    (press → exec (.frameEvent [.button p] held) s = .next { s with
      work := s.work.erase (.button p)
      pct := s.pct.set p { x with
        releasedRun := 0
        mute := mute
        mutedCount := if x.mute = true ∧ mute = false then 0 else x.mutedCount
        mutedIssued := if x.mute = true ∧ mute = false then false else x.mutedIssued }
      cpt := s.cpt.place s.ftu.frameCount .desk (.button p mute) })) ∧
  ∀ (s : State) (p : Fin 16) (held : List Work), s.atPiece (.battery p) held →
    let x := s.pos p
    let l := x.batteryLevel
    let evaluated : Prop := x.state = .opened ∧ x.present = true
    let moved (band : Band) : State := { s with
      work := s.work.erase (.battery p), pct := s.pct.set p { x with band := band } }
    (¬evaluated → exec (.frameEvent [.battery p] held) s = .next { s with work := s.work.erase (.battery p) }) ∧
    (evaluated → l = 127 → exec (.frameEvent [.battery p] held) s = .next (moved .normal)) ∧
    (evaluated → l ≠ 127 → x.band ≠ .critical → l ≤ x.batteryCritical →
      exec (.frameEvent [.battery p] held) s = .next { moved .critical with
        pqc := s.afterOffer p .batteryCritical
        cpt := (s.cpt.place s.ftu.frameCount .desk (.batteryCritical p l)).place s.ftu.frameCount .line
          (.batteryCritical p l) }) ∧
    (evaluated → l ≠ 127 → x.band = .normal → x.batteryCritical < l → l ≤ x.batteryLow →
      exec (.frameEvent [.battery p] held) s = .next { moved .low with
        pqc := s.afterOffer p .batteryLow
        cpt := s.cpt.place s.ftu.frameCount .desk (.batteryLow p l) }) ∧
    (evaluated → l ≠ 127 → x.band = .normal → x.batteryCritical < l → x.batteryLow < l →
      exec (.frameEvent [.battery p] held) s = .next (moved .normal)) ∧
    (evaluated → l ≠ 127 → x.band = .low → x.batteryCritical < l →
      exec (.frameEvent [.battery p] held) s =
        .next (moved (if x.batteryLow + 3 ≤ l then .normal else .low))) ∧
    (evaluated → l ≠ 127 → x.band = .critical →
      exec (.frameEvent [.battery p] held) s =
        .next (moved (if x.batteryCritical + 3 ≤ l then .low else .critical)))

/-- R21, R23, R157: a RUNNING reminder whose counter reaches 0 is reported to Desk and Line, offers its prompt and
reloads or becomes EXPIRED, and short of that counts down; a muted-talk count that reaches 500 with issued no is
reported to Desk once and offers its prompt, and short of that counts up to at most 500 while mute is on and the agent
speaks. That an event which does not come about leaves everything as it is, is the model's choice
(notes/assumptions/4.md); the pieces of a frame event are its form (notes/assumptions/3.md). -/
def Obligations.RemindersAndMutedTalk : Prop :=
  (∀ (s : State) (p : Fin 16), s.rstn = false → .presence p ∉ s.work → .button p ∉ s.work → .battery p ∉ s.work →
    (.reminder p ∈ s.work →
      ((s.pos p).reminderStatus ≠ .running ∨ 1 < (s.pos p).reminderCounter →
        exec (.reminderExpiry p) s = .next s) ∧
      ((s.pos p).reminderStatus = .running → (s.pos p).reminderCounter ≤ 1 →
        exec (.reminderExpiry p) s = .next { s with
          work := s.work.erase (.reminder p)
          pct := upd s.pct p (fun x => { x with
            reminderCounter := if x.reminderRepeat = true then x.reminderInterval else 0
            reminderStatus := if x.reminderRepeat = true then .running else .expired })
          pqc := s.afterOffer p .reminder
          cpt := (s.cpt.place s.ftu.frameCount .desk (.holdReminder p (s.pos p).reminderRepeat)).place
            s.ftu.frameCount .line (.holdReminder p (s.pos p).reminderRepeat) })) ∧
    (.reminder p ∉ s.work → .muted p ∈ s.work →
      let speaking : Prop := (s.pos p).state = .opened ∧ (s.pos p).mute = true ∧
        s.taken.noise[noiseOfPosition p].speech = true
      (¬speaking ∨ (s.pos p).mutedCount < 499 ∨ (s.pos p).mutedIssued = true →
        exec (.mutedTalkCountFull p) s = .next s) ∧
      (speaking → 499 ≤ (s.pos p).mutedCount → (s.pos p).mutedIssued = false →
        exec (.mutedTalkCountFull p) s = .next { s with
          work := s.work.erase (.muted p)
          pct := upd s.pct p (fun x => { x with mutedCount := 500, mutedIssued := true })
          pqc := s.afterOffer p .muted
          cpt := s.cpt.place s.ftu.frameCount .desk (.mutedTalk p) }))) ∧
  (∀ (s : State) (p : Fin 16) (held : List Work), s.atPiece (.reminder p) held →
    ((s.pos p).reminderStatus = .running → 1 < (s.pos p).reminderCounter →
      exec (.frameEvent [.reminder p] held) s = .next { s with
        work := s.work.erase (.reminder p)
        pct := upd s.pct p (fun x => { x with reminderCounter := x.reminderCounter - 1 }) }) ∧
    ((s.pos p).reminderStatus ≠ .running →
      exec (.frameEvent [.reminder p] held) s = .next { s with work := s.work.erase (.reminder p) })) ∧
  ∀ (s : State) (p : Fin 16) (held : List Work), s.atPiece (.muted p) held →
    let speaking : Prop := (s.pos p).state = .opened ∧ (s.pos p).mute = true ∧
      s.taken.noise[noiseOfPosition p].speech = true
    (¬speaking →
      exec (.frameEvent [.muted p] held) s = .next { s with work := s.work.erase (.muted p) }) ∧
    (speaking → (s.pos p).mutedCount < 499 ∨ (s.pos p).mutedIssued = true →
      exec (.frameEvent [.muted p] held) s = .next { s with
        work := s.work.erase (.muted p)
        pct := upd s.pct p (fun x => { x with mutedCount := min 500 (x.mutedCount + 1) }) })

/-- R7, R8, R80, R99: the close of a position completes at the first frame event with no voice DRAINING for it: CLOSED,
the stored plan applied to its echo and noise contexts, retained with KEEP alone, POSITION_CLOSED to Desk and Line;
until then nothing comes about. That an event which does not come about leaves everything as it is, is the model's
choice (notes/assumptions/4.md). -/
def Obligations.CloseCompletes : Prop :=
  ∀ (s : State) (p : Fin 16) (plan : Plan), s.rstn = false → .close p ∈ s.work →
    let waits : Prop := ∃ v : Fin 12, s.vce[v].state = .draining ∧ s.vce[v].drainedFor = some p
    ((s.pos p).state ≠ .closing ∨ waits → exec (.closeCompletion p) s = .next s) ∧
    ((s.pos p).state = .closing → ¬waits → (s.pos p).closePlan = some plan →
      exec (.closeCompletion p) s = .next { s with
        work := s.work.erase (.close p)
        pct := upd s.pct p (fun x => { x with
          state := .closed, closePlan := none, retained := decide (plan = .keep) })
        ecu := upd s.ecu p (fun c => { c with
          coeffs := if plan = .keep then c.coeffs else List.replicate 128 0
          generation := if plan = .keep ∨ c.coeffs = List.replicate 128 0 then c.generation else c.generation + 1
          hangover := 0, good := 0, poor := 0, diverge := 0, state := .off })
        nru := { s.nru with contexts := upd s.nru.contexts (noiseOfPosition p) (fun n =>
          if plan = .keep then n
          else { n with state := .learn, learned := 0, estimate := 1, hangover := 0, speechRun := 0, gain := 4096 }) }
        cpt := (s.cpt.place s.ftu.frameCount .desk (.positionClosed p plan)).place s.ftu.frameCount .line
          (.positionClosed p plan) })

/-! ### Events of the echo canceller and of the noise reducer at a frame event -/

/-- R67 to R78: after an ADAPT frame with reference energy of at least δ, the eighth diverging frame in a row zeroes the
model, makes the state CONVERGING and reports the generation after the frame; the 32nd good frame makes CONVERGING into
TRACKING, the eighth poor one TRACKING into CONVERGING. Short of these the counters count or restart; an inactive frame
holds them, a FREEZE frame learns nothing, and a frame that is not filtered only takes in its reference. The 64 samples
are worked one after another by the filter, the double-talk detector and the learning step, and the ERLE index is the
largest k from 0 to 15 with Se × 2^k ≤ Sd. That an event which does not come about leaves everything as it is, is the
model's choice (notes/assumptions/4.md); the pieces of a frame event are its form (notes/assumptions/3.md). -/
def Obligations.EchoSupervision : Prop :=
  (∀ (s : State) (p : Fin 16), s.rstn = false → .echo p ∈ s.work → (s.pos p).state = .opened →
    s.taken.present[p] = true → (s.pos p).echo.mode = .adapt →
    let c := s.ecu[p]
    let l := echoSamples (s.pos p).echo c.state
      { coeffs := c.coeffs, history := c.history, hangover := c.hangover, outRev := [], mic := 0, err := 0
        power := 0 } s.taken.mic[p] s.taken.reference[p]
    let diverge := if c.state ≠ .off ∧ 2 * l.mic < l.err then c.diverge + 1 else 0
    let after (coeffs : List Int) (state : EchoState) (diverge : Nat) : EchoCtx := { c with
      coeffs := coeffs
      generation := if c.coeffs = coeffs then c.generation else c.generation + 1
      history := l.history
      hangover := l.hangover
      state := state
      good := 0
      poor := 0
      diverge := diverge
      erle := erleIndex true l.mic l.err
      out := { samples := l.outRev.reverse, live := true, state := state } }
    ((s.pos p).echo.delta : Int) ≤ l.power →
    (8 ≤ diverge →
      let x := after (List.replicate 128 0) .converging 0
      exec (.ecDivergence p) s = .next { s with
        work := s.work.erase (.echo p)
        ecu := s.ecu.set p x
        cpt := s.cpt.place s.ftu.frameCount .desk (.ecDiverged p x.generation) }) ∧
    (diverge < 8 → exec (.ecDivergence p) s = .next s) ∧
    (diverge < 8 → c.state = .converging → l.err * 16 ≤ l.mic → 31 ≤ c.good →
      exec (.ecConverged p) s = .next { s with
        work := s.work.erase (.echo p)
        ecu := s.ecu.set p (after l.coeffs .tracking diverge) }) ∧
    (8 ≤ diverge ∨ c.state ≠ .converging ∨ l.mic < l.err * 16 ∨ c.good < 31 →
      exec (.ecConverged p) s = .next s) ∧
    (diverge < 8 → c.state = .tracking → l.mic < l.err * 2 → 7 ≤ c.poor →
      exec (.ecLostTracking p) s = .next { s with
        work := s.work.erase (.echo p)
        ecu := s.ecu.set p (after l.coeffs .converging diverge) }) ∧
    (8 ≤ diverge ∨ c.state ≠ .tracking ∨ l.err * 2 ≤ l.mic ∨ c.poor < 7 →
      exec (.ecLostTracking p) s = .next s)) ∧
  (∀ (s : State) (p : Fin 16) (held : List Work), s.atPiece (.echo p) held →
    let c := s.ecu[p]
    let set := (s.pos p).echo
    let heard : Prop := (s.pos p).state = .opened ∧ s.taken.present[p] = true
    let l := echoSamples set c.state
      { coeffs := c.coeffs, history := c.history, hangover := c.hangover, outRev := [], mic := 0, err := 0
        power := 0 } s.taken.mic[p] s.taken.reference[p]
    let active : Prop := (set.delta : Int) ≤ l.power
    let out : EchoFrame := { samples := l.outRev.reverse, live := true, state := c.state }
    let generation := if c.coeffs = l.coeffs then c.generation else c.generation + 1
    let left (x : EchoCtx) : State := { s with work := s.work.erase (.echo p), ecu := s.ecu.set p x }
    let diverge := if c.state ≠ .off ∧ 2 * l.mic < l.err then c.diverge + 1 else 0
    let good := if c.state = .converging ∧ l.err * 16 ≤ l.mic then c.good + 1 else 0
    let poor := if c.state = .tracking ∧ l.mic < l.err * 2 then c.poor + 1 else 0
    (¬(heard ∧ set.mode ≠ .off) → exec (.frameEvent [.echo p] held) s = .next (left { c with
      history := s.taken.reference[p].foldl (fun h r => (r :: h).take 383) c.history
      erle := 0
      out :=
        { samples := if heard then s.taken.mic[p] else List.replicate 64 0, live := decide heard
          state := c.state } })) ∧
    (heard → set.mode = .freeze → exec (.frameEvent [.echo p] held) s = .next (left { c with
      history := l.history, hangover := l.hangover, erle := erleIndex (decide active) l.mic l.err, out := out })) ∧
    (heard → set.mode = .adapt → ¬active → exec (.frameEvent [.echo p] held) s = .next (left { c with
      coeffs := l.coeffs, generation := generation, history := l.history, hangover := l.hangover, erle := 0
      out := out })) ∧
    (heard → set.mode = .adapt → active → diverge < 8 → good < 32 → poor < 8 →
      exec (.frameEvent [.echo p] held) s = .next (left { c with
        coeffs := l.coeffs, generation := generation, history := l.history, hangover := l.hangover
        diverge := diverge, good := good, poor := poor, erle := erleIndex true l.mic l.err, out := out }))) ∧
  (∀ (set : EchoSettings) (state : EchoState) (l : EchoLoop), echoSamples set state l [] [] = l) ∧
  (∀ (set : EchoSettings) (state : EchoState) (l : EchoLoop) (d r : Sample) (ds rs : Frame),
    let sample (x : Int) : Int := max (-32768) (min 32767 x)
    let history := (r :: l.history).take 383
    let x := (history.drop set.bulkDelay).take 128
    let e := sample (d - sample (((List.zipWith (fun w v => w * v) l.coeffs x).sum + 16384) / 32768))
    let peak := x.foldl (fun m v => max m v.natAbs) 0
    let power := (x.map (fun v => v * v)).sum
    let hangover := if peak * set.talkCode ≤ d.natAbs * 16 then set.hangover else l.hangover - 1
    let step := if state = .converging then set.muConv else set.muTrack
    let f := max (-16777216) (min 16777216 (Int.tdiv ((step : Int) * e * 4194304) (power + (set.delta : Int))))
    let learns : Prop := set.mode = .adapt ∧ state ≠ .off ∧ hangover = 0 ∧ (set.delta : Int) ≤ power
    echoSamples set state l (d :: ds) (r :: rs) = echoSamples set state
      { coeffs := if learns then List.zipWith (fun w v => sample (w + (f * v + 16384) / 32768)) l.coeffs x
          else l.coeffs
        history := history, hangover := hangover, outRev := e :: l.outRev, mic := l.mic + d * d, err := l.err + e * e
        power := power } ds rs) ∧
  ∀ mic err : Int, erleIndex false mic err = 0 ∧ (mic ≤ 0 ∨ mic < err → erleIndex true mic err = 0) ∧
    (0 < mic → err ≤ mic → erleIndex true mic err ≤ 15 ∧ err * 2 ^ erleIndex true mic err ≤ mic ∧
      ∀ k, k ≤ 15 → err * 2 ^ k ≤ mic → k ≤ erleIndex true mic err)

/-- R87 to R97: the sixteenth live frame learnt makes LEARN into PAUSE, the non-speech frame that ends the hangover
makes SPEECH into PAUSE, and a speech run of 2,500 frames restarts LEARN, for an OPEN position's context and for a
channel's. Short of these a frame is learnt from, or is classed by its energy and moves the state, the hangover, the
estimate, the speech run and the gain; the frame handed on carries its samples, its speech flag and its gain. The
context of a position that is not OPEN is frozen. That an event which does not come about leaves everything as it is, is
the model's choice (notes/assumptions/4.md); the pieces of a frame event are its form (notes/assumptions/3.md). That the
restart frame is handed on with its speech flag on is the model's reading, and so is the flag that a frozen context hands
on (notes/assumptions/16.md). A completed learning ends the mark that a binding of the channel set
(notes/assumptions/38.md). -/
def Obligations.NoiseEvents : Prop :=
  (∀ (s : State) (n : Fin 20) (set : NoiseSettings) (input : Frame) (live : Bool) (held : List Work),
    s.hears n set input live →
    let c := s.nru.contexts[n]
    let e := ((input.map (fun x => x * x)).sum / 64).toNat
    let done (x : NoiseCtx) : State := { s with
      work := s.work.erase (.noise n)
      nru := { s.nru with contexts := s.nru.contexts.set n x } }
    let frame (gain : Nat) (speech : Bool) : NoiseFrame :=
      { samples := (List.range 64).map (fun j =>
          (input.getD j 0 * ((c.gain : Int) + Int.tdiv (((gain : Int) - c.gain) * (j + 1)) 64) + 2048) / 4096)
        speech := speech, gain := gain }
    let pauseGain (estimate : Nat) : Nat :=
      if set.enable = false then 4096
      else if 2 * estimate ≤ e then (set.floor + 4096) / 2
      else set.floor
    let average := max 1 ((c.estimate * c.learned + e) / (c.learned + 1))
    let speaks : Prop := 4 * c.estimate ≤ e ∨ (c.state = .speech ∧ 1 < c.hangover)
    (s.rstn = false → .noise n ∈ s.work →
      (c.state = .learn → live = true → c.learned = 15 → exec (.nrLearnComplete n) s = .next (done { c with
        estimate := max 1 ((c.estimate * 15 + e) / 16), learned := 16, state := .pause, hangover := 0, speechRun := 0
        gain := 4096, relearning := false, out := frame 4096 false })) ∧
      (c.state ≠ .learn ∨ live = false ∨ c.learned ≠ 15 → exec (.nrLearnComplete n) s = .next s) ∧
      (c.state = .speech → e < 4 * c.estimate → c.hangover ≤ 1 →
        exec (.nrHangoverEnd n) s = .next (done { c with
          state := .pause, hangover := 0, speechRun := 0, gain := pauseGain c.estimate
          out := frame (pauseGain c.estimate) false })) ∧
      (c.state ≠ .speech ∨ 4 * c.estimate ≤ e ∨ 1 < c.hangover → exec (.nrHangoverEnd n) s = .next s) ∧
      (c.state ≠ .learn → speaks → 2499 ≤ c.speechRun →
        exec (.nrSpeechRunRestart n) s = .next (done { c with
          state := .learn, learned := 0, hangover := 0, speechRun := 0, gain := 4096, out := frame 4096 true })) ∧
      (c.state = .learn ∨ ¬speaks ∨ c.speechRun < 2499 → exec (.nrSpeechRunRestart n) s = .next s)) ∧
    (s.atPiece (.noise n) held →
      (c.state = .learn → live = true → c.learned < 15 → exec (.frameEvent [.noise n] held) s = .next (done { c with
        estimate := average, learned := c.learned + 1, gain := 4096, out := frame 4096 false })) ∧
      (c.state = .learn → live = false → exec (.frameEvent [.noise n] held) s = .next (done { c with
        gain := 4096, out := frame 4096 false })) ∧
      (c.state ≠ .learn → 4 * c.estimate ≤ e → c.speechRun < 2499 →
        exec (.frameEvent [.noise n] held) s = .next (done { c with
          state := .speech, hangover := 12, speechRun := c.speechRun + 1, gain := 4096, out := frame 4096 true })) ∧
      (c.state = .speech → e < 4 * c.estimate → 1 < c.hangover → c.speechRun < 2499 →
        exec (.frameEvent [.noise n] held) s = .next (done { c with
          hangover := c.hangover - 1, speechRun := c.speechRun + 1, gain := 4096, out := frame 4096 true })) ∧
      (c.state = .pause → e < 4 * c.estimate →
        let estimate :=
          if live = false then c.estimate
          else if e < c.estimate then c.estimate - (c.estimate - e) / 4
          else min e (c.estimate + c.estimate / 64 + 1)
        exec (.frameEvent [.noise n] held) s = .next (done { c with
          estimate := estimate, speechRun := 0, gain := pauseGain estimate
          out := frame (pauseGain estimate) false })))) ∧
  ∀ (s : State) (p : Fin 16) (held : List Work), s.atPiece (.noise (noiseOfPosition p)) held →
    (s.pos p).state ≠ .opened → exec (.frameEvent [.noise (noiseOfPosition p)] held) s = .next { s with
      work := s.work.erase (.noise (noiseOfPosition p))
      nru := { s.nru with contexts := upd s.nru.contexts (noiseOfPosition p) (fun c => { c with
        out := { samples := List.replicate 64 0, speech := c.out.speech, gain := c.gain } }) } }

/-! ### Meters -/

/-- R61, R62, R178, R183: a frame event's measurement adds to each window in progress its frame, its peaks, its clip
counts and the last ERLE index, noise gain and echo state; at a frame count that is a multiple of 16, once the mix has
been measured, the windows in progress become the last completed ones, empty windows begin and the clip counts restart;
a meter period counts down, and one that reaches 0 reloads and makes a METER report for each OPEN position of the mask,
in ascending order. That an event which does not come about leaves everything as it is, is the model's choice
(notes/assumptions/4.md). So is the content of a window that holds no frame (notes/assumptions/30.md). The pieces of a
frame event are the model's form (notes/assumptions/3.md). -/
def Obligations.MeterEvents : Prop :=
  (∀ s : State, s.rstn = false → .meterClose ∈ s.work → .mix ∉ s.work →
    (s.ftu.frameCount.toNat % 16 = 0 → exec .meterWindowClose s = .next { s with
      work := s.work.erase .meterClose
      mxe := { s.mxe with
        lastWindow := s.mxe.window
        window := Vector.replicate 16
          { frames := 0, farPeak := 0, micPeak := 0, linePeak := 0, earPeak := 0, earClips := 0, lineClips := 0
            supClips := 0, erle := 0, noiseGain := 0, echoState := .off }
        earClips := Vector.replicate 16 0
        lineClips := Vector.replicate 16 0 } }) ∧
    (s.ftu.frameCount.toNat % 16 ≠ 0 → exec .meterWindowClose s = .next s)) ∧
  (∀ (s : State) (port : Port), s.rstn = false → .meterPeriod port ∈ s.work →
    (∀ n, (s.port port).counter = some n → n ≤ 1 → exec (.meterPeriodExpiry port) s = .next { s with
      work := s.work.erase (.meterPeriod port)
      cpt := allPositions.foldl (fun c p =>
          if (s.port port).mask.getLsbD p.val = true ∧ (s.pos p).state = .opened then
            c.place s.ftu.frameCount port (.meter p s.mxe.lastWindow[p])
          else c)
        (s.cpt.set port { s.cpt.get port with counter := match (s.port port).period with
          | .off => none
          | .p16 => some 16
          | .p64 => some 64
          | .p250 => some 250
          | .p1000 => some 1000 }) }) ∧
    ((∀ n, (s.port port).counter = some n → 1 < n) → exec (.meterPeriodExpiry port) s = .next s)) ∧
  (∀ (s : State) (port : Port) (held : List Work), s.atPiece (.meterPeriod port) held →
    (∀ n, (s.port port).counter = some n → 1 < n → exec (.frameEvent [.meterPeriod port] held) s = .next { s with
      work := s.work.erase (.meterPeriod port)
      cpt := s.cpt.set port { s.cpt.get port with counter := some (n - 1) } }) ∧
    ((s.port port).counter = none →
      exec (.frameEvent [.meterPeriod port] held) s = .next { s with work := s.work.erase (.meterPeriod port) })) ∧
  ∀ (s : State) (held : List Work), s.atPiece .mix held → ∃ t, exec (.frameEvent [.mix] held) s = .next t ∧
    ∀ p : Fin 16,
      let w := s.mxe.window[p]
      t.mxe.lastWindow[p] = s.mxe.lastWindow[p] ∧
      t.mxe.window[p] =
        { frames := w.frames + 1
          farPeak := max w.farPeak (peak s.taken.far[p])
          micPeak := max w.micPeak (peak s.taken.noise[noiseOfPosition p].samples)
          linePeak := max w.linePeak (peak t.mxe.line[p])
          earPeak := max w.earPeak (peak t.mxe.ear[p])
          earClips := t.mxe.earClips[p]
          lineClips := t.mxe.lineClips[p]
          supClips := min 1024 (w.supClips + (allChannels.map (fun c =>
            if s.hwi.channels[c].isSome = true ∧ s.sst[c].mode ≠ .idle ∧ s.sst[c].target = some p then
              clippedSamples (s.supSum c p)
            else 0)).sum)
          erle := s.taken.erle[p]
          noiseGain := s.taken.noise[noiseOfPosition p].gain
          echoState := s.taken.echo[p].state }

/-! ### Events of the voice engine at a frame event -/

/-- R120 to R123, R125 to R127, R130, R133: a primed voice becomes PLAYING and its 64 oldest samples leave as its
output; a begun CLIP step with samples remaining asks for a refill at or below 128 buffered samples; a draining voice
plays its fade and becomes FREE when no fetch for it is in flight, and while one is it stays and outputs zeros. A
playing voice that runs short before its list's end counts an underrun; while no fetch for it is in flight its fetch
side then works through its steps with at most eight moves, as the clauses on each kind of step and on the end of the
list say. That an event which does not come about leaves everything as it is, is the model's choice
(notes/assumptions/4.md), and so are what a freed voice keeps beside (notes/assumptions/28.md) and which waiting flag is
owed the next fetch grant (notes/assumptions/13.md). What the eighth move leaves undone (notes/assumptions/14.md) and
the stop after an empty pass (notes/assumptions/15.md) are its reading; the pieces of a frame event are its form
(notes/assumptions/3.md). -/
def Obligations.VoiceEvents : Prop :=
  (∀ (s : State) (v : Fin 12), s.rstn = false → .voice v ∈ s.work →
    let x := s.vce[v]
    let busy : Prop := ∃ f, s.sfe.fetch = some f ∧ f.voice = v
    let work := s.work.erase (.voice v)
    let left (y : Voice) : State :=
      let u : State := { s with work := work, vce := s.vce.set v y }
      { u with sfe := { s.sfe with owed := u.nextFetch } }
    (x.state = .priming → 128 ≤ x.buffer.length → ∃ t, exec (.voiceStartPlaying v) s = .next t ∧
      t = { s with work := work, vce := t.vce, sfe := { s.sfe with owed := t.sfe.owed }, cpt := t.cpt } ∧
      (x.use ≠ .program → t.cpt = s.cpt) ∧
      (∀ w : Fin 12, w ≠ v → t.vce[w] = s.vce[w]) ∧
      t.vce[v].state = .playing ∧ t.vce[v].use = x.use ∧ t.vce[v].underruns = x.underruns ∧
      t.vce[v].out = { samples := x.buffer.take 64, use := x.use } ∧ x.buffer.drop 64 <+: t.vce[v].buffer) ∧
    (x.state ≠ .priming ∨ (x.buffer.length < 128 ∧ x.endFetched = false) →
      exec (.voiceStartPlaying v) s = .next s) ∧
    (∀ (i n : Nat) (progress : ClipProgress), x.state = .playing → x.endFetched = false → ¬busy → x.refill = false →
      s.sfe.store = .ready → x.current = some i → x.steps[i]? = some (.clip n) → x.entered = true →
      x.clip = some progress → 0 < progress.remaining → x.buffer.length ≤ 192 →
      exec (.refillRequest v) s = .next (left { x with
        out := { samples := (x.buffer ++ List.replicate 64 0).take 64, use := x.use }
        buffer := x.buffer.drop 64
        underruns := if x.buffer.length < 64 then min 65535 (x.underruns + 1) else x.underruns
        refill := true })) ∧
    (x.refill = true → exec (.refillRequest v) s = .next s) ∧
    (x.state = .draining → x.ramp = .pending → exec (.drainFade v) s = .next (left
      (let faded : Voice := { x with
        out := { samples := (List.range 64).map (fun j =>
            (x.buffer.getD j 0 * (4096 - 64 * ((j : Int) + 1)) + 2048) / 4096), use := x.use }
        buffer := []
        ramp := .done }
      match s.sfe.fetch with
      | none => { faded with state := .free, use := .none, drainedFor := none }
      | some f => if f.voice = v then faded else { faded with state := .free, use := .none, drainedFor := none }))) ∧
    (x.state ≠ .draining ∨ x.ramp ≠ .pending → exec (.drainFade v) s = .next s)) ∧
  (∀ (s : State) (v : Fin 12) (held : List Work), s.atPiece (.voice v) held →
    let x := s.vce[v]
    let busy : Prop := ∃ f, s.sfe.fetch = some f ∧ f.voice = v
    let left (y : Voice) : State :=
      let u : State := { s with work := s.work.erase (.voice v), vce := s.vce.set v y }
      { u with sfe := { s.sfe with owed := u.nextFetch } }
    let output (y : Voice) : Voice := { y with
      state := .playing
      out := { samples := (x.buffer ++ List.replicate 64 0).take 64, use := x.use }
      buffer := x.buffer.drop 64 }
    let played : Voice :=
      if x.state = .playing ∨ 128 ≤ x.buffer.length then
        { output x with
          underruns := if x.buffer.length < 64 then min 65535 (x.underruns + 1) else x.underruns }
      else { x with out := { samples := List.replicate 64 0, use := x.use } }
    (x.state = .free ∨ (x.state = .draining ∧ x.ramp = .done ∧ busy) → exec (.frameEvent [.voice v] held) s = .next (left
      { x with out := { samples := List.replicate 64 0, use := x.use } })) ∧
    (x.state = .priming ∨ x.state = .playing → x.endFetched = true → 64 < x.buffer.length →
      exec (.frameEvent [.voice v] held) s = .next (left (output x))) ∧
    (x.state = .priming ∨ x.state = .playing → x.endFetched = false → busy →
      exec (.frameEvent [.voice v] held) s = .next (left played)) ∧
    (x.state = .priming ∨ x.state = .playing → x.endFetched = false → ¬busy →
      let f := fetchSide { store := s.sfe.store, directory := s.sfe.directory } 8 { voice := played, marks := [] }
      exec (.frameEvent [.voice v] held) s = .next { left f.voice with
        cpt := f.marks.foldl (fun c code => c.place s.ftu.frameCount .line (.programMark v code)) s.cpt })) ∧
  (∀ (view : FetchView) (m i : Nat) (f : Fetching), f.voice.current = some i →
    let v := f.voice
    let space := 256 - v.buffer.length
    let stays (x : Voice) : Fetching := { f with voice := { x with entered := true } }
    let moves (x : Voice) (target : Option Nat) : Fetching :=
      { f with voice := { x with entered := false, clip := none, current := target } }
    let next : Option Nat := if i + 1 < v.steps.length then some (i + 1) else none
    (∀ code, v.steps[i]? = some (.mark code) →
      fetchSide view 0 f = stays v ∧
      (v.use = .program →
        fetchSide view (m + 1) f = fetchSide view m { moves v next with marks := f.marks ++ [code] }) ∧
      (v.use ≠ .program → fetchSide view (m + 1) f = fetchSide view m
        (moves { v with marks := if v.marks.length < 4 then v.marks ++ [code] else v.marks } next))) ∧
    (∀ target count, v.steps[i]? = some (.loop target count) →
      let n := (v.loops.getD i none).getD count
      fetchSide view 0 f = stays v ∧
      (count = 0 →
        fetchSide view (m + 1) f = fetchSide view m (moves { v with loops := v.loops.set i (some n) } (some target))) ∧
      (count ≠ 0 → 1 < n → fetchSide view (m + 1) f =
        fetchSide view m (moves { v with loops := v.loops.set i (some (n - 1)) } (some target))) ∧
      (count ≠ 0 → n ≤ 1 →
        fetchSide view (m + 1) f = fetchSide view m (moves { v with loops := v.loops.set i none } next))) ∧
    (∀ frames, v.steps[i]? = some (.silence frames) →
      let remaining := if v.entered = true then v.silence else frames * 64
      let k := min remaining space
      let x : Voice := { v with
        buffer := v.buffer ++ List.replicate k 0, silence := remaining - k, placed := v.placed || decide (0 < k) }
      fetchSide view 0 f = stays x ∧
      (remaining ≤ space → fetchSide view (m + 1) f = fetchSide view m (moves x next)) ∧
      (space < remaining → fetchSide view (m + 1) f = stays x)) ∧
    (∀ n, v.steps[i]? = some (.clip n) →
      let clip := if v.entered = true then v.clip else none
      let x : Voice := { v with clip := clip }
      let unfinished : Prop := ∀ q, clip = some q → 0 < q.remaining
      let skipped : Voice := { x with skipped := min 255 (v.skipped + 1), refill := false }
      let begun (q : ClipProgress) : Voice := { v with
        clip := some q, refill := v.refill || decide (v.buffer.length ≤ 128) }
      (∀ q, clip = some q → q.remaining = 0 →
        fetchSide view 0 f = stays x ∧ fetchSide view (m + 1) f = fetchSide view m (moves x next)) ∧
      (unfinished → view.store = .scanning → fetchSide view m f = stays x) ∧
      (unfinished → view.store = .unavailable →
        fetchSide view 0 f = stays x ∧ fetchSide view (m + 1) f = fetchSide view m (moves skipped next)) ∧
      (clip = none → view.store = .ready → (∀ e, view.directory[n]? = some e → e.valid = false) →
        fetchSide view 0 f = stays x ∧ fetchSide view (m + 1) f = fetchSide view m (moves skipped next)) ∧
      (∀ e, clip = none → view.store = .ready → view.directory[n]? = some e → e.valid = true → 0 < e.count →
        fetchSide view m f = stays (begun { offset := 0, remaining := e.count })) ∧
      (∀ q, clip = some q → 0 < q.remaining → view.store = .ready → fetchSide view m f = stays (begun q)))) ∧
  ∀ (view : FetchView) (m : Nat) (f : Fetching), f.voice.current = none →
    let v := f.voice
    let space := 256 - v.buffer.length
    let wrapped (x : Voice) : Fetching := { f with voice := { x with
      current := some 0, entered := false, clip := none, loops := List.replicate 8 none, placed := false } }
    (∀ p q, v.use = .prompt p q → fetchSide view m f = { f with voice := { v with endFetched := true } }) ∧
    (v.use = .program → fetchSide view 0 f = f ∧
      (v.placed = true → fetchSide view (m + 1) f = fetchSide view m (wrapped v)) ∧
      (v.placed = false → 64 ≤ space →
        fetchSide view (m + 1) f = wrapped { v with buffer := v.buffer ++ List.replicate 64 0 }) ∧
      (v.placed = false → space < 64 → fetchSide view (m + 1) f = f))

/-- R124, R162, R163: a prompt whose list has been fetched to its end and whose last buffered samples leave completes:
the voice becomes FREE, the entry leaves the head of its queue, and PROMPT_DONE goes to the port of its origin,
COMPLETE when no clip was skipped and PARTIAL otherwise. That an event which does not come about leaves everything as
it is, is the model's choice (notes/assumptions/4.md), and so is what the freed voice keeps beside
(notes/assumptions/28.md). -/
def Obligations.PromptCompletes : Prop :=
  ∀ (s : State) (v : Fin 12) (p : Fin 16) (q : QueueId) (e : Entry) (others : List Entry),
    s.rstn = false → .voice v ∈ s.work →
    let x := s.vce[v]
    (x.state = .priming ∨ x.state = .playing) → x.use = .prompt p q →
    (x.endFetched = false ∨ 64 < x.buffer.length → exec (.promptCompletion v) s = .next s) ∧
    (x.endFetched = true → x.buffer.length ≤ 64 → s.queue p q = e :: others → e.voice = some v →
      exec (.promptCompletion v) s = .next { s with
        work := s.work.erase (.voice v)
        vce := s.vce.set v { x with
          state := .free, use := .none, drainedFor := none, buffer := []
          out := { samples := (x.buffer ++ List.replicate 64 0).take 64, use := x.use } }
        pqc := match q with
          | .agent => { s.pqc with agent := s.pqc.agent.set p others }
          | .line => { s.pqc with line := s.pqc.line.set p others }
        cpt := s.cpt.place s.ftu.frameCount
          (match e.origin with
            | .desk => .desk
            | .supervision => .supervision
            | .line => .line
            | .auto _ => .desk)
          (.promptDone p q e.origin e.tag (if x.skipped = 0 then .complete else .partly) x.underruns x.marks) })

/-! ### Laws of the part -/

/-- R168, R169, R176 to R179: every step keeps the law of the report queues (at most 32 entries, URGENT before NORMAL,
one METER for a position, the overflow flag clear on an empty queue) and the law that a port holds at most four
exchanges. -/
def Obligations.StepKeepsPortLaws : Prop :=
  ∀ s t : State, s.ReportLaw → s.ExchangeLaw → step s = .next t → t.ReportLaw ∧ t.ExchangeLaw

/-- R118, R128, R133, R136, R153: every step keeps the law of the prompt queues (at most four entries, only the head
PLAYING, no two automatic entries of a kind, a PLAYING entry's voice in its use) and the law that the hold source of a
position in HOLD is none or a voice in PROGRAM use; with these, it keeps the laws of the voices: each is FREE, in PROGRAM
use, held by exactly one PLAYING entry, or DRAINING; no buffer holds more than 256 samples; the voice of the fetch in
flight is never FREE. -/
def Obligations.StepKeepsPromptLaws : Prop :=
  ∀ s t : State, s.PromptLaw → s.HoldLaw → step s = .next t →
    t.PromptLaw ∧ t.HoldLaw ∧ (s.VoiceLaw → s.FetchLaw → t.VoiceLaw ∧ t.FetchLaw)

/-- R104, R109: every step keeps the two laws of the sessions: at most two on a position and at most one of them
talking; and each on an OPEN position with a call in TALK or HOLD and supervision allowed, on a bound channel. -/
def Obligations.StepKeepsSessionLaws : Prop :=
  ∀ s t : State, s.SessionLimits → s.SessionFooting → step s = .next t → t.SessionLimits ∧ t.SessionFooting

/-- R1 to R4, R12, R21, R32: every step keeps the law of the position records and the law that no highway slot is bound
to two endpoints in one direction. -/
def Obligations.StepKeepsRecordLaws : Prop :=
  ∀ s t : State, s.PositionLaw → s.SlotLaw → step s = .next t → t.PositionLaw ∧ t.SlotLaw

/-- R35, R41, R46 to R48, R52, R57, R95: every step keeps every applied gain within 0 to 8192, every term's source of the kind
its role names, and every sample that leaves the part within sample range; and it keeps every applied noise gain within
its floor and 4096, but that one whose floor is raised stays as it was until it is next worked; and a channel whose
learning a binding restarted stays in LEARN until it completes (notes/assumptions/38.md). -/
def Obligations.StepKeepsMixLaws : Prop :=
  (∀ s t : State, s.GainLaw → s.TermLaw → s.RangeLaw → step s = .next t → t.GainLaw ∧ t.TermLaw ∧ t.RangeLaw) ∧
  ∀ s t : State, s.NoiseLaw → step s = .next t → t.NoiseLaw ∧ s.GainsHeld t

/-- R1, R2, R32, R41, R83, R95, R117, R153, R168: the machine right after reset meets every law of the part. -/
def Obligations.ResetMeetsLaws : Prop :=
  State.reset.ReportLaw ∧ State.reset.ExchangeLaw ∧ State.reset.PromptLaw ∧ State.reset.HoldLaw ∧
    State.reset.SessionLimits ∧ State.reset.SessionFooting ∧ State.reset.PositionLaw ∧ State.reset.SlotLaw ∧
    State.reset.GainLaw ∧ State.reset.TermLaw ∧ State.reset.RangeLaw ∧ State.reset.VoiceLaw ∧
    State.reset.FetchLaw ∧ State.reset.NoiseLaw ∧ State.reset.FloorLaw

/-- R47, R53: the LINE mix that a frame event produces while the call is in HOLD or mute is on does not depend on the
agent's microphone, and the one produced while a session on the position WHISPERs does not depend on that session's
supervisor. Stated for the frame event's mix, the one piece of work left. The pieces of a frame event's work are the
model's form (notes/assumptions/3.md). -/
def Obligations.LineMixKeepsPrivacy : Prop :=
  ∀ (s : State) (p : Fin 16) (x : NoiseFrame), s.work = [.mix] → s.ftu.frameDue = false → s.TermLaw →
    let heard (n : Fin 20) : State :=
      { s with taken := { s.taken with noise := s.taken.noise.set n x } }
    ((s.pos p).call = .hold ∨ (s.pos p).mute = true →
      ∃ t u, exec (.frameEvent [] []) s = .next t ∧ exec (.frameEvent [] []) (heard (noiseOfPosition p)) = .next u ∧
        t.mxe.line[p] = u.mxe.line[p]) ∧
    (∀ c : Fin 4, s.sessionOn p c = true → s.sst[c].mode = .whisper →
      ∃ t u, exec (.frameEvent [] []) s = .next t ∧ exec (.frameEvent [] []) (heard (noiseOfChannel c)) = .next u ∧
        t.mxe.line[p] = u.mxe.line[p])
end

