-- ==== Sys2Proof/Laws/State.lean ====
section
/-!
SUPPORT. What each update of a record leaves in every field of the state, so that no later proof unfolds an update:
one lemma per field per update, each true by definition.
-/

namespace Sys2Proof.Machine

variable (s : State)

/-! ### modPos -/

@[simp] theorem State.modPos_rstn (p : Fin 16) (f : Position → Position) : (s.modPos p f).rstn = s.rstn := rfl
@[simp] theorem State.modPos_ftu (p : Fin 16) (f : Position → Position) : (s.modPos p f).ftu = s.ftu := rfl
@[simp] theorem State.modPos_hwi (p : Fin 16) (f : Position → Position) : (s.modPos p f).hwi = s.hwi := rfl
@[simp] theorem State.modPos_hli (p : Fin 16) (f : Position → Position) : (s.modPos p f).hli = s.hli := rfl
@[simp] theorem State.modPos_pct (p : Fin 16) (f : Position → Position) : (s.modPos p f).pct = upd s.pct p f := rfl
@[simp] theorem State.modPos_mxe (p : Fin 16) (f : Position → Position) : (s.modPos p f).mxe = s.mxe := rfl
@[simp] theorem State.modPos_ecu (p : Fin 16) (f : Position → Position) : (s.modPos p f).ecu = s.ecu := rfl
@[simp] theorem State.modPos_nru (p : Fin 16) (f : Position → Position) : (s.modPos p f).nru = s.nru := rfl
@[simp] theorem State.modPos_sst (p : Fin 16) (f : Position → Position) : (s.modPos p f).sst = s.sst := rfl
@[simp] theorem State.modPos_vce (p : Fin 16) (f : Position → Position) : (s.modPos p f).vce = s.vce := rfl
@[simp] theorem State.modPos_sfe (p : Fin 16) (f : Position → Position) : (s.modPos p f).sfe = s.sfe := rfl
@[simp] theorem State.modPos_pqc (p : Fin 16) (f : Position → Position) : (s.modPos p f).pqc = s.pqc := rfl
@[simp] theorem State.modPos_cpt (p : Fin 16) (f : Position → Position) : (s.modPos p f).cpt = s.cpt := rfl
@[simp] theorem State.modPos_taken (p : Fin 16) (f : Position → Position) : (s.modPos p f).taken = s.taken := rfl
@[simp] theorem State.modPos_work (p : Fin 16) (f : Position → Position) : (s.modPos p f).work = s.work := rfl
@[simp] theorem State.modPos_pending (p : Fin 16) (f : Position → Position) :
    (s.modPos p f).pending = s.pending := rfl

/-! ### modEcho -/

@[simp] theorem State.modEcho_rstn (p : Fin 16) (f : EchoCtx → EchoCtx) : (s.modEcho p f).rstn = s.rstn := rfl
@[simp] theorem State.modEcho_ftu (p : Fin 16) (f : EchoCtx → EchoCtx) : (s.modEcho p f).ftu = s.ftu := rfl
@[simp] theorem State.modEcho_hwi (p : Fin 16) (f : EchoCtx → EchoCtx) : (s.modEcho p f).hwi = s.hwi := rfl
@[simp] theorem State.modEcho_hli (p : Fin 16) (f : EchoCtx → EchoCtx) : (s.modEcho p f).hli = s.hli := rfl
@[simp] theorem State.modEcho_pct (p : Fin 16) (f : EchoCtx → EchoCtx) : (s.modEcho p f).pct = s.pct := rfl
@[simp] theorem State.modEcho_mxe (p : Fin 16) (f : EchoCtx → EchoCtx) : (s.modEcho p f).mxe = s.mxe := rfl
@[simp] theorem State.modEcho_ecu (p : Fin 16) (f : EchoCtx → EchoCtx) : (s.modEcho p f).ecu = upd s.ecu p f := rfl
@[simp] theorem State.modEcho_nru (p : Fin 16) (f : EchoCtx → EchoCtx) : (s.modEcho p f).nru = s.nru := rfl
@[simp] theorem State.modEcho_sst (p : Fin 16) (f : EchoCtx → EchoCtx) : (s.modEcho p f).sst = s.sst := rfl
@[simp] theorem State.modEcho_vce (p : Fin 16) (f : EchoCtx → EchoCtx) : (s.modEcho p f).vce = s.vce := rfl
@[simp] theorem State.modEcho_sfe (p : Fin 16) (f : EchoCtx → EchoCtx) : (s.modEcho p f).sfe = s.sfe := rfl
@[simp] theorem State.modEcho_pqc (p : Fin 16) (f : EchoCtx → EchoCtx) : (s.modEcho p f).pqc = s.pqc := rfl
@[simp] theorem State.modEcho_cpt (p : Fin 16) (f : EchoCtx → EchoCtx) : (s.modEcho p f).cpt = s.cpt := rfl
@[simp] theorem State.modEcho_taken (p : Fin 16) (f : EchoCtx → EchoCtx) : (s.modEcho p f).taken = s.taken := rfl
@[simp] theorem State.modEcho_work (p : Fin 16) (f : EchoCtx → EchoCtx) : (s.modEcho p f).work = s.work := rfl
@[simp] theorem State.modEcho_pending (p : Fin 16) (f : EchoCtx → EchoCtx) :
    (s.modEcho p f).pending = s.pending := rfl

/-! ### modNoise -/

@[simp] theorem State.modNoise_rstn (n : Fin 20) (f : NoiseCtx → NoiseCtx) : (s.modNoise n f).rstn = s.rstn := rfl
@[simp] theorem State.modNoise_ftu (n : Fin 20) (f : NoiseCtx → NoiseCtx) : (s.modNoise n f).ftu = s.ftu := rfl
@[simp] theorem State.modNoise_hwi (n : Fin 20) (f : NoiseCtx → NoiseCtx) : (s.modNoise n f).hwi = s.hwi := rfl
@[simp] theorem State.modNoise_hli (n : Fin 20) (f : NoiseCtx → NoiseCtx) : (s.modNoise n f).hli = s.hli := rfl
@[simp] theorem State.modNoise_pct (n : Fin 20) (f : NoiseCtx → NoiseCtx) : (s.modNoise n f).pct = s.pct := rfl
@[simp] theorem State.modNoise_mxe (n : Fin 20) (f : NoiseCtx → NoiseCtx) : (s.modNoise n f).mxe = s.mxe := rfl
@[simp] theorem State.modNoise_ecu (n : Fin 20) (f : NoiseCtx → NoiseCtx) : (s.modNoise n f).ecu = s.ecu := rfl
@[simp] theorem State.modNoise_nru (n : Fin 20) (f : NoiseCtx → NoiseCtx) :
    (s.modNoise n f).nru = { s.nru with contexts := upd s.nru.contexts n f } := rfl
@[simp] theorem State.modNoise_sst (n : Fin 20) (f : NoiseCtx → NoiseCtx) : (s.modNoise n f).sst = s.sst := rfl
@[simp] theorem State.modNoise_vce (n : Fin 20) (f : NoiseCtx → NoiseCtx) : (s.modNoise n f).vce = s.vce := rfl
@[simp] theorem State.modNoise_sfe (n : Fin 20) (f : NoiseCtx → NoiseCtx) : (s.modNoise n f).sfe = s.sfe := rfl
@[simp] theorem State.modNoise_pqc (n : Fin 20) (f : NoiseCtx → NoiseCtx) : (s.modNoise n f).pqc = s.pqc := rfl
@[simp] theorem State.modNoise_cpt (n : Fin 20) (f : NoiseCtx → NoiseCtx) : (s.modNoise n f).cpt = s.cpt := rfl
@[simp] theorem State.modNoise_taken (n : Fin 20) (f : NoiseCtx → NoiseCtx) : (s.modNoise n f).taken = s.taken := rfl
@[simp] theorem State.modNoise_work (n : Fin 20) (f : NoiseCtx → NoiseCtx) : (s.modNoise n f).work = s.work := rfl
@[simp] theorem State.modNoise_pending (n : Fin 20) (f : NoiseCtx → NoiseCtx) :
    (s.modNoise n f).pending = s.pending := rfl

/-! ### modSession -/

@[simp] theorem State.modSession_rstn (c : Fin 4) (f : Session → Session) : (s.modSession c f).rstn = s.rstn := rfl
@[simp] theorem State.modSession_ftu (c : Fin 4) (f : Session → Session) : (s.modSession c f).ftu = s.ftu := rfl
@[simp] theorem State.modSession_hwi (c : Fin 4) (f : Session → Session) : (s.modSession c f).hwi = s.hwi := rfl
@[simp] theorem State.modSession_hli (c : Fin 4) (f : Session → Session) : (s.modSession c f).hli = s.hli := rfl
@[simp] theorem State.modSession_pct (c : Fin 4) (f : Session → Session) : (s.modSession c f).pct = s.pct := rfl
@[simp] theorem State.modSession_mxe (c : Fin 4) (f : Session → Session) : (s.modSession c f).mxe = s.mxe := rfl
@[simp] theorem State.modSession_ecu (c : Fin 4) (f : Session → Session) : (s.modSession c f).ecu = s.ecu := rfl
@[simp] theorem State.modSession_nru (c : Fin 4) (f : Session → Session) : (s.modSession c f).nru = s.nru := rfl
@[simp] theorem State.modSession_sst (c : Fin 4) (f : Session → Session) :
    (s.modSession c f).sst = upd s.sst c f := rfl
@[simp] theorem State.modSession_vce (c : Fin 4) (f : Session → Session) : (s.modSession c f).vce = s.vce := rfl
@[simp] theorem State.modSession_sfe (c : Fin 4) (f : Session → Session) : (s.modSession c f).sfe = s.sfe := rfl
@[simp] theorem State.modSession_pqc (c : Fin 4) (f : Session → Session) : (s.modSession c f).pqc = s.pqc := rfl
@[simp] theorem State.modSession_cpt (c : Fin 4) (f : Session → Session) : (s.modSession c f).cpt = s.cpt := rfl
@[simp] theorem State.modSession_taken (c : Fin 4) (f : Session → Session) : (s.modSession c f).taken = s.taken := rfl
@[simp] theorem State.modSession_work (c : Fin 4) (f : Session → Session) : (s.modSession c f).work = s.work := rfl
@[simp] theorem State.modSession_pending (c : Fin 4) (f : Session → Session) :
    (s.modSession c f).pending = s.pending := rfl

/-! ### modVoice -/

@[simp] theorem State.modVoice_rstn (v : Fin 12) (f : Voice → Voice) : (s.modVoice v f).rstn = s.rstn := rfl
@[simp] theorem State.modVoice_ftu (v : Fin 12) (f : Voice → Voice) : (s.modVoice v f).ftu = s.ftu := rfl
@[simp] theorem State.modVoice_hwi (v : Fin 12) (f : Voice → Voice) : (s.modVoice v f).hwi = s.hwi := rfl
@[simp] theorem State.modVoice_hli (v : Fin 12) (f : Voice → Voice) : (s.modVoice v f).hli = s.hli := rfl
@[simp] theorem State.modVoice_pct (v : Fin 12) (f : Voice → Voice) : (s.modVoice v f).pct = s.pct := rfl
@[simp] theorem State.modVoice_mxe (v : Fin 12) (f : Voice → Voice) : (s.modVoice v f).mxe = s.mxe := rfl
@[simp] theorem State.modVoice_ecu (v : Fin 12) (f : Voice → Voice) : (s.modVoice v f).ecu = s.ecu := rfl
@[simp] theorem State.modVoice_nru (v : Fin 12) (f : Voice → Voice) : (s.modVoice v f).nru = s.nru := rfl
@[simp] theorem State.modVoice_sst (v : Fin 12) (f : Voice → Voice) : (s.modVoice v f).sst = s.sst := rfl
@[simp] theorem State.modVoice_vce (v : Fin 12) (f : Voice → Voice) : (s.modVoice v f).vce = upd s.vce v f := rfl
@[simp] theorem State.modVoice_sfe (v : Fin 12) (f : Voice → Voice) : (s.modVoice v f).sfe = s.sfe := rfl
@[simp] theorem State.modVoice_pqc (v : Fin 12) (f : Voice → Voice) : (s.modVoice v f).pqc = s.pqc := rfl
@[simp] theorem State.modVoice_cpt (v : Fin 12) (f : Voice → Voice) : (s.modVoice v f).cpt = s.cpt := rfl
@[simp] theorem State.modVoice_taken (v : Fin 12) (f : Voice → Voice) : (s.modVoice v f).taken = s.taken := rfl
@[simp] theorem State.modVoice_work (v : Fin 12) (f : Voice → Voice) : (s.modVoice v f).work = s.work := rfl
@[simp] theorem State.modVoice_pending (v : Fin 12) (f : Voice → Voice) : (s.modVoice v f).pending = s.pending := rfl

/-! ### modHeadset -/

@[simp] theorem State.modHeadset_rstn (p : Fin 16) (f : Headset → Headset) : (s.modHeadset p f).rstn = s.rstn := rfl
@[simp] theorem State.modHeadset_ftu (p : Fin 16) (f : Headset → Headset) : (s.modHeadset p f).ftu = s.ftu := rfl
@[simp] theorem State.modHeadset_hwi (p : Fin 16) (f : Headset → Headset) : (s.modHeadset p f).hwi = s.hwi := rfl
@[simp] theorem State.modHeadset_hli (p : Fin 16) (f : Headset → Headset) :
    (s.modHeadset p f).hli = upd s.hli p f := rfl
@[simp] theorem State.modHeadset_pct (p : Fin 16) (f : Headset → Headset) : (s.modHeadset p f).pct = s.pct := rfl
@[simp] theorem State.modHeadset_mxe (p : Fin 16) (f : Headset → Headset) : (s.modHeadset p f).mxe = s.mxe := rfl
@[simp] theorem State.modHeadset_ecu (p : Fin 16) (f : Headset → Headset) : (s.modHeadset p f).ecu = s.ecu := rfl
@[simp] theorem State.modHeadset_nru (p : Fin 16) (f : Headset → Headset) : (s.modHeadset p f).nru = s.nru := rfl
@[simp] theorem State.modHeadset_sst (p : Fin 16) (f : Headset → Headset) : (s.modHeadset p f).sst = s.sst := rfl
@[simp] theorem State.modHeadset_vce (p : Fin 16) (f : Headset → Headset) : (s.modHeadset p f).vce = s.vce := rfl
@[simp] theorem State.modHeadset_sfe (p : Fin 16) (f : Headset → Headset) : (s.modHeadset p f).sfe = s.sfe := rfl
@[simp] theorem State.modHeadset_pqc (p : Fin 16) (f : Headset → Headset) : (s.modHeadset p f).pqc = s.pqc := rfl
@[simp] theorem State.modHeadset_cpt (p : Fin 16) (f : Headset → Headset) : (s.modHeadset p f).cpt = s.cpt := rfl
@[simp] theorem State.modHeadset_taken (p : Fin 16) (f : Headset → Headset) :
    (s.modHeadset p f).taken = s.taken := rfl
@[simp] theorem State.modHeadset_work (p : Fin 16) (f : Headset → Headset) : (s.modHeadset p f).work = s.work := rfl
@[simp] theorem State.modHeadset_pending (p : Fin 16) (f : Headset → Headset) :
    (s.modHeadset p f).pending = s.pending := rfl

/-! ### modPort -/

@[simp] theorem State.modPort_rstn (port : Port) (f : PortState → PortState) : (s.modPort port f).rstn = s.rstn := rfl
@[simp] theorem State.modPort_ftu (port : Port) (f : PortState → PortState) : (s.modPort port f).ftu = s.ftu := rfl
@[simp] theorem State.modPort_hwi (port : Port) (f : PortState → PortState) : (s.modPort port f).hwi = s.hwi := rfl
@[simp] theorem State.modPort_hli (port : Port) (f : PortState → PortState) : (s.modPort port f).hli = s.hli := rfl
@[simp] theorem State.modPort_pct (port : Port) (f : PortState → PortState) : (s.modPort port f).pct = s.pct := rfl
@[simp] theorem State.modPort_mxe (port : Port) (f : PortState → PortState) : (s.modPort port f).mxe = s.mxe := rfl
@[simp] theorem State.modPort_ecu (port : Port) (f : PortState → PortState) : (s.modPort port f).ecu = s.ecu := rfl
@[simp] theorem State.modPort_nru (port : Port) (f : PortState → PortState) : (s.modPort port f).nru = s.nru := rfl
@[simp] theorem State.modPort_sst (port : Port) (f : PortState → PortState) : (s.modPort port f).sst = s.sst := rfl
@[simp] theorem State.modPort_vce (port : Port) (f : PortState → PortState) : (s.modPort port f).vce = s.vce := rfl
@[simp] theorem State.modPort_sfe (port : Port) (f : PortState → PortState) : (s.modPort port f).sfe = s.sfe := rfl
@[simp] theorem State.modPort_pqc (port : Port) (f : PortState → PortState) : (s.modPort port f).pqc = s.pqc := rfl
@[simp] theorem State.modPort_cpt (port : Port) (f : PortState → PortState) :
    (s.modPort port f).cpt = s.cpt.set port (f (s.cpt.get port)) := rfl
@[simp] theorem State.modPort_taken (port : Port) (f : PortState → PortState) :
    (s.modPort port f).taken = s.taken := rfl
@[simp] theorem State.modPort_work (port : Port) (f : PortState → PortState) : (s.modPort port f).work = s.work := rfl
@[simp] theorem State.modPort_pending (port : Port) (f : PortState → PortState) :
    (s.modPort port f).pending = s.pending := rfl

/-! ### respond -/

@[simp] theorem State.respond_rstn (port : Port) (x : Response) : (s.respond port x).rstn = s.rstn := rfl
@[simp] theorem State.respond_ftu (port : Port) (x : Response) : (s.respond port x).ftu = s.ftu := rfl
@[simp] theorem State.respond_hwi (port : Port) (x : Response) : (s.respond port x).hwi = s.hwi := rfl
@[simp] theorem State.respond_hli (port : Port) (x : Response) : (s.respond port x).hli = s.hli := rfl
@[simp] theorem State.respond_pct (port : Port) (x : Response) : (s.respond port x).pct = s.pct := rfl
@[simp] theorem State.respond_mxe (port : Port) (x : Response) : (s.respond port x).mxe = s.mxe := rfl
@[simp] theorem State.respond_ecu (port : Port) (x : Response) : (s.respond port x).ecu = s.ecu := rfl
@[simp] theorem State.respond_nru (port : Port) (x : Response) : (s.respond port x).nru = s.nru := rfl
@[simp] theorem State.respond_sst (port : Port) (x : Response) : (s.respond port x).sst = s.sst := rfl
@[simp] theorem State.respond_vce (port : Port) (x : Response) : (s.respond port x).vce = s.vce := rfl
@[simp] theorem State.respond_sfe (port : Port) (x : Response) : (s.respond port x).sfe = s.sfe := rfl
@[simp] theorem State.respond_pqc (port : Port) (x : Response) : (s.respond port x).pqc = s.pqc := rfl
@[simp] theorem State.respond_cpt (port : Port) (x : Response) :
    (s.respond port x).cpt = s.cpt.set port { s.cpt.get port with responses := (s.cpt.get port).responses ++ [x] } := rfl
@[simp] theorem State.respond_taken (port : Port) (x : Response) : (s.respond port x).taken = s.taken := rfl
@[simp] theorem State.respond_work (port : Port) (x : Response) : (s.respond port x).work = s.work := rfl
@[simp] theorem State.respond_pending (port : Port) (x : Response) : (s.respond port x).pending = s.pending := rfl

/-! ### popRequest -/

@[simp] theorem State.popRequest_rstn (port : Port) (rest : List Request) :
    (s.popRequest port rest).rstn = s.rstn := rfl
@[simp] theorem State.popRequest_ftu (port : Port) (rest : List Request) : (s.popRequest port rest).ftu = s.ftu := rfl
@[simp] theorem State.popRequest_hwi (port : Port) (rest : List Request) : (s.popRequest port rest).hwi = s.hwi := rfl
@[simp] theorem State.popRequest_hli (port : Port) (rest : List Request) : (s.popRequest port rest).hli = s.hli := rfl
@[simp] theorem State.popRequest_pct (port : Port) (rest : List Request) : (s.popRequest port rest).pct = s.pct := rfl
@[simp] theorem State.popRequest_mxe (port : Port) (rest : List Request) : (s.popRequest port rest).mxe = s.mxe := rfl
@[simp] theorem State.popRequest_ecu (port : Port) (rest : List Request) : (s.popRequest port rest).ecu = s.ecu := rfl
@[simp] theorem State.popRequest_nru (port : Port) (rest : List Request) : (s.popRequest port rest).nru = s.nru := rfl
@[simp] theorem State.popRequest_sst (port : Port) (rest : List Request) : (s.popRequest port rest).sst = s.sst := rfl
@[simp] theorem State.popRequest_vce (port : Port) (rest : List Request) : (s.popRequest port rest).vce = s.vce := rfl
@[simp] theorem State.popRequest_sfe (port : Port) (rest : List Request) : (s.popRequest port rest).sfe = s.sfe := rfl
@[simp] theorem State.popRequest_pqc (port : Port) (rest : List Request) : (s.popRequest port rest).pqc = s.pqc := rfl
@[simp] theorem State.popRequest_cpt (port : Port) (rest : List Request) :
    (s.popRequest port rest).cpt = s.cpt.set port { s.cpt.get port with untaken := rest } := rfl
@[simp] theorem State.popRequest_taken (port : Port) (rest : List Request) :
    (s.popRequest port rest).taken = s.taken := rfl
@[simp] theorem State.popRequest_work (port : Port) (rest : List Request) :
    (s.popRequest port rest).work = s.work := rfl
@[simp] theorem State.popRequest_pending (port : Port) (rest : List Request) :
    (s.popRequest port rest).pending = s.pending := rfl

/-! ### report -/

@[simp] theorem State.report_rstn (port : Port) (body : ReportBody) : (s.report port body).rstn = s.rstn := rfl
@[simp] theorem State.report_ftu (port : Port) (body : ReportBody) : (s.report port body).ftu = s.ftu := rfl
@[simp] theorem State.report_hwi (port : Port) (body : ReportBody) : (s.report port body).hwi = s.hwi := rfl
@[simp] theorem State.report_hli (port : Port) (body : ReportBody) : (s.report port body).hli = s.hli := rfl
@[simp] theorem State.report_pct (port : Port) (body : ReportBody) : (s.report port body).pct = s.pct := rfl
@[simp] theorem State.report_mxe (port : Port) (body : ReportBody) : (s.report port body).mxe = s.mxe := rfl
@[simp] theorem State.report_ecu (port : Port) (body : ReportBody) : (s.report port body).ecu = s.ecu := rfl
@[simp] theorem State.report_nru (port : Port) (body : ReportBody) : (s.report port body).nru = s.nru := rfl
@[simp] theorem State.report_sst (port : Port) (body : ReportBody) : (s.report port body).sst = s.sst := rfl
@[simp] theorem State.report_vce (port : Port) (body : ReportBody) : (s.report port body).vce = s.vce := rfl
@[simp] theorem State.report_sfe (port : Port) (body : ReportBody) : (s.report port body).sfe = s.sfe := rfl
@[simp] theorem State.report_pqc (port : Port) (body : ReportBody) : (s.report port body).pqc = s.pqc := rfl
@[simp] theorem State.report_cpt (port : Port) (body : ReportBody) :
    (s.report port body).cpt = s.cpt.set port (placeReport (s.cpt.get port) { body := body, frame := s.ftu.frameCount }) := rfl
@[simp] theorem State.report_taken (port : Port) (body : ReportBody) : (s.report port body).taken = s.taken := rfl
@[simp] theorem State.report_work (port : Port) (body : ReportBody) : (s.report port body).work = s.work := rfl
@[simp] theorem State.report_pending (port : Port) (body : ReportBody) :
    (s.report port body).pending = s.pending := rfl

/-! ### dropSup -/

@[simp] theorem State.dropSup_rstn (c : Fin 4) : (s.dropSup c).rstn = s.rstn := rfl
@[simp] theorem State.dropSup_ftu (c : Fin 4) : (s.dropSup c).ftu = s.ftu := rfl
@[simp] theorem State.dropSup_hwi (c : Fin 4) : (s.dropSup c).hwi = s.hwi := rfl
@[simp] theorem State.dropSup_hli (c : Fin 4) : (s.dropSup c).hli = s.hli := rfl
@[simp] theorem State.dropSup_pct (c : Fin 4) : (s.dropSup c).pct = s.pct := rfl
@[simp] theorem State.dropSup_mxe (c : Fin 4) :
    (s.dropSup c).mxe = { s.mxe with supTerms := s.mxe.supTerms.set c .absent } := rfl
@[simp] theorem State.dropSup_ecu (c : Fin 4) : (s.dropSup c).ecu = s.ecu := rfl
@[simp] theorem State.dropSup_nru (c : Fin 4) : (s.dropSup c).nru = s.nru := rfl
@[simp] theorem State.dropSup_sst (c : Fin 4) : (s.dropSup c).sst = s.sst := rfl
@[simp] theorem State.dropSup_vce (c : Fin 4) : (s.dropSup c).vce = s.vce := rfl
@[simp] theorem State.dropSup_sfe (c : Fin 4) : (s.dropSup c).sfe = s.sfe := rfl
@[simp] theorem State.dropSup_pqc (c : Fin 4) : (s.dropSup c).pqc = s.pqc := rfl
@[simp] theorem State.dropSup_cpt (c : Fin 4) : (s.dropSup c).cpt = s.cpt := rfl
@[simp] theorem State.dropSup_taken (c : Fin 4) : (s.dropSup c).taken = s.taken := rfl
@[simp] theorem State.dropSup_work (c : Fin 4) : (s.dropSup c).work = s.work := rfl
@[simp] theorem State.dropSup_pending (c : Fin 4) : (s.dropSup c).pending = s.pending := rfl

/-! ### idleSession -/

@[simp] theorem State.idleSession_rstn (c : Fin 4) (last : SessionEnd) : (s.idleSession c last).rstn = s.rstn := rfl
@[simp] theorem State.idleSession_ftu (c : Fin 4) (last : SessionEnd) : (s.idleSession c last).ftu = s.ftu := rfl
@[simp] theorem State.idleSession_hwi (c : Fin 4) (last : SessionEnd) : (s.idleSession c last).hwi = s.hwi := rfl
@[simp] theorem State.idleSession_hli (c : Fin 4) (last : SessionEnd) : (s.idleSession c last).hli = s.hli := rfl
@[simp] theorem State.idleSession_pct (c : Fin 4) (last : SessionEnd) : (s.idleSession c last).pct = s.pct := rfl
@[simp] theorem State.idleSession_mxe (c : Fin 4) (last : SessionEnd) :
    (s.idleSession c last).mxe = { s.mxe with supTerms := s.mxe.supTerms.set c .absent } := rfl
@[simp] theorem State.idleSession_ecu (c : Fin 4) (last : SessionEnd) : (s.idleSession c last).ecu = s.ecu := rfl
@[simp] theorem State.idleSession_nru (c : Fin 4) (last : SessionEnd) : (s.idleSession c last).nru = s.nru := rfl
@[simp] theorem State.idleSession_sst (c : Fin 4) (last : SessionEnd) :
    (s.idleSession c last).sst = upd s.sst c (fun x => { x with mode := .idle, target := none, lastEnd := last }) := rfl
@[simp] theorem State.idleSession_vce (c : Fin 4) (last : SessionEnd) : (s.idleSession c last).vce = s.vce := rfl
@[simp] theorem State.idleSession_sfe (c : Fin 4) (last : SessionEnd) : (s.idleSession c last).sfe = s.sfe := rfl
@[simp] theorem State.idleSession_pqc (c : Fin 4) (last : SessionEnd) : (s.idleSession c last).pqc = s.pqc := rfl
@[simp] theorem State.idleSession_cpt (c : Fin 4) (last : SessionEnd) : (s.idleSession c last).cpt = s.cpt := rfl
@[simp] theorem State.idleSession_taken (c : Fin 4) (last : SessionEnd) :
    (s.idleSession c last).taken = s.taken := rfl
@[simp] theorem State.idleSession_work (c : Fin 4) (last : SessionEnd) : (s.idleSession c last).work = s.work := rfl
@[simp] theorem State.idleSession_pending (c : Fin 4) (last : SessionEnd) :
    (s.idleSession c last).pending = s.pending := rfl

/-! ### settleOwed -/

@[simp] theorem State.settleOwed_rstn : (s.settleOwed).rstn = s.rstn := rfl
@[simp] theorem State.settleOwed_ftu : (s.settleOwed).ftu = s.ftu := rfl
@[simp] theorem State.settleOwed_hwi : (s.settleOwed).hwi = s.hwi := rfl
@[simp] theorem State.settleOwed_hli : (s.settleOwed).hli = s.hli := rfl
@[simp] theorem State.settleOwed_pct : (s.settleOwed).pct = s.pct := rfl
@[simp] theorem State.settleOwed_mxe : (s.settleOwed).mxe = s.mxe := rfl
@[simp] theorem State.settleOwed_ecu : (s.settleOwed).ecu = s.ecu := rfl
@[simp] theorem State.settleOwed_nru : (s.settleOwed).nru = s.nru := rfl
@[simp] theorem State.settleOwed_sst : (s.settleOwed).sst = s.sst := rfl
@[simp] theorem State.settleOwed_vce : (s.settleOwed).vce = s.vce := rfl
@[simp] theorem State.settleOwed_sfe : (s.settleOwed).sfe = { s.sfe with owed := s.nextFetch } := rfl
@[simp] theorem State.settleOwed_pqc : (s.settleOwed).pqc = s.pqc := rfl
@[simp] theorem State.settleOwed_cpt : (s.settleOwed).cpt = s.cpt := rfl
@[simp] theorem State.settleOwed_taken : (s.settleOwed).taken = s.taken := rfl
@[simp] theorem State.settleOwed_work : (s.settleOwed).work = s.work := rfl
@[simp] theorem State.settleOwed_pending : (s.settleOwed).pending = s.pending := rfl

/-! ### drainVoice -/

@[simp] theorem State.drainVoice_rstn (v : Fin 12) (p : Option (Fin 16)) : (s.drainVoice v p).rstn = s.rstn := rfl
@[simp] theorem State.drainVoice_ftu (v : Fin 12) (p : Option (Fin 16)) : (s.drainVoice v p).ftu = s.ftu := rfl
@[simp] theorem State.drainVoice_hwi (v : Fin 12) (p : Option (Fin 16)) : (s.drainVoice v p).hwi = s.hwi := rfl
@[simp] theorem State.drainVoice_hli (v : Fin 12) (p : Option (Fin 16)) : (s.drainVoice v p).hli = s.hli := rfl
@[simp] theorem State.drainVoice_pct (v : Fin 12) (p : Option (Fin 16)) : (s.drainVoice v p).pct = s.pct := rfl
@[simp] theorem State.drainVoice_mxe (v : Fin 12) (p : Option (Fin 16)) : (s.drainVoice v p).mxe = s.mxe := rfl
@[simp] theorem State.drainVoice_ecu (v : Fin 12) (p : Option (Fin 16)) : (s.drainVoice v p).ecu = s.ecu := rfl
@[simp] theorem State.drainVoice_nru (v : Fin 12) (p : Option (Fin 16)) : (s.drainVoice v p).nru = s.nru := rfl
@[simp] theorem State.drainVoice_sst (v : Fin 12) (p : Option (Fin 16)) : (s.drainVoice v p).sst = s.sst := rfl
@[simp] theorem State.drainVoice_vce (v : Fin 12) (p : Option (Fin 16)) :
    (s.drainVoice v p).vce = upd s.vce v (fun x => x.drain p) := rfl
@[simp] theorem State.drainVoice_pqc (v : Fin 12) (p : Option (Fin 16)) : (s.drainVoice v p).pqc = s.pqc := rfl
@[simp] theorem State.drainVoice_cpt (v : Fin 12) (p : Option (Fin 16)) : (s.drainVoice v p).cpt = s.cpt := rfl
@[simp] theorem State.drainVoice_taken (v : Fin 12) (p : Option (Fin 16)) : (s.drainVoice v p).taken = s.taken := rfl
@[simp] theorem State.drainVoice_work (v : Fin 12) (p : Option (Fin 16)) : (s.drainVoice v p).work = s.work := rfl
@[simp] theorem State.drainVoice_pending (v : Fin 12) (p : Option (Fin 16)) :
    (s.drainVoice v p).pending = s.pending := rfl

/-! ### startScan -/

@[simp] theorem State.startScan_rstn : (s.startScan).rstn = s.rstn := rfl
@[simp] theorem State.startScan_ftu : (s.startScan).ftu = s.ftu := rfl
@[simp] theorem State.startScan_hwi : (s.startScan).hwi = s.hwi := rfl
@[simp] theorem State.startScan_hli : (s.startScan).hli = s.hli := rfl
@[simp] theorem State.startScan_pct : (s.startScan).pct = s.pct := rfl
@[simp] theorem State.startScan_mxe : (s.startScan).mxe = s.mxe := rfl
@[simp] theorem State.startScan_ecu : (s.startScan).ecu = s.ecu := rfl
@[simp] theorem State.startScan_nru : (s.startScan).nru = s.nru := rfl
@[simp] theorem State.startScan_sst : (s.startScan).sst = s.sst := rfl
@[simp] theorem State.startScan_vce : (s.startScan).vce = s.vce := rfl
@[simp] theorem State.startScan_pqc : (s.startScan).pqc = s.pqc := rfl
@[simp] theorem State.startScan_cpt : (s.startScan).cpt = s.cpt := rfl
@[simp] theorem State.startScan_taken : (s.startScan).taken = s.taken := rfl
@[simp] theorem State.startScan_work : (s.startScan).work = s.work := rfl
@[simp] theorem State.startScan_pending : (s.startScan).pending = s.pending := rfl

/-! ### releaseLine -/

@[simp] theorem State.releaseLine_rstn (p : Fin 16) : (s.releaseLine p).rstn = s.rstn := rfl
@[simp] theorem State.releaseLine_ftu (p : Fin 16) : (s.releaseLine p).ftu = s.ftu := rfl
@[simp] theorem State.releaseLine_hwi (p : Fin 16) :
    (s.releaseLine p).hwi = { s.hwi with lineOut := s.hwi.lineOut.set p none } := rfl
@[simp] theorem State.releaseLine_hli (p : Fin 16) : (s.releaseLine p).hli = s.hli := rfl
@[simp] theorem State.releaseLine_pct (p : Fin 16) :
    (s.releaseLine p).pct = upd s.pct p (fun x => { x with line := none }) := rfl
@[simp] theorem State.releaseLine_mxe (p : Fin 16) :
    (s.releaseLine p).mxe = { s.mxe with lineTerms := s.mxe.lineTerms.set p .absent } := rfl
@[simp] theorem State.releaseLine_ecu (p : Fin 16) : (s.releaseLine p).ecu = s.ecu := rfl
@[simp] theorem State.releaseLine_nru (p : Fin 16) : (s.releaseLine p).nru = s.nru := rfl
@[simp] theorem State.releaseLine_sst (p : Fin 16) : (s.releaseLine p).sst = s.sst := rfl
@[simp] theorem State.releaseLine_vce (p : Fin 16) : (s.releaseLine p).vce = s.vce := rfl
@[simp] theorem State.releaseLine_sfe (p : Fin 16) : (s.releaseLine p).sfe = s.sfe := rfl
@[simp] theorem State.releaseLine_pqc (p : Fin 16) : (s.releaseLine p).pqc = s.pqc := rfl
@[simp] theorem State.releaseLine_cpt (p : Fin 16) : (s.releaseLine p).cpt = s.cpt := rfl
@[simp] theorem State.releaseLine_taken (p : Fin 16) : (s.releaseLine p).taken = s.taken := rfl
@[simp] theorem State.releaseLine_work (p : Fin 16) : (s.releaseLine p).work = s.work := rfl
@[simp] theorem State.releaseLine_pending (p : Fin 16) : (s.releaseLine p).pending = s.pending := rfl

/-! ### setQueue -/

@[simp] theorem State.setQueue_rstn (p : Fin 16) (q : QueueId) (l : List Entry) :
    (s.setQueue p q l).rstn = s.rstn := by cases q <;> rfl
@[simp] theorem State.setQueue_ftu (p : Fin 16) (q : QueueId) (l : List Entry) :
    (s.setQueue p q l).ftu = s.ftu := by cases q <;> rfl
@[simp] theorem State.setQueue_hwi (p : Fin 16) (q : QueueId) (l : List Entry) :
    (s.setQueue p q l).hwi = s.hwi := by cases q <;> rfl
@[simp] theorem State.setQueue_hli (p : Fin 16) (q : QueueId) (l : List Entry) :
    (s.setQueue p q l).hli = s.hli := by cases q <;> rfl
@[simp] theorem State.setQueue_pct (p : Fin 16) (q : QueueId) (l : List Entry) :
    (s.setQueue p q l).pct = s.pct := by cases q <;> rfl
@[simp] theorem State.setQueue_mxe (p : Fin 16) (q : QueueId) (l : List Entry) :
    (s.setQueue p q l).mxe = s.mxe := by cases q <;> rfl
@[simp] theorem State.setQueue_ecu (p : Fin 16) (q : QueueId) (l : List Entry) :
    (s.setQueue p q l).ecu = s.ecu := by cases q <;> rfl
@[simp] theorem State.setQueue_nru (p : Fin 16) (q : QueueId) (l : List Entry) :
    (s.setQueue p q l).nru = s.nru := by cases q <;> rfl
@[simp] theorem State.setQueue_sst (p : Fin 16) (q : QueueId) (l : List Entry) :
    (s.setQueue p q l).sst = s.sst := by cases q <;> rfl
@[simp] theorem State.setQueue_vce (p : Fin 16) (q : QueueId) (l : List Entry) :
    (s.setQueue p q l).vce = s.vce := by cases q <;> rfl
@[simp] theorem State.setQueue_sfe (p : Fin 16) (q : QueueId) (l : List Entry) :
    (s.setQueue p q l).sfe = s.sfe := by cases q <;> rfl
@[simp] theorem State.setQueue_cpt (p : Fin 16) (q : QueueId) (l : List Entry) :
    (s.setQueue p q l).cpt = s.cpt := by cases q <;> rfl
@[simp] theorem State.setQueue_taken (p : Fin 16) (q : QueueId) (l : List Entry) :
    (s.setQueue p q l).taken = s.taken := by cases q <;> rfl
@[simp] theorem State.setQueue_work (p : Fin 16) (q : QueueId) (l : List Entry) :
    (s.setQueue p q l).work = s.work := by cases q <;> rfl
@[simp] theorem State.setQueue_pending (p : Fin 16) (q : QueueId) (l : List Entry) :
    (s.setQueue p q l).pending = s.pending := by cases q <;> rfl

/-! ### enqueue -/

@[simp] theorem State.enqueue_rstn (p : Fin 16) (q : QueueId) (e : Entry) :
    (s.enqueue p q e).rstn = s.rstn := by cases q <;> rfl
@[simp] theorem State.enqueue_ftu (p : Fin 16) (q : QueueId) (e : Entry) :
    (s.enqueue p q e).ftu = s.ftu := by cases q <;> rfl
@[simp] theorem State.enqueue_hwi (p : Fin 16) (q : QueueId) (e : Entry) :
    (s.enqueue p q e).hwi = s.hwi := by cases q <;> rfl
@[simp] theorem State.enqueue_hli (p : Fin 16) (q : QueueId) (e : Entry) :
    (s.enqueue p q e).hli = s.hli := by cases q <;> rfl
@[simp] theorem State.enqueue_pct (p : Fin 16) (q : QueueId) (e : Entry) :
    (s.enqueue p q e).pct = s.pct := by cases q <;> rfl
@[simp] theorem State.enqueue_mxe (p : Fin 16) (q : QueueId) (e : Entry) :
    (s.enqueue p q e).mxe = s.mxe := by cases q <;> rfl
@[simp] theorem State.enqueue_ecu (p : Fin 16) (q : QueueId) (e : Entry) :
    (s.enqueue p q e).ecu = s.ecu := by cases q <;> rfl
@[simp] theorem State.enqueue_nru (p : Fin 16) (q : QueueId) (e : Entry) :
    (s.enqueue p q e).nru = s.nru := by cases q <;> rfl
@[simp] theorem State.enqueue_sst (p : Fin 16) (q : QueueId) (e : Entry) :
    (s.enqueue p q e).sst = s.sst := by cases q <;> rfl
@[simp] theorem State.enqueue_vce (p : Fin 16) (q : QueueId) (e : Entry) :
    (s.enqueue p q e).vce = s.vce := by cases q <;> rfl
@[simp] theorem State.enqueue_sfe (p : Fin 16) (q : QueueId) (e : Entry) :
    (s.enqueue p q e).sfe = s.sfe := by cases q <;> rfl
@[simp] theorem State.enqueue_cpt (p : Fin 16) (q : QueueId) (e : Entry) :
    (s.enqueue p q e).cpt = s.cpt := by cases q <;> rfl
@[simp] theorem State.enqueue_taken (p : Fin 16) (q : QueueId) (e : Entry) :
    (s.enqueue p q e).taken = s.taken := by cases q <;> rfl
@[simp] theorem State.enqueue_work (p : Fin 16) (q : QueueId) (e : Entry) :
    (s.enqueue p q e).work = s.work := by cases q <;> rfl
@[simp] theorem State.enqueue_pending (p : Fin 16) (q : QueueId) (e : Entry) :
    (s.enqueue p q e).pending = s.pending := by cases q <;> rfl

/-! ### driveNow -/

@[simp] theorem State.driveNow_rstn : (s.driveNow).rstn = s.rstn := rfl
@[simp] theorem State.driveNow_ftu : (s.driveNow).ftu = s.ftu := rfl
@[simp] theorem State.driveNow_hwi : (s.driveNow).hwi = { s.hwi with driven := s.drive s.ftu.sampleIndex } := rfl
@[simp] theorem State.driveNow_hli : (s.driveNow).hli = s.hli := rfl
@[simp] theorem State.driveNow_pct : (s.driveNow).pct = s.pct := rfl
@[simp] theorem State.driveNow_mxe : (s.driveNow).mxe = s.mxe := rfl
@[simp] theorem State.driveNow_ecu : (s.driveNow).ecu = s.ecu := rfl
@[simp] theorem State.driveNow_nru : (s.driveNow).nru = s.nru := rfl
@[simp] theorem State.driveNow_sst : (s.driveNow).sst = s.sst := rfl
@[simp] theorem State.driveNow_vce : (s.driveNow).vce = s.vce := rfl
@[simp] theorem State.driveNow_sfe : (s.driveNow).sfe = s.sfe := rfl
@[simp] theorem State.driveNow_pqc : (s.driveNow).pqc = s.pqc := rfl
@[simp] theorem State.driveNow_cpt : (s.driveNow).cpt = s.cpt := rfl
@[simp] theorem State.driveNow_taken : (s.driveNow).taken = s.taken := rfl
@[simp] theorem State.driveNow_work : (s.driveNow).work = s.work := rfl
@[simp] theorem State.driveNow_pending : (s.driveNow).pending = s.pending := rfl

/-! ### closeWindows -/

@[simp] theorem State.closeWindows_rstn : (s.closeWindows).rstn = s.rstn := rfl
@[simp] theorem State.closeWindows_ftu : (s.closeWindows).ftu = s.ftu := rfl
@[simp] theorem State.closeWindows_hwi : (s.closeWindows).hwi = s.hwi := rfl
@[simp] theorem State.closeWindows_hli : (s.closeWindows).hli = s.hli := rfl
@[simp] theorem State.closeWindows_pct : (s.closeWindows).pct = s.pct := rfl
@[simp] theorem State.closeWindows_ecu : (s.closeWindows).ecu = s.ecu := rfl
@[simp] theorem State.closeWindows_nru : (s.closeWindows).nru = s.nru := rfl
@[simp] theorem State.closeWindows_sst : (s.closeWindows).sst = s.sst := rfl
@[simp] theorem State.closeWindows_vce : (s.closeWindows).vce = s.vce := rfl
@[simp] theorem State.closeWindows_sfe : (s.closeWindows).sfe = s.sfe := rfl
@[simp] theorem State.closeWindows_pqc : (s.closeWindows).pqc = s.pqc := rfl
@[simp] theorem State.closeWindows_cpt : (s.closeWindows).cpt = s.cpt := rfl
@[simp] theorem State.closeWindows_taken : (s.closeWindows).taken = s.taken := rfl
@[simp] theorem State.closeWindows_work : (s.closeWindows).work = s.work := rfl
@[simp] theorem State.closeWindows_pending : (s.closeWindows).pending = s.pending := rfl

/-! ### runEarpiece -/

@[simp] theorem State.runEarpiece_rstn (p : Fin 16) : (s.runEarpiece p).rstn = s.rstn := rfl
@[simp] theorem State.runEarpiece_ftu (p : Fin 16) : (s.runEarpiece p).ftu = s.ftu := rfl
@[simp] theorem State.runEarpiece_hwi (p : Fin 16) : (s.runEarpiece p).hwi = s.hwi := rfl
@[simp] theorem State.runEarpiece_hli (p : Fin 16) :
    (s.runEarpiece p).hli = upd s.hli p (fun h => { h with earpiece := s.earpieceFrame p }) := rfl
@[simp] theorem State.runEarpiece_pct (p : Fin 16) : (s.runEarpiece p).pct = s.pct := rfl
@[simp] theorem State.runEarpiece_mxe (p : Fin 16) : (s.runEarpiece p).mxe = s.mxe := rfl
@[simp] theorem State.runEarpiece_ecu (p : Fin 16) :
    (s.runEarpiece p).ecu = upd s.ecu p (fun c => { c with pending := (s.earReference p :: c.pending).take 3 }) := rfl
@[simp] theorem State.runEarpiece_nru (p : Fin 16) : (s.runEarpiece p).nru = s.nru := rfl
@[simp] theorem State.runEarpiece_sst (p : Fin 16) : (s.runEarpiece p).sst = s.sst := rfl
@[simp] theorem State.runEarpiece_vce (p : Fin 16) : (s.runEarpiece p).vce = s.vce := rfl
@[simp] theorem State.runEarpiece_sfe (p : Fin 16) : (s.runEarpiece p).sfe = s.sfe := rfl
@[simp] theorem State.runEarpiece_pqc (p : Fin 16) : (s.runEarpiece p).pqc = s.pqc := rfl
@[simp] theorem State.runEarpiece_cpt (p : Fin 16) : (s.runEarpiece p).cpt = s.cpt := rfl
@[simp] theorem State.runEarpiece_taken (p : Fin 16) : (s.runEarpiece p).taken = s.taken := rfl
@[simp] theorem State.runEarpiece_work (p : Fin 16) : (s.runEarpiece p).work = s.work := rfl
@[simp] theorem State.runEarpiece_pending (p : Fin 16) : (s.runEarpiece p).pending = s.pending := rfl

/-! ### runNoise -/

@[simp] theorem State.runNoise_rstn (n : Fin 20) : (s.runNoise n).rstn = s.rstn := rfl
@[simp] theorem State.runNoise_ftu (n : Fin 20) : (s.runNoise n).ftu = s.ftu := rfl
@[simp] theorem State.runNoise_hwi (n : Fin 20) : (s.runNoise n).hwi = s.hwi := rfl
@[simp] theorem State.runNoise_hli (n : Fin 20) : (s.runNoise n).hli = s.hli := rfl
@[simp] theorem State.runNoise_pct (n : Fin 20) : (s.runNoise n).pct = s.pct := rfl
@[simp] theorem State.runNoise_mxe (n : Fin 20) : (s.runNoise n).mxe = s.mxe := rfl
@[simp] theorem State.runNoise_ecu (n : Fin 20) : (s.runNoise n).ecu = s.ecu := rfl
@[simp] theorem State.runNoise_nru (n : Fin 20) :
    (s.runNoise n).nru = { s.nru with contexts := upd s.nru.contexts n (fun _ => (s.noiseResult n).1) } := rfl
@[simp] theorem State.runNoise_sst (n : Fin 20) : (s.runNoise n).sst = s.sst := rfl
@[simp] theorem State.runNoise_vce (n : Fin 20) : (s.runNoise n).vce = s.vce := rfl
@[simp] theorem State.runNoise_sfe (n : Fin 20) : (s.runNoise n).sfe = s.sfe := rfl
@[simp] theorem State.runNoise_pqc (n : Fin 20) : (s.runNoise n).pqc = s.pqc := rfl
@[simp] theorem State.runNoise_cpt (n : Fin 20) : (s.runNoise n).cpt = s.cpt := rfl
@[simp] theorem State.runNoise_taken (n : Fin 20) : (s.runNoise n).taken = s.taken := rfl
@[simp] theorem State.runNoise_work (n : Fin 20) : (s.runNoise n).work = s.work := rfl
@[simp] theorem State.runNoise_pending (n : Fin 20) : (s.runNoise n).pending = s.pending := rfl

/-! ### toFreeRun -/

@[simp] theorem State.toFreeRun_rstn : (s.toFreeRun).rstn = s.rstn := rfl
@[simp] theorem State.toFreeRun_ftu : (s.toFreeRun).ftu = { s.ftu with timing := .freeRun, goodSync := 0 } := rfl
@[simp] theorem State.toFreeRun_hwi : (s.toFreeRun).hwi = { s.hwi with driven := Vector.replicate 32 none } := rfl
@[simp] theorem State.toFreeRun_hli : (s.toFreeRun).hli = s.hli := rfl
@[simp] theorem State.toFreeRun_pct : (s.toFreeRun).pct = s.pct := rfl
@[simp] theorem State.toFreeRun_mxe : (s.toFreeRun).mxe = s.mxe := rfl
@[simp] theorem State.toFreeRun_ecu : (s.toFreeRun).ecu = s.ecu := rfl
@[simp] theorem State.toFreeRun_nru : (s.toFreeRun).nru = s.nru := rfl
@[simp] theorem State.toFreeRun_sst : (s.toFreeRun).sst = s.sst := rfl
@[simp] theorem State.toFreeRun_vce : (s.toFreeRun).vce = s.vce := rfl
@[simp] theorem State.toFreeRun_sfe : (s.toFreeRun).sfe = s.sfe := rfl
@[simp] theorem State.toFreeRun_pqc : (s.toFreeRun).pqc = s.pqc := rfl
@[simp] theorem State.toFreeRun_cpt : (s.toFreeRun).cpt = s.cpt := rfl
@[simp] theorem State.toFreeRun_taken : (s.toFreeRun).taken = s.taken := rfl
@[simp] theorem State.toFreeRun_work : (s.toFreeRun).work = s.work := rfl
@[simp] theorem State.toFreeRun_pending : (s.toFreeRun).pending = s.pending := rfl

end Sys2Proof.Machine
end

