-- ==== Sys2Proof/Laws/Banks.lean ====
section
/-!
SUPPORT. Reading a bank of records, a port or a queue after one of its entries was changed.
-/

namespace Sys2Proof.Machine

variable {α : Type} {n : Nat}

/-! ### Banks -/

/-- Reading entry `j` of a bank whose entry `i` was replaced (simp reads a bank at the number of its index). -/
theorem set_get (v : Vector α n) (i j : Fin n) (x : α) : (v.set i x)[(j : Nat)] = if j = i then x else v[(j : Nat)] := by
  rw [Vector.getElem_set]
  by_cases h : j = i
  · subst h; simp
  · have h' : (i : Nat) ≠ (j : Nat) := fun e => h (Fin.ext e.symm)
    simp [h, h']

/-- Reading entry `j` of a bank whose entry `i` was changed. -/
theorem upd_get (v : Vector α n) (i j : Fin n) (f : α → α) :
    (upd v i f)[(j : Nat)] = if j = i then f v[(j : Nat)] else v[(j : Nat)] := by
  unfold upd
  rw [set_get]
  by_cases h : j = i
  · subst h; simp
  · simp [h]

@[simp] theorem upd_same (v : Vector α n) (i : Fin n) (f : α → α) : (upd v i f)[(i : Nat)] = f v[(i : Nat)] := by
  simp [upd_get]

theorem upd_other (v : Vector α n) (i j : Fin n) (f : α → α) (h : j ≠ i) :
    (upd v i f)[(j : Nat)] = v[(j : Nat)] := by
  simp [upd_get, h]

/-- Two banks with equal entries are equal. -/
theorem bank_ext (v w : Vector α n) (h : ∀ i : Fin n, v[i] = w[i]) : v = w := by
  apply Vector.ext
  intro i hi
  exact h ⟨i, hi⟩

/-- A field that every step of a fold keeps is kept by the fold. -/
theorem foldl_keeps {σ β γ : Type} (g : σ → γ) (f : σ → β → σ) (hf : ∀ s x, g (f s x) = g s) (l : List β) (s : σ) :
    g (l.foldl f s) = g s := by
  induction l generalizing s with
  | nil => rfl
  | cons x l ih => simp [ih, hf]

/-- A law that every step of a fold keeps is kept by the fold. -/
theorem foldl_law {σ β : Type} (L : σ → Prop) (f : σ → β → σ) (hf : ∀ s x, L s → L (f s x)) (l : List β) (s : σ)
    (h : L s) : L (l.foldl f s) := by
  induction l generalizing s with
  | nil => exact h
  | cons x l ih => exact ih _ (hf _ _ h)

/-! ### Ports -/

@[simp] theorem Cpt.get_set_same (c : Cpt) (port : Port) (ps : PortState) : (c.set port ps).get port = ps := by
  cases port <;> rfl

theorem Cpt.get_set_other (c : Cpt) (port x : Port) (ps : PortState) (h : x ≠ port) :
    (c.set port ps).get x = c.get x := by
  cases port <;> cases x <;> first | rfl | exact absurd rfl h

@[simp] theorem Cpt.set_set (c : Cpt) (port : Port) (a b : PortState) : (c.set port a).set port b = c.set port b := by
  cases port <;> rfl

@[simp] theorem Cpt.set_get (c : Cpt) (port : Port) : c.set port (c.get port) = c := by cases port <;> rfl

/-- Reading a port after one port was replaced. -/
theorem Cpt.get_set (c : Cpt) (port x : Port) (ps : PortState) :
    (c.set port ps).get x = if x = port then ps else c.get x := by
  by_cases h : x = port
  · subst h; simp
  · simp [h, Cpt.get_set_other]

/-! ### Queues -/

/-- Reading a queue after one queue was replaced. -/
theorem State.queue_setQueue (s : State) (p x : Fin 16) (q y : QueueId) (l : List Entry) :
    (s.setQueue p q l).queue x y = if x = p ∧ y = q then l else s.queue x y := by
  cases q <;> cases y <;> by_cases h : x = p <;> simp [State.setQueue, State.queue, set_get, h]

/-! ### The numbers -/

theorem mem_allPositions (p : Fin 16) : p ∈ allPositions := by revert p; decide

theorem mem_allChannels (c : Fin 4) : c ∈ allChannels := by revert c; decide

theorem mem_allVoices (v : Fin 12) : v ∈ allVoices := by revert v; decide

theorem mem_allPorts (port : Port) : port ∈ allPorts := by cases port <;> decide

end Sys2Proof.Machine
end

