-- ==== Sys2Proof/Laws/Requests.lean ====
section
/-!
SUPPORT. What a row of the request table does with the requests of a port: one lemma for each way a request can be
taken, so that nobody unfolds `State.takeRequest`.
-/

namespace Sys2Proof.Machine

/-! ### Kinds -/

@[simp] theorem kindOf_code (k : Kind) : kindOf k.code = some k := by cases k <;> decide

theorem kindOf_eq_some (b : Byte) (k : Kind) (h : kindOf b = some k) : b = k.code := by
  have hk := List.find?_some h
  simpa using (beq_iff_eq.mp hk).symm

@[simp] theorem Kind.takes_whole (k : Kind) (r : Request) (h : r.kind = k.code) : k.takes r = true := by
  simp [Kind.takes, h]

/-! ### The ports once a request is taken and answered -/

theorem State.popRequest_eq (s : State) (port : Port) (rest : List Request) :
    s.popRequest port rest = { s with cpt := s.cpt.taking port rest } := rfl

theorem State.respond_eq (s : State) (port : Port) (x : Response) :
    s.respond port x = { s with cpt := s.cpt.responding port x } := rfl

@[simp] theorem Cpt.taking_get_responses (c : Cpt) (port x : Port) (rest : List Request) :
    ((c.taking port rest).get x).responses = (c.get x).responses := by
  by_cases h : x = port
  · subst h; simp [Cpt.taking]
  · simp [Cpt.taking, Cpt.get_set_other, h]

@[simp] theorem Cpt.taking_get_overflow (c : Cpt) (port x : Port) (rest : List Request) :
    ((c.taking port rest).get x).overflow = (c.get x).overflow := by
  by_cases h : x = port
  · subst h; simp [Cpt.taking]
  · simp [Cpt.taking, Cpt.get_set_other, h]

/-! ### Rows of the request table -/

/-- With RSTN asserted a row does nothing (R185). -/
theorem State.take_held (s : State) (port : Port) (k : Kind) (serve : State → Request → Reply) (h : s.rstn = true) :
    s.take port k serve = s := by
  simp [State.take, State.takeRequest, h]

/-- With no untaken request a row does nothing. -/
theorem State.take_empty (s : State) (port : Port) (k : Kind) (serve : State → Request → Reply)
    (h : (s.port port).untaken = []) : s.take port k serve = s := by
  cases hr : s.rstn <;> simp [State.take, State.takeRequest, hr, h]

/-- A row does nothing with an oldest request that is not its own. -/
theorem State.take_other (s : State) (port : Port) (k : Kind) (serve : State → Request → Reply) (r : Request)
    (rest : List Request) (h : (s.port port).untaken = r :: rest) (hk : k.takes r = false) :
    s.take port k serve = s := by
  cases hr : s.rstn <;> simp [State.take, State.takeRequest, hr, h, hk]

/-- What a row does with a request that it takes: the answer's effect, then the response at the tail. -/
theorem State.take_offers (s : State) (port : Port) (k : Kind) (serve : State → Request → Reply) (r : Request)
    (rest : List Request) (h : s.offers port r rest) (hk : k.takes r = true) :
    s.take port k serve =
      State.respond ((s.popRequest port rest).answer port r serve).state port
        (responseTo r (s.port port).overflow ((s.popRequest port rest).answer port r serve)) := by
  simp [State.take, State.takeRequest, h.1, h.2, hk]

/-- A whole request of a kind the port may make goes to its owner. -/
theorem State.answer_asks (s : State) (port : Port) (k : Kind) (r : Request) (serve : State → Request → Reply)
    (h : r.whole k) (ha : k.allows port = true) : s.answer port r serve = serve s r := by
  simp [State.answer, h.1, h.2, ha]

/-- What a row does with a request of its kind (R170, R172). -/
theorem State.take_asks (s : State) (port : Port) (k : Kind) (serve : State → Request → Reply) (r : Request)
    (rest : List Request) (h : s.asks port k r rest) :
    s.take port k serve =
      (serve (s.popRequest port rest) r).state.respond port
        (responseTo r (s.port port).overflow (serve (s.popRequest port rest) r)) := by
  rw [s.take_offers port k serve r rest h.1 (k.takes_whole r h.2.1.1), State.answer_asks _ _ k r serve h.2.1 h.2.2]

/-- A request of a row's kind that its owner refuses changes nothing but its port (R172). -/
theorem State.take_refused (s : State) (port : Port) (k : Kind) (serve : State → Request → Reply) (r : Request)
    (rest : List Request) (status : Status) (h : s.asks port k r rest)
    (hs : serve (s.popRequest port rest) r = (s.popRequest port rest).refuse status) :
    s.take port k serve = { s with cpt := s.cpt.answered port r rest status [] } := by
  rw [s.take_asks port k serve r rest h, hs]; rfl

/-- A request of a row's kind that its owner takes with an effect that reaches no port (R170, R172). -/
theorem State.take_okay (s : State) (port : Port) (k : Kind) (serve : State → Request → Reply) (r : Request)
    (rest : List Request) (t : State) (data : List Byte) (h : s.asks port k r rest)
    (hs : serve (s.popRequest port rest) r = t.okay data) (ht : t.cpt = s.cpt.taking port rest) :
    s.take port k serve = { t with cpt := s.cpt.answered port r rest .ok data } := by
  rw [s.take_asks port k serve r rest h, hs]
  simp [State.okay, State.respond_eq, ht, Cpt.answered, responseTo, Request.answer]

end Sys2Proof.Machine
end

