-- ==== Sys2Proof/Laws/Ops.lean ====
section
/-!
SUPPORT. What each shared operation of Machine/Ops.lean can do, said once: the state after it as the state before with
exactly the parts that change, so that nobody unfolds the operation again.
-/

namespace Sys2Proof.Machine

/-! ### Reports -/

/-- A report changes one port's report queue and overflow flag (R175 to R178). -/
theorem State.report_eq (s : State) (port : Port) (b : ReportBody) :
    s.report port b = { s with cpt := s.cpt.place s.ftu.frameCount port b } := rfl

/-- A report to several ports changes the ports alone. -/
theorem State.reportAll_eq (s : State) (ports : List Port) (b : ReportBody) :
    s.reportAll ports b = { s with cpt := ports.foldl (fun c x => c.place s.ftu.frameCount x b) s.cpt } := by
  unfold State.reportAll
  induction ports generalizing s with
  | nil => rfl
  | cons x l ih => simp only [List.foldl_cons]; rw [ih, State.report_eq]

/-- An URGENT entry that arrives at a queue in its two groups stands between them (R176). -/
theorem insertUrgent_groups (l m : List Report) (r : Report) (hl : ∀ x ∈ l, x.urgent = true)
    (hm : ∀ x ∈ m, x.urgent = false) : insertUrgent (l ++ m) r = l ++ r :: m := by
  have h1 : m.takeWhile Report.urgent = [] ∧ m.dropWhile Report.urgent = m := by
    cases m with
    | nil => exact ⟨rfl, rfl⟩
    | cons a t => simp [hm a]
  rw [insertUrgent, List.takeWhile_append_of_pos hl, List.dropWhile_append_of_pos hl, h1.1, h1.2, List.append_nil]

/-! ### Sessions -/

/-- The ending of a session that stands (R109). -/
theorem State.endSession_on (s : State) (c : Fin 4) (p : Fin 16) (reason : SessionEnd)
    (h : s.sessionOn p c = true) :
    s.endSession c reason = { s with
      sst := s.sst.set c { s.sst[c] with mode := .idle, target := none, lastEnd := reason }
      mxe := { s.mxe with supTerms := s.mxe.supTerms.set c .absent }
      cpt := s.cpt.place s.ftu.frameCount .supervision (.sessionEnded c p reason) } := by
  simp only [State.sessionOn, Bool.and_eq_true, bne_iff_ne, ne_eq, beq_iff_eq] at h
  simp only [State.endSession, if_neg h.1, h.2]
  rfl

/-- An ending finds an IDLE record and does nothing to it (R109). -/
theorem State.endSession_idle (s : State) (c : Fin 4) (reason : SessionEnd) (h : s.sst[c].mode = .idle) :
    s.endSession c reason = s := by
  simp only [State.endSession, if_pos h]

/-- The session of one channel does not depend on the record of another. -/
theorem State.sessionOn_other (s : State) (p : Fin 16) (c k : Fin 4) (x : Session) (m : Mxe) (q : Cpt) (h : k ≠ c) :
    State.sessionOn { s with sst := s.sst.set c x, mxe := m, cpt := q } p k = s.sessionOn p k := by
  simp [State.sessionOn, set_get, h]

/-- The sessions of distinct channels ended one after another. -/
theorem State.endings_spec (p : Fin 16) (reason : SessionEnd) (l : List (Fin 4)) (hl : l.Nodup) (s : State) :
    ∃ sst sup,
      l.foldl (fun s c => if s.sessionOn p c then s.endSession c reason else s) s = { s with
        sst := sst
        mxe := { s.mxe with supTerms := sup }
        cpt := l.foldl (fun c k =>
          if s.sessionOn p k then c.place s.ftu.frameCount .supervision (.sessionEnded k p reason) else c) s.cpt } ∧
      (∀ c : Fin 4, sst[c] =
        if c ∈ l ∧ s.sessionOn p c = true then { s.sst[c] with mode := .idle, target := none, lastEnd := reason }
        else s.sst[c]) ∧
      ∀ c : Fin 4, sup[c] = if c ∈ l ∧ s.sessionOn p c = true then .absent else s.mxe.supTerms[c] := by
  induction l generalizing s with
  | nil => exact ⟨s.sst, s.mxe.supTerms, rfl, by simp, by simp⟩
  | cons k l ih =>
    obtain ⟨hk, hl'⟩ := List.nodup_cons.mp hl
    simp only [List.foldl_cons]
    by_cases h : s.sessionOn p k = true
    · rw [if_pos h, if_pos h, State.endSession_on s k p reason h]
      obtain ⟨sst, sup, h1, h2, h3⟩ := ih hl' { s with
        sst := s.sst.set k { s.sst[k] with mode := .idle, target := none, lastEnd := reason }
        mxe := { s.mxe with supTerms := s.mxe.supTerms.set k .absent }
        cpt := s.cpt.place s.ftu.frameCount .supervision (.sessionEnded k p reason) }
      have hon : ∀ c ∈ l, State.sessionOn { s with
          sst := s.sst.set k { s.sst[k] with mode := .idle, target := none, lastEnd := reason }
          mxe := { s.mxe with supTerms := s.mxe.supTerms.set k .absent }
          cpt := s.cpt.place s.ftu.frameCount .supervision (.sessionEnded k p reason) } p c = s.sessionOn p c := by
        intro c hc
        exact State.sessionOn_other s p k c _ _ _ (fun e => hk (e ▸ hc))
      refine ⟨sst, sup, ?_, ?_, ?_⟩
      · rw [h1]
        simp only [State.mk.injEq, true_and, and_true]
        exact List.foldl_ext _ _ _ (fun a c hc => by rw [hon c hc])
      · intro c
        rw [h2 c]
        by_cases hc : c = k
        · subst hc; simp [hk, h]
        · by_cases hm : c ∈ l
          · rw [hon c hm]; simp [hm, hc, set_get]
          · simp [hm, hc, set_get]
      · intro c
        rw [h3 c]
        by_cases hc : c = k
        · subst hc; simp [hk, h]
        · by_cases hm : c ∈ l
          · rw [hon c hm]; simp [hm, hc, set_get]
          · simp [hm, hc, set_get]
    · rw [if_neg h, if_neg h]
      obtain ⟨sst, sup, h1, h2, h3⟩ := ih hl' s
      refine ⟨sst, sup, h1, ?_, ?_⟩
      · intro c
        rw [h2 c]
        by_cases hc : c = k
        · subst hc; simp [hk, h]
        · simp [hc]
      · intro c
        rw [h3 c]
        by_cases hc : c = k
        · subst hc; simp [hk, h]
        · simp [hc]

/-- Every session on a position ended, in channel order (R109, R110). -/
theorem State.endSessionsOn_spec (s : State) (p : Fin 16) (reason : SessionEnd) :
    ∃ sst sup,
      s.endSessionsOn p reason = { s with
        sst := sst
        mxe := { s.mxe with supTerms := sup }
        cpt := s.placeEndings p reason s.cpt } ∧
      (∀ c : Fin 4, sst[c] =
        if s.sessionOn p c = true then { s.sst[c] with mode := .idle, target := none, lastEnd := reason }
        else s.sst[c]) ∧
      ∀ c : Fin 4, sup[c] = if s.sessionOn p c = true then .absent else s.mxe.supTerms[c] := by
  obtain ⟨sst, sup, h1, h2, h3⟩ := State.endings_spec p reason allChannels (by decide) s
  refine ⟨sst, sup, h1, ?_, ?_⟩
  · intro c
    have := h2 c
    simp only [mem_allChannels, true_and] at this
    exact this
  · intro c
    have := h3 c
    simp only [mem_allChannels, true_and] at this
    exact this

/-! ### Voices -/

/-- A voice that enters DRAINING (R132): its record, and the engine's claim. -/
theorem State.drainVoice_eq (s : State) (v : Fin 12) (d : Option (Fin 16)) :
    s.drainVoice v d = { s with
      vce := upd s.vce v (fun x => x.drain d)
      sfe := { s.sfe with owed := (s.drainVoice v d).sfe.owed } } := rfl

/-- Entering DRAINING twice is entering it once. -/
theorem Voice.drain_drain (v : Voice) (d : Option (Fin 16)) : (v.drain d).drain d = v.drain d := rfl

/-! ### Queues -/

theorem State.setQueue_queue_same (s : State) (p : Fin 16) (q : QueueId) (l : List Entry) :
    (s.setQueue p q l).queue p q = l := by
  simp [State.queue_setQueue]

/-- The entries of a removed list cancelled one after another: their voices drain, and each is reported (R163). -/
theorem State.cancels_spec (p : Fin 16) (q : QueueId) (l : List Entry) (s : State) :
    ∃ vce owed,
      l.foldl (fun s e => s.cancelEntry p q e) s = { s with
        vce := vce
        sfe := { s.sfe with owed := owed }
        cpt := l.foldl (fun c e => c.place s.ftu.frameCount e.origin.port (s.cancelBody p q e)) s.cpt } ∧
      ∀ v : Fin 12, vce[v] =
        if l.any (fun e => e.voice == some v) = true then s.vce[v].drain (some p) else s.vce[v] := by
  induction l generalizing s with
  | nil => exact ⟨s.vce, s.sfe.owed, rfl, by simp⟩
  | cons e l ih =>
    simp only [List.foldl_cons]
    cases he : e.voice with
    | none =>
      have h0 : s.cancelEntry p q e =
          { s with cpt := s.cpt.place s.ftu.frameCount e.origin.port (s.cancelBody p q e) } := by
        simp only [State.cancelEntry, he, State.cancelBody]; rfl
      rw [h0]
      obtain ⟨vce, owed, h1, h2⟩ :=
        ih { s with cpt := s.cpt.place s.ftu.frameCount e.origin.port (s.cancelBody p q e) }
      refine ⟨vce, owed, h1, ?_⟩
      intro v; rw [h2 v]; simp [he]
    | some w =>
      generalize ho : (s.cancelEntry p q e).sfe.owed = o
      have h0 : s.cancelEntry p q e =
          { s with
            vce := upd s.vce w (fun x => x.drain (some p))
            sfe := { s.sfe with owed := o }
            cpt := s.cpt.place s.ftu.frameCount e.origin.port (s.cancelBody p q e) } := by
        subst ho
        simp only [State.cancelEntry, he, State.cancelBody]; rfl
      rw [h0]
      obtain ⟨vce, owed, h1, h2⟩ := ih { s with
            vce := upd s.vce w (fun x => x.drain (some p))
            sfe := { s.sfe with owed := o }
            cpt := s.cpt.place s.ftu.frameCount e.origin.port (s.cancelBody p q e) }
      refine ⟨vce, owed, ?_, ?_⟩
      · rw [h1]
        simp only [State.mk.injEq, true_and, and_true]
        apply List.foldl_ext
        intro c y _
        have : State.cancelBody { s with
            vce := upd s.vce w (fun x => x.drain (some p))
            sfe := { s.sfe with owed := o }
            cpt := s.cpt.place s.ftu.frameCount e.origin.port (s.cancelBody p q e) } p q y = s.cancelBody p q y := by
          simp only [State.cancelBody]
          cases hy : y.voice with
          | none => rfl
          | some z =>
            by_cases hz : z = w
            · subst hz; simp [Voice.drain]
            · simp [upd_get, hz]
        rw [this]
      · intro v
        rw [h2 v]
        by_cases hv : v = w
        · subst hv; simp [he, Voice.drain_drain]
        · have : (some w == some v) = false := by simp; exact fun e => hv e.symm
          simp [he, upd_get, hv, this]

/-- A queue flushed (R164, R165): emptied, its entries' voices drained for the position, its entries reported. -/
theorem State.flushQueue_spec (s : State) (p : Fin 16) (q : QueueId) :
    ∃ vce owed,
      s.flushQueue p q = { s with
        vce := vce
        sfe := { s.sfe with owed := owed }
        pqc := (s.setQueue p q []).pqc
        cpt := s.placeCancels p q s.cpt } ∧
      ∀ v : Fin 12, vce[v] = if s.heldBy p q v = true then s.vce[v].drain (some p) else s.vce[v] := by
  obtain ⟨vce, owed, h1, h2⟩ := State.cancels_spec p q (s.queue p q) (s.setQueue p q [])
  refine ⟨vce, owed, ?_, ?_⟩
  · cases q <;> exact h1
  · cases q <;> exact h2

/-- The offer of an automatic prompt changes the prompt queues alone (R157). -/
theorem State.offer_eq (s : State) (p : Fin 16) (k : AutoKind) : s.offer p k = { s with pqc := s.afterOffer p k } := by
  unfold State.offer State.afterOffer
  cases s.sfe.settings.clip k with
  | none => rfl
  | some n =>
    simp only [State.queue, Config.queueDepth, List.all_eq_true, bne_iff_ne]
    split <;> rfl

/-! ### Grants -/

/-- A pool grant changes a queue with the pointer, and a voice (R159 to R161). -/
theorem State.poolGrant_frame (s : State) : ∃ vce pqc, s.poolGrant = { s with vce := vce, pqc := pqc } := by
  unfold State.poolGrant
  generalize s.freeVoice = f
  generalize (visitOrder s.pqc.pointer).find? (fun x => s.headWaiting x.1 x.2) = g
  match f, g with
  | none, _ => exact ⟨s.vce, s.pqc, rfl⟩
  | some _, none => exact ⟨s.vce, s.pqc, rfl⟩
  | some v, some (p, q) =>
    simp only
    generalize s.queue p q = l
    match l, q with
    | [], _ => exact ⟨s.vce, s.pqc, rfl⟩
    | _ :: _, .agent => exact ⟨_, _, rfl⟩
    | _ :: _, .line => exact ⟨_, _, rfl⟩

/-- Grants made one after another change the queues, the pointer and the voices alone (R159). -/
theorem State.poolGrants_frame (n : Nat) (s : State) :
    ∃ vce pqc, State.poolGrants n s = { s with vce := vce, pqc := pqc } := by
  induction n generalizing s with
  | zero => exact ⟨s.vce, s.pqc, rfl⟩
  | succ n ih =>
    obtain ⟨v, q, h⟩ := s.poolGrant_frame
    obtain ⟨v', q', h'⟩ := ih s.poolGrant
    exact ⟨v', q', by simp only [State.poolGrants]; rw [h', h]⟩

/-- The lowest voice that meets a test is the one that a search of the voices finds. -/
theorem allVoices_find (f : Fin 12 → Bool) (v : Fin 12) (hv : f v = true) (hw : ∀ w, f w = true → v ≤ w) :
    allVoices.find? f = some v := by
  have mem : ∀ x, x ∈ allVoices := by decide
  cases h : allVoices.find? f with
  | none => exact absurd hv (List.find?_eq_none.mp h v (mem v))
  | some x =>
    have hx : x ≤ v := by
      obtain ⟨-, l, r, hl, hn⟩ := List.find?_eq_some_iff_append.mp h
      have hs : (l ++ x :: r).Pairwise (· ≤ ·) := by rw [← hl]; decide
      have hm : v ∈ l ++ x :: r := hl ▸ mem v
      rcases List.mem_append.mp hm with hm | hm
      · exact absurd hv (by simpa using hn v hm)
      · rcases List.mem_cons.mp hm with rfl | hm
        · exact le_refl _
        · exact List.rel_of_pairwise_cons (List.pairwise_append.mp hs).2.1 hm
    rw [le_antisymm hx (hw x (List.find?_some h))]

/-- The model's class of a voice is its rank (R147). -/
theorem fetchClass_eq_rank (v : Voice) : fetchClass v = v.rank := by
  unfold fetchClass Voice.rank
  rcases v.use with _ | _ | ⟨_, _ | _⟩ <;> rfl

/-- The first of the waiting flags by class and number is the one that R147 serves. -/
theorem State.bestFlag_first (s : State) (v : Fin 12) (h : s.FirstFlag v) : s.bestFlag = some v := by
  obtain ⟨hr, hw⟩ := h
  have none (n : Nat) (hn : n < s.vce[v].rank) :
      allVoices.find? (fun w => s.vce[w].refill && fetchClass s.vce[w] == n) = none := by
    rw [List.find?_eq_none]
    intro w _
    simp only [fetchClass_eq_rank, Bool.and_eq_true, beq_iff_eq, not_and]
    intro h e
    have := hw w h
    omega
  have same : allVoices.find? (fun w => s.vce[w].refill && fetchClass s.vce[w] == s.vce[v].rank) = some v := by
    refine allVoices_find _ v (Bool.and_eq_true_iff.mpr ⟨hr, beq_iff_eq.mpr (fetchClass_eq_rank _)⟩) fun w h => ?_
    simp only [fetchClass_eq_rank, Bool.and_eq_true, beq_iff_eq] at h
    exact (hw w h.1).elim (fun h' => absurd h' (by omega)) (·.2)
  have rank : s.vce[v].rank = 0 ∨ s.vce[v].rank = 1 ∨ s.vce[v].rank = 2 := by
    unfold Voice.rank; rcases s.vce[v].use with _ | _ | ⟨_, _ | _⟩ <;> simp
  have most (w : Fin 12) : s.vce[w].rank ≤ 2 := by
    unfold Voice.rank; rcases s.vce[w].use with _ | _ | ⟨_, _ | _⟩ <;> simp
  unfold State.bestFlag
  rcases rank with e | e | e
  · rw [← e, same]
  · rw [none 0 (by omega), ← e, same]
  · rw [none 0 (by omega), none 1 (by omega)]
    refine allVoices_find _ v hr fun w h => ?_
    have := hw w h
    have := most w
    exact (hw w h).elim (fun h' => absurd h' (by omega)) (·.2)


/-- A fetch grant changes a voice and the engine alone (R147, R148). -/
theorem State.grantFetch_frame (s : State) : ∃ vce sfe, s.grantFetch = { s with vce := vce, sfe := sfe } := by
  unfold State.grantFetch
  split
  · exact ⟨s.vce, s.sfe, rfl⟩
  · split
    · exact ⟨_, _, rfl⟩
    · exact ⟨s.vce, s.sfe, rfl⟩

/-- The grants that stand change voices, queues and the engine alone (R147, R159). -/
theorem State.settleGrants_frame (s : State) :
    ∃ vce pqc sfe, s.settleGrants = { s with vce := vce, pqc := pqc, sfe := sfe } := by
  obtain ⟨v, q, h⟩ := State.poolGrants_frame 12 s
  obtain ⟨v', f, h'⟩ := (State.poolGrants 12 s).grantFetch_frame
  exact ⟨v', q, f, by simp only [State.settleGrants]; rw [h', h]⟩

/-! ### The store -/

/-- The store fails (R151): its state, its last failure and the claim on the engine, with a report to every port. -/
theorem State.failStore_eq (s : State) :
    s.failStore = { s with
      sfe := { s.sfe with store := .unavailable, lastFailure := .timeout, owed := none }
      cpt := allPorts.foldl (fun c x => c.place s.ftu.frameCount x (.storeFailed .timeout)) s.cpt } := by
  unfold State.failStore; rw [State.reportAll_eq]

/-- A scan fails (R142). -/
theorem State.failScan_eq (s : State) :
    s.failScan = { s with
      sfe := { s.sfe with store := .unavailable, lastFailure := .scan, scan := .idle, owed := none }
      cpt := allPorts.foldl (fun c x => c.place s.ftu.frameCount x (.storeFailed .scan)) s.cpt } := by
  unfold State.failScan; rw [State.reportAll_eq]

end Sys2Proof.Machine
end

