-- ==== Sys2Proof/Laws/FrameWork.lean ====
section
/-!
SUPPORT. What one piece of a frame event's work does to a frame event under way: the piece alone is done, and the others
stand. Then the talk frames through a soft reset.
-/

namespace Sys2Proof.Machine

/-! ### Pieces of work -/

@[simp] theorem State.reportAll_work (s : State) (ports : List Port) (b : ReportBody) :
    (s.reportAll ports b).work = s.work := by rw [State.reportAll_eq]

@[simp] theorem State.offer_work (s : State) (p : Fin 16) (k : AutoKind) : (s.offer p k).work = s.work := by
  rw [State.offer_eq]

theorem State.completePrompt_work (s : State) (v : Fin 12) : (s.completePrompt v).work = s.work := by
  unfold State.completePrompt; dsimp only; repeat' split
  all_goals simp [State.promptDone]

theorem State.meterReports_work (s : State) (port : Port) : (s.meterReports port).work = s.work := by
  refine foldl_keeps State.work _ (fun u p => ?_) allPositions s
  split <;> simp

/-- A piece of work touches no other piece: the list of pieces that stand is as before. -/
theorem State.runWork_work (s : State) (w : Work) : (s.runWork w).work = s.work := by
  cases w <;> simp only [State.runWork]
  case presence p =>
    unfold State.runPresence; dsimp only; repeat' split
    all_goals simp
  case button p =>
    unfold State.runButton; dsimp only; repeat' split
    all_goals simp
  case battery p =>
    unfold State.runBattery; dsimp only; repeat' split
    all_goals simp
  case reminder p =>
    unfold State.runReminder; dsimp only; repeat' split
    all_goals simp
  case muted p =>
    unfold State.runMuted; dsimp only; repeat' split
    all_goals simp
  case echo p => unfold State.runEcho; dsimp only; split <;> simp
  case noise n => exact State.runNoise_work ..
  case mix => simp only [State.runMix]
  case meterClose => unfold State.runMeterClose; split <;> simp
  case earpiece p => exact State.runEarpiece_work ..
  case highwayOut => simp only [State.runHighwayOut, State.driveNow_work]
  case voice v =>
    unfold State.runVoice; dsimp only; split
    · rw [State.completePrompt_work, State.modVoice_work]
    · rw [foldl_keeps State.work _ (fun u code => State.report_work u ..), State.settleOwed_work]; rfl
  case close p =>
    unfold State.runClose; repeat' split
    all_goals rfl
  case meterPeriod port =>
    unfold State.runMeterPeriod; repeat' split
    all_goals first | rfl | rw [State.meterReports_work]; rfl

/-- A frame event that names the piece `w`, with every other piece held back, does that piece alone. -/
theorem State.frameEvent_piece (s : State) (w : Work) (held : List Work) (h : s.atPiece w held) :
    s.frameEvent [w] held = State.runWork { s with work := s.work.erase w } w := by
  obtain ⟨-, hd, hw, hb, hh⟩ := h
  have hskip : ∀ l : List Work, (∀ x ∈ l, x ∉ s.work) → l.foldl State.workOne s = s := by
    intro l hl
    induction l with
    | nil => rfl
    | cons x l ih =>
      rw [List.foldl_cons, State.workOne, if_neg (hl x (.head _))]
      exact ih (fun y hy => hl y (.tail _ hy))
  have hrest : ∀ (l : List Work) (u : State), u.work = s.work.erase w → (∀ x ∈ l, x ∉ held) →
      l.foldl State.doWorkGrant u = u := by
    intro l u hu hl
    induction l with
    | nil => rfl
    | cons x l ih =>
      rw [List.foldl_cons, State.doWorkGrant, if_neg (fun hx => hl x (.head _) (hh x (hu ▸ hx)))]
      exact ih (fun y hy => hl y (.tail _ hy))
  have hone : s.doWork w = State.runWork { s with work := s.work.erase w } w := by
    rw [State.doWork, if_pos hw, List.foldl_append, hskip _ hb]
    simp [State.workOne, hw]
  rw [State.frameEvent, State.beginDue, if_neg (by simp [hd]), List.foldl_cons, List.foldl_nil, hone]
  exact hrest _ _ (State.runWork_work _ _) (fun x hx => by simpa using (List.mem_filter.mp hx).2)

/-- The command FRAME_EVENT at such a state answers with that piece done. -/
theorem exec_frameEvent_piece (s : State) (w : Work) (held : List Work) (h : s.atPiece w held) :
    exec (.frameEvent [w] held) s = .next (State.runWork { s with work := s.work.erase w } w) := by
  have hr : s.rstn = false := h.1
  simp only [exec, execFrameEvent]
  rw [if_neg (by simp [hr]), State.frameEvent_piece s w held h]

/-! ### Talk frames through a soft reset -/

/-- No talk frame is live after a soft reset, and each keeps its samples (R32, R84). -/
theorem talkUnbound_get (talk : Vector TalkFrame 4) (c : Fin 4) :
    (talkUnbound talk)[c] = { talk[c] with live := false } := by
  simp only [talkUnbound, allChannels]
  revert c
  simp [Fin.forall_fin_succ, upd]

end Sys2Proof.Machine
end

