-- ==== Sys2Proof/WellFormed.lean ====
section
/-!
DEFINITION. Which commands the outside of the part can send.  `exec` gives every command a meaning; a command that
is not well formed carries something that no link, bus or clock of the part can carry.
-/

namespace Sys2Proof

/-- A command that the part's surroundings can send: a sample period carries 32 input slots (section 2.1), the
pieces of work of one frame event are each named once, a fetch reads 1 to 128 stored samples (R148), and a read of
the scan brings at least one byte and no more than a whole directory (R138, R139). -/
def Instr.wf : Instr → Bool
  | .samplePeriod slots => slots.length == 32
  | .frameEvent order held => decide order.Nodup && decide held.Nodup && order.all (fun w => !held.contains w)
  | .syncGapTimeout slots order => slots.length == 32 && decide order.Nodup
  | .fetchCompletion samples => decide (1 ≤ samples.length) && decide (samples.length ≤ 128)
  | .scanReadDone bytes => decide (1 ≤ bytes.length) && decide (bytes.length ≤ 4096)
  | .rstnAssert | .rstnRelease | .writeTransfer _ _ | .readTransfer _
  | .openPosition _ | .closePosition _ | .setDesk _ | .setBattery _ | .setSupervision _ | .setCall _
  | .setReminder _ | .ackReminder _ | .readPosition _ | .bindLine _ | .unbindLine _ | .setSupChannel _
  | .setEc _ | .readCoeffs _ | .setNr _ | .setSupNr _ | .join _ | .changeMode _ | .leave _ | .readSession _
  | .startProgram _ | .stopProgram _ | .setHoldSource _ | .readVoice _ | .rescan _ | .readStore _
  | .agentPrompt _ | .coachPrompt _ | .announce _ | .clearAgentPrompts _ | .clearAnnounce _
  | .takeReports _ | .subscribeMeters _ | .reset _
  | .highwaySync _ | .headsetFrameArrival _ _ _ | .presenceChange _ | .reminderExpiry _
  | .mutedTalkCountFull _ | .closeCompletion _ | .ecDivergence _ | .ecConverged _ | .ecLostTracking _
  | .nrLearnComplete _ | .nrHangoverEnd _ | .nrSpeechRunRestart _ | .meterWindowClose | .meterPeriodExpiry _
  | .voiceStartPlaying _ | .refillRequest _ | .fetchGrant | .fetchTimeout | .scanReadTimeout
  | .drainFade _ | .promptCompletion _ | .voicePoolGrant => true

end Sys2Proof
end

