-- ==== Sys2Proof/Tests/Slice0.lean ====
section
/-!
SUPPORT. Tests of the model.  Expected values come from the worked examples and tables of the specification, named
beside each test.  Then, for each statement that has hypotheses, a state and operands that meet them.
-/

set_option Elab.async false

namespace Sys2Proof.Tests

open Sys2Proof Sys2Proof.Machine

/-! ### Commands that are not well formed -/

theorem test_wf_refuses_short_period : Instr.wf (.samplePeriod []) = false := by decide

theorem test_wf_refuses_repeated_work : Instr.wf (.frameEvent [.mix, .mix] []) = false := by decide

theorem test_wf_refuses_repeated_held_work : Instr.wf (.frameEvent [] [.mix, .mix]) = false := by decide

theorem test_wf_refuses_held_work_in_order : Instr.wf (.frameEvent [.mix] [.mix]) = false := by decide

theorem test_wf_refuses_short_gap_slots : Instr.wf (.syncGapTimeout [1, 2] []) = false := by decide

theorem test_wf_refuses_repeated_gap_work :
    Instr.wf (.syncGapTimeout (List.replicate 32 0) [.mix, .mix]) = false := by decide

theorem test_wf_refuses_empty_fetch : Instr.wf (.fetchCompletion []) = false := by decide

theorem test_wf_refuses_long_fetch : Instr.wf (.fetchCompletion (List.replicate 129 0)) = false := by
  decide +kernel

theorem test_wf_refuses_empty_scan_read : Instr.wf (.scanReadDone []) = false := by decide

theorem test_wf_refuses_long_scan_read : Instr.wf (.scanReadDone (List.replicate 4097 0)) = false := by
  decide +kernel

/-! ### States to start from -/

/-- The part just out of reset. -/
def up : State := State.released []

/-- A request message with tag 42 and its stated length. -/
def req (k : Kind) (params : List Nat) : Request :=
  { kind := k.code, tag := 42, length := BitVec.ofNat 8 params.length, params := params.map (BitVec.ofNat 8) }

/-- The state with that request as the only untaken one of a port. -/
def asking (s : State) (port : Port) (k : Kind) (params : List Nat) : State :=
  s.modPort port (fun ps => { ps with untaken := [req k params] })

/-- What a command leaves. -/
def after (c : Instr) (s : State) : State :=
  match exec c s with
  | .next t => t
  | _ => s

/-- A request written, taken and left answered. -/
def done (c : Instr) (port : Port) (k : Kind) (params : List Nat) (s : State) : State := after c (asking s port k params)

/-- The status of the last response of a port. -/
def answer (s : State) (port : Port) : Option Status := (s.port port).responses.getLast?.map (fun x => x.status)

/-- The data of the last response of a port. -/
def answerData (s : State) (port : Port) : List Byte := (s.port port).responses.getLast?.elim [] (fun x => x.data)

/-- Position 2 OPEN with its headset present. -/
def opened : State := up.modPos 2 (fun x => { x with state := .opened, present := true })

/-- Position 2 OPEN and bound to slots 3 and 4. -/
def bound : State := opened.modPos 2 (fun x => { x with line := some { inSlot := 3, outSlot := 4 } })

/-- Position 2 in TALK with supervision allowed, channel 1 bound. -/
def talking : State :=
  let s := bound.modPos 2 (fun x => { x with call := .talk, supervisionAllowed := true })
  { s with hwi := { s.hwi with channels := s.hwi.channels.set 1 (some { inSlot := 20, outSlot := 21 }) } }

/-- Position 2 in HOLD with a reminder interval. -/
def holding : State := talking.modPos 2 (fun x => { x with call := .hold, reminderInterval := 2500 })

/-- Channel 1 with a WHISPER session on position 2. -/
def whispering : State :=
  talking.modSession 1 (fun x => { x with mode := .whisper, target := some 2, lastEnd := .none })

/-- Voice 3 playing a programme. -/
def programme : State := up.modVoice 3 (fun v => { v.start .program [.clip 0, .loop 0 0] with state := .playing })

/-- Position 2 CLOSING with plan KEEP. -/
def closing : State := up.modPos 2 (fun x => { x with state := .closing, closePlan := some .keep })

/-- An entry of a prompt queue. -/
def entry (origin : Origin) (tag : Byte) (voice : Option (Fin 12)) : Entry :=
  { origin := origin, tag := tag, steps := [.clip 0], duck := false, voice := voice }

/-- Position 2's AGENT head plays on voice 1. -/
def prompting : State :=
  let s := talking.setQueue 2 .agent [entry .desk 7 (some 1), entry .supervision 9 none]
  s.modVoice 1 (fun v => { v.start (.prompt 2 .agent) [.clip 0] with state := .playing })

/-- A frame event under way in which this piece of work alone is left. -/
def atWork (s : State) (w : Work) : State := { s with work := [w] }

theorem atWork_atPiece (s : State) (w : Work) (h : s.rstn = false) (h' : s.ftu.frameDue = false) :
    (atWork s w).atPiece w [] := by
  refine ⟨h, h', List.mem_singleton.mpr rfl, ?_, ?_⟩
  · cases w <;> simp [workBefore, atWork]
  · simp [atWork]

/-- A store of two clips, READY. -/
def stored : State :=
  { up with sfe := { up.sfe with
      store := .ready, scan := .idle, clipCount := 2
      directory := [{ start := 1000, count := 200, rate := 1, trim := 4096, valid := true },
        { start := 2000, count := 300, rate := 2, trim := 6144, valid := true }] } }

/-! ### Arithmetic (Conventions, and the worked examples of chapters 3, 4, 5 and 7) -/

/-- Conventions, "Half-up rounding". -/
theorem test_half_up_rounding : round12 (-2048) = 0 ∧ round12 (-6145) = -2 := by decide

/-- Section 3.3, "a cut and a ramp": a ramp from 1000 to 0, and one from 0 to 1000. -/
theorem test_ramp_gains :
    [0, 1, 62, 63].map (rampGain 1000 0) = [985, 969, 16, 0] ∧ [0, 1, 62, 63].map (rampGain 0 1000) = [15, 31, 984, 1000] := by
  decide

/-- Section 3.5, "three sums": a sum, and a clamped one that counts as a clip. -/
theorem test_mix_sums :
    let mic := useTerm none [1234] 3000 3000 false
    let prompt := useTerm none [-567] 4096 4096 false
    let far := useTerm none [20000] 4096 4096 false
    let loud := useTerm none [15000] 6144 6144 false
    (mixFrame [mic, prompt]).head? = some 337 ∧ (mixFrame [far, loud]).head? = some 32767 ∧ mixClips [far, loud] = 1 := by
  decide

/-- Section 3.4, "whisper with ducking": the gate opens, then the factor climbs by 144. -/
theorem test_duck_factor :
    let d0 : Duck := { factor := 4096, level := 1024, release := 50 }
    let d1 := d0.next (some (512, 25))
    let d2 := d1.next none
    (d1.factor, d2.factor, (d2.next none).factor) = (512, 656, 800) := by decide

/-- Section 2.4, "earpiece samples": the sidetone terms. -/
theorem test_sidetone_terms :
    [sidetone 512 3000, sidetone 512 (-1), sidetone 512 600, sidetone 2048 8000, sidetone 2048 (-20000)] =
      [375, 0, 75, 4000, -10000] := by decide

/-- Section 7.4, "an 8 kHz clip with trim". -/
theorem test_placed_samples :
    [20000, -30000, 7].flatMap (placedSample 6144 2) = [30000, 30000, -32768, -32768, 11, 11] ∧
      [1001, -1001].flatMap (placedSample 2048 1) = [501, -500] := by decide

/-- Section 7.6, "the fade". -/
theorem test_fade :
    let out := rampFrame 4096 0 (List.replicate 64 10000)
    [out[0]?, out[31]?, out[62]?, out[63]?] = [some 9844, some 5000, some 156, some 0] := by decide

/-- Section 4.5, "one learning step": output 200, and w[3] moves from 16384 to 17203. -/
theorem test_learning_step :
    let set : EchoSettings :=
      { mode := .adapt, muConv := 64, muTrack := 32, bulkDelay := 0, delta := 1000000, talkCode := 16, hangover := 480 }
    let coeffs := [0, 0, 0, 16384] ++ List.replicate 124 0
    let l := echoSample set .converging
      { coeffs := coeffs, history := [0, 0, 1000] ++ List.replicate 380 0, hangover := 0, outRev := [], mic := 0, err := 0,
        power := 0 } 700 0
    l.outRev = [200] ∧ l.coeffs = [0, 0, 0, 17203] ++ List.replicate 124 0 ∧ l.hangover = 0 := by decide +kernel

/-- Section 4.7, "settling and slipping": frames a, c, d and e. -/
theorem test_echo_supervision :
    let a := supervise .converging 30 0 0 4000000 200000
    let c := supervise a.state a.good a.poor a.diverge 3000000 150000
    let d := supervise c.state c.good c.poor c.diverge 1000000 600000
    let e := supervise d.state d.good d.poor d.diverge 500000 1500000
    (a.state, a.good) = (.converging, 31) ∧ (c.state, c.good, c.event) = (.tracking, 0, .converged) ∧
      (d.poor, d.diverge) = (1, 0) ∧ (e.state, e.poor, e.diverge) = (.tracking, 2, 1) ∧
      [erleIndex true 4000000 200000, erleIndex true 3000000 150000, erleIndex true 1000000 600000] = [4, 4, 0] := by
  decide

/-- Section 5.7, "learning the background". -/
theorem test_noise_learning : [learnEstimate 1 0 900, learnEstimate 900 1 1100, learnEstimate 1000 2 700] = [900, 1000, 900] := by
  decide

/-- Section 5.7, "speech, hangover and tracking": frames n, o and p. -/
theorem test_noise_tracking : [trackEstimate 1000 800, trackEstimate 950 1500, trackEstimate 965 2000] = [950, 965, 981] := by
  decide

/-- Section 8.1, "a header checksum". -/
theorem test_store_checksum :
    let head := ([5668, 2, 5, 65535, 1, 0, 0, 0, 0, 0, 0, 0, 0, 0, 0, 0] : List Nat).flatMap byte2
    storeChecksum head (byte2 40000 ++ List.replicate 14 0) = 45675 := by decide

/-- Section 1.5, "a battery running down": the bands of position 6 over eight frame events. -/
theorem test_battery_bands :
    let start := up.modPos 6 (fun x => { x with state := .opened, present := true })
    let run (levels : List Nat) : State := levels.foldl (fun s l =>
      (s.modPos 6 (fun x => { x with batteryLevel := l })).runBattery 6) start
    ((run [22]).pos 6).band = .normal ∧ ((run [22, 20]).pos 6).band = .low ∧ ((run [22, 20, 21]).pos 6).band = .low ∧
      ((run [22, 20, 21, 23]).pos 6).band = .normal ∧ ((run [22, 20, 21, 23, 4]).pos 6).band = .critical ∧
      ((run [22, 20, 21, 23, 4, 7]).pos 6).band = .critical ∧ ((run [22, 20, 21, 23, 4, 7, 8]).pos 6).band = .low ∧
      ((run [22, 20, 21, 23, 4, 7, 8, 30]).pos 6).band = .normal ∧
      ((run [22, 20, 21, 23, 4, 7, 8, 30]).port .desk).reports.length = 2 ∧
      ((run [22, 20, 21, 23, 4, 7, 8, 30]).port .line).reports.length = 1 := by decide +kernel

/-! ### Ports and reports -/

/-- R185: after RSTN no report waits, and the store is scanning its header. -/
theorem test_release : (up.port .desk).reports = [] ∧ up.sfe.store = .scanning ∧ up.ftu.timing = .freeRun := by
  decide +kernel

/-- R185: asserting RSTN releases ATTN. -/
theorem test_assert : attn (after .rstnAssert (up.report .desk .resetDone)).rstn
    ((after .rstnAssert (up.report .desk .resetDone)).port .desk) = false := by decide +kernel

/-- Section 11.1: a CLOSE of position 2 with plan CLEAR, tag 9, is 02 09 02 02 01. -/
theorem test_write : ((after (.writeTransfer .desk [0x02, 9, 2, 2, 1]) up).port .desk).untaken =
    [{ kind := 2, tag := 9, length := 2, params := [2, 1] }] := by decide +kernel

/-- Section 11.1: on an empty queue a read returns the header that reads none ready. -/
theorem test_read : ((after (.readTransfer .line) up).port .line).readOut = [0, 0, 0, 2, 0, 0] := by decide +kernel

/-- Section 10.6, "a queue at its limit": an URGENT report at a full queue displaces the newest NORMAL one. -/
theorem test_full_queue :
    let full : PortState := { up.cpt.desk with
      reports := [{ body := .highwayLost, frame := 0 }] ++ List.replicate 31 { body := .resetDone, frame := 1 } }
    let x := placeReport full { body := .batteryCritical 9 4, frame := 2 }
    let y := placeReport full { body := .button 9 true, frame := 2 }
    x.reports.length = 32 ∧ x.overflow = true ∧ x.reports[1]? = some { body := .batteryCritical 9 4, frame := 2 } ∧
      y.reports = full.reports ∧ y.overflow = true := by decide +kernel

/-- R181: a max of 0 is taken as 1. -/
theorem test_takeReports :
    let s := done (.takeReports .desk) .desk .takeReports [0] ((up.report .desk .resetDone).report .desk .resetDone)
    (s.port .desk).reports.length = 1 ∧ answer s .desk = some .ok := by decide +kernel

/-- R182: period code 2 is 64 frames. -/
theorem test_subscribeMeters :
    ((done (.subscribeMeters .line) .line .subscribeMeters [3, 0, 2] up).port .line).counter = some 64 := by decide +kernel

/-- R184: every port is told RESET_DONE, and untaken requests are ABORTED. -/
theorem test_reset :
    let s := done (.reset .line) .line .reset [] (asking opened .desk .readStore [])
    ((s.port .desk).reports.map (fun r => r.body)) = [.resetDone] ∧ answer s .desk = some .aborted ∧
      (s.pos 2).state = .closed := by decide +kernel

/-- R32, R84: after RESET no talk frame is live, so a channel's context learns again only once bound anew. -/
theorem test_reset_talk :
    let heard : TalkFrame := { samples := List.replicate 64 7, live := true }
    let s := { talking with hwi := { talking.hwi with talk := talking.hwi.talk.set 1 heard } }
    (done (.reset .line) .line .reset [] s).hwi.talk[(1 : Fin 4)].live = false := by decide +kernel

/-! ### Positions and the highway -/

/-- R3: OPEN of a CLOSED position with a fresh start. -/
theorem test_openPosition :
    let s := done (.openPosition .desk) .desk .openPosition [2, 1] up
    (s.pos 2).state = .opened ∧ answerData s .desk = [0] ∧ s.ecu[(2 : Fin 16)].state = .converging := by decide +kernel

/-- R4: CLOSE of an OPEN position. -/
theorem test_close :
    let s := done (.closePosition .desk) .desk .close [2, 0] prompting
    (s.pos 2).state = .closing ∧ (s.pos 2).line = none ∧ s.vce[(1 : Fin 12)].drainedFor = some 2 ∧
      s.queue 2 .agent = [] := by decide +kernel

/-- R9: an ear gain above 8192 is taken as 8192. -/
theorem test_setDesk :
    ((done (.setDesk .desk) .desk .setDesk [2, 2, 0xFF, 0xFF] up).pos 2).earGain = 8192 := by decide +kernel

/-- R10: a critical value above the low value is taken as the low value. -/
theorem test_setBattery :
    let s := done (.setBattery .desk) .desk .setBattery [2, 10, 200] up
    answerData s .desk = [10, 10] := by decide +kernel

/-- R11: a change to no ends the session with REVOKED. -/
theorem test_setSupervision :
    let s := done (.setSupervision .line) .line .setSupervision [2, 0] whispering
    s.sst[(1 : Fin 4)].lastEnd = .revoked ∧
      (s.port .supervision).reports.map (fun r => r.body) = [.sessionEnded 1 2 .revoked] := by decide +kernel

/-- Section 12.1: SET_CALL TALK without a line binding is refused. -/
theorem test_setCall_unbound : answer (done (.setCall .line) .line .setCall [2, 1] opened) .line = some .badState := by
  decide +kernel

/-- Section 1.6, "a repeating reminder": the move into HOLD loads the counter. -/
theorem test_setCall_hold :
    let s := done (.setCall .line) .line .setCall [2, 2] (talking.modPos 2 (fun x => { x with reminderInterval := 7500 }))
    (s.pos 2).reminderCounter = 7500 ∧ (s.pos 2).reminderStatus = .running := by decide +kernel

/-- Section 1.6, "a repeating reminder": 30 seconds are 7,500 frames; 5 is taken as 10. -/
theorem test_setReminder :
    ((done (.setReminder .line) .line .setReminder [2, 30, 0, 1] talking).pos 2).reminderInterval = 7500 ∧
      ((done (.setReminder .line) .line .setReminder [2, 5, 0, 0] talking).pos 2).reminderInterval = 2500 := by
  decide +kernel

/-- R22: an acknowledgement in HOLD starts the count again. -/
theorem test_ackReminder :
    ((done (.ackReminder .desk) .desk .ackReminder [2] holding).pos 2).reminderStatus = .running := by decide +kernel

/-- Section 11.4: a position record begins with its state. -/
theorem test_readPosition : (answerData (done (.readPosition .line) .line .readPosition [2] opened) .line).head? = some 1 := by
  decide +kernel

/-- Section 12.1: BIND_LINE(2, 4, 4). -/
theorem test_bindLine :
    ((done (.bindLine .line) .line .bindLine [2, 4, 4] opened).pos 2).line = some { inSlot := 4, outSlot := 4 } := by
  decide +kernel

/-- R34: UNBIND_LINE in TALK makes the IDLE effects and releases the slots. -/
theorem test_unbindLine :
    let s := done (.unbindLine .line) .line .unbindLine [2] whispering
    (s.pos 2).line = none ∧ (s.pos 2).call = .idle ∧ s.sst[(1 : Fin 4)].lastEnd = .callEnded := by decide +kernel

/-- Section 12.2: SET_SUP_CHANNEL(3, 20, 20). -/
theorem test_setSupChannel :
    (done (.setSupChannel .line) .line .setSupChannel [3, 20, 20] up).hwi.channels[(3 : Fin 4)] =
      some { inSlot := 20, outSlot := 20 } := by decide +kernel

/-- R115: under a session the listening mix moves to the new slots from the next sample period; without one the new
out-slot carries zeros (R37). -/
theorem test_rebind_channel :
    let taken (s : State) : State := { s with
      ftu := { s.ftu with timing := .locked }
      hwi := { s.hwi with supOut := s.hwi.supOut.set 1 (some (List.replicate 64 7)) } }
    let rebound (s : State) := done (.setSupChannel .line) .line .setSupChannel [1, 22, 23] (taken s)
    ((rebound whispering).drive 9)[(23 : Fin 32)] = some 7 ∧ ((rebound whispering).drive 9)[(21 : Fin 32)] = none ∧
      ((rebound talking).drive 9)[(23 : Fin 32)] = some 0 := by decide +kernel

/-- R35, R115: a channel in SPEECH ducks the far party, and once rebound it does not, while READ_SESSION still shows the
flag of the last completed frame (R116). -/
theorem test_rebind_ducks_nothing :
    let heard : NoiseFrame := { samples := zeroFrame, speech := true, gain := 4096 }
    let s := { whispering.modNoise 17 (fun c => { c with state := .speech, out := heard }) with
      taken := { whispering.taken with noise := whispering.taken.noise.set 17 heard } }
    let t := done (.setSupChannel .line) .line .setSupChannel [1, 22, 23] s
    s.whisperer 2 = some 1 ∧ t.whisperer 2 = none ∧ t.taken.noise[(17 : Fin 20)].speech = true ∧
      t.nru.contexts[(17 : Fin 20)].out.speech = true := by decide +kernel

/-- R37: at a frame event in LOCKED sample 0 of the LINE mix of the frame event before is driven, and no free slot is. -/
theorem test_frame_event_drives :
    let s := { talking with
      ftu := { talking.ftu with timing := .locked, sampleIndex := 0 }
      taken := { talking.taken with line := talking.taken.line.set 2 (List.replicate 64 7) } }
    s.runHighwayOut.hwi.driven[(4 : Fin 32)] = some 7 ∧ s.runHighwayOut.hwi.driven[(3 : Fin 32)] = none := by
  decide +kernel

/-! ### Settings, sessions, voices, prompts -/

/-- R65: a mode change from ADAPT to OFF. -/
theorem test_setEc :
    let s := done (.setEc .desk) .desk .setEc [2, 1, 0] opened
    (s.pos 2).echo.mode = .off ∧ s.ecu[(2 : Fin 16)].state = .off := by decide +kernel

/-- Section 4.6, "a read across a change": the status of a later chunk under another generation. -/
theorem test_readCoeffs :
    let s := opened.modEcho 2 (fun c => { c with generation := 41201 })
    answer (done (.readCoeffs .supervision) .supervision .readCoeffs [2, 2, 0xF0, 0xA0] s) .supervision = some .changed ∧
      answer (done (.readCoeffs .supervision) .supervision .readCoeffs [2, 2, 0xF1, 0xA0] s) .supervision = some .ok := by
  decide +kernel

/-- R86: a floor above 4096 is taken as 4096. -/
theorem test_setNr : ((done (.setNr .desk) .desk .setNr [2, 2, 0, 0x20] opened).pos 2).noise.floor = 4096 := by
  decide +kernel

theorem test_setSupNr :
    (done (.setSupNr .supervision) .supervision .setSupNr [1, 1, 0] up).nru.supSettings[(1 : Fin 4)].enable = false := by
  decide +kernel

/-- Section 12.2: JOIN(1, 2, WHISPER, 4096, 2048, 8). -/
theorem test_join :
    let s := done (.join .supervision) .supervision .join [1, 2, 2, 7, 0x00, 0x10, 0x00, 0x08, 8, 0] talking
    s.sst[(1 : Fin 4)].mode = .whisper ∧ s.sst[(1 : Fin 4)].duckLevel = 2048 ∧ answer s .supervision = some .ok := by
  decide +kernel

/-- Section 12.2: CHANGE_MODE(1, BARGE). -/
theorem test_changeMode :
    (done (.changeMode .supervision) .supervision .changeMode [1, 3] whispering).sst[(1 : Fin 4)].mode = .barge := by
  decide +kernel

/-- Section 12.3: LEAVE makes no report. -/
theorem test_leave :
    let s := done (.leave .supervision) .supervision .leave [1] whispering
    s.sst[(1 : Fin 4)].lastEnd = .left ∧ (s.port .supervision).reports = [] := by decide +kernel

theorem test_readSession :
    answer (done (.readSession .supervision) .supervision .readSession [1] whispering) .supervision = some .ok := by
  decide +kernel

/-- Section 12.3: START_PROGRAM(0, [CLIP 50, LOOP target 0 count 0]). -/
theorem test_startProgram :
    let s := done (.startProgram .line) .line .startProgram [0, 2, 1, 0, 50, 0, 3, 0, 0, 0] up
    s.vce[(0 : Fin 12)].use = .program ∧ s.vce[(0 : Fin 12)].steps = [.clip 50, .loop 0 0] := by decide +kernel

theorem test_stopProgram :
    (done (.stopProgram .line) .line .stopProgram [3] programme).vce[(3 : Fin 12)].state = .draining := by decide +kernel

/-- Section 12.3: SET_HOLD_SOURCE(2, 3, 3000). -/
theorem test_setHoldSource :
    answerData (done (.setHoldSource .line) .line .setHoldSource [2, 3, 0xB8, 0x0B] programme) .line = [3, 0xB8, 0x0B] := by
  decide +kernel

theorem test_readVoice : answer (done (.readVoice .line) .line .readVoice [3] programme) .line = some .ok := by
  decide +kernel

/-- R144: RESCAN is refused while a programme plays. -/
theorem test_rescan : answer (done (.rescan .line) .line .rescan [] programme) .line = some .inUse := by decide +kernel

theorem test_readStore : (answerData (done (.readStore .desk) .desk .readStore [] stored) .desk).head? = some 1 := by
  decide +kernel

/-- R155: a prompt joins the tail, and is answered with its place and count. -/
theorem test_agentPrompt :
    answerData (done (.agentPrompt .desk) .desk .agentPrompt [2, 0, 1, 1, 0, 1, 0] prompting) .desk = [2, 3] := by
  decide +kernel

/-- R155: coaching needs supervision allowed. -/
theorem test_coachPrompt :
    answer (done (.coachPrompt .supervision) .supervision .coachPrompt [2, 0, 1, 1, 0, 1, 0] bound) .supervision =
      some .notPermitted := by decide +kernel

/-- Section 12.3: ANNOUNCE is answered place 0, count 1. -/
theorem test_announce :
    answerData (done (.announce .line) .line .announce [2, 1, 1, 0, 30, 0] holding) .line = [0, 1] := by decide +kernel

/-- R164: both entries are removed, the playing one's voice drains. -/
theorem test_clearAgentPrompts :
    let s := done (.clearAgentPrompts .desk) .desk .clearAgentPrompts [2] prompting
    answerData s .desk = [2] ∧ s.vce[(1 : Fin 12)].state = .draining ∧ (s.port .supervision).reports.length = 1 := by
  decide +kernel

theorem test_clearAnnounce :
    answerData (done (.clearAnnounce .line) .line .clearAnnounce [2] prompting) .line = [0] := by decide +kernel

/-! ### Time -/

/-- R26: index 63 ends a frame. -/
theorem test_samplePeriod :
    let s := { up with ftu := { up.ftu with sampleIndex := 63 } }
    (after (.samplePeriod (List.replicate 32 0)) s).ftu.frameDue = true := by decide +kernel

/-- R26: the frame count rises by 1 (the work that stands is held back here). -/
theorem test_frameEvent :
    let s := { up with ftu := { up.ftu with sampleIndex := 63, frameDue := true, frameCount := 40000 } }
    (after (.frameEvent [] allWork) s).ftu.frameCount = 40001 := by decide +kernel

/-- Section 2.1, "losing and regaining the highway": a sync 10 µs after the last restarts the count. -/
theorem test_highwaySync :
    let s := { up with ftu := { up.ftu with timing := .locking, goodSync := 30, lastSync := 1000000 } }
    (after (.highwaySync 1010000) s).ftu.goodSync = 0 ∧ (after (.highwaySync 1062500) s).ftu.goodSync = 31 := by
  decide +kernel

/-- R30: from LOCKING, without a report. -/
theorem test_syncGapTimeout :
    let s := { up with ftu := { up.ftu with timing := .locking, goodSync := 30 } }
    let t := after (.syncGapTimeout (List.replicate 32 0) []) s
    t.ftu.timing = .freeRun ∧ t.ftu.goodSync = 0 ∧ (t.port .line).reports = [] := by decide +kernel

/-- R38: 65 words set the arrival flag. -/
theorem test_headsetFrameArrival :
    (after (.headsetFrameArrival 2 (List.replicate 65 7) true) up).hli[(2 : Fin 16)].arrived = true ∧
      (after (.headsetFrameArrival 2 (List.replicate 64 7) true) up).hli[(2 : Fin 16)].arrived = false := by
  decide +kernel

/-- R16: the eighth differing frame. -/
theorem test_presenceChange :
    let s := ({ up with work := [.presence 2] }).modHeadset 2 (fun h => { h with handed := some 1 })
    ((after (.presenceChange 2) (s.modPos 2 (fun x => { x with presenceRun := 7 }))).pos 2).present = true ∧
      ((after (.presenceChange 2) (s.modPos 2 (fun x => { x with presenceRun := 6 }))).pos 2).present = false := by
  decide +kernel

/-- Section 1.6, "a repeating reminder": the expiry reloads the counter. -/
theorem test_reminderExpiry :
    let s := ({ holding with work := [.reminder 2] }).modPos 2 (fun x =>
      { x with reminderInterval := 7500, reminderCounter := 1, reminderStatus := .running, reminderRepeat := true })
    ((after (.reminderExpiry 2) s).pos 2).reminderCounter = 7500 ∧
      ((after (.reminderExpiry 2) s).port .desk).reports.length = 1 := by decide +kernel

/-- Section 12.4: the close waits while a voice drains for the position. -/
theorem test_closeCompletion :
    let s := { closing with work := [.close 2] }
    let waits := s.modVoice 1 (fun v => { v with state := .draining, drainedFor := some 2 })
    ((after (.closeCompletion 2) waits).pos 2).state = .closing ∧ ((after (.closeCompletion 2) s).pos 2).state = .closed ∧
      ((after (.closeCompletion 2) s).pos 2).retained = true := by decide +kernel

/-- R93: the 2,500th speech frame in a row restarts learning. -/
theorem test_nrSpeechRunRestart :
    let s := ({ opened with work := [.noise 2] }).modNoise 2 (fun c =>
      { c with state := .speech, speechRun := 2499, estimate := 1 })
    let heard : EchoFrame := { samples := List.replicate 64 100, live := true, state := .tracking }
    let t := { s with taken := { s.taken with echo := s.taken.echo.set 2 heard } }
    (after (.nrSpeechRunRestart 2) t).nru.contexts[(2 : Fin 20)].state = .learn := by decide +kernel

/-- R90: the sixteenth live frame. -/
theorem test_nrLearnComplete :
    let s := ({ opened with work := [.noise 2] }).modNoise 2 (fun c => { c with learned := 15 })
    let heard : EchoFrame := { samples := List.replicate 64 0, live := true, state := .tracking }
    let t := { s with taken := { s.taken with echo := s.taken.echo.set 2 heard } }
    (after (.nrLearnComplete 2) t).nru.contexts[(2 : Fin 20)].state = .pause := by decide +kernel

/-- R61: windows close at a multiple of 16. -/
theorem test_meterWindowClose :
    let s := { up with
      work := [.meterClose], ftu := { up.ftu with frameCount := 32 }
      mxe := { up.mxe with earClips := up.mxe.earClips.set 2 9 } }
    (after .meterWindowClose s).mxe.earClips[(2 : Fin 16)] = 0 := by decide +kernel

/-- R183: one METER report for the one OPEN position of the mask. -/
theorem test_meterPeriodExpiry :
    let s := ({ opened with work := [.meterPeriod .desk] }).modPort .desk (fun ps =>
      { ps with mask := 0xFFFF, period := .p16, counter := some 1 })
    let t := after (.meterPeriodExpiry .desk) s
    (t.port .desk).reports.length = 1 ∧ (t.port .desk).counter = some 16 := by decide +kernel

/-! ### The store and the voices -/

/-- R122: 128 buffered samples start a voice. -/
theorem test_voiceStartPlaying :
    let s := ({ up with work := [.voice 1] }).modVoice 1 (fun v =>
      { v.start .program [.clip 0] with buffer := List.replicate 128 5 })
    let t := after (.voiceStartPlaying 1) s
    t.vce[(1 : Fin 12)].state = .playing ∧ t.vce[(1 : Fin 12)].buffer.length = 64 := by decide +kernel

/-- R127: at 128 buffered samples the voice asks. -/
theorem test_refillRequest :
    let s := ({ stored with work := [.voice 1] }).modVoice 1 (fun v =>
      { v.start .program [.clip 0] with
        state := .playing, entered := true, clip := some { offset := 128, remaining := 72 }
        buffer := List.replicate 192 5 })
    (after (.refillRequest 1) s).vce[(1 : Fin 12)].refill = true := by decide +kernel

/-- Section 8.5, "arbitration under load": an AGENT prompt goes before a LINE prompt and a programme. -/
theorem test_fetchGrant :
    let ask (s : State) (v : Fin 12) (use : VoiceUse) : State := s.modVoice v (fun x =>
      { x.start use [.clip 0] with
        state := .playing, entered := true, refill := true, clip := some { offset := 0, remaining := 200 } })
    let s := ask (ask (ask (ask stored 2 .program) 5 (.prompt 4 .line)) 7 (.prompt 6 .agent)) 9 (.prompt 8 .agent)
    (after .fetchGrant s).sfe.fetch = some { voice := 7, address := 1000, count := 128, expand := 1, trim := 4096 } := by
  decide +kernel

/-- R128, R149: the samples join the buffer and the timeout count restarts. -/
theorem test_fetchCompletion :
    let s := { stored with sfe := { stored.sfe with
      timeouts := 3, fetch := some { voice := 1, address := 2000, count := 3, expand := 2, trim := 6144 } } }
    let t := after (.fetchCompletion [20000, BitVec.ofInt 16 (-30000), 7]) (s.modVoice 1 (fun v => v.start .program [.clip 1]))
    t.vce[(1 : Fin 12)].buffer = [30000, 30000, -32768, -32768, 11, 11] ∧ t.sfe.timeouts = 0 ∧ t.sfe.fetch = none := by
  decide +kernel

/-- Section 8.5, "timeouts that fail the store": the fourth timeout in a row. -/
theorem test_fetchTimeout :
    let s := { stored with sfe := { stored.sfe with
      timeouts := 3, fetch := some { voice := 4, address := 2000, count := 3, expand := 1, trim := 4096 } } }
    (after .fetchTimeout s).sfe.store = .unavailable ∧ ((after .fetchTimeout s).port .desk).reports.length = 1 := by
  decide +kernel

/-- R140: a header with another format word fails the scan. -/
theorem test_scanReadDone :
    (after (.scanReadDone (List.replicate 32 0)) up).sfe.store = .unavailable ∧
      (after (.scanReadDone ([0x24, 0x16, 2, 0] ++ List.replicate 28 0)) up).sfe.store = .scanning := by decide +kernel

theorem test_scanReadTimeout : (after .scanReadTimeout up).sfe.lastFailure = .scan := by decide +kernel

/-- R133: with no fetch in flight the voice becomes FREE at its fade. -/
theorem test_drainFade :
    let s := ({ programme with work := [.voice 3] }).modVoice 3 (fun v => v.drain none)
    (after (.drainFade 3) s).vce[(3 : Fin 12)].state = .free := by decide +kernel

/-- R162: the entry leaves and PROMPT_DONE goes to the Desk port. -/
theorem test_promptCompletion :
    let s := ({ prompting with work := [.voice 1] }).modVoice 1 (fun v =>
      { v with endFetched := true, current := none, buffer := [1, 2] })
    let t := after (.promptCompletion 1) s
    (t.queue 2 .agent).length = 1 ∧ (t.port .desk).reports.length = 1 ∧ t.vce[(1 : Fin 12)].state = .free := by
  decide +kernel

/-- R43, R49, R131: the tail of a completed prompt is heard under the ramp-out of a role that names no voice; once the
same voice is granted to the next entry of the same queue, that entry's first frame is zeros. -/
theorem test_regranted_voice_starts_with_zeros :
    let tail : VoiceFrame := { samples := List.replicate 64 9000, use := .prompt 2 .agent }
    let heard : EarTerms := { EarTerms.absent with agentPrompt := { gain := 4096, source := some (.voice 0) } }
    let left (rest : List Entry) : State := { talking.setQueue 2 .agent rest with
      taken := { talking.taken with voice := talking.taken.voice.set 0 tail }
      mxe := { talking.mxe with earTerms := talking.mxe.earTerms.set 2 heard } }
    let granted := after .voicePoolGrant (left [entry .desk 7 none])
    (left []).runMix.mxe.ear[(2 : Fin 16)].head? = some 8859 ∧
      granted.headVoice 2 .agent = some 0 ∧
      granted.runMix.mxe.ear[(2 : Fin 16)] = zeroFrame := by decide +kernel

/-- Section 9.6, "grants in turn": from pointer 4 the visit finds position 6 first. -/
theorem test_voicePoolGrant :
    let s := ((up.setQueue 2 .agent [entry .desk 11 none]).setQueue 4 .line [entry .line 40 none]).setQueue 6 .agent
      [entry .desk 60 none]
    let t := after .voicePoolGrant { s with pqc := { s.pqc with pointer := 4 } }
    t.pqc.pointer = 6 ∧ t.vce[(0 : Fin 12)].use = .prompt 6 .agent := by decide +kernel

/-! ### A state and operands that meet the hypotheses of each statement, clause by clause -/

theorem witness_StepTakesFrontCommand :
    up.pending = [] ∧
      up.rstn = false := by
  and_intros <;> decide +kernel

theorem witness_ReleaseSetsPositionRecords :
    (after .rstnAssert talking).rstn = true := by
  decide +kernel

theorem witness_ReleaseSetsOtherBlocks :
    (after .rstnAssert programme).rstn = true := by
  decide +kernel

theorem witness_AssertedResetHoldsThePart :
    (after .rstnAssert talking).rstn = true ∧
      Instr.fetchGrant ≠ .rstnAssert ∧
      Instr.fetchGrant ≠ .rstnRelease ∧
      (∀ port bytes, Instr.fetchGrant ≠ .writeTransfer port bytes) ∧
      (∀ port, Instr.fetchGrant ≠ .readTransfer port) := by
  exact ⟨by decide +kernel, nofun, nofun, nofun, nofun⟩

theorem witness_WriteTransferIsMarked :
    let three := asking up .desk .readStore []
    let s := three.modPort .desk (fun ps => { ps with untaken := List.replicate 3 (req .readStore []) })
    let t := three.modPort .desk (fun ps => { ps with untaken := List.replicate 4 (req .readStore []) })
    s.rstn = false ∧
      ([1, 2] : List Byte).length < 3 ∧
      (s.port .desk).held = 3 ∧
      t.rstn = false ∧
      (t.port .desk).held = 4 := by
  intros
  and_intros <;> decide +kernel

theorem witness_ReadTransferReturnsHead :
    let s := done (.readStore .desk) .desk .readStore [] up
    let t := up.modPort .desk (fun ps => { ps with untaken := List.replicate 4 (req .readStore []) })
    s.rstn = false ∧
      (s.port .desk).responses.length = 1 ∧
      (up.port .desk).responses = [] ∧
      4 ≤ (t.port .desk).held ∧
      t.rstn = false := by
  intros
  and_intros <;> decide +kernel

theorem witness_CommonChecksRefuse :
    let unknown : Request := { kind := 0x77, tag := 1, length := 0, params := [] }
    let long : Request := { kind := 0x31, tag := 1, length := 0, params := [5] }
    let s := up.modPort .desk (fun ps => { ps with untaken := [unknown] })
    let t := asking up .desk .reset []
    let u := up.modPort .desk (fun ps => { ps with untaken := [long] })
    let few := req .setDesk [15, 0x40]
    let range := req .setDesk [16, 0]
    let value := req .setDesk [15, 1, 2]
    requestRow (.readStore .desk) = some (.desk, .readStore) ∧
      s.offers .desk unknown [] ∧
      kindOf unknown.kind = none ∧
      requestRow (.reset .desk) = some (.desk, .reset) ∧
      t.offers .desk (req .reset []) [] ∧
      Kind.reset.allows .desk = false ∧
      u.offers .desk long [] ∧
      long.kind = Kind.readStore.code ∧
      Kind.readStore.allows .desk = true ∧
      long.params.length ≠ long.length.toNat ∧
      Kind.setDesk.allows .desk = true ∧
      few.whole .setDesk ∧
      Kind.setDesk.layout.fits few.params = false ∧
      range.whole .setDesk ∧
      Kind.setDesk.layout.fits range.params = true ∧
      Kind.setDesk.inRange range.params = false ∧
      value.whole .setDesk ∧
      Kind.setDesk.layout.fits value.params = true ∧
      Kind.setDesk.inRange value.params = true ∧
      Kind.setDesk.valuesNamed value.params = false := by
  intros
  and_intros <;> decide +kernel

theorem witness_RequestsAreAnsweredOnce :
    let s := asking up .desk .readStore []
    requestRow (.readStore .desk) = some (.desk, .readStore) ∧
      s.offers .desk (req .readStore []) [] ∧
      Kind.readStore.takes (req .readStore []) = true ∧
      (up.port .desk).untaken = [] ∧
      requestRow (.reset .desk) = some (.desk, .reset) ∧
      (s.port .desk).untaken = [req .readStore []] ∧
      kindOf (req .readStore []).kind = some .readStore ∧
      Kind.readStore ≠ .reset := by
  intros
  and_intros <;> decide +kernel

theorem witness_ClosingPositionRequests :
    let s := asking closing .desk .setDesk [2, 0]
    let t := asking closing .desk .close [2, 1]
    let u := asking up .desk .close [2, 1]
    requestRow (.setDesk .desk) = some (.desk, .setDesk) ∧
      s.asks .desk .setDesk (req .setDesk [2, 0]) [] ∧
      Kind.setDesk.named (req .setDesk [2, 0]).params = some 2 ∧
      (s.pos 2).state = .closing ∧
      t.asks .desk .close (req .close [2, 1]) [] ∧
      closeArgs (req .close [2, 1]).params = .ok (2, .clear) ∧
      (t.pos 2).state = .closing ∧
      u.asks .desk .close (req .close [2, 1]) [] ∧
      (u.pos 2).state = .closed := by
  intros
  and_intros <;> decide +kernel

theorem witness_ParametersInTableOrder :
    List.Forall₂ (fun (size : Nat) (field : Option (List Byte)) => ∀ bytes, field = some bytes → bytes.length = size)
      [1, 2] [none, some [3, 4]] :=
  .cons nofun (.cons (by rintro _ ⟨⟩; rfl) .nil)

theorem witness_OpenStartsPosition :
    let s := asking up .desk .openPosition [2, 0]
    let t := asking opened .desk .openPosition [2, 0]
    let r := req .openPosition [2, 0]
    s.asks .desk .openPosition r [] ∧
      t.asks .desk .openPosition r [] ∧
      openArgs r.params = .ok (2, false) ∧
      (s.pos 2).state = .closed ∧
      (t.pos 2).state ≠ .closed := by
  intros
  and_intros <;> decide +kernel

theorem witness_CloseDisconnectsPosition :
    let s := asking prompting .desk .close [2, 0]
    let r := req .close [2, 0]
    s.asks .desk .close r [] ∧
      closeArgs r.params = .ok (2, .keep) ∧
      (s.pos 2).state = .opened ∧
      s.heldBy 2 .agent 1 = true := by
  intros
  and_intros <;> decide +kernel

theorem witness_SetDeskWritesSettings :
    let s := asking (opened.modPos 2 (fun x => { x with mute := true })) .desk .setDesk [2, 1, 0]
    let r := req .setDesk [2, 1, 0]
    let f : DeskFields := { mute := some false, earGain := none, sidetone := none, promptGain := none, announceGain := none, buttonMute := none }
    s.asks .desk .setDesk r [] ∧
      deskArgs r.params = .ok (2, f) ∧
      (s.pos 2).state ≠ .closing ∧
      (s.pos 2).mute = true := by
  intros
  and_intros <;> first | decide +kernel | rfl

theorem witness_SetBatteryClampsThresholds :
    let r := req .setBattery [2, 0, 101]
    let s := asking up .desk .setBattery [2, 0, 101]
    let t := asking closing .desk .setBattery [2, 0, 101]
    let u := asking up .line .setBattery [2, 0, 101]
    r.whole .setBattery ∧
      batteryArgs r.params = .ok (2, 0, 101) ∧
      s.offers .desk r [] ∧
      (s.pos 2).state ≠ .closing ∧
      t.offers .desk r [] ∧
      (t.pos 2).state = .closing ∧
      u.offers .line r [] ∧
      Port.line ≠ .desk := by
  intros
  and_intros <;> decide +kernel

theorem witness_SetSupervisionRevokes :
    let r := req .setSupervision [2, 0]
    let s := asking whispering .line .setSupervision [2, 0]
    let t := asking opened .line .setSupervision [2, 0]
    s.asks .line .setSupervision r [] ∧
      supervisionArgs r.params = .ok (2, false) ∧
      (s.pos 2).state ≠ .closing ∧
      (s.pos 2).supervisionAllowed = true ∧
      s.sessionOn 2 1 = true ∧
      t.asks .line .setSupervision r [] ∧
      (t.pos 2).state ≠ .closing ∧
      (t.pos 2).supervisionAllowed = false := by
  intros
  and_intros <;> decide +kernel

theorem witness_SetCallMoves :
    let r1 := req .setCall [2, 1]
    let r2 := req .setCall [2, 2]
    let s := asking opened .line .setCall [2, 1]
    let t := asking bound .line .setCall [2, 1]
    let u := asking bound .line .setCall [2, 2]
    let v := asking talking .line .setCall [2, 2]
    let x := asking (talking.modPos 2 (fun x => { x with holdSource := some 3 })) .line .setCall [2, 2]
    let y := asking holding .line .setCall [2, 1]
    callArgs r1.params = .ok (2, .talk) ∧
      callArgs r2.params = .ok (2, .hold) ∧
      s.asks .line .setCall r1 [] ∧
      (s.pos 2).line = none ∧
      t.asks .line .setCall r1 [] ∧
      (t.pos 2).state = .opened ∧
      (t.pos 2).line.isSome = true ∧
      (t.pos 2).call = .idle ∧
      u.asks .line .setCall r2 [] ∧
      (u.pos 2).state = .opened ∧
      (u.pos 2).line.isSome = true ∧
      (u.pos 2).call = .idle ∧
      v.asks .line .setCall r2 [] ∧
      (v.pos 2).state = .opened ∧
      (v.pos 2).line.isSome = true ∧
      (v.pos 2).call = .talk ∧
      (v.pos 2).holdSource = none ∧
      x.asks .line .setCall r2 [] ∧
      (x.pos 2).call = .talk ∧
      (x.pos 2).holdSource = some 3 ∧
      x.vce[(3 : Fin 12)].use ≠ .program ∧
      y.asks .line .setCall r1 [] ∧
      (y.pos 2).line.isSome = true ∧
      (y.pos 2).call = .hold := by
  intros
  and_intros <;> decide +kernel

theorem witness_CallEndsWithIdleEffects :
    let s := asking whispering .line .setCall [2, 0]
    let t := asking whispering .line .unbindLine [2]
    s.asks .line .setCall (req .setCall [2, 0]) [] ∧
      callArgs (req .setCall [2, 0]).params = .ok (2, .idle) ∧
      t.asks .line .unbindLine (req .unbindLine [2]) [] ∧
      positionArg (req .unbindLine [2]).params = .ok 2 ∧
      (s.pos 2).state = .opened ∧
      (s.pos 2).line.isSome = true ∧
      (s.pos 2).call ≠ .idle ∧
      (t.pos 2).state = .opened ∧
      (t.pos 2).line.isSome = true ∧
      (t.pos 2).call ≠ .idle := by
  intros
  and_intros <;> decide +kernel

theorem witness_ReminderRequests :
    let s := asking holding .line .setReminder [2, 30, 0, 1]
    let t := asking holding .desk .ackReminder [2]
    let u := asking talking .desk .ackReminder [2]
    s.asks .line .setReminder (req .setReminder [2, 30, 0, 1]) [] ∧
      reminderArgs (req .setReminder [2, 30, 0, 1]).params = .ok (2, 30, true) ∧
      (s.pos 2).state ≠ .closing ∧
      t.asks .desk .ackReminder (req .ackReminder [2]) [] ∧
      positionArg (req .ackReminder [2]).params = .ok 2 ∧
      (t.pos 2).state = .opened ∧
      (t.pos 2).call = .hold ∧
      (t.pos 2).reminderInterval ≠ 0 ∧
      u.asks .desk .ackReminder (req .ackReminder [2]) [] ∧
      (u.pos 2).call ≠ .hold := by
  intros
  and_intros <;> decide +kernel

theorem witness_ReadsChangeNothing :
    (asking talking .desk .readPosition [15]).asks .desk .readPosition (req .readPosition [15]) [] ∧
      positionArg (req .readPosition [15]).params = .ok 15 ∧
      (asking whispering .supervision .readSession [3]).asks .supervision .readSession (req .readSession [3]) [] ∧
      channelArg (req .readSession [3]).params = .ok 3 ∧
      (asking programme .line .readVoice [11]).asks .line .readVoice (req .readVoice [11]) [] ∧
      voiceArg (req .readVoice [11]).params = .ok 11 ∧
      (asking stored .line .readStore []).asks .line .readStore (req .readStore []) [] ∧
      (req .readStore []).params = [] := by
  and_intros <;> decide +kernel

theorem witness_LineBindings :
    let r := req .bindLine [2, 0, 31]
    let q := req .bindLine [2, 32, 31]
    let b : SlotPair := { inSlot := 0, outSlot := 31 }
    let s := asking up .line .bindLine [2, 0, 31]
    let t := asking opened .line .bindLine [2, 32, 31]
    let u := asking opened .line .bindLine [2, 0, 31]
    let other := opened.modPos 5 (fun x => { x with state := .opened, line := some { inSlot := 7, outSlot := 31 } })
    let v := asking other .line .bindLine [2, 0, 31]
    let x := asking bound .line .unbindLine [2]
    let y := asking opened .line .unbindLine [2]
    bindArgs r.params = .ok (2, 0, 31) ∧
      bindArgs q.params = .ok (2, 32, 31) ∧
      s.asks .line .bindLine r [] ∧
      (s.pos 2).state ≠ .opened ∧
      t.asks .line .bindLine q [] ∧
      (t.pos 2).state = .opened ∧
      (t.pos 2).call = .idle ∧
      u.asks .line .bindLine r [] ∧
      (u.pos 2).state = .opened ∧
      (u.pos 2).call = .idle ∧
      b.inSlot.val = 0 ∧
      b.outSlot.val = 31 ∧
      (∀ p : Fin 16, u.binding (.position p) = none) ∧
      (∀ c : Fin 4, u.binding (.channel c) = none) ∧
      v.asks .line .bindLine r [] ∧
      v.binding (.position 5) = some { inSlot := 7, outSlot := 31 } ∧
      Endpoint.position 5 ≠ .position 2 ∧
      x.asks .line .unbindLine (req .unbindLine [2]) [] ∧
      positionArg (req .unbindLine [2]).params = .ok 2 ∧
      (x.pos 2).line.isSome = true ∧
      (x.pos 2).call = .idle ∧
      y.asks .line .unbindLine (req .unbindLine [2]) [] ∧
      (y.pos 2).line = none := by
  intros
  and_intros <;> decide +kernel

theorem witness_ChannelBindings :
    let r := req .setSupChannel [1, 0, 31]
    let q := req .setSupChannel [1]
    let s := asking up .line .setSupChannel [1, 0, 31]
    let t := asking up .line .setSupChannel [1]
    let u := asking talking .line .setSupChannel [1]
    let v := asking whispering .line .setSupChannel [1]
    let w := asking whispering .line .setSupChannel [1, 0, 31]
    w.asks .line .setSupChannel r [] ∧
      w.hwi.channels[(1 : Fin 4)] ≠ none ∧
      w.sst[(1 : Fin 4)].mode ≠ .idle ∧
      (∀ p : Fin 16, ∀ x, w.binding (.position p) = some x → x = { inSlot := 3, outSlot := 4 }) ∧
      (∀ c : Fin 4, c ≠ 1 → w.binding (.channel c) = none) ∧
    s.asks .line .setSupChannel r [] ∧
      supChannelArgs r.params = .ok (1, some (0, 31)) ∧
      (∀ p : Fin 16, s.binding (.position p) = none) ∧
      (∀ c : Fin 4, s.binding (.channel c) = none) ∧
      t.asks .line .setSupChannel q [] ∧
      supChannelArgs q.params = .ok (1, none) ∧
      t.hwi.channels[(1 : Fin 4)] = none ∧
      u.asks .line .setSupChannel q [] ∧
      u.hwi.channels[(1 : Fin 4)] ≠ none ∧
      u.sst[(1 : Fin 4)].mode = .idle ∧
      v.asks .line .setSupChannel q [] ∧
      v.hwi.channels[(1 : Fin 4)] ≠ none ∧
      v.sst[(1 : Fin 4)].mode ≠ .idle ∧
      v.sst[(1 : Fin 4)].target = some 2 ∧
      (asking up .line .setSupChannel [1, 32, 31]).asks .line .setSupChannel (req .setSupChannel [1, 32, 31]) [] ∧
      supChannelArgs (req .setSupChannel [1, 32, 31]).params = .ok (1, some (32, 31)) ∧
      (asking talking .line .setSupChannel [0, 3, 31]).asks .line .setSupChannel (req .setSupChannel [0, 3, 31]) [] ∧
      supChannelArgs (req .setSupChannel [0, 3, 31]).params = .ok (0, some (3, 31)) ∧
      (asking talking .line .setSupChannel [0, 3, 31]).binding (.position 2) = some { inSlot := 3, outSlot := 4 } := by
  intros
  and_intros <;> decide +kernel

theorem witness_SetEcWritesAndActs :
    let r := req .setEc [2, 8, 44, 1]
    let s := asking opened .desk .setEc [2, 8, 44, 1]
    let t := asking up .desk .setEc [2, 8, 44, 1]
    let f : EchoFields := { mode := none, muConv := none, muTrack := none, bulkDelay := some 300, delta := none, talkCode := none, hangover := none }
    s.asks .desk .setEc r [] ∧
      echoArgs r.params = .ok (2, f) ∧
      (s.pos 2).state = .opened ∧
      t.asks .desk .setEc r [] ∧
      (t.pos 2).state = .closed := by
  intros
  and_intros <;> first | decide +kernel | rfl

theorem witness_ReadCoeffsShowsGeneration :
    let s := asking opened .desk .readCoeffs [2, 0, 9, 0]
    let t := asking opened .desk .readCoeffs [2, 3, 9, 0]
    let u := asking opened .desk .readCoeffs [2, 4, 0, 0]
    s.asks .desk .readCoeffs (req .readCoeffs [2, 0, 9, 0]) [] ∧
      coeffArgs (req .readCoeffs [2, 0, 9, 0]).params = .ok (2, 0, 9) ∧
      t.asks .desk .readCoeffs (req .readCoeffs [2, 3, 9, 0]) [] ∧
      coeffArgs (req .readCoeffs [2, 3, 9, 0]).params = .ok (2, 3, 9) ∧
      t.ecu[(2 : Fin 16)].generation.toNat ≠ 9 ∧
      u.asks .desk .readCoeffs (req .readCoeffs [2, 4, 0, 0]) [] ∧
      coeffArgs (req .readCoeffs [2, 4, 0, 0]).params = .ok (2, 4, 0) := by
  intros
  and_intros <;> decide +kernel

theorem witness_NoiseSettingsWritten :
    let s := asking opened .desk .setNr [2, 2, 1, 16]
    let t := asking up .supervision .setSupNr [3, 1, 0]
    s.asks .desk .setNr (req .setNr [2, 2, 1, 16]) [] ∧
      nrArgs (req .setNr [2, 2, 1, 16]).params = .ok (2, none, some 4097) ∧
      (s.pos 2).state ≠ .closing ∧
      t.asks .supervision .setSupNr (req .setSupNr [3, 1, 0]) [] ∧
      supNrArgs (req .setSupNr [3, 1, 0]).params = .ok (3, some false, none) := by
  intros
  and_intros <;> decide +kernel

theorem witness_JoinChecksInOrder :
    let r := req .join [1, 2, 2, 0]
    let f : JoinFields := { channel := 1, position := 2, mode := .whisper, talkGain := 4096, duckLevel := 1024, release := 50 }
    let j := fun (s : State) => asking s .supervision .join [1, 2, 2, 0]
    let other := talking.modSession 0 (fun x => { x with mode := .listen, target := some 2 })
    let two := other.modSession 3 (fun x => { x with mode := .listen, target := some 2 })
    let talker := talking.modSession 0 (fun x => { x with mode := .barge, target := some 2 })
    SupMode.whisper ≠ .idle ∧
      joinArgs r.params = .ok f ∧
      (j up).asks .supervision .join r [] ∧
      (j up).hwi.channels[(1 : Fin 4)] = none ∧
      (j whispering).asks .supervision .join r [] ∧
      (j whispering).hwi.channels[(1 : Fin 4)] ≠ none ∧
      (j whispering).sst[(1 : Fin 4)].mode ≠ .idle ∧
      ((j talking).pos 2).call = .talk ∧
      (j talking).asks .supervision .join r [] ∧
      (j talking).hwi.channels[(1 : Fin 4)] ≠ none ∧
      (j talking).sst[(1 : Fin 4)].mode = .idle ∧
      ((j talking).pos 2).supervisionAllowed = true ∧
      (j talking).sessionCount 2 = 0 ∧
      (j other).sessionCount 2 = 1 ∧
      (∀ k, (j other).talkingOn 2 k = false) ∧
      2 ≤ (j two).sessionCount 2 ∧
      (j talker).sessionCount 2 = 1 ∧
      (j talker).talkingOn 2 0 = true ∧
      ((j (talking.modPos 2 (fun x => { x with call := .idle }))).pos 2).call = .idle ∧
      ((j (talking.modPos 2 (fun x => { x with supervisionAllowed := false }))).pos 2).supervisionAllowed = false := by
  intros
  and_intros <;> first | decide +kernel | rfl

theorem witness_SessionModeAndLeave :
    let s := asking whispering .supervision .changeMode [1, 3]
    let t := asking talking .supervision .changeMode [1, 3]
    let both := (whispering.modSession 1 (fun x => { x with mode := .listen })).modSession 0 (fun x => { x with mode := .barge, target := some 2 })
    let u := asking both .supervision .changeMode [1, 3]
    let v := asking whispering .supervision .leave [1]
    let x := asking talking .supervision .leave [1]
    s.asks .supervision .changeMode (req .changeMode [1, 3]) [] ∧
      changeModeArgs (req .changeMode [1, 3]).params = .ok (1, .barge) ∧
      s.sst[(1 : Fin 4)].mode ≠ .idle ∧
      t.asks .supervision .changeMode (req .changeMode [1, 3]) [] ∧
      t.sst[(1 : Fin 4)].mode = .idle ∧
      u.asks .supervision .changeMode (req .changeMode [1, 3]) [] ∧
      u.sst[(1 : Fin 4)].mode ≠ .idle ∧
      u.sst[(1 : Fin 4)].target = some 2 ∧
      u.talkingOn 2 0 = true ∧
      v.asks .supervision .leave (req .leave [1]) [] ∧
      channelArg (req .leave [1]).params = .ok 1 ∧
      v.sst[(1 : Fin 4)].mode ≠ .idle ∧
      x.asks .supervision .leave (req .leave [1]) [] ∧
      x.sst[(1 : Fin 4)].mode = .idle := by
  intros
  and_intros <;> decide +kernel

theorem witness_ProgramsStartAndStop :
    let r := req .startProgram [3, 1, 1, 0, 0, 0]
    let s := asking up .line .startProgram [3, 1, 1, 0, 0, 0]
    let t := asking programme .line .startProgram [3, 1, 1, 0, 0, 0]
    let u := asking programme .line .stopProgram [3]
    let named := programme.modPos 2 (fun x => { x with call := .hold, holdSource := some 3 })
    let v := asking named .line .stopProgram [3]
    let x := asking up .line .stopProgram [3]
    startArgs r.params = .ok (3, [.clip 0]) ∧
      s.asks .line .startProgram r [] ∧
      s.vce[(3 : Fin 12)].state = .free ∧
      t.asks .line .startProgram r [] ∧
      t.vce[(3 : Fin 12)].state ≠ .free ∧
      u.asks .line .stopProgram (req .stopProgram [3]) [] ∧
      voiceArg (req .stopProgram [3]).params = .ok 3 ∧
      (∀ p : Fin 16, (u.pos p).holdSource ≠ some 3) ∧
      u.vce[(3 : Fin 12)].use = .program ∧
      u.vce[(3 : Fin 12)].state = .playing ∧
      v.asks .line .stopProgram (req .stopProgram [3]) [] ∧
      (v.pos 2).call = .hold ∧
      (v.pos 2).holdSource = some 3 ∧
      x.asks .line .stopProgram (req .stopProgram [3]) [] ∧
      x.vce[(3 : Fin 12)].use ≠ .program ∧
      (∀ p : Fin 16, (x.pos p).holdSource ≠ some 3) := by
  intros
  and_intros <;> decide +kernel

theorem witness_SetHoldSourceWrites :
    let r := req .setHoldSource [2, 3, 1, 32]
    let s := asking programme .line .setHoldSource [2, 3, 1, 32]
    let t := asking up .line .setHoldSource [2, 3, 1, 32]
    holdArgs r.params = .ok (2, some 3, some 8193) ∧
      s.asks .line .setHoldSource r [] ∧
      (s.pos 2).state ≠ .closing ∧
      s.vce[(3 : Fin 12)].use = .program ∧
      s.vce[(3 : Fin 12)].state = .playing ∧
      t.asks .line .setHoldSource r [] ∧
      t.vce[(3 : Fin 12)].use ≠ .program := by
  intros
  and_intros <;> decide +kernel

theorem witness_PromptsJoinTheTail :
    let r := req .agentPrompt [2, 1, 1, 1, 0, 5, 0]
    let q := req .coachPrompt [2, 1, 1, 1, 0, 5, 0]
    let z := req .announce [2, 1, 1, 0, 5, 0]
    let full := (talking.setQueue 2 .agent (List.replicate 4 (entry .desk 1 none))).setQueue 2 .line (List.replicate 4 (entry .line 1 none))
    let a := fun (s : State) => asking s .desk .agentPrompt [2, 1, 1, 1, 0, 5, 0]
    let b := fun (s : State) => asking s .supervision .coachPrompt [2, 1, 1, 1, 0, 5, 0]
    let c := fun (s : State) => asking s .line .announce [2, 1, 1, 0, 5, 0]
    promptArgs r.params = .ok (2, true, [.clip 5]) ∧
      promptArgs q.params = .ok (2, true, [.clip 5]) ∧
      announceArgs z.params = .ok (2, [.clip 5]) ∧
      (a up).asks .desk .agentPrompt r [] ∧
      ((a up).pos 2).state ≠ .opened ∧
      (a talking).asks .desk .agentPrompt r [] ∧
      ((a talking).pos 2).state = .opened ∧
      (a talking).pqc.agent[(2 : Fin 16)].length < 4 ∧
      (a full).asks .desk .agentPrompt r [] ∧
      4 ≤ (a full).pqc.agent[(2 : Fin 16)].length ∧
      (b up).asks .supervision .coachPrompt q [] ∧
      (b bound).asks .supervision .coachPrompt q [] ∧
      ((b bound).pos 2).supervisionAllowed = false ∧
      (b talking).asks .supervision .coachPrompt q [] ∧
      ((b talking).pos 2).supervisionAllowed = true ∧
      (b full).asks .supervision .coachPrompt q [] ∧
      4 ≤ (b full).pqc.agent[(2 : Fin 16)].length ∧
      (c bound).asks .line .announce z [] ∧
      ((c bound).pos 2).call = .idle ∧
      (c talking).asks .line .announce z [] ∧
      ((c talking).pos 2).call ≠ .idle ∧
      (c talking).pqc.line[(2 : Fin 16)].length < 4 ∧
      (c full).asks .line .announce z [] ∧
      4 ≤ (c full).pqc.line[(2 : Fin 16)].length := by
  intros
  and_intros <;> decide +kernel

theorem witness_ClearsFlushTheQueue :
    let s := asking prompting .desk .clearAgentPrompts [2]
    let t := asking prompting .line .clearAnnounce [2]
    s.asks .desk .clearAgentPrompts (req .clearAgentPrompts [2]) [] ∧
      positionArg (req .clearAgentPrompts [2]).params = .ok 2 ∧
      (s.pos 2).state ≠ .closing ∧
      (s.queue 2 .agent).length = 2 ∧
      t.asks .line .clearAnnounce (req .clearAnnounce [2]) [] ∧
      positionArg (req .clearAnnounce [2]).params = .ok 2 ∧
      (t.pos 2).state ≠ .closing := by
  intros
  and_intros <;> decide +kernel

theorem witness_PoolGrantVisitsInTurn :
    let s := (up.setQueue 4 .line [entry .line 40 none]).setQueue 6 .agent [entry .desk 60 none]
    let t := { s with pqc := { s.pqc with pointer := 4 } }
    t.pqc.pointer + 1 + 1 = 6 ∧
      t.rstn = false ∧
      t.vce[(0 : Fin 12)].state = .free ∧
      (∀ w : Fin 12, w < 0 → t.vce[w].state ≠ .free) ∧
      t.queue 6 .agent = [entry .desk 60 none] ∧
      (∀ j : Fin 16, j < 1 → t.headWaiting (t.pqc.pointer + 1 + j) .agent = false ∧ t.headWaiting (t.pqc.pointer + 1 + j) .line = false) ∧
      (∀ p : Fin 16, up.headWaiting p .agent = false ∧ up.headWaiting p .line = false) := by
  intros
  and_intros <;> decide +kernel

theorem witness_RescanBeginsScan :
    let s := asking programme .line .rescan []
    let t := asking up .line .rescan []
    let u := asking stored .line .rescan []
    s.asks .line .rescan (req .rescan []) [] ∧
      s.vce[(3 : Fin 12)].state ≠ .free ∧
      t.asks .line .rescan (req .rescan []) [] ∧
      (∀ v : Fin 12, t.vce[v].state = .free) ∧
      t.sfe.store = .scanning ∧
      u.asks .line .rescan (req .rescan []) [] ∧
      (∀ v : Fin 12, u.vce[v].state = .free) ∧
      u.sfe.store ≠ .scanning := by
  intros
  and_intros <;> decide +kernel

/-- Voice 3's programme and voice 5's LINE prompt wait for samples. -/
def waiting (s : State) : State :=
  let clip (v : Voice) (use : VoiceUse) : Voice :=
    { v.start use [.clip 1] with
      state := .playing, entered := true, refill := true, clip := some { offset := 7, remaining := 200 } }
  (s.modVoice 3 (fun v => clip v .program)).modVoice 5 (fun v => clip v (.prompt 2 .line))

theorem witness_FetchGrantServesByClass :
    let s := waiting stored
    let t := { waiting stored with sfe := { stored.sfe with owed := some 3 } }
    let u := { waiting stored with sfe := { stored.sfe with owed := some 4 } }
    s.rstn = false ∧
      s.sfe.store = .ready ∧
      s.sfe.fetch = none ∧
      s.GrantFalls s.sfe.owed 5 ∧
      t.GrantFalls t.sfe.owed 3 ∧
      u.GrantFalls u.sfe.owed 5 ∧
      (∀ v : Fin 12, v = 3 ∨ v = 5 → s.vce[v].clip = some { offset := 7, remaining := 200 } ∧ s.vce[v].current = some 0 ∧
        s.vce[v].steps[0]? = some (.clip 1)) ∧
      s.sfe.directory[1]? = some { start := 2000, count := 300, rate := 2, trim := 6144, valid := true } ∧
      (∀ v : Fin 12, stored.vce[v].refill = false) ∧
      up.sfe.store ≠ .ready ∧
      { s with sfe := { s.sfe with fetch := some ⟨5, 2000, 2, 2, 6144⟩ } }.sfe.fetch ≠ none := by
  intros
  unfold State.GrantFalls State.FirstFlag
  and_intros <;> decide +kernel

/-- What a fetch of voice 3 leaves, by its end and by its timeout, when voice 5 waits: the next grant falls to voice 5. -/
theorem witness_FetchCompletionPlacesSamples_owes :
    let f : Fetch := { voice := 3, address := 2000, count := 2, expand := 2, trim := 6144 }
    let s := (waiting { stored with sfe := { stored.sfe with fetch := some f } }).modVoice 3 (fun v => { v with refill := false })
    let t := after (.fetchCompletion [5, 6]) s
    let u := after .fetchTimeout s
    s.sfe.fetch = some f ∧
      t.sfe.store = .ready ∧
      t.GrantFalls s.sfe.owed 5 ∧
      u.sfe.store = .ready ∧
      u.GrantFalls s.sfe.owed 5 := by
  intros
  unfold State.GrantFalls State.FirstFlag
  and_intros <;> decide +kernel

theorem witness_FetchCompletionPlacesSamples :
    let f : Fetch := { voice := 3, address := 2000, count := 2, expand := 2, trim := 6144 }
    let s := { programme with sfe := { programme.sfe with fetch := some f } }
    let t := s.modVoice 3 (fun v => { v.drain none with ramp := .done })
    s.rstn = false ∧
      s.sfe.fetch = some f ∧
      ([5, 6] : List Word16).length = f.count ∧
      s.vce[f.voice].state = .playing ∧
      t.sfe.fetch = some f ∧
      t.vce[f.voice].state = .draining ∧
      t.vce[f.voice].ramp = .done := by
  intros
  and_intros <;> decide +kernel

theorem witness_FetchTimeoutCounts :
    let f : Fetch := { voice := 3, address := 2000, count := 2, expand := 2, trim := 6144 }
    let s := { programme with sfe := { programme.sfe with fetch := some f, timeouts := 2 } }
    let t := { programme with sfe := { programme.sfe with fetch := some f, timeouts := 3 } }
    s.rstn = false ∧
      s.sfe.fetch = some f ∧
      s.sfe.timeouts < 3 ∧
      t.rstn = false ∧
      t.sfe.fetch = some f ∧
      t.sfe.timeouts = 3 := by
  intros
  and_intros <;> decide +kernel

theorem witness_ScanReadsTheStore :
    let bad : List Byte := List.replicate 32 0
    let high : List Byte := [0x24, 0x16, 1, 2] ++ List.replicate 28 0
    let head : List Byte := [0x24, 0x16, 0, 2] ++ List.replicate 28 0
    let one : List Byte := [0x24, 0x16, 1, 0] ++ List.replicate 26 0xFF ++ [0x18, 0x16]
    let dir : List Byte := List.replicate 8 0
    let none : List Byte := [0x24, 0x16, 0, 0] ++ List.replicate 26 0xFF ++ [0x17, 0x16]
    let s := { up with sfe := { up.sfe with scan := .directory one [] } }
    up.rstn = false ∧
      up.sfe.scan = .header ∧
      bad.length = 32 ∧
      headerWord bad 0 ≠ 0x1624 ∧
      512 < headerWord high 1 ∧
      headerWord head 0 = 0x1624 ∧
      headerWord head 1 = 512 ∧
      s.sfe.scan = .directory one [] ∧
      one.length = 32 ∧
      dir.length = 8 * 1 ∧
      dir.length = 8 * headerWord one 1 ∧
      (dir.take 7).length < 8 * headerWord one 1 ∧
      storeChecksum one dir = headerWord one 15 ∧
      storeChecksum (one.take 30 ++ [0, 0]) dir ≠ headerWord (one.take 30 ++ [0, 0]) 15 ∧
      none.length = 32 ∧
      headerWord none 0 = 0x1624 ∧
      headerWord none 1 = 0 ∧
      storeChecksum none [] = headerWord none 15 ∧
      headerWord (none.take 30 ++ [0, 0]) 1 = 0 ∧
      storeChecksum (none.take 30 ++ [0, 0]) [] ≠ headerWord (none.take 30 ++ [0, 0]) 15 ∧
      s.sfe.scan ≠ .idle := by
  intros
  and_intros <;> decide +kernel

theorem witness_ReportRequests :
    let s := asking (up.report .desk .resetDone) .desk .takeReports [0]
    let t := asking up .line .subscribeMeters [255, 255, 4]
    s.asks .desk .takeReports (req .takeReports [0]) [] ∧
      maxArg (req .takeReports [0]).params = .ok 0 ∧
      (s.port .desk).reports ≠ [] ∧
      t.asks .line .subscribeMeters (req .subscribeMeters [255, 255, 4]) [] ∧
      meterArgs (req .subscribeMeters [255, 255, 4]).params = .ok (0xFFFF, .p1000) := by
  intros
  and_intros <;> decide +kernel

theorem witness_ReportRequests_place :
    let n : Report := { body := .resetDone, frame := 1 }
    let u : Report := { body := .highwayLost, frame := 2 }
    let m (p : Fin 16) : Report := { body := .meter p .empty, frame := 3 }
    let held (l : List Report) : List Report :=
      ((up.cpt.set .desk { up.cpt.desk with reports := l }).get .desk).reports
    u.body = .highwayLost ∧
      ((¬∃ p level, n.body = .batteryCritical p level) ∧ (¬∃ cause, n.body = .storeFailed cause) ∧ n.body ≠ .highwayLost) ∧
      (∀ p w, n.body ≠ .meter p w ∧ u.body ≠ .meter p w) ∧
      held ([u] ++ [n]) = [u] ++ [n] ∧
      (held ([u] ++ [n])).length < 32 ∧
      held ([u] ++ List.replicate 31 n) = [u] ++ List.replicate 31 n ∧
      32 ≤ (held ([u] ++ List.replicate 31 n)).length ∧
      List.replicate 31 n ≠ [] ∧
      held (List.replicate 32 u ++ []) = List.replicate 32 u ++ [] ∧
      32 ≤ (held (List.replicate 32 u ++ [])).length ∧
      held ([u, n] ++ m 3 :: [m 4]) = [u, n] ++ m 3 :: [m 4] ∧
      (m 3).body = .meter 3 .empty ∧
      (∀ y ∈ [u, n] ++ [m 4], ∀ w, y.body ≠ .meter 3 w) := by
  intros
  refine ⟨rfl, ⟨nofun, nofun, nofun⟩, fun _ _ => ⟨nofun, nofun⟩, rfl, by decide, rfl, by decide, by decide, rfl, by decide,
    rfl, rfl, ?_⟩
  intro y hy w h
  simp only [List.cons_append, List.nil_append, List.mem_cons, List.not_mem_nil, or_false] at hy
  obtain rfl | rfl | rfl := hy <;> cases h

theorem witness_ResetRestoresEveryBlock :
    let s := asking prompting .line .reset []
    let t := asking stored .line .reset []
    s.asks .line .reset (req .reset []) [] ∧
      (req .reset []).params = [] ∧
      s.sfe.store ≠ .ready ∧
      t.asks .line .reset (req .reset []) [] ∧
      t.sfe.store = .ready := by
  intros
  and_intros <;> decide +kernel


theorem witness_SamplePeriodAdvances :
    let s := talking
    let t := { talking with ftu := { talking.ftu with timing := .locked, sampleIndex := 62, periodMarked := true } }
    let u := { t with ftu := { t.ftu with sampleIndex := 63, periodMarked := false } }
    s.rstn = false ∧
      s.ftu.frameDue = false ∧
      s.work = [] ∧
      (∀ p : Fin 16, s.headWaiting p .agent = false ∧ s.headWaiting p .line = false) ∧
      s.nextFetch = none ∧
      s.ftu.timing ≠ .locked ∧
      s.ftu.sampleIndex < 63 ∧
      t.nextFetch = none ∧
      t.ftu.periodMarked = true ∧
      t.ftu.sampleIndex < 63 ∧
      (t.pos 2).line = some { inSlot := 3, outSlot := 4 } ∧
      t.hwi.channels[(1 : Fin 4)] = some { inSlot := 20, outSlot := 21 } ∧
      (∀ p : Fin 16, p ≠ 2 → (t.pos p).line = none) ∧
      (∀ c : Fin 4, c ≠ 1 → t.hwi.channels[c] = none) ∧
      u.ftu.timing = .locked ∧
      u.ftu.periodMarked = false ∧
      63 ≤ u.ftu.sampleIndex := by
  intros
  and_intros <;> decide +kernel

theorem witness_FrameEventIsMade :
    let s := { talking with ftu := { talking.ftu with frameDue := true } }
    s.rstn = false ∧
      s.ftu.frameDue = true ∧
      s.work = [] := by
  intros
  and_intros <;> decide +kernel

theorem witness_FrameEventBuildsOutputs :
    let s := { talking with ftu := { talking.ftu with frameDue := true, timing := .locked } }
    let heard : NoiseFrame := { samples := List.replicate 64 9, speech := true, gain := 4096 }
    let m := { atWork whispering .mix with
      taken := { whispering.taken with noise := whispering.taken.noise.set 17 heard } }
    let ducking : Entry := { entry .desk 7 (some 1) with duck := true }
    let n := atWork (prompting.setQueue 2 .agent [ducking]) .mix
    let r := m.modNoise 17 NoiseCtx.rebind
    s.rstn = false ∧
      s.ftu.frameDue = true ∧
      s.work = [] ∧
      (s.pos 2).line = some { inSlot := 3, outSlot := 4 } ∧
      s.hwi.channels[(1 : Fin 4)] = some { inSlot := 20, outSlot := 21 } ∧
      s.ftu.timing = .locked ∧
      (∀ p : Fin 16, p ≠ 2 → (s.pos p).line = none) ∧
      (∀ c : Fin 4, c ≠ 1 → s.hwi.channels[c] = none) ∧
      up.ftu.timing ≠ .locked ∧
      m.atPiece .mix [] ∧
      m.sessionOn 2 1 = true ∧
      m.sst[(1 : Fin 4)].mode = .whisper ∧
      m.taken.noise[noiseOfChannel 1].speech = true ∧
      m.nru.contexts[noiseOfChannel 1].relearning = false ∧
      r.atPiece .mix [] ∧
      (∀ c : Fin 4, r.sessionOn 2 c = true → r.nru.contexts[noiseOfChannel c].relearning = true) ∧
      r.queue 2 .agent = [] ∧
      (∀ c : Fin 4, m.sessionOn 2 c = true → c = 1) ∧
      (m.pos 2).line.isSome = true ∧
      m.hwi.channels[(1 : Fin 4)].isSome = true ∧
      m.sst[(1 : Fin 4)].target = some 2 ∧
      n.atPiece .mix [] ∧
      (∀ c : Fin 4, n.sessionOn 2 c = false) ∧
      n.queue 2 .agent = [ducking] ∧
      ducking.voice.isSome = true ∧
      ducking.duck = true ∧
      n.queue 3 .agent = [] ∧
      (n.pos 3).line = none ∧
      n.hwi.channels[(0 : Fin 4)] = none := by
  intros
  and_intros <;> decide +kernel

theorem witness_SyncsAreClassed :
    let f := up
    let l := { up with ftu := { up.ftu with timing := .locking, goodSync := 62, lastSync := 1000000 } }
    let m := { l with ftu := { l.ftu with goodSync := 63 } }
    let k := { l with ftu := { l.ftu with timing := .locked, goodSync := 64 } }
    let j := { k with ftu := { k.ftu with periodMarked := true } }
    f.ftu.timing = .freeRun ∧
      f.rstn = false ∧
      l.ftu.timing = .locking ∧
      1031249 < l.ftu.lastSync + 31250 ∧
      l.ftu.lastSync + 31250 ≤ 1031250 ∧
      1125000 ≤ l.ftu.lastSync + 125000 ∧
      l.ftu.goodSync < 63 ∧
      63 ≤ m.ftu.goodSync ∧
      m.work = [] ∧
      m.rstn = false ∧
      k.ftu.timing = .locked ∧
      k.ftu.periodMarked = false ∧
      k.rstn = false ∧
      j.rstn = false ∧
      j.ftu.timing = .locked ∧
      j.ftu.periodMarked = true ∧
      j.ftu.lastSync + 31250 ≤ 1062500 ∧
      1062500 ≤ j.ftu.lastSync + 125000 ∧
      j.ftu.lastSync + 125000 < 1125001 ∧
      l.ftu.timing ≠ .freeRun ∧
      l.ftu.lastSync + 125000 < 1125001 := by
  intros
  and_intros <;> decide +kernel

theorem witness_GapReturnsToFreeRun :
    let k := { talking with ftu := { talking.ftu with timing := .locked, sampleIndex := 20 } }
    let l := { k with ftu := { k.ftu with timing := .locking } }
    let m := { k with ftu := { k.ftu with sampleIndex := 63 } }
    k.rstn = false ∧
      k.ftu.timing = .locked ∧
      k.ftu.frameDue = false ∧
      k.work = [] ∧
      (∀ p : Fin 16, k.headWaiting p .agent = false ∧ k.headWaiting p .line = false) ∧
      k.nextFetch = none ∧
      k.ftu.periodMarked = false ∧
      k.ftu.sampleIndex < 63 ∧
      m.rstn = false ∧
      m.ftu.timing = .locked ∧
      m.ftu.frameDue = false ∧
      m.work = [] ∧
      (∀ p : Fin 16, m.headWaiting p .agent = false ∧ m.headWaiting p .line = false) ∧
      m.nextFetch = none ∧
      m.ftu.periodMarked = false ∧
      63 ≤ m.ftu.sampleIndex ∧
      l.rstn = false ∧
      l.ftu.timing = .locking ∧
      up.ftu.timing = .freeRun := by
  intros
  and_intros <;> decide +kernel

theorem witness_UpwardFramesArriveWhole :
    up.rstn = false ∧
      (List.replicate 64 (5 : Word16)).length = 64 ∧
      up.hli[(15 : Fin 16)].cutOff = false ∧
      (List.replicate 66 (5 : Word16)).length ≠ 65 := by
  and_intros <;> decide +kernel

theorem witness_PresenceChanges :
    let s := ({ opened with work := [.presence 2] }).modHeadset 2 (fun h => { h with handed := some 0 })
    let t := s.modPos 2 (fun x => { x with presenceRun := 7 })
    let same := s.modHeadset 2 (fun h => { h with handed := some 1 })
    s.rstn = false ∧
      Work.presence 2 ∈ s.work ∧
      (s.pos 2).presenceRun < 7 ∧
      t.rstn = false ∧
      Work.presence 2 ∈ t.work ∧
      t.hli[(2 : Fin 16)].handed.any (fun w => w.getLsbD 0) ≠ (t.pos 2).present ∧
      7 ≤ (t.pos 2).presenceRun ∧
      s.atPiece (.presence 2) [] ∧
      s.hli[(2 : Fin 16)].handed.any (fun w => w.getLsbD 0) ≠ (s.pos 2).present ∧
      same.atPiece (.presence 2) [] ∧
      same.hli[(2 : Fin 16)].handed.any (fun w => w.getLsbD 0) = (same.pos 2).present := by
  intros
  and_intros <;> decide +kernel

theorem witness_PresenceChanges_button :
    let s := atWork (opened.modPos 2 (fun x => { x with button := true, releasedRun := 2 })) (.button 2)
    let t := s.modPos 2 (fun x => { x with releasedRun := 1 })
    s.atPiece (.button 2) [] ∧
      (s.pos 2).button = true ∧
      2 ≤ (s.pos 2).releasedRun ∧
      (s.pos 2).state = .opened ∧
      t.atPiece (.button 2) [] ∧
      (t.pos 2).releasedRun = 1 := by
  intros
  and_intros <;> decide +kernel

theorem witness_PresenceChanges_battery :
    let s (band : Band) (level : Nat) : State :=
      atWork (opened.modPos 2 (fun x => { x with band := band, batteryLevel := level })) (.battery 2)
    (∀ band level, (s band level).atPiece (.battery 2) [] ∧ ((s band level).pos 2).state = .opened ∧
        ((s band level).pos 2).present = true ∧ ((s band level).pos 2).band = band ∧
        ((s band level).pos 2).batteryLevel = level ∧ ((s band level).pos 2).batteryLow = 20 ∧
        ((s band level).pos 2).batteryCritical = 5) ∧
      (atWork up (.battery 2)).atPiece (.battery 2) [] ∧
      ((atWork up (.battery 2)).pos 2).state ≠ .opened := by
  exact ⟨fun _ _ => ⟨atWork_atPiece _ _ rfl rfl, rfl, rfl, rfl, rfl, rfl, rfl⟩, by decide +kernel, by decide +kernel⟩

theorem witness_RemindersAndMutedTalk :
    let s := { holding with work := [.reminder 2] }
    let t := s.modPos 2 (fun x => { x with reminderStatus := .running, reminderCounter := 1 })
    let loud : NoiseFrame := { samples := List.replicate 64 9, speech := true, gain := 4096 }
    let u := { talking with work := [.muted 2], taken := { talking.taken with noise := talking.taken.noise.set 2 loud } }
    let v := u.modPos 2 (fun x => { x with mute := true, mutedCount := 499 })
    let w := s.modPos 2 (fun x => { x with reminderStatus := .running, reminderCounter := 2 })
    let x := u.modPos 2 (fun x => { x with mute := true, mutedCount := 498 })
    s.rstn = false ∧
      Work.presence 2 ∉ s.work ∧
      Work.button 2 ∉ s.work ∧
      Work.battery 2 ∉ s.work ∧
      Work.reminder 2 ∈ s.work ∧
      (s.pos 2).reminderStatus ≠ .running ∧
      Work.reminder 2 ∈ t.work ∧
      (t.pos 2).reminderStatus = .running ∧
      (t.pos 2).reminderCounter ≤ 1 ∧
      Work.reminder 2 ∉ u.work ∧
      Work.muted 2 ∈ u.work ∧
      (u.pos 2).mute = false ∧
      Work.muted 2 ∈ v.work ∧
      (v.pos 2).state = .opened ∧
      (v.pos 2).mute = true ∧
      v.taken.noise[noiseOfPosition 2].speech = true ∧
      499 ≤ (v.pos 2).mutedCount ∧
      (v.pos 2).mutedIssued = false ∧
      s.atPiece (.reminder 2) [] ∧
      w.atPiece (.reminder 2) [] ∧
      (w.pos 2).reminderStatus = .running ∧
      1 < (w.pos 2).reminderCounter ∧
      u.atPiece (.muted 2) [] ∧
      x.atPiece (.muted 2) [] ∧
      (x.pos 2).state = .opened ∧
      (x.pos 2).mute = true ∧
      x.taken.noise[noiseOfPosition 2].speech = true ∧
      (x.pos 2).mutedCount < 499 := by
  intros
  and_intros <;> decide +kernel

theorem witness_CloseCompletes :
    let s := { closing with work := [.close 2] }
    let t := s.modVoice 1 (fun v => { v with state := .draining, drainedFor := some 2 })
    s.rstn = false ∧
      Work.close 2 ∈ s.work ∧
      (s.pos 2).state = .closing ∧
      (∀ v : Fin 12, s.vce[v].state ≠ .draining) ∧
      (s.pos 2).closePlan = some .keep ∧
      t.vce[(1 : Fin 12)].state = .draining ∧
      t.vce[(1 : Fin 12)].drainedFor = some 2 := by
  intros
  and_intros <;> decide +kernel

theorem witness_EchoSupervision :
    let far : Frame := List.replicate 64 3000
    let s := { opened with work := [.echo 2], taken := { opened.taken with
      present := opened.taken.present.set 2 true, reference := opened.taken.reference.set 2 far
      mic := opened.taken.mic.set 2 (List.replicate 64 100) } }
    let first : EchoLoop :=
      { coeffs := List.replicate 128 0, history := List.replicate 383 0, hangover := 0, outRev := [], mic := 0, err := 0,
        power := 0 }
    let held : EchoLoop := { first with hangover := 480 }
    let wrong : EchoLoop := { first with coeffs := List.replicate 128 1000 }
    let c := s.modEcho 2 (fun x => { x with state := .converging, good := 31 })
    let k := s.modEcho 2 (fun x => { x with state := .tracking, poor := 7, hangover := 480 })
    let f := s.modPos 2 (fun x => { x with echo := { x.echo with mode := .freeze } })
    let o := s.modPos 2 (fun x => { x with echo := { x.echo with mode := .off } })
    s.rstn = false ∧
      Work.echo 2 ∈ s.work ∧
      (s.pos 2).state = .opened ∧
      s.taken.present[(2 : Fin 16)] = true ∧
      (s.pos 2).echo.mode = .adapt ∧
      ((s.pos 2).echo.delta : Int) ≤ (echoSamples (s.pos 2).echo .converging first s.taken.mic[(2 : Fin 16)] far).power ∧
      c.ecu[(2 : Fin 16)].state = .converging ∧
      31 ≤ c.ecu[(2 : Fin 16)].good ∧
      c.ecu[(2 : Fin 16)].coeffs = first.coeffs ∧
      k.ecu[(2 : Fin 16)].state = .tracking ∧
      7 ≤ k.ecu[(2 : Fin 16)].poor ∧
      (let l := echoSamples (s.pos 2).echo .tracking held (List.replicate 64 100) far; l.mic < l.err * 2) ∧
      (let l := echoSamples (s.pos 2).echo .converging first (List.replicate 64 0) far; l.err * 16 ≤ l.mic) ∧
      (let l := echoSamples (s.pos 2).echo .tracking wrong (List.replicate 64 100) far; 2 * l.mic < l.err) ∧
      s.atPiece (.echo 2) [] ∧
      f.atPiece (.echo 2) [] ∧
      (f.pos 2).echo.mode = .freeze ∧
      o.atPiece (.echo 2) [] ∧
      (o.pos 2).echo.mode = .off ∧
      (echoSamples (s.pos 2).echo .converging first (List.replicate 64 100) zeroFrame).power <
        ((s.pos 2).echo.delta : Int) ∧
      (0 : Int) < 3 ∧
      (2 : Int) ≤ 3 := by
  intros
  and_intros <;> decide +kernel

theorem witness_NoiseEvents :
    let s := { opened with work := [.noise 2] }
    let t := s.modNoise 2 (fun c => { c with learned := 15 })
    let u := s.modNoise 2 (fun c => { c with state := .speech, hangover := 1 })
    let v := s.modNoise 2 (fun c => { c with state := .speech, estimate := 0, speechRun := 2499 })
    s.rstn = false ∧
      Work.noise 2 ∈ s.work ∧
      (s.pos 2).state = .opened ∧
      t.nru.contexts[(2 : Fin 20)].state = .learn ∧
      t.nru.contexts[(2 : Fin 20)].learned = 15 ∧
      u.nru.contexts[(2 : Fin 20)].state = .speech ∧
      u.nru.contexts[(2 : Fin 20)].hangover ≤ 1 ∧
      0 < 4 * u.nru.contexts[(2 : Fin 20)].estimate ∧
      v.nru.contexts[(2 : Fin 20)].state ≠ .learn ∧
      4 * v.nru.contexts[(2 : Fin 20)].estimate ≤ 0 ∧
      2499 ≤ v.nru.contexts[(2 : Fin 20)].speechRun ∧
      noiseOfPosition 2 = 2 := by
  intros
  and_intros <;> decide +kernel

theorem witness_NoiseEvents_work :
    let heard (level : Int) (live : Bool) (c : NoiseCtx) : State :=
      let s := opened.modNoise 2 (fun _ => c)
      let frame : EchoFrame := { samples := List.replicate 64 level, live := live, state := .off }
      atWork { s with taken := { s.taken with echo := s.taken.echo.set 2 frame } } (.noise 2)
    let c (state : NoiseState) : NoiseCtx := { NoiseCtx.powerOn with state := state, estimate := 50, hangover := 2 }
    (∀ level live state,
      (heard level live (c state)).atPiece (.noise 2) [] ∧
        (heard level live (c state)).hears 2 { enable := true, floor := 1024 } (List.replicate 64 level) live ∧
        (heard level live (c state)).nru.contexts[(2 : Fin 20)] = c state) ∧
      (((List.replicate 64 (20 : Int)).map (fun x => x * x)).sum / 64).toNat = 400 ∧
      (((List.replicate 64 (2 : Int)).map (fun x => x * x)).sum / 64).toNat = 4 ∧
      (c .speech).learned < 15 ∧
      1 < (c .speech).hangover ∧
      (c .speech).speechRun < 2499 ∧
      4 * (c .speech).estimate = 200 ∧
      (atWork up (.noise 2)).atPiece (.noise (noiseOfPosition 2)) [] ∧
      ((atWork up (.noise 2)).pos 2).state ≠ .opened ∧
      (atWork up (.noise 17)).hears 17 { enable := true, floor := 1024 } (List.replicate 64 0) false := by
  exact ⟨fun _ _ _ => ⟨atWork_atPiece _ _ rfl rfl, .inl ⟨2, rfl, rfl, rfl, rfl, rfl⟩, rfl⟩, by decide +kernel, by decide +kernel,
    by decide, by decide, by decide, by decide, by decide +kernel, by decide +kernel, .inr ⟨1, rfl, rfl, rfl, rfl⟩⟩

theorem witness_MeterEvents :
    let s := { opened with work := [.meterClose, .meterPeriod .desk], ftu := { opened.ftu with frameCount := 32 } }
    let t := { s with ftu := { s.ftu with frameCount := 33 } }
    let u := s.modPort .desk (fun ps => { ps with counter := some 1, period := .p16, mask := 4 })
    let v := s.modPort .desk (fun ps => { ps with counter := some 2 })
    s.rstn = false ∧
      Work.meterClose ∈ s.work ∧
      Work.mix ∉ s.work ∧
      s.ftu.frameCount.toNat % 16 = 0 ∧
      t.ftu.frameCount.toNat % 16 ≠ 0 ∧
      Work.meterPeriod .desk ∈ u.work ∧
      (u.port .desk).counter = some 1 ∧
      (v.port .desk).counter = some 2 ∧
      (atWork v (.meterPeriod .desk)).atPiece (.meterPeriod .desk) [] ∧
      (atWork opened (.meterPeriod .desk)).atPiece (.meterPeriod .desk) [] ∧
      (opened.port .desk).counter = none ∧
      (atWork talking .mix).atPiece .mix [] := by
  intros
  and_intros <;> decide +kernel

theorem witness_VoiceEvents :
    let p := ({ up with work := [.voice 1] }).modVoice 1 (fun v => { v.start .program [.clip 0] with buffer := List.replicate 128 5 })
    let q := ({ stored with work := [.voice 1] }).modVoice 1 (fun v =>
      { v.start .program [.clip 0] with
        state := .playing, entered := true, clip := some { offset := 128, remaining := 72 }, buffer := List.replicate 192 5 })
    let d := ({ programme with work := [.voice 3] }).modVoice 3 (fun v => v.drain none)
    p.rstn = false ∧
      Work.voice 1 ∈ p.work ∧
      p.vce[(1 : Fin 12)].state = .priming ∧
      128 ≤ p.vce[(1 : Fin 12)].buffer.length ∧
      Work.voice 1 ∈ q.work ∧
      q.vce[(1 : Fin 12)].state = .playing ∧
      q.vce[(1 : Fin 12)].endFetched = false ∧
      q.sfe.fetch = none ∧
      q.vce[(1 : Fin 12)].refill = false ∧
      q.sfe.store = .ready ∧
      q.vce[(1 : Fin 12)].current = some 0 ∧
      q.vce[(1 : Fin 12)].steps[0]? = some (.clip 0) ∧
      q.vce[(1 : Fin 12)].entered = true ∧
      q.vce[(1 : Fin 12)].clip = some { offset := 128, remaining := 72 } ∧
      q.vce[(1 : Fin 12)].buffer.length ≤ 192 ∧
      Work.voice 3 ∈ d.work ∧
      d.vce[(3 : Fin 12)].state = .draining ∧
      d.vce[(3 : Fin 12)].ramp = .pending := by
  intros
  and_intros <;> decide +kernel

theorem witness_VoiceEvents_work :
    let v : Voice := { Voice.powerOn.start (.prompt 2 .agent) [.clip 0] with buffer := List.replicate 65 5 }
    let s (x : Voice) : State := (atWork stored (.voice 1)).modVoice 1 (fun _ => x)
    let last := s { v with state := .playing, endFetched := true, current := none }
    let busy := { s v with sfe := { stored.sfe with
      fetch := some { voice := 1, address := 1000, count := 9, expand := 1, trim := 4096 } } }
    last.atPiece (.voice 1) [] ∧
      last.vce[(1 : Fin 12)].state = .playing ∧
      last.vce[(1 : Fin 12)].endFetched = true ∧
      64 < last.vce[(1 : Fin 12)].buffer.length ∧
      busy.atPiece (.voice 1) [] ∧
      busy.vce[(1 : Fin 12)].state = .priming ∧
      busy.vce[(1 : Fin 12)].endFetched = false ∧
      busy.sfe.fetch.map (fun f => f.voice) = some 1 ∧
      (s v).atPiece (.voice 1) [] ∧
      (s v).sfe.fetch = none ∧
      (atWork stored (.voice 1)).atPiece (.voice 1) [] ∧
      stored.vce[(1 : Fin 12)].state = .free := by
  intros
  and_intros <;> decide +kernel

theorem witness_VoiceEvents_faded :
    let s := atWork { programme with sfe := { programme.sfe with
      fetch := some { voice := 3, address := 1000, count := 20, expand := 1, trim := 4096 } } } (.voice 3)
    let t := s.modVoice 3 (fun v => { v.drain none with ramp := .done })
    t.atPiece (.voice 3) [] ∧
      t.vce[(3 : Fin 12)].state = .draining ∧
      t.vce[(3 : Fin 12)].ramp = .done ∧
      ∃ f, t.sfe.fetch = some f ∧ f.voice = 3 := by
  intros
  exact ⟨atWork_atPiece _ _ (by decide +kernel) (by decide +kernel), by decide +kernel, by decide +kernel, _, rfl, rfl⟩

/-- Each kind of step, and the end of a list, with the operands of the fetch side's clauses. -/
theorem witness_VoiceEvents_fetch :
    let v (i : Nat) (placed : Bool) (filled : Nat) : Voice :=
      { Voice.powerOn.start .program [.mark 7, .loop 0 0, .loop 0 2, .silence 1, .clip 0, .clip 1, .clip 2] with
        current := some i, placed := placed, buffer := List.replicate filled 5 }
    let entry : DirEntry := { start := 1000, count := 200, rate := 1, trim := 4096, valid := true }
    let spoilt : DirEntry := { entry with valid := false }
    let view (x : StoreState) : FetchView := { store := x, directory := [entry, spoilt] }
    (∀ i filled, (v i true filled).current = some i ∧ (v i true filled).use = .program) ∧
      (v 0 true 0).steps[0]? = some (.mark 7) ∧
      (v 1 true 0).steps[1]? = some (.loop 0 0) ∧
      (v 2 true 0).steps[2]? = some (.loop 0 2) ∧
      1 < ((v 2 true 0).loops.getD 2 none).getD 2 ∧
      ((List.replicate 8 (some 1)).getD 2 none).getD 2 ≤ 1 ∧
      (v 3 true 0).steps[3]? = some (.silence 1) ∧
      1 * 64 ≤ 256 - (v 3 true 0).buffer.length ∧
      256 - (v 3 true 193).buffer.length < 1 * 64 ∧
      (v 4 true 0).steps[4]? = some (.clip 0) ∧
      (view .ready).store = .ready ∧
      (view .scanning).store = .scanning ∧
      (view .unavailable).store = .unavailable ∧
      (view .ready).directory[0]? = some entry ∧
      entry.valid = true ∧
      0 < entry.count ∧
      (v 5 true 0).steps[5]? = some (.clip 1) ∧
      (view .ready).directory[1]? = some spoilt ∧
      spoilt.valid = false ∧
      (v 6 true 0).steps[6]? = some (.clip 2) ∧
      (view .ready).directory[2]? = none ∧
      ({ v 4 true 0 with current := none } : Voice).current = none ∧
      (v 4 false 192).placed = false ∧
      64 ≤ 256 - (v 4 false 192).buffer.length ∧
      256 - (v 4 false 193).buffer.length < 64 := by
  intros
  refine ⟨fun _ _ => ⟨rfl, rfl⟩, ?_⟩
  and_intros <;> decide +kernel

theorem witness_PromptCompletes :
    let s := { prompting with work := [.voice 1] }
    let t := s.modVoice 1 (fun v => { v with endFetched := true, current := none, buffer := List.replicate 64 1 })
    s.rstn = false ∧
      Work.voice 1 ∈ s.work ∧
      s.vce[(1 : Fin 12)].state = .playing ∧
      s.vce[(1 : Fin 12)].use = .prompt 2 .agent ∧
      s.vce[(1 : Fin 12)].endFetched = false ∧
      t.vce[(1 : Fin 12)].endFetched = true ∧
      t.vce[(1 : Fin 12)].buffer.length ≤ 64 ∧
      t.queue 2 .agent = [entry .desk 7 (some 1), entry .supervision 9 none] ∧
      t.vce[(1 : Fin 12)].state = .playing ∧
      (entry .desk 7 (some 1)).voice = some 1 := by
  intros
  and_intros <;> decide +kernel

/-- The law of the terms holds where every term is absent. -/
theorem absent_terms (s : State) (h : ∀ p : Fin 16, s.mxe.earTerms[p] = .absent ∧ s.mxe.lineTerms[p] = .absent)
    (h' : ∀ c : Fin 4, s.mxe.supTerms[c] = .absent) : s.TermLaw := by
  refine ⟨fun p => ?_, fun p => ?_, fun c => ?_⟩
  · rw [(h p).1]; exact ⟨rfl, nofun, nofun, nofun⟩
  · rw [(h p).2]; exact ⟨rfl, nofun, nofun, nofun⟩
  · rw [h' c]; exact ⟨rfl, rfl, nofun, nofun⟩

theorem witness_LineMixKeepsPrivacy :
    let s := { whispering with work := [.mix] }
    let t := { holding with work := [.mix] }
    s.ftu.frameDue = false ∧ s.sessionOn 2 1 = true ∧ s.sst[(1 : Fin 4)].mode = .whisper ∧ s.TermLaw ∧
      t.ftu.frameDue = false ∧ (t.pos 2).call = .hold ∧ t.TermLaw := by
  intros
  exact ⟨by decide +kernel, by decide +kernel, by decide +kernel, absent_terms _ (by decide +kernel) (by decide +kernel),
    by decide +kernel, by decide +kernel, absent_terms _ (by decide +kernel) (by decide +kernel)⟩

/-- Position 2 with a prompt, a session, a call and reports waiting, and a command at the front of the queue. -/
def busy : State :=
  let s := (prompting.modSession 1 (fun x => { x with mode := .whisper, target := some 2 })).report .line .highwayLost
  { s with pending := [.fetchGrant] }

theorem witness_StepKeepsPortLaws : busy.ReportLaw ∧ busy.ExchangeLaw ∧ ∃ t, step busy = .next t := by
  refine ⟨fun port => ?_, fun port => ?_, _, rfl⟩
  · cases port
    · refine ⟨⟨by decide +kernel, ?_, ?_⟩, by decide +kernel⟩
      · exact List.pairwise_singleton _ _
      · exact List.pairwise_singleton _ _
    · exact ⟨⟨by decide +kernel, .nil, .nil⟩, by decide +kernel⟩
    · exact ⟨⟨by decide +kernel, .nil, .nil⟩, by decide +kernel⟩
  · cases port <;> decide +kernel

theorem busy_queues (p : Fin 16) : busy.queue p .line = [] ∧ busy.queue p .agent =
    if p = 2 then [entry .desk 7 (some 1), entry .supervision 9 none] else [] := by
  revert p; decide +kernel

theorem witness_StepKeepsPromptLaws : busy.PromptLaw ∧ busy.HoldLaw ∧ ∃ t, step busy = .next t := by
  refine ⟨⟨fun p q => ?_, fun p q e he v hv => ?_⟩, fun p => ?_, _, rfl⟩
  · cases q
    · rw [(busy_queues p).2]; split
      · exact ⟨by decide, by decide, by decide⟩
      · exact ⟨by decide, by decide, .nil⟩
    · rw [(busy_queues p).1]; exact ⟨by decide, by decide, .nil⟩
  · cases q
    · rw [(busy_queues p).2] at he
      split at he
      · rename_i hp; subst hp
        rcases List.mem_cons.mp he with rfl | he
        · obtain rfl : (1 : Fin 12) = v := Option.some.inj hv
          decide +kernel
        · rw [List.mem_singleton.mp he] at hv; cases hv
      · cases he
    · rw [(busy_queues p).1] at he; cases he
  · revert p; decide +kernel

/-- `busy` with a fetch in flight for the prompt's voice, and a programme on voice 5 that asks for samples. -/
def fetching : State :=
  let s := busy.modVoice 5 (fun v =>
    { v.start .program [.clip 1] with entered := true, clip := some { offset := 0, remaining := 300 }, refill := true })
  { s with sfe := { s.sfe with
      store := .ready, fetch := some { voice := 1, address := 1000, count := 128, expand := 1, trim := 4096 } } }

theorem fetching_held (p : Fin 16) (q : QueueId) (v : Fin 12) :
    fetching.heldBy p q v = decide (p = 2 ∧ q = .agent ∧ v = 1) := by
  cases q <;> revert p v <;> decide +kernel

theorem witness_StepKeepsPromptLaws_voices : fetching.PromptLaw ∧ fetching.HoldLaw ∧ fetching.VoiceLaw ∧ fetching.FetchLaw ∧
    ∃ t, step fetching = .next t := by
  refine ⟨⟨witness_StepKeepsPromptLaws.1.1, fun p q e he v hv => ?_⟩, ?_, ⟨fun v => ⟨?_, ?_⟩, fun f hf => ?_⟩,
    ⟨fun f hf _ => ?_, fun v hv => ?_⟩, _, rfl⟩
  · have h := fetching_held p q v
    rw [State.heldBy, List.any_eq_true.mpr ⟨e, he, by rw [hv]; exact beq_self_eq_true _⟩, eq_comm, decide_eq_true_eq] at h
    obtain ⟨rfl, rfl, rfl⟩ := h
    decide +kernel
  · unfold State.HoldLaw; decide +kernel
  · unfold State.VoiceCondition
    simp only [fetching_held]
    by_cases h1 : v = 1
    · subst h1
      exact .inr (.inr (.inl ⟨by decide +kernel, 2, .agent, by decide +kernel, by decide, fun p q h => by simpa using h⟩))
    by_cases h5 : v = 5
    · subst h5
      exact .inr (.inl ⟨by decide +kernel, by decide +kernel, by simp⟩)
    · exact .inl ⟨by revert v; decide +kernel, by revert v; decide +kernel, by simp [h1]⟩
  · revert v; decide +kernel
  · cases hf; decide +kernel
  · cases hf; decide +kernel
  · obtain rfl : v = 5 := by revert v; decide +kernel
    exact ⟨by decide +kernel, by decide +kernel, by decide +kernel, 0, 1, { offset := 0, remaining := 300 }, by decide +kernel,
      by decide +kernel, by decide +kernel, by decide⟩

theorem witness_StepKeepsSessionLaws : busy.SessionLimits ∧ busy.SessionFooting ∧ ∃ t, step busy = .next t := by
  refine ⟨?_, ?_, _, rfl⟩
  · unfold State.SessionLimits; decide +kernel
  · unfold State.SessionFooting; decide +kernel

theorem busy_binding (e : Endpoint) (b : SlotPair) (h : busy.binding e = some b) :
    (e = .position 2 ∧ b = { inSlot := 3, outSlot := 4 }) ∨ (e = .channel 1 ∧ b = { inSlot := 20, outSlot := 21 }) := by
  have hp : ∀ p : Fin 16, busy.binding (.position p) = if p = 2 then some { inSlot := 3, outSlot := 4 } else none := by
    decide +kernel
  have hc : ∀ c : Fin 4, busy.binding (.channel c) = if c = 1 then some { inSlot := 20, outSlot := 21 } else none := by
    decide +kernel
  cases e with
  | position p =>
    rw [hp p] at h; split at h
    · rename_i hp; subst hp; exact .inl ⟨rfl, (Option.some.inj h).symm⟩
    · cases h
  | channel c =>
    rw [hc c] at h; split at h
    · rename_i hc; subst hc; exact .inr ⟨rfl, (Option.some.inj h).symm⟩
    · cases h

theorem witness_StepKeepsRecordLaws : busy.PositionLaw ∧ busy.SlotLaw ∧ ∃ t, step busy = .next t := by
  refine ⟨?_, fun e f b c hne hb hc => ?_, _, rfl⟩
  · unfold State.PositionLaw Position.Lawful; decide +kernel
  · rcases busy_binding e b hb with ⟨rfl, rfl⟩ | ⟨rfl, rfl⟩ <;> rcases busy_binding f c hc with ⟨rfl, rfl⟩ | ⟨rfl, rfl⟩
    · exact absurd rfl hne
    · decide
    · decide
    · exact absurd rfl hne

theorem witness_StepKeepsMixLaws_noise : busy.NoiseLaw ∧ ∃ t, step busy = .next t := by
  refine ⟨?_, _, rfl⟩
  unfold State.NoiseLaw; decide +kernel

theorem witness_StepKeepsMixLaws_rebound :
    let s := { busy.modNoise 17 NoiseCtx.rebind with pending := [.highwaySync 0] }
    s.NoiseLaw ∧ s.nru.contexts[noiseOfChannel 1].relearning = true ∧ ∃ t, step s = .next t := by
  refine ⟨?_, by decide, _, rfl⟩
  unfold State.NoiseLaw; decide +kernel

theorem witness_StepKeepsMixLaws : busy.GainLaw ∧ busy.TermLaw ∧ busy.RangeLaw ∧ ∃ t, step busy = .next t := by
  have hz : FrameInRange zeroFrame := by unfold FrameInRange InRange; decide +kernel
  have hp : ∀ p : Fin 16, busy.hli[p].earpiece = zeroFrame ∧ busy.mxe.line[p] = zeroFrame ∧
      busy.taken.line[p] = zeroFrame ∧ busy.hwi.lineOut[p] = none := by decide +kernel
  have hc : ∀ c : Fin 4, busy.mxe.sup[c] = zeroFrame ∧ busy.taken.sup[c] = zeroFrame ∧ busy.hwi.supOut[c] = none := by
    decide +kernel
  have hd : ∀ k : Fin 32, busy.hwi.driven[k] = none := by decide +kernel
  refine ⟨?_, absent_terms _ (by decide +kernel) (by decide +kernel), ⟨fun p => ?_, fun c => ?_, fun k x h => ?_⟩, _, rfl⟩
  · unfold State.GainLaw Position.GainsLawful; decide +kernel
  · obtain ⟨h1, h2, h3, h4⟩ := hp p
    rw [h1, h2, h3, h4]; exact ⟨hz, hz, hz, nofun⟩
  · obtain ⟨h1, h2, h3⟩ := hc c
    rw [h1, h2, h3]; exact ⟨hz, hz, nofun⟩
  · rw [hd k] at h; cases h

end Sys2Proof.Tests
end

