-- ==== Sys2Proof/Proofs/Positions.lean ====
section
/-!
PROOFS. The requests of the position controller: SET_BATTERY (R10).
-/

namespace Sys2Proof.Machine

/-! ### Numbers -/

/-- Clamping into a range that is not empty is a maximum of a minimum. -/
theorem clampNat_eq_max_min {lo hi : Nat} (h : lo ≤ hi) (x : Nat) : clampNat lo hi x = max lo (min hi x) := by
  unfold clampNat
  split
  · omega
  · split <;> omega

theorem byte1_eq (n : Nat) : byte1 n = [BitVec.ofNat 8 n] := rfl

/-! ### A port without the rights -/

/-- Check 2 of R171: a request whose kind the port may not make is refused, whatever its bytes are. -/
theorem State.answer_notPermitted (s : State) (port : Port) (k : Kind) (r : Request) (serve : State → Request → Reply)
    (hk : r.kind = k.code) (ha : k.allows port = false) : s.answer port r serve = s.refuse .notPermitted := by
  simp [State.answer, hk, ha]

/-- A request of a row's kind from a port without the rights changes nothing but its port (R171, R172). -/
theorem State.take_notPermitted (s : State) (port : Port) (k : Kind) (serve : State → Request → Reply) (r : Request)
    (rest : List Request) (h : s.offers port r rest) (hk : r.kind = k.code) (ha : k.allows port = false) :
    s.take port k serve = { s with cpt := s.cpt.answered port r rest .notPermitted [] } := by
  rw [s.take_offers port k serve r rest h (k.takes_whole r hk), State.answer_notPermitted _ _ k r serve hk ha]
  rfl

/-! ### SET_BATTERY (R10) -/

theorem exec_setBattery (port : Port) (s : State) :
    exec (.setBattery port) s = .next (s.take port .setBattery serveSetBattery) := rfl

/-- SET_BATTERY is a request of the Desk port alone (R173). -/
theorem setBattery_allows (port : Port) : Kind.setBattery.allows port = true ↔ port = .desk := by
  cases port <;> decide

/-- Both thresholds are clamped to 1 to 100, then the critical one to the low one; nothing else of the record moves. -/
theorem Position.setBattery_eq (x : Position) (low critical : Nat) :
    x.setBattery low critical = { x with
      batteryLow := max 1 (min 100 low)
      batteryCritical := min (max 1 (min 100 critical)) (max 1 (min 100 low)) } := by
  have hclamp : ∀ n, clampNat 1 100 n = max 1 (min 100 n) := clampNat_eq_max_min (by decide)
  rw [Position.setBattery, hclamp low, hclamp critical]

section
variable (s : State) (r : Request) (p : Fin 16) (low critical : Nat)

theorem serveSetBattery_closing (ha : batteryArgs r.params = .ok (p, low, critical))
    (hc : (s.pos p).state = .closing) : serveSetBattery s r = s.refuse .badState := by
  simp only [serveSetBattery, State.withArgs, ha, hc, if_true]

theorem serveSetBattery_okay (ha : batteryArgs r.params = .ok (p, low, critical))
    (hc : (s.pos p).state ≠ .closing) :
    serveSetBattery s r = (s.modPos p (fun x => x.setBattery low critical)).okay
      [BitVec.ofNat 8 ((s.pos p).setBattery low critical).batteryLow,
        BitVec.ofNat 8 ((s.pos p).setBattery low critical).batteryCritical] := by
  simp only [serveSetBattery, State.withArgs, ha, hc, if_false, byte1_eq, List.singleton_append]

end

/-- Settles O15: the rights, then the state of the position, decide which way the request is taken. -/
theorem setBatteryClampsThresholds : Obligations.SetBatteryClampsThresholds := by
  unfold Obligations.SetBatteryClampsThresholds
  intro s port r rest p low critical hoffers hwhole hargs l k
  have hasks : port = .desk → s.asks port .setBattery r rest := fun hport =>
    ⟨hoffers, hwhole, (setBattery_allows port).mpr hport⟩
  simp only [exec_setBattery]
  refine ⟨fun hport => ?otherPort, fun hport hclosing => ?closing, fun hport hstate => ?taken⟩
  case otherPort =>
    have hrights : Kind.setBattery.allows port = false :=
      Bool.eq_false_iff.mpr (mt (setBattery_allows port).mp hport)
    rw [s.take_notPermitted port .setBattery _ r rest hoffers hwhole.1 hrights]
  case closing =>
    rw [s.take_refused port .setBattery _ r rest .badState (hasks hport)
      (serveSetBattery_closing _ r p low critical hargs hclosing)]
  case taken =>
    rw [s.take_okay port .setBattery _ r rest _ _ (hasks hport)
      (serveSetBattery_okay _ r p low critical hargs hstate) rfl]
    simp only [Position.setBattery_eq]
    rfl

end Sys2Proof.Machine
end

