-- ==== Sys2Proof/Proofs/Ports.lean ====
section
/-!
PROOFS. The transfers of the control ports: READ_TRANSFER and the BUSY mark of WRITE_TRANSFER (R169, R174).
-/

namespace Sys2Proof.Machine

/-! ### A read transfer at a port (R174) -/

theorem PortState.read_cons (ps : PortState) {x : Response} {rest : List Response} (h : ps.responses = x :: rest) :
    ps.read = { ps with responses := rest, readOut := x.bytes } := by
  simp only [PortState.read, h]

theorem PortState.read_nil (ps : PortState) (h : ps.responses = []) : ps.read = { ps with readOut := noneReady } := by
  simp only [PortState.read, h]

/-- Reading the head releases one exchange: the count of held exchanges falls by 1. -/
theorem PortState.read_held (ps : PortState) {x : Response} {rest : List Response} (h : ps.responses = x :: rest) :
    ps.read.held + 1 = ps.held := by
  simp only [ps.read_cons h, PortState.held, h, List.length_cons, Nat.add_assoc]

theorem byteBool_eq (b : Bool) : byteBool b = [if b then 1 else 0] := by cases b <;> rfl

/-- The header of a response byte by byte, then its data (R187). -/
theorem Response.bytes_eq (x : Response) :
    x.bytes = [x.kind, x.tag, BitVec.ofNat 8 x.status.code, if x.overflow then 1 else 0] ++
      byte2 x.data.length ++ x.data := by
  rw [Response.bytes, byte1_eq, byteBool_eq]
  rfl

/-! ### A write transfer at a port (R169) -/

/-- The answer BUSY is given in the acceptance mark: what the port holds stays as it is. -/
theorem PortState.write_busy (ps : PortState) (kind tag length : Byte) (params : List Byte) (h : 4 ≤ ps.held) :
    ps.write (kind :: tag :: length :: params) = { ps with
      markOut := busyMark { kind := kind, tag := tag, length := length, params := params } ps.overflow } :=
  if_neg (Nat.not_lt.mpr h)

/-! ### The transfers of a part out of reset -/

section
variable (s : State) (port : Port) (h : s.rstn = false)
include h

theorem exec_readTransfer : exec (.readTransfer port) s = .next (s.modPort port PortState.read) := by
  change execReadTransfer port s = _
  simp only [execReadTransfer, h, Bool.false_eq_true, if_false]

theorem exec_writeTransfer (bytes : List Byte) :
    exec (.writeTransfer port bytes) s = .next (s.modPort port (fun ps => ps.write bytes)) := by
  change execWriteTransfer port bytes s = _
  simp only [execWriteTransfer, h, Bool.false_eq_true, if_false]

end

/-- Settles O7: a read transfer splits on the response queue; a BUSY answer is made in the mark alone. -/
theorem readTransferReturnsHead : Obligations.ReadTransferReturnsHead := by
  unfold Obligations.ReadTransferReturnsHead
  intro s port hrstn
  refine ⟨fun x rest hhead => ⟨_, exec_readTransfer s port hrstn, ?state, ?released⟩, fun hempty => ?noneReady,
    fun kind tag length params hfull => ⟨_, exec_writeTransfer s port hrstn _, ?busy⟩⟩
  case state => rw [State.modPort, PortState.read_cons _ hhead, Response.bytes_eq]
  case released =>
    rw [State.port, State.modPort_cpt, Cpt.get_set_same]
    exact PortState.read_held _ hhead
  case noneReady => rw [exec_readTransfer s port hrstn, State.modPort, PortState.read_nil _ hempty, noneReady]
  case busy => rw [State.port, State.modPort_cpt, Cpt.get_set_same, PortState.write_busy _ kind tag length params hfull]

end Sys2Proof.Machine
end

