-- ==== Sys2Proof/Proofs/Steps.lean ====
section
/-!
PROOFS. The steps of the part taken apart once: the row of a request as a take of its kind's owner, and every other
command as a sequence of a few operations, so that a law kept by these is kept by the command.
-/

namespace Sys2Proof.Machine

/-! ### Request rows (R170) -/

/-- The owner that serves a request of each kind at a port: the one that `exec` names (`exec_request`). -/
def Kind.serve (port : Port) : Kind → State → Request → Reply
  | .openPosition => serveOpen
  | .close => serveClose
  | .setDesk => serveSetDesk
  | .setBattery => serveSetBattery
  | .setSupervision => serveSetSupervision
  | .setCall => serveSetCall
  | .setReminder => serveSetReminder
  | .ackReminder => serveAckReminder
  | .readPosition => serveReadPosition
  | .bindLine => serveBindLine
  | .unbindLine => serveUnbindLine
  | .setSupChannel => serveSetSupChannel
  | .setEc => serveSetEc
  | .readCoeffs => serveReadCoeffs
  | .setNr => serveSetNr
  | .setSupNr => serveSetSupNr
  | .join => serveJoin
  | .changeMode => serveChangeMode
  | .leave => serveLeave
  | .readSession => serveReadSession
  | .startProgram => serveStartProgram
  | .stopProgram => serveStopProgram
  | .setHoldSource => serveSetHoldSource
  | .readVoice => serveReadVoice
  | .rescan => serveRescan
  | .readStore => serveReadStore
  | .agentPrompt => serveAgentPrompt
  | .coachPrompt => serveCoachPrompt
  | .announce => serveAnnounce
  | .clearAgentPrompts => serveClearAgentPrompts
  | .clearAnnounce => serveClearAnnounce
  | .takeReports => serveTakeReports port
  | .subscribeMeters => serveSubscribeMeters port
  | .reset => serveReset

/-- A row of the request table other than RESET takes the request for its kind's owner. -/
theorem exec_request {c : Instr} {port : Port} {k : Kind} (s : State) (h : requestRow c = some (port, k))
    (hk : k ≠ .reset) : exec c s = .next (s.take port k (k.serve port)) := by
  cases c <;> cases h
  case reset => exact absurd rfl hk
  all_goals rfl

theorem requestRow_reset {c : Instr} {port : Port} (h : requestRow c = some (port, .reset)) : c = .reset port := by
  cases c <;> cases h
  rfl

/-- What RESET does with a request that it takes: the response first, then the reset if the answer was OK (R184). -/
theorem exec_reset (s : State) (port : Port) :
    exec (.reset port) s = .next (if (s.takeRequest port .reset serveReset).2 = some .ok
      then (s.take port .reset serveReset).softReset else s.take port .reset serveReset) := by
  change Host.Outcome.next (match s.takeRequest port .reset serveReset with
      | (s1, some .ok) => s1.softReset
      | (s1, _) => s1) = _
  rw [State.take]
  generalize s.takeRequest port .reset serveReset = x
  rcases x with ⟨t, _ | ⟨_ | _⟩⟩ <;> rfl

/-- A row leaves the state as it is, or takes the oldest request, makes the answer's effect and places the response. -/
theorem State.take_cases (s : State) (port : Port) (k : Kind) (serve : State → Request → Reply) :
    s.take port k serve = s ∨ ∃ r rest, s.offers port r rest ∧ k.takes r = true ∧
      s.take port k serve = ((s.popRequest port rest).answer port r serve).state.respond port
        (responseTo r (s.port port).overflow ((s.popRequest port rest).answer port r serve)) := by
  cases hr : s.rstn with
  | true => exact .inl (s.take_held port k serve hr)
  | false =>
    cases hu : (s.port port).untaken with
    | nil => exact .inl (s.take_empty port k serve hu)
    | cons r rest =>
      cases hk : k.takes r with
      | false => exact .inl (s.take_other port k serve r rest hu hk)
      | true => exact .inr ⟨r, rest, ⟨hr, hu⟩, hk, s.take_offers port k serve r rest ⟨hr, hu⟩ hk⟩

/-- An answer is a refusal by a common check, or what the owner gives. -/
theorem State.answer_cases (s : State) (port : Port) (r : Request) (serve : State → Request → Reply) :
    (∃ status, s.answer port r serve = s.refuse status) ∨ s.answer port r serve = serve s r := by
  unfold State.answer
  cases kindOf r.kind with
  | none => exact .inl ⟨_, rfl⟩
  | some x =>
    simp only
    split
    · exact .inl ⟨_, rfl⟩
    · split
      · exact .inl ⟨_, rfl⟩
      · exact .inr rfl

/-- A law that both branches keep. -/
theorem ite_law {σ : Type} (L : σ → Prop) {c : Prop} [Decidable c] {a b : σ} (ha : L a) (hb : L b) :
    L (if c then a else b) := by
  split
  exacts [ha, hb]

/-- A row leads from `P` to `L` where its owner does: `P` stands while the request is popped, `L` while it is answered. -/
theorem State.take_law (P L : State → Prop) (hPL : ∀ t, P t → L t) (s : State) (port : Port) (k : Kind)
    (serve : State → Request → Reply) (h : P s) (hpop : ∀ rest, P (s.popRequest port rest))
    (hserve : ∀ t r, P t → L (serve t r).state) (hrespond : ∀ t x, L t → L (t.respond port x)) :
    L (s.take port k serve) := by
  obtain he | ⟨r, rest, -, -, he⟩ := s.take_cases port k serve
  · rw [he]; exact hPL s h
  · rw [he]
    refine hrespond _ _ ?_
    obtain ⟨status, ha⟩ | ha := (s.popRequest port rest).answer_cases port r serve
    · rw [ha]; exact hPL _ (hpop rest)
    · rw [ha]; exact hserve _ _ (hpop rest)

/-- Two laws that do not speak of the ports: every request row leads from `P` to `L` when every owner does and the soft
reset keeps `L`. -/
theorem request_law (P L : State → Prop) (hPL : ∀ t, P t → L t) (hcpt : ∀ s c, P s → P { s with cpt := c })
    (hcptL : ∀ s c, L s → L { s with cpt := c }) (hserve : ∀ k port s r, P s → L (Kind.serve port k s r).state)
    (hreset : ∀ s : State, L s → L s.softReset) {c : Instr} {port : Port} {k : Kind} {s t : State}
    (hc : requestRow c = some (port, k)) (h : P s) (he : exec c s = .next t) : L t := by
  have htake : ∀ k : Kind, L (s.take port k (k.serve port)) := fun k =>
    State.take_law P L hPL s port k _ h (fun _ => hcpt s _ h) (fun t r => hserve k port t r) (fun t _ ht => hcptL t _ ht)
  by_cases hk : k = .reset
  · subst hk
    rw [requestRow_reset hc, exec_reset] at he
    cases he
    split
    · exact hreset _ (htake .reset)
    · exact htake .reset
  · rw [exec_request s hc hk] at he
    cases he
    exact htake k

/-- Parameters that pass the common checks go to the owner; the others are refused (R171). -/
theorem State.withArgs_ok_law {α : Type} (L : State → Prop) (s : State) (args : Except Status α) (own : α → Reply)
    (h : L s) (hown : ∀ a, args = .ok a → L (own a).state) : L (s.withArgs args own).state := by
  cases args with
  | error e => exact h
  | ok a => exact hown a rfl

theorem State.withArgs_law {α : Type} (L : State → Prop) (s : State) (args : Except Status α) (own : α → Reply)
    (h : L s) (hown : ∀ a, L (own a).state) : L (s.withArgs args own).state :=
  s.withArgs_ok_law L args own h fun a _ => hown a

/-! ### The other commands -/

/-- The operations of which every command but a request is made keep the law `L`. -/
structure Kept (L : State → Prop) : Prop where
  powerOn : ∀ s, L s → L (State.powerOn true s.pending)
  released : ∀ s, L s → L (State.released s.pending)
  mark : ∀ s port m, L s → L (s.modPort port (fun ps => { ps with markOut := m }))
  quiet : ∀ s port m, L s → L (s.modPort port (fun ps => { ps with readOut := m }))
  write : ∀ s port bytes, L s → L (s.modPort port (fun ps => ps.write bytes))
  read : ∀ s port, L s → L (s.modPort port PortState.read)
  report : ∀ s port body, L s → L (s.report port body)
  work : ∀ s l, L s → L { s with work := l }
  ftu : ∀ s f, L s → L { s with ftu := f }
  runWork : ∀ s w, L s → L (s.runWork w)
  poolGrant : ∀ s, L s → L s.poolGrant
  grantFetch : ∀ s, L s → L s.grantFetch
  beginFrame : ∀ s, L s → L s.beginFrame
  collect : ∀ s b slots, L s → L (s.collect b slots)
  latch : ∀ s, L s → L s.latchSlots
  drive : ∀ s, L s → L s.driveNow
  toFreeRun : ∀ s, L s → L s.toFreeRun
  cutOff : ∀ s p b, L s → L (s.modHeadset p (fun h => { h with cutOff := b }))
  arrive : ∀ s p words framed, L s → L (s.modHeadset p (fun h => h.arrive words framed))
  completeFetch : ∀ s f stored, L s → s.sfe.fetch = some f → stored.length = f.count → L (s.completeFetch f stored)
  timeoutFetch : ∀ s f, L s → s.sfe.fetch = some f → L (s.timeoutFetch f)
  engine : ∀ s e, L s → e.fetch = s.sfe.fetch → L { s with sfe := e }

namespace Kept

variable {L : State → Prop} (K : Kept L) {s : State}
include K

theorem reportAll (ports : List Port) (body : ReportBody) (h : L s) : L (s.reportAll ports body) :=
  foldl_law L _ (fun t port ht => K.report t port body ht) ports s h

/-! #### Pieces of work and grants -/

theorem workOne (w : Work) (h : L s) : L (s.workOne w) := by
  unfold State.workOne
  split
  · exact K.runWork _ w (K.work s _ h)
  · exact h

theorem doWork (w : Work) (h : L s) : L (s.doWork w) := by
  unfold State.doWork
  split
  · exact foldl_law L _ (fun _ w ht => K.workOne w ht) _ s h
  · exact h

theorem poolGrants (n : Nat) : ∀ s, L s → L (State.poolGrants n s) := by
  induction n with
  | zero => exact fun _ h => h
  | succ n ih => exact fun s h => ih _ (K.poolGrant s h)

theorem settleGrants (h : L s) : L s.settleGrants := K.grantFetch _ (K.poolGrants 12 s h)

theorem doWorkGrant (w : Work) (h : L s) : L (s.doWorkGrant w) := by
  unfold State.doWorkGrant
  split
  · exact K.settleGrants (K.doWork w h)
  · exact h

theorem finishWork (held : List Work) (h : L s) : L (s.finishWork held) :=
  foldl_law L _ (fun _ w ht => K.doWorkGrant w ht) _ s h

theorem eventWork (w : Work) (due : State → Bool) (h : L s) : L (s.eventWork w due) := by
  have hbefore : L ((workBefore w).foldl State.workOne s) := foldl_law L _ (fun _ w ht => K.workOne w ht) _ s h
  unfold State.eventWork
  split
  · exact ite_law L (K.workOne w hbefore) h
  · exact h

/-! #### Frame events and sample periods -/

theorem beginDue (h : L s) : L s.beginDue := by
  unfold State.beginDue
  split
  · exact K.beginFrame _ (K.finishWork [] h)
  · exact h

theorem frameEvent (order held : List Work) (h : L s) : L (s.frameEvent order held) :=
  K.finishWork held (foldl_law L _ (fun _ w ht => K.doWork w ht) order _ (K.beginDue h))

theorem settle (h : L s) : L s.settle := K.settleGrants (K.frameEvent [] [] h)

theorem endPeriod (b : Bool) (slots : List Word16) (h : L s) : L (s.endPeriod b slots) := by
  have hl := K.latch _ (K.collect s b slots h)
  unfold State.endPeriod
  simp only
  split
  · exact K.drive _ (K.ftu _ _ hl)
  · exact K.ftu _ _ hl

theorem samplePeriod (slots : List Word16) (h : L s) : L (s.samplePeriod slots) := by
  unfold State.samplePeriod
  split
  · split
    · exact K.endPeriod true slots (K.settle h)
    · exact h
  · exact K.endPeriod false [] (K.settle h)

/-! #### Syncs and the gap -/

theorem settlePeriod (h : L s) : L s.settlePeriod := by
  unfold State.settlePeriod
  split
  · exact K.endPeriod true [] (K.settle h)
  · exact h

theorem loseSync (slots : List Word16) (order : List Work) (h : L s) : L (s.loseSync slots order) := by
  unfold State.loseSync
  split
  · exact h
  · exact K.toFreeRun s h
  · have h1 := K.endPeriod true slots (K.settle (K.settlePeriod (K.settle h)))
    exact K.endPeriod false [] (K.report _ _ _ (K.toFreeRun _ (ite_law L (K.frameEvent order [] h1) h1)))

theorem lock (t : Nat) (h : L s) : L (s.lock t) :=
  K.report _ _ _ (K.latch _ (foldl_law L _ (fun u p hu => K.cutOff u p _ hu) _ _
    (K.beginFrame _ (K.ftu _ _ (K.finishWork [] h)))))

theorem sync (t : Nat) (h : L s) : L (s.sync t) := by
  unfold State.sync
  split
  · exact K.ftu s _ h
  · split
    · exact K.ftu s _ h
    · split
      · exact K.ftu s _ h
      · exact K.lock t h
  · split
    · exact h
    · exact K.ftu _ _ (K.settlePeriod h)

theorem seeSync (t : Nat) (h : L s) : L (s.seeSync t) := by
  unfold State.seeSync
  split
  · exact K.sync t (K.loseSync [] [] h)
  · exact K.sync t h

/-! #### The store -/

theorem failScan (h : L s) : L s.failScan := K.reportAll _ _ (K.engine s _ h rfl)

theorem endScan (head directory : List Byte) (h : L s) : L (s.endScan head directory) := by
  unfold State.endScan
  split
  · exact K.reportAll _ _ (K.engine s _ h rfl)
  · exact K.failScan h

theorem scanReadDone (bytes : List Byte) (h : L s) {t : State} (he : execScanReadDone bytes s = .next t) : L t := by
  unfold execScanReadDone at he
  cases he
  split
  · exact h
  · split
    · exact h
    · split
      · unfold State.headerRead
        split
        · exact K.failScan h
        · split
          · exact K.endScan _ _ h
          · exact K.engine s _ h rfl
      · exact h
    · unfold State.directoryRead
      simp only
      split
      · exact K.endScan _ _ h
      · exact K.engine s _ h rfl

/-! #### Every command but a request -/

/-- A law kept by the operations is kept by every command that is no request. -/
theorem exec {c : Instr} {t : State} (hc : requestRow c = none) (h : L s)
    (he : Machine.exec c s = .next t) : L t := by
  cases c <;> try cases hc
  case rstnAssert => cases he; exact K.powerOn s h
  case rstnRelease =>
    cases he
    split
    · exact K.released s h
    · exact h
  case writeTransfer port bytes =>
    cases he
    cases s.rstn
    · exact K.write s port bytes h
    · exact K.mark s port [] h
  case readTransfer port =>
    cases he
    cases s.rstn
    · exact K.read s port h
    · exact K.quiet s port [] h
  case samplePeriod slots => cases he; split; exacts [h, K.samplePeriod slots h]
  case frameEvent order held => cases he; split; exacts [h, K.frameEvent order held h]
  case highwaySync t => cases he; split; exacts [h, K.seeSync t h]
  case syncGapTimeout slots order => cases he; split; exacts [h, K.loseSync slots order h]
  case headsetFrameArrival p words framed => cases he; split; exacts [h, K.arrive s p words framed h]
  case fetchGrant => cases he; split; exacts [h, K.grantFetch s h]
  case voicePoolGrant => cases he; split; exacts [h, K.poolGrant s h]
  case fetchCompletion samples =>
    cases he
    split
    · exact h
    · next f hf => split; exacts [K.completeFetch s f samples h hf (by simp_all), h]
  case fetchTimeout =>
    cases he
    split
    · exact h
    · next f hf => split; exacts [K.timeoutFetch s f h hf, h]
  case scanReadDone bytes => exact K.scanReadDone bytes h he
  case scanReadTimeout => cases he; split; exacts [h, K.failScan h]
  all_goals cases he; exact K.eventWork _ _ h

end Kept

/-- Two laws that do not speak of the ports or of the waiting commands: a step leads from `P` to `L` when every operation
keeps `L`, every owner leads there from `P`, and the soft reset keeps `L`. -/
theorem step_law_from (P L : State → Prop) (hPL : ∀ t, P t → L t) (K : Kept L)
    (hcpt : ∀ s c, P s → P { s with cpt := c }) (hcptL : ∀ s c, L s → L { s with cpt := c })
    (hpending : ∀ s l, P s → P { s with pending := l })
    (hserve : ∀ k port s r, P s → L (Kind.serve port k s r).state) (hreset : ∀ s : State, L s → L s.softReset)
    {s t : State} (h : P s) (he : step s = .next t) : L t := by
  unfold step at he
  split at he
  · cases he; exact hPL s h
  · next c rest hp =>
    have h' : P { s with pending := rest } := hpending s rest h
    cases hc : requestRow c with
    | none => exact K.exec hc (hPL _ h') he
    | some x => exact request_law P L hPL hcpt hcptL hserve hreset hc h' he

/-- A law that every operation, every owner and the soft reset keep is kept by every step. -/
theorem step_law (L : State → Prop) (K : Kept L) (hcpt : ∀ s c, L s → L { s with cpt := c })
    (hpending : ∀ s l, L s → L { s with pending := l })
    (hserve : ∀ k port s r, L s → L (Kind.serve port k s r).state) (hreset : ∀ s : State, L s → L s.softReset)
    {s t : State} (h : L s) (he : step s = .next t) : L t :=
  step_law_from L L (fun _ => id) K hcpt hcpt hpending hserve hreset h he

end Sys2Proof.Machine
end

