-- ==== Sys2Proof/Proofs/PortLaws.lean ====
section
/-!
PROOFS. The laws of the report queues and of the exchanges (R168, R169, R176 to R179) through every step.
-/

namespace Sys2Proof.Machine

/-! ### A report that arrives at a queue (R176 to R178) -/

/-- The law of one port's report queue and overflow flag (R177, R179). -/
def PortState.Lawful (ps : PortState) : Prop :=
  ReportsLawful ps.reports ∧ (ps.reports = [] → ps.overflow = false)

theorem Report.sameMeter_iff (r h : Report) : r.sameMeter h = true ↔ r.meterOf ≠ none ∧ h.meterOf = r.meterOf := by
  rw [Report.sameMeter, Bool.and_eq_true, beq_iff_eq, Option.isSome_iff_ne_none, eq_comm (a := r.meterOf)]

theorem Report.sameMeter_comm (r h : Report) : r.sameMeter h = h.sameMeter r := by
  rw [Bool.eq_iff_iff, r.sameMeter_iff, h.sameMeter_iff]
  grind

/-- A METER report is NORMAL (R175). -/
theorem Report.urgent_of_meterOf {r : Report} (h : r.meterOf ≠ none) : r.urgent = false := by
  revert h
  unfold Report.meterOf Report.urgent
  cases r.body <;> simp [ReportBody.urgent]

/-- A report put in the place of one for the same position has its class and its position. -/
theorem Report.replace_eq (r h : Report) :
    (if r.sameMeter h then r else h).meterOf = h.meterOf ∧ (if r.sameMeter h then r else h).urgent = h.urgent := by
  split
  · next hs =>
    obtain ⟨hr, hh⟩ := (r.sameMeter_iff h).mp hs
    exact ⟨hh.symm, by rw [urgent_of_meterOf hr, urgent_of_meterOf (hh ▸ hr)]⟩
  · exact ⟨rfl, rfl⟩

/-- Replacing a METER in its place keeps the law of a queue (R178). -/
theorem ReportsLawful.replace {l : List Report} (r : Report) (h : ReportsLawful l) :
    ReportsLawful (l.map (fun x => if r.sameMeter x then r else x)) := by
  obtain ⟨hlen, hclass, hmeter⟩ := h
  refine ⟨by simpa using hlen, List.pairwise_map.mpr (hclass.imp fun {a b} hab => ?_),
    List.pairwise_map.mpr (hmeter.imp fun {a b} hab => ?_)⟩
  · rw [(r.replace_eq a).2, (r.replace_eq b).2]; exact hab
  · rw [Report.sameMeter, (r.replace_eq a).1, (r.replace_eq b).1]; exact hab

/-- A lawful queue is its URGENT entries, then its NORMAL ones. -/
theorem ReportsLawful.groups {l : List Report} (h : ReportsLawful l) :
    (∀ x ∈ l.takeWhile Report.urgent, x.urgent = true) ∧ ∀ x ∈ l.dropWhile Report.urgent, x.urgent = false := by
  refine ⟨fun x hx => List.mem_takeWhile_imp hx, ?_⟩
  have hclass : (l.dropWhile Report.urgent).Pairwise (fun a b => b.urgent = true → a.urgent = true) :=
    h.2.1.sublist (List.dropWhile_sublist _)
  cases hd : l.dropWhile Report.urgent with
  | nil => simp
  | cons a m =>
    have ha : a.urgent = false := by
      have := List.head_dropWhile_not Report.urgent (l := l) (by simp [hd])
      simpa [hd] using this
    rw [hd] at hclass
    intro x hx
    obtain rfl | hx := List.mem_cons.mp hx
    · exact ha
    · exact Bool.eq_false_iff.mpr fun hu => absurd (List.rel_of_pairwise_cons hclass hx hu) (by simp [ha])

/-- A part of a lawful queue, in its order, is lawful. -/
theorem ReportsLawful.sublist {l m : List Report} (h : ReportsLawful l) (hm : m.Sublist l) : ReportsLawful m :=
  ⟨hm.length_le.trans h.1, h.2.1.sublist hm, h.2.2.sublist hm⟩

/-- A report between the two groups of a queue with room keeps the law (R176). -/
theorem ReportsLawful.insert {l m : List Report} {r : Report} (h : ReportsLawful (l ++ m))
    (hroom : (l ++ m).length < 32) (hnew : ∀ x ∈ l ++ m, r.sameMeter x = false)
    (hl : r.urgent = true → ∀ x ∈ l, x.urgent = true) (hm : ∀ x ∈ m, x.urgent = false) :
    ReportsLawful (l ++ r :: m) := by
  obtain ⟨-, hclass, hmeter⟩ := h
  rw [List.pairwise_append] at hclass hmeter
  obtain ⟨hcl, hcm, hclm⟩ := hclass
  obtain ⟨hml, hmm, hmlm⟩ := hmeter
  simp only [List.length_append] at hroom
  refine ⟨by simp; omega, List.pairwise_append.mpr ⟨hcl, List.pairwise_cons.mpr ⟨?_, hcm⟩, ?_⟩,
    List.pairwise_append.mpr ⟨hml, List.pairwise_cons.mpr ⟨fun x hx => hnew x (by simp [hx]), hmm⟩, ?_⟩⟩
  · intro x hx hu
    simp [hm x hx] at hu
  · intro x hx y hy
    obtain rfl | hy := List.mem_cons.mp hy
    · exact fun hu => hl hu x hx
    · exact hclm x hx y hy
  · intro x hx y hy
    obtain rfl | hy := List.mem_cons.mp hy
    · rw [Report.sameMeter_comm]; exact hnew x (by simp [hx])
    · exact hmlm x hx y hy

theorem ReportsLawful.insertUrgent {l : List Report} {r : Report} (h : ReportsLawful l) (hroom : l.length < 32)
    (hnew : ∀ x ∈ l, r.sameMeter x = false) : ReportsLawful (insertUrgent l r) := by
  obtain ⟨hu, hn⟩ := h.groups
  refine ReportsLawful.insert (l := l.takeWhile Report.urgent) (m := l.dropWhile Report.urgent) ?_ ?_ ?_ (fun _ => hu) hn
  all_goals rw [List.takeWhile_append_dropWhile]
  exacts [h, hroom, hnew]

/-- Every way a report is placed keeps the law of the queue and its flag (R176 to R179). -/
theorem PortState.Lawful.place {ps : PortState} (r : Report) (h : ps.Lawful) : (placeReport ps r).Lawful := by
  obtain ⟨hl, ho⟩ := h
  unfold placeReport
  by_cases hany : ps.reports.any r.sameMeter = true
  · rw [if_pos hany]
    exact ⟨hl.replace r, fun he => ho (List.map_eq_nil_iff.mp he)⟩
  have hnew : ∀ x ∈ ps.reports, r.sameMeter x = false := by simpa using hany
  rw [if_neg hany, Config.reportDepth]
  by_cases hroom : ps.reports.length < 32
  · rw [if_pos hroom]
    by_cases hu : r.urgent = true
    · simp only [insertReport, hu, if_true]
      exact ⟨hl.insertUrgent hroom hnew, fun he => by simp [Machine.insertUrgent] at he⟩
    · simp only [insertReport, hu]
      exact ⟨ReportsLawful.insert (by simpa using hl) (by simpa using hroom) (by simpa using hnew)
        (fun h => absurd h hu) (by simp), fun he => by simp at he⟩
  rw [if_neg hroom]
  split
  · refine ⟨(hl.sublist (List.dropLast_sublist _)).insertUrgent ?_ (fun x hx => hnew x (List.dropLast_subset _ hx)),
      fun he => by simp [Machine.insertUrgent] at he⟩
    have := hl.1
    simp only [List.length_dropLast]
    omega
  · exact ⟨hl, fun he => absurd (List.length_eq_zero_iff.mpr he ▸ Nat.zero_lt_succ 31) hroom⟩

/-- Taking entries from the head keeps the law, and clears the flag with the last of them (R179, R181). -/
theorem PortState.Lawful.takeEntries {ps : PortState} (n : Nat) (h : ps.Lawful) : (takeEntries ps n).Lawful := by
  obtain ⟨hl, ho⟩ := h
  refine ⟨hl.sublist (List.drop_sublist _ _), fun (he : ps.reports.drop n = []) => ?_⟩
  simp only [Machine.takeEntries, he]
  cases hr : ps.reports with
  | nil => simp [ho hr]
  | cons => simp

theorem placeReport_exchanges (ps : PortState) (r : Report) :
    (placeReport ps r).untaken = ps.untaken ∧ (placeReport ps r).responses = ps.responses := by
  unfold placeReport
  split_ifs <;> exact ⟨rfl, rfl⟩

/-! ### Properties of the ports that reports keep -/

/-- Every port has the property `P`. -/
def State.AllPorts (P : Port → PortState → Prop) (s : State) : Prop := ∀ port, P port (s.port port)

/-- A property of a port that a placed report, entries taken, and a change of the meter subscription keep. -/
structure PortKept (P : Port → PortState → Prop) : Prop where
  place : ∀ port ps r, P port ps → P port (placeReport ps r)
  take : ∀ port ps n, P port ps → P port (takeEntries ps n)
  meter : ∀ port ps mask period counter, P port ps →
    P port { ps with mask := mask, period := period, counter := counter }

/-- A change that reaches no port keeps what holds of the ports. -/
theorem State.AllPorts.of_cpt {P : Port → PortState → Prop} {s t : State} (h : s.AllPorts P) (ht : t.cpt = s.cpt := by simp) :
    t.AllPorts P := fun port => by rw [State.port, ht]; exact h port

theorem State.AllPorts.setQueue {P : Port → PortState → Prop} {s : State} (h : s.AllPorts P) (p : Fin 16) (q : QueueId)
    (l : List Entry) : (s.setQueue p q l).AllPorts P := h.of_cpt (State.setQueue_cpt s p q l)

theorem State.AllPorts.offer {P : Port → PortState → Prop} {s : State} (h : s.AllPorts P) (p : Fin 16) (k : AutoKind) :
    (s.offer p k).AllPorts P := h.of_cpt (by rw [State.offer_eq])

theorem State.AllPorts.releaseLine {P : Port → PortState → Prop} {s : State} (h : s.AllPorts P) (p : Fin 16) :
    (s.releaseLine p).AllPorts P := h.of_cpt

theorem State.AllPorts.joinTail {P : Port → PortState → Prop} {s : State} (h : s.AllPorts P) (p : Fin 16) (q : QueueId)
    (e : Entry) : (s.joinTail p q e).state.AllPorts P := by
  unfold State.joinTail
  simp only
  split
  · exact h.setQueue _ _ _
  · exact h

theorem State.AllPorts.modPort {P : Port → PortState → Prop} {s : State} (h : s.AllPorts P) (port : Port)
    (f : PortState → PortState) (hf : P port (s.port port) → P port (f (s.port port))) :
    (s.modPort port f).AllPorts P := by
  intro x
  rw [State.port, State.modPort_cpt, Cpt.get_set]
  split
  · next hx => subst hx; exact hf (h x)
  · exact h x

namespace PortKept

variable {P : Port → PortState → Prop} (K : PortKept P) {s : State}
include K

theorem report (port : Port) (body : ReportBody) (h : s.AllPorts P) : (s.report port body).AllPorts P :=
  h.modPort port _ (K.place port _ _)

theorem reportAll (ports : List Port) (body : ReportBody) (h : s.AllPorts P) : (s.reportAll ports body).AllPorts P :=
  foldl_law (State.AllPorts P) _ (fun _ port ht => K.report port body ht) ports s h

theorem endSession (c : Fin 4) (reason : SessionEnd) (h : s.AllPorts P) : (s.endSession c reason).AllPorts P := by
  unfold State.endSession
  split
  · exact h
  · split
    · exact h
    · exact K.report _ _ h.of_cpt

theorem endSessionsOn (p : Fin 16) (reason : SessionEnd) (h : s.AllPorts P) : (s.endSessionsOn p reason).AllPorts P :=
  foldl_law (State.AllPorts P) _ (fun _ c ht => ite_law _ (K.endSession c reason ht) ht) _ s h

theorem promptDone (p : Fin 16) (q : QueueId) (e : Entry) (o : PromptOutcome) (n : Nat) (l : List Nat)
    (h : s.AllPorts P) : (s.promptDone p q e o n l).AllPorts P := K.report _ _ h

theorem cancelEntry (p : Fin 16) (q : QueueId) (e : Entry) (h : s.AllPorts P) : (s.cancelEntry p q e).AllPorts P := by
  unfold State.cancelEntry
  split
  · exact K.promptDone _ _ _ _ _ _ h
  · exact K.promptDone _ _ _ _ _ _ h.of_cpt

theorem flushQueue (p : Fin 16) (q : QueueId) (h : s.AllPorts P) : (s.flushQueue p q).AllPorts P :=
  foldl_law (State.AllPorts P) _ (fun _ e ht => K.cancelEntry p q e ht) _ _ (h.setQueue p q [])

theorem idleEffects (p : Fin 16) (h : s.AllPorts P) : (s.idleEffects p).AllPorts P :=
  K.flushQueue p .line (K.endSessionsOn p .callEnded h)

/-! #### Pieces of work -/

theorem runPresence (p : Fin 16) (h : s.AllPorts P) : (s.runPresence p).AllPorts P := by
  unfold State.runPresence
  simp only
  repeat' split
  all_goals first | exact K.report _ _ h.of_cpt | exact h.of_cpt

theorem runButton (p : Fin 16) (h : s.AllPorts P) : (s.runButton p).AllPorts P := by
  unfold State.runButton
  simp only
  split
  · exact K.report _ _ (ite_law (State.AllPorts P) h.of_cpt h.of_cpt)
  · exact h.of_cpt

theorem runBattery (p : Fin 16) (h : s.AllPorts P) : (s.runBattery p).AllPorts P := by
  unfold State.runBattery
  simp only
  repeat' split
  · exact h.of_cpt
  · exact State.AllPorts.offer (K.report _ _ h.of_cpt) _ _
  · exact State.AllPorts.offer (K.reportAll _ _ h.of_cpt) _ _
  · exact State.AllPorts.offer (K.reportAll _ _ h.of_cpt) _ _
  · exact h.of_cpt
  · exact h

theorem runReminder (p : Fin 16) (h : s.AllPorts P) : (s.runReminder p).AllPorts P := by
  unfold State.runReminder
  simp only
  repeat' split
  all_goals first | exact State.AllPorts.offer (K.reportAll _ _ h.of_cpt) _ _ | exact h.of_cpt

theorem runMuted (p : Fin 16) (h : s.AllPorts P) : (s.runMuted p).AllPorts P := by
  unfold State.runMuted
  simp only
  repeat' split
  all_goals first | exact State.AllPorts.offer (K.report _ _ h.of_cpt) _ _ | exact h.of_cpt

theorem runEcho (p : Fin 16) (h : s.AllPorts P) : (s.runEcho p).AllPorts P := by
  unfold State.runEcho
  simp only
  split
  · exact K.report _ _ h.of_cpt
  · exact h.of_cpt

theorem completePrompt (v : Fin 12) (h : s.AllPorts P) : (s.completePrompt v).AllPorts P := by
  unfold State.completePrompt
  simp only
  repeat' split
  all_goals first | exact K.promptDone _ _ _ _ _ _ (State.AllPorts.setQueue h.of_cpt _ _ _) | exact h.of_cpt

theorem runVoice (v : Fin 12) (h : s.AllPorts P) : (s.runVoice v).AllPorts P := by
  unfold State.runVoice
  simp only
  split
  · exact K.completePrompt v h.of_cpt
  · exact foldl_law (State.AllPorts P) _ (fun _ code ht => K.report _ _ ht) _ _ h.of_cpt

theorem runClose (p : Fin 16) (h : s.AllPorts P) : (s.runClose p).AllPorts P := by
  unfold State.runClose State.completeClose
  repeat' split
  all_goals first | exact h | exact K.reportAll _ _ h.of_cpt

theorem meterReports (port : Port) (h : s.AllPorts P) : (s.meterReports port).AllPorts P :=
  foldl_law (State.AllPorts P) _ (fun _ _ ht => ite_law _ (K.report _ _ ht) ht) _ s h

theorem runMeterPeriod (port : Port) (h : s.AllPorts P) : (s.runMeterPeriod port).AllPorts P := by
  unfold State.runMeterPeriod
  repeat' split
  · exact h
  · exact K.meterReports port (h.modPort port _ (K.meter port _ _ _ _))
  · exact h.modPort port _ (K.meter port _ _ _ _)

/-- Every piece of work reaches the ports by reports and by its meter period alone. -/
theorem runWork (w : Work) (h : s.AllPorts P) : (s.runWork w).AllPorts P := by
  cases w with
  | presence p => exact K.runPresence p h
  | button p => exact K.runButton p h
  | battery p => exact K.runBattery p h
  | reminder p => exact K.runReminder p h
  | muted p => exact K.runMuted p h
  | echo p => exact K.runEcho p h
  | noise n => exact h.of_cpt rfl
  | mix => exact h.of_cpt rfl
  | meterClose => exact ite_law (State.AllPorts P) (h.of_cpt rfl) h
  | earpiece p => exact h.of_cpt rfl
  | highwayOut => exact h.of_cpt (by simp only [State.runWork, State.runHighwayOut, State.driveNow_cpt])
  | voice v => exact K.runVoice v h
  | close p => exact K.runClose p h
  | meterPeriod port => exact K.runMeterPeriod port h

/-! #### Owners of requests -/

theorem close (p : Fin 16) (plan : Plan) (h : s.AllPorts P) : (s.close p plan).AllPorts P := by
  have h1 : (s.modPos p (fun x => { x with state := .closing, closePlan := some plan })).AllPorts P := h.of_cpt
  have h3 := K.flushQueue p .line (K.flushQueue p .agent (K.endSessionsOn p .closed h1))
  exact h3.of_cpt (by simp [State.close])

theorem setSupervision (p : Fin 16) (allowed : Bool) (h : s.AllPorts P) : (s.setSupervision p allowed).AllPorts P := by
  have h1 : (s.modPos p (fun x => { x with supervisionAllowed := allowed })).AllPorts P := h.of_cpt
  unfold State.setSupervision
  simp only
  split
  exacts [K.endSessionsOn p _ h1, h1]

/-- The IDLE effects after a change of the position record. -/
theorem idled (p : Fin 16) (f : Position → Position) (h : s.AllPorts P) :
    ((s.modPos p f).idleEffects p).AllPorts P := K.idleEffects p h.of_cpt

theorem setCall (p : Fin 16) (c : CallState) (h : s.AllPorts P) : (s.setCall p c).state.AllPorts P := by
  unfold State.setCall
  simp only
  repeat' split
  all_goals dsimp only [State.okay, State.refuse]
  exacts [h, h, h, h.of_cpt, h, h.of_cpt, h, h.of_cpt, K.idled p _ h, K.idled p _ h, h]

theorem unbindLine (p : Fin 16) (h : s.AllPorts P) : (s.unbindLine p).AllPorts P := by
  unfold State.unbindLine
  split
  · exact h.of_cpt
  · exact State.AllPorts.releaseLine (K.idled p _ h) p
  · exact State.AllPorts.releaseLine (K.idled p _ h) p

theorem unbindChannel (c : Fin 4) (h : s.AllPorts P) : (s.unbindChannel c).AllPorts P := by
  unfold State.unbindChannel
  split
  · have h1 : State.AllPorts P { s with
        hwi := { s.hwi with channels := s.hwi.channels.set c none, supOut := s.hwi.supOut.set c none } } := h.of_cpt
    exact (K.endSession c .channelUnbound h1).of_cpt
  · exact h

theorem clearQueue (p : Fin 16) (q : QueueId) (h : s.AllPorts P) : (s.clearQueue p q).state.AllPorts P := by
  unfold State.clearQueue
  split
  · exact h
  · exact K.flushQueue p q h

/-- Every owner reaches the ports by reports, and at its own port by the reports it takes and its subscription. -/
theorem serve (k : Kind) (port : Port) (r : Request) (h : s.AllPorts P) : (k.serve port s r).state.AllPorts P := by
  cases k <;> refine State.withArgs_law (State.AllPorts P) s _ _ h fun a => ?_
  case close =>
    dsimp only
    split
    exacts [h, K.close _ _ h, h.of_cpt (by simp [State.okay])]
  case setSupervision =>
    dsimp only
    split
    exacts [h, K.setSupervision _ _ h]
  case setCall => exact K.setCall _ _ h
  case unbindLine =>
    split
    exacts [K.unbindLine _ h, h]
  case setSupChannel =>
    dsimp only
    repeat' split
    exacts [K.unbindChannel _ h, h, h, h.of_cpt (by simp [State.okay, State.bindChannel])]
  case agentPrompt =>
    dsimp only
    split
    exacts [h.joinTail _ _ _, h]
  case coachPrompt =>
    dsimp only
    repeat' split
    exacts [h, h.joinTail _ _ _, h]
  case announce =>
    dsimp only
    split
    exacts [h.joinTail _ _ _, h]
  case clearAgentPrompts => exact K.clearQueue _ _ h
  case clearAnnounce => exact K.clearQueue _ _ h
  case takeReports => exact h.modPort port _ (K.take port _ _)
  case subscribeMeters => exact h.modPort port _ (K.meter port _ _ _ _)
  case setEc =>
    dsimp only [State.setEc]
    repeat' split
    exacts [h, h.of_cpt (by simp [State.okay]), h.of_cpt (by simp [State.okay])]
  all_goals
    try dsimp only
    repeat' split
    all_goals exact h

end PortKept

/-! ### The lawful ports -/

/-- A port's report queue keeps its law, and the port holds at most `n` exchanges. -/
def Holding (n : Port → Nat) (port : Port) (ps : PortState) : Prop := ps.Lawful ∧ ps.held ≤ n port

theorem PortState.held_eq (ps : PortState) : ps.held = ps.untaken.length + ps.responses.length := rfl

theorem holding_kept (n : Port → Nat) : PortKept (Holding n) where
  place port ps r h := by
    refine ⟨h.1.place r, ?_⟩
    obtain ⟨hu, hr⟩ := placeReport_exchanges ps r
    rw [PortState.held_eq, hu, hr]
    exact h.2
  take _ _ n h := ⟨h.1.takeEntries n, h.2⟩
  meter _ _ _ _ _ h := h

theorem allPorts_holding (s : State) : s.AllPorts (Holding fun _ => 4) ↔ s.ReportLaw ∧ s.ExchangeLaw :=
  ⟨fun h => ⟨fun port => (h port).1, fun port => (h port).2⟩, fun h port => ⟨h.1 port, h.2 port⟩⟩

theorem holding_powerOn (port : Port) : Holding (fun _ => 4) port .powerOn := by
  refine ⟨⟨⟨by decide, List.Pairwise.nil, List.Pairwise.nil⟩, fun _ => rfl⟩, Nat.zero_le _⟩

theorem allPorts_powerOn {P : Port → PortState → Prop} {s : State} (hs : s.cpt = .powerOn)
    (h : ∀ port, P port .powerOn) : s.AllPorts P := by
  intro port
  rw [State.port, hs]
  cases port <;> exact h _

/-- Every operation but a request keeps the laws of the ports. -/
theorem ports_kept : Kept (State.AllPorts (Holding fun _ => 4)) where
  powerOn _ _ := allPorts_powerOn rfl holding_powerOn
  released _ _ := allPorts_powerOn rfl holding_powerOn
  mark _ port _ h := h.modPort port _ id
  quiet _ port _ h := h.modPort port _ id
  write s port bytes h := h.modPort port _ fun hp => by
    unfold PortState.write
    split
    · exact hp
    · split
      · next hroom =>
        simp only [Config.exchangeDepth, PortState.held_eq] at hroom
        refine ⟨hp.1, ?_⟩
        simp only [PortState.held_eq, List.length_append, List.length_singleton]
        omega
      · exact hp
  read s port h := h.modPort port _ fun hp => by
    unfold PortState.read
    split
    · exact hp
    · next x rest hr =>
      obtain ⟨hl, hn⟩ := hp
      simp only [PortState.held_eq, hr, List.length_cons] at hn
      exact ⟨hl, by simp only [PortState.held_eq]; omega⟩
  report _ port body h := (holding_kept _).report port body h
  work _ _ h := h
  ftu _ _ h := h
  runWork _ w h := (holding_kept _).runWork w h
  poolGrant s h := by
    obtain ⟨_, _, he⟩ := s.poolGrant_frame
    rw [he]
    exact h
  grantFetch s h := by
    obtain ⟨_, _, he⟩ := s.grantFetch_frame
    rw [he]
    exact h
  beginFrame _ h := h.of_cpt (by simp only [State.beginFrame])
  collect _ _ _ h := h.of_cpt (by simp only [State.collect])
  latch _ h := h.of_cpt (by simp only [State.latchSlots])
  drive _ h := h.of_cpt
  toFreeRun _ h := h.of_cpt (by simp only [State.toFreeRun])
  cutOff _ _ _ h := h.of_cpt
  arrive _ _ _ _ h := h.of_cpt
  completeFetch _ _ _ h _ _ := h.of_cpt (by simp [State.completeFetch])
  timeoutFetch s f h _ := by
    unfold State.timeoutFetch
    dsimp only
    split
    · exact (holding_kept _).reportAll _ _ (h.of_cpt rfl)
    · exact h.of_cpt rfl
  engine _ _ h _ := h

/-- The soft reset answers what waits, empties the report queues and places RESET_DONE (R184). -/
theorem ports_softReset (s : State) (h : s.AllPorts (Holding fun _ => 4)) :
    s.softReset.AllPorts (Holding fun _ => 4) := by
  have hsoft : ∀ ps : PortState, ps.held ≤ 4 → Holding (fun _ => 4) .line ps.softReset := fun ps hn => by
    refine ⟨⟨⟨Nat.zero_le _, List.Pairwise.nil, List.Pairwise.nil⟩, fun _ => rfl⟩, ?_⟩
    simp only [PortState.held_eq] at hn
    simp only [PortState.held_eq, PortState.softReset, List.length_nil, List.length_append, List.length_map]
    omega
  refine (holding_kept _).reportAll _ _ ?_
  intro port
  have hport := hsoft _ (h port).2
  have hblocks : ∀ t : State, t.resetBlocks.cpt = t.cpt := fun t => by
    unfold State.resetBlocks
    dsimp only
    split
    · rfl
    · rfl
  rw [State.port, hblocks]
  cases port <;> exact hport

/-- A request leaves its port as an untaken exchange and comes back to it as a response (R168 to R170). -/
theorem ports_take (s : State) (port : Port) (k kind : Kind) (h : s.AllPorts (Holding fun _ => 4)) :
    (s.take port k (kind.serve port)).AllPorts (Holding fun _ => 4) := by
  obtain he | ⟨r, rest, hoff, -, he⟩ := s.take_cases port k (kind.serve port)
  · rwa [he]
  rw [he]
  let n : Port → Nat := fun x => if x = port then 3 else 4
  have hpop : (s.popRequest port rest).AllPorts (Holding n) := by
    intro x
    have hx := h x
    rw [State.port, State.popRequest_cpt, Cpt.get_set]
    split
    · next hp =>
      subst hp
      obtain ⟨hl, hn⟩ := hx
      simp only [State.port, PortState.held_eq, hoff.2, List.length_cons] at hn
      exact ⟨hl, by simp only [PortState.held_eq, n, if_true]; omega⟩
    · next hp => exact ⟨hx.1, by simpa [n, hp] using hx.2⟩
  have hanswer : ((s.popRequest port rest).answer port r (kind.serve port)).state.AllPorts (Holding n) := by
    obtain ⟨status, ha⟩ | ha := (s.popRequest port rest).answer_cases port r (kind.serve port)
    · rw [ha]; exact hpop
    · rw [ha]; exact (holding_kept n).serve kind port r hpop
  intro x
  have hx := hanswer x
  rw [State.port, State.respond_cpt, Cpt.get_set]
  split
  · next hp =>
    subst hp
    obtain ⟨hl, hn⟩ := hx
    simp only [State.port, PortState.held_eq, n, if_true] at hn
    exact ⟨hl, by simp only [PortState.held_eq, List.length_append, List.length_singleton]; omega⟩
  · next hp => exact ⟨hx.1, by simpa [n, hp] using hx.2⟩

/-- Settles O54: reports keep the law of a queue wherever they are placed, and a request taken makes room for its
response. -/
theorem stepKeepsPortLaws : Obligations.StepKeepsPortLaws := by
  unfold Obligations.StepKeepsPortLaws
  intro s t hreport hexchange he
  rw [← allPorts_holding]
  have h : s.AllPorts (Holding fun _ => 4) := (allPorts_holding s).mpr ⟨hreport, hexchange⟩
  unfold step at he
  split at he
  · cases he
    exact h
  · next c rest _ =>
    have h' : State.AllPorts (Holding fun _ => 4) { s with pending := rest } := h
    cases hc : requestRow c with
    | none => exact ports_kept.exec hc h' he
    | some x =>
      obtain ⟨port, k⟩ := x
      by_cases hk : k = .reset
      · subst hk
        rw [requestRow_reset hc, exec_reset] at he
        cases he
        have htake := ports_take _ port .reset .reset h'
        exact ite_law _ (ports_softReset _ htake) htake
      · rw [exec_request _ hc hk] at he
        cases he
        exact ports_take _ port k k h'

end Sys2Proof.Machine
end

