-- ==== Sys2Proof/Proofs/Frames.lean ====
section
/-!
PROOFS. What a piece of a frame event's work leaves of the records: the sessions and the channel bindings as they were,
and of a position record all but what its evaluations and its close completion write (R7, R15 to R23).
-/

namespace Sys2Proof.Machine

/-! ### What the work may write in a position record -/

/-- What a frame event's work may make of a position record `x`: its evaluations write its desk and headset fields, stop
or run down a reminder, and a close completes (R7, R8, R15 to R23). -/
structure Position.Worked (x y : Position) : Prop where
  state : (y.state = x.state ∧ y.closePlan = x.closePlan ∧ y.retained = x.retained) ∨
    (x.state = .closing ∧ y.state = .closed ∧ y.closePlan = none)
  line : y.line = x.line
  call : y.call = x.call
  holdSource : y.holdSource = x.holdSource
  holdGain : y.holdGain = x.holdGain
  supervisionAllowed : y.supervisionAllowed = x.supervisionAllowed
  earGain : y.earGain = x.earGain
  promptGain : y.promptGain = x.promptGain
  announceGain : y.announceGain = x.announceGain
  noise : y.noise = x.noise
  batteryLow : y.batteryLow = x.batteryLow
  batteryCritical : y.batteryCritical = x.batteryCritical
  running : y.reminderStatus = .running → x.reminderStatus = .running

theorem Position.Worked.refl (x : Position) : x.Worked x :=
  ⟨.inl ⟨rfl, rfl, rfl⟩, rfl, rfl, rfl, rfl, rfl, rfl, rfl, rfl, rfl, rfl, rfl, id⟩

theorem Position.Worked.trans {x y z : Position} (h : x.Worked y) (g : y.Worked z) : x.Worked z where
  state := by
    rcases h.state with ⟨h1, h2, h3⟩ | ⟨h1, h2, h3⟩ <;> rcases g.state with ⟨g1, g2, g3⟩ | ⟨g1, g2, g3⟩
    · exact .inl ⟨g1.trans h1, g2.trans h2, g3.trans h3⟩
    · exact .inr ⟨h1 ▸ g1, g2, g3⟩
    · exact .inr ⟨h1, g1.trans h2, g2.trans h3⟩
    · exact .inr ⟨h1, g2, g3⟩
  line := g.line.trans h.line
  call := g.call.trans h.call
  holdSource := g.holdSource.trans h.holdSource
  holdGain := g.holdGain.trans h.holdGain
  supervisionAllowed := g.supervisionAllowed.trans h.supervisionAllowed
  earGain := g.earGain.trans h.earGain
  promptGain := g.promptGain.trans h.promptGain
  announceGain := g.announceGain.trans h.announceGain
  noise := g.noise.trans h.noise
  batteryLow := g.batteryLow.trans h.batteryLow
  batteryCritical := g.batteryCritical.trans h.batteryCritical
  running := h.running ∘ g.running

/-- The fields that the evaluations of a frame event write. -/
theorem Position.Worked.evaluated (x : Position) (mute : Bool) (band : Band) (present : Bool) (presenceRun : Nat)
    (button : Bool) (releasedRun batteryLevel reminderCounter : Nat) (status : ReminderStatus) (mutedCount : Nat)
    (mutedIssued : Bool) (h : status = .running → x.reminderStatus = .running) :
    x.Worked { x with
      mute := mute, band := band, present := present, presenceRun := presenceRun, button := button
      releasedRun := releasedRun, batteryLevel := batteryLevel, reminderCounter := reminderCounter
      reminderStatus := status, mutedCount := mutedCount, mutedIssued := mutedIssued } :=
  ⟨.inl ⟨rfl, rfl, rfl⟩, rfl, rfl, rfl, rfl, rfl, rfl, rfl, rfl, rfl, rfl, rfl, h⟩

theorem Position.worked_debounce (x : Position) (handed : Option Word16) (raw : Bool) :
    x.Worked ((x.readStatus handed).debounce raw) := by
  unfold Position.debounce Position.readStatus
  split_ifs <;> exact Position.Worked.evaluated x _ _ _ _ _ _ _ _ _ _ _ id

theorem Position.worked_setMute (x : Position) (on : Bool) : x.Worked (x.setMute on) := by
  unfold Position.setMute
  split <;> exact Position.Worked.evaluated x _ _ _ _ _ _ _ _ _ _ _ id

/-- Every position record of `t` is one of `s` after some work. -/
def State.PositionsWorked (s t : State) : Prop := ∀ p : Fin 16, (s.pos p).Worked (t.pos p)

theorem State.PositionsWorked.of_pct {s t : State} (h : t.pct = s.pct) : s.PositionsWorked t := fun p => by
  rw [State.pos, State.pos, h]; exact .refl _

theorem State.PositionsWorked.trans {s t u : State} (h : s.PositionsWorked t) (g : t.PositionsWorked u) :
    s.PositionsWorked u := fun p => (h p).trans (g p)

theorem State.PositionsWorked.modPos (s : State) (p : Fin 16) (f : Position → Position)
    (h : (s.pos p).Worked (f (s.pos p))) : s.PositionsWorked (s.modPos p f) := fun q => by
  simp only [State.pos, State.modPos_pct, Fin.getElem_fin, upd_get]
  split
  · next hq => subst hq; exact h
  · exact .refl _

/-! ### What a piece of work may write in the noise contexts -/

/-- What the evaluations and close completions of positions may make of the noise reducer: a position's context keeps its
applied gain or takes 4096, and a channel's is not touched (R17, R99). -/
structure Nru.Worked (m n : Nru) : Prop where
  supSettings : n.supSettings = m.supSettings
  channels : ∀ c : Fin 4, n.contexts[noiseOfChannel c] = m.contexts[noiseOfChannel c]
  gain : ∀ k : Fin 20, n.contexts[k].gain = m.contexts[k].gain ∨ n.contexts[k].gain = 4096

theorem Nru.Worked.refl (m : Nru) : m.Worked m := ⟨rfl, fun _ => rfl, fun _ => .inl rfl⟩

theorem Nru.Worked.trans {l m n : Nru} (h : l.Worked m) (g : m.Worked n) : l.Worked n :=
  ⟨g.supSettings.trans h.supSettings, fun c => (g.channels c).trans (h.channels c), fun k =>
    (g.gain k).elim (fun he => by rw [he]; exact h.gain k) .inr⟩

theorem noiseOfChannel_ne (c : Fin 4) (p : Fin 16) : noiseOfChannel c ≠ noiseOfPosition p := fun h => by
  have := congrArg Fin.val h
  simp only [noiseOfChannel, noiseOfPosition] at this
  omega

/-- A change of a position's noise context that keeps its gain or sets it to 4096. -/
theorem Nru.Worked.modPosition (m : Nru) (p : Fin 16) (f : NoiseCtx → NoiseCtx)
    (hf : ∀ c, (f c).gain = c.gain ∨ (f c).gain = 4096) :
    m.Worked { m with contexts := upd m.contexts (noiseOfPosition p) f } where
  supSettings := rfl
  channels c := upd_other _ _ _ _ (noiseOfChannel_ne c p)
  gain k := by
    simp only [Fin.getElem_fin, upd_get]
    split
    · exact hf _
    · exact .inl rfl

/-! ### What a piece of work leaves of the session records, the links, the mix and the position records -/

/-- From `s` to `t` the session records, the links, the mix, what the stages took, the timing and the waiting commands
stand; the position records and the noise contexts are worked. -/
structure State.Evaluated (s t : State) : Prop where
  sst : t.sst = s.sst
  hwi : t.hwi = s.hwi
  hli : t.hli = s.hli
  mxe : t.mxe = s.mxe
  taken : t.taken = s.taken
  pending : t.pending = s.pending
  nru : s.nru.Worked t.nru
  positions : s.PositionsWorked t
  ftu : t.ftu = s.ftu

theorem State.Evaluated.of_eq {s t : State} (h1 : t.sst = s.sst := by rfl) (h2 : t.hwi = s.hwi := by rfl)
    (h3 : t.hli = s.hli := by rfl) (h4 : t.mxe = s.mxe := by rfl) (h5 : t.taken = s.taken := by rfl)
    (h6 : t.pending = s.pending := by rfl) (h7 : t.nru = s.nru := by rfl) (h8 : t.pct = s.pct := by rfl)
    (h9 : t.ftu = s.ftu := by rfl) : s.Evaluated t :=
  ⟨h1, h2, h3, h4, h5, h6, h7 ▸ .refl _, .of_pct h8, h9⟩

theorem State.Evaluated.refl (s : State) : s.Evaluated s := .of_eq

theorem State.Evaluated.trans {s t u : State} (h : s.Evaluated t) (g : t.Evaluated u) : s.Evaluated u :=
  ⟨g.sst.trans h.sst, g.hwi.trans h.hwi, g.hli.trans h.hli, g.mxe.trans h.mxe, g.taken.trans h.taken,
    g.pending.trans h.pending, h.nru.trans g.nru, h.positions.trans g.positions,
    g.ftu.trans h.ftu⟩

theorem State.Evaluated.modPos (s : State) (p : Fin 16) (f : Position → Position)
    (h : (s.pos p).Worked (f (s.pos p))) : s.Evaluated (s.modPos p f) :=
  ⟨rfl, rfl, rfl, rfl, rfl, rfl, .refl _, .modPos s p f h, rfl⟩

theorem State.Evaluated.modNoise (s : State) (p : Fin 16) (f : NoiseCtx → NoiseCtx)
    (hf : ∀ c, (f c).gain = c.gain ∨ (f c).gain = 4096) : s.Evaluated (s.modNoise (noiseOfPosition p) f) :=
  ⟨rfl, rfl, rfl, rfl, rfl, rfl, .modPosition s.nru p f hf, .of_pct rfl, rfl⟩

theorem State.Evaluated.modEcho (s : State) (p : Fin 16) (f : EchoCtx → EchoCtx) : s.Evaluated (s.modEcho p f) := .of_eq

section
variable {s t : State} (h : s.Evaluated t)
include h

theorem State.Evaluated.report (port : Port) (b : ReportBody) : s.Evaluated (t.report port b) :=
  h.trans .of_eq

theorem State.Evaluated.reportAll (ports : List Port) (b : ReportBody) : s.Evaluated (t.reportAll ports b) :=
  h.trans (by rw [State.reportAll_eq]; exact .of_eq)

theorem State.Evaluated.offer (p : Fin 16) (k : AutoKind) : s.Evaluated (t.offer p k) :=
  h.trans (by rw [State.offer_eq]; exact .of_eq)

end

theorem State.runPresence_evaluated (s : State) (p : Fin 16) : s.Evaluated (s.runPresence p) := by
  have h1 : s.Evaluated
      (s.modPos p (fun x => (x.readStatus s.hli[p].handed).debounce (rawPresent s.hli[p].handed))) :=
    .modPos s p _ (Position.worked_debounce _ _ _)
  unfold State.runPresence
  dsimp only
  repeat' split
  · exact h1
  · exact h1
  · exact h1.report _ _
  · exact (h1.trans (.modNoise _ p NoiseCtx.restart fun _ => .inl rfl)).report _ _
  · exact h1
  · exact h1.report _ _

theorem State.runButton_evaluated (s : State) (p : Fin 16) : s.Evaluated (s.runButton p) := by
  have h1 : s.Evaluated
      (s.modPos p (fun x => { x with releasedRun := if x.button then 0 else min 2 (x.releasedRun + 1) })) :=
    .modPos s p _ (Position.Worked.evaluated _ _ _ _ _ _ _ _ _ _ _ _ id)
  unfold State.runButton
  dsimp only
  repeat' split
  · exact (h1.trans (.modPos _ p (fun y => y.setMute (!(s.pos p).mute)) (Position.worked_setMute _ _))).report _ _
  · exact h1.report _ _
  · exact h1

theorem State.runBattery_evaluated (s : State) (p : Fin 16) : s.Evaluated (s.runBattery p) := by
  have h1 : ∀ b, s.Evaluated (s.modPos p (fun x => { x with band := b })) := fun b =>
    .modPos s p _ (Position.Worked.evaluated _ _ _ _ _ _ _ _ _ _ _ _ id)
  unfold State.runBattery
  dsimp only
  repeat' split
  · exact h1 _
  · exact ((h1 _).report _ _).offer _ _
  · exact ((h1 _).reportAll _ _).offer _ _
  · exact ((h1 _).reportAll _ _).offer _ _
  · exact h1 _
  · exact .refl s

theorem State.runReminder_evaluated (s : State) (p : Fin 16) : s.Evaluated (s.runReminder p) := by
  unfold State.runReminder
  dsimp only
  repeat' split
  · refine State.Evaluated.offer (State.Evaluated.reportAll (.modPos s p _ ?_) _ _) _ _
    split
    · exact Position.Worked.evaluated _ _ _ _ _ _ _ _ _ _ _ _ id
    · exact Position.Worked.evaluated _ _ _ _ _ _ _ _ _ _ _ _ (fun h => nomatch h)
  · exact .modPos s p _ (Position.Worked.evaluated _ _ _ _ _ _ _ _ _ _ _ _ id)
  · exact .refl s

theorem State.runMuted_evaluated (s : State) (p : Fin 16) : s.Evaluated (s.runMuted p) := by
  have h1 : s.Evaluated (s.modPos p (fun x => { x with mutedCount := min 500 (x.mutedCount + 1) })) :=
    .modPos s p _ (Position.Worked.evaluated _ _ _ _ _ _ _ _ _ _ _ _ id)
  unfold State.runMuted
  dsimp only
  repeat' split
  · exact ((h1.trans (.modPos _ p (fun x => { x with mutedIssued := true })
      (Position.Worked.evaluated _ _ _ _ _ _ _ _ _ _ _ _ id))).report _ _).offer _ _
  · exact h1
  · exact .refl s

theorem State.runClose_evaluated (s : State) (p : Fin 16) : s.Evaluated (s.runClose p) := by
  unfold State.runClose
  split
  · next hdue =>
    split
    · next plan _ =>
      have hclosing : (s.pos p).state = .closing := by
        simp only [State.closeDue, Bool.and_eq_true, beq_iff_eq] at hdue
        exact hdue.1
      have h1 : s.Evaluated
          (s.modPos p (fun x => { x with state := .closed, closePlan := none, retained := plan == .keep })) :=
        .modPos s p _ ⟨.inr ⟨hclosing, rfl, rfl⟩, rfl, rfl, rfl, rfl, rfl, rfl, rfl, rfl, rfl, rfl, rfl, id⟩
      have h2 : ∀ c : NoiseCtx, (c.closed plan).gain = c.gain ∨ (c.closed plan).gain = 4096 := fun c => by
        cases plan
        exacts [.inl rfl, .inr rfl]
      unfold State.completeClose
      exact ((h1.trans (State.Evaluated.modEcho _ p _)).trans (.modNoise _ p _ h2)).reportAll _ _
    · exact .refl s
  · exact .refl s

theorem State.completePrompt_evaluated (s : State) (v : Fin 12) : s.Evaluated (s.completePrompt v) := by
  have hdone : ∀ p q l e outcome, s.Evaluated
      (((s.modVoice v Voice.release).setQueue p q l).promptDone p q e outcome s.vce[v].underruns s.vce[v].marks) :=
    fun p q l e outcome => by
      cases q <;> exact (State.Evaluated.of_eq).report _ _
  unfold State.completePrompt
  dsimp only
  repeat' split
  all_goals first | exact hdone _ _ _ _ _ | exact .of_eq

theorem State.runVoice_evaluated (s : State) (v : Fin 12) : s.Evaluated (s.runVoice v) := by
  unfold State.runVoice
  dsimp only
  split
  · exact (State.Evaluated.of_eq).trans (State.completePrompt_evaluated _ v)
  · exact foldl_law (s.Evaluated ·) _ (fun _ _ ht => ht.report _ _) _ _ .of_eq

theorem State.meterReports_evaluated (s : State) (port : Port) : s.Evaluated (s.meterReports port) :=
  foldl_law (s.Evaluated ·) _ (fun _ _ ht => ite_law _ (ht.report _ _) ht) _ _ (.refl s)

theorem State.runMeterPeriod_evaluated (s : State) (port : Port) : s.Evaluated (s.runMeterPeriod port) := by
  unfold State.runMeterPeriod
  repeat' split
  · exact .refl s
  · exact (State.Evaluated.of_eq).trans (State.meterReports_evaluated _ port)
  · exact .of_eq

theorem State.runHighwayOut_channels (s : State) : s.runHighwayOut.hwi.channels = s.hwi.channels := by
  simp only [State.runHighwayOut, State.driveNow_hwi]
  refine (foldl_keeps Hwi.channels _ ?_ _ _).trans (foldl_keeps Hwi.channels _ ?_ _ _) <;> exact fun _ _ => rfl

/-- The pieces of work that neither mix, nor reduce noise, nor put frames out. -/
def evaluates : Work → Bool
  | .noise _ | .mix | .meterClose | .earpiece _ | .highwayOut => false
  | _ => true

theorem State.runWork_evaluated (s : State) (w : Work) (hw : evaluates w = true) : s.Evaluated (s.runWork w) := by
  cases w with
  | presence p => exact s.runPresence_evaluated p
  | button p => exact s.runButton_evaluated p
  | battery p => exact s.runBattery_evaluated p
  | reminder p => exact s.runReminder_evaluated p
  | muted p => exact s.runMuted_evaluated p
  | echo p =>
    simp only [State.runWork, State.runEcho]
    split
    · exact .of_eq
    · exact .of_eq
  | voice v => exact s.runVoice_evaluated v
  | close p => exact s.runClose_evaluated p
  | meterPeriod port => exact s.runMeterPeriod_evaluated port
  | noise | mix | meterClose | earpiece | highwayOut => cases hw

/-- From `s` to `t` the session records and the channel bindings stand, and the position records are worked. -/
structure State.RecordsWorked (s t : State) : Prop where
  sst : t.sst = s.sst
  channels : t.hwi.channels = s.hwi.channels
  positions : s.PositionsWorked t

theorem State.RecordsWorked.of_eq {s t : State} (h1 : t.sst = s.sst := by rfl)
    (h2 : t.hwi.channels = s.hwi.channels := by rfl) (h3 : t.pct = s.pct := by rfl) : s.RecordsWorked t := ⟨h1, h2, .of_pct h3⟩

theorem State.Evaluated.records {s t : State} (h : s.Evaluated t) : s.RecordsWorked t :=
  ⟨h.sst, by rw [h.hwi], h.positions⟩

/-- A piece of work writes no session record and no channel binding, and works the position records. -/
theorem State.runWork_records (s : State) (w : Work) : s.RecordsWorked (s.runWork w) := by
  cases hw : evaluates w with
  | true => exact (s.runWork_evaluated w hw).records
  | false =>
    cases w with
    | noise n => exact .of_eq
    | mix => exact .of_eq
    | meterClose =>
      simp only [State.runWork, State.runMeterClose]
      split <;> exact .of_eq
    | earpiece p => exact .of_eq
    | highwayOut =>
      refine .of_eq ?_ s.runHighwayOut_channels ?_ <;>
        simp only [State.runWork, State.runHighwayOut, State.driveNow_sst, State.driveNow_pct]
    | _ => cases hw

/-! ### Laws of the session records, the channels and the position records -/

theorem State.completeInputs_channels (s : State) : s.completeInputs.channels = s.hwi.channels := by
  simp only [State.completeInputs]
  refine (foldl_keeps Hwi.channels _ ?_ _ _).trans (foldl_keeps Hwi.channels _ ?_ _ _) <;> exact fun _ _ => rfl

theorem State.collect_channels (s : State) (b : Bool) (slots : List Word16) :
    (s.collect b slots).hwi.channels = s.hwi.channels := by
  simp only [State.collect]
  refine (foldl_keeps Hwi.channels _ ?_ _ _).trans (foldl_keeps Hwi.channels _ ?_ _ _) <;> exact fun _ _ => rfl

/-- Two states with the same records: positions, sessions, channel bindings, mix, noise and echo contexts. -/
structure State.SameRecords (s t : State) : Prop where
  pct : t.pct = s.pct := by rfl
  sst : t.sst = s.sst := by rfl
  channels : t.hwi.channels = s.hwi.channels := by rfl
  mxe : t.mxe = s.mxe := by rfl
  nru : t.nru = s.nru := by rfl
  ecu : t.ecu = s.ecu := by rfl

/-- Every operation keeps a law of these records that the work of a frame event keeps and that the power-on values meet. -/
theorem Kept.of_records (L : State → Prop)
    (hview : ∀ s t : State, s.SameRecords t → L s → L t)
    (hon : L (State.powerOn false [])) (hwork : ∀ s w, L s → L (s.runWork w)) : Kept L where
  powerOn _ _ := hview (State.powerOn false []) _ {} hon
  released _ _ := hview (State.powerOn false []) _ {} hon
  mark s _ _ h := hview s _ {} h
  quiet s _ _ h := hview s _ {} h
  write s _ _ h := hview s _ {} h
  read s _ h := hview s _ {} h
  report s _ _ h := hview s _ {} h
  work s _ h := hview s _ {} h
  ftu s _ h := hview s _ {} h
  runWork := hwork
  poolGrant s h := by
    obtain ⟨_, _, he⟩ := s.poolGrant_frame
    rw [he]
    exact hview s _ {} h
  grantFetch s h := by
    obtain ⟨_, _, he⟩ := s.grantFetch_frame
    rw [he]
    exact hview s _ {} h
  beginFrame s h := hview s _ { channels := s.completeInputs_channels } h
  collect s b slots h := by
    have hch := s.collect_channels b slots
    rw [State.collect] at hch ⊢
    exact hview s _ { channels := hch } h
  latch s h := by
    rw [State.latchSlots]
    exact hview s _ {} h
  drive s h := hview s _ {} h
  toFreeRun s h := hview s _ {} h
  cutOff s _ _ h := hview s _ {} h
  arrive s _ _ _ h := hview s _ {} h
  completeFetch s _ _ h _ _ := hview s _ {} h
  timeoutFetch s _ h _ := by
    unfold State.timeoutFetch
    dsimp only
    split
    · rw [State.failStore_eq]
      exact hview s _ {} h
    · exact hview s _ {} h
  engine s _ h _ := hview s _ {} h

end Sys2Proof.Machine
end

