-- ==== Sys2Proof/Proofs/Endings.lean ====
section
/-!
PROOFS. What the ends of a call and of a position's connection leave, said once: the IDLE effects (R13) and CLOSE (R4) as
the state before with exactly the parts that change.
-/

namespace Sys2Proof.Machine

theorem upd_upd {α : Type} {n : Nat} (v : Vector α n) (i : Fin n) (f g : α → α) :
    upd (upd v i f) i g = upd v i (fun x => g (f x)) := by
  apply bank_ext
  intro j
  simp only [Fin.getElem_fin, upd_get]
  split <;> rfl

/-- One record after another changed by an own function: each record of the list is changed once. -/
theorem foldl_upd_get {α : Type} {n : Nat} (f : Fin n → α → α) (q : Fin n) (l : List (Fin n)) (hl : l.Nodup)
    (v : Vector α n) :
    (l.foldl (fun (v : Vector α n) (p : Fin n) => upd v p (f p)) v)[q] = if q ∈ l then f q v[q] else v[q] := by
  induction l generalizing v with
  | nil => rfl
  | cons p l ih =>
    obtain ⟨hp, hl⟩ := List.nodup_cons.mp hl
    rw [List.foldl_cons, ih hl]
    by_cases hq : q = p
    · subst hq
      rw [if_neg hp, if_pos List.mem_cons_self]
      simp
    · have he : (upd v p (f p))[q] = v[q] := upd_other v p q _ hq
      rw [he]
      exact if_congr (by simp [hq]) rfl rfl

theorem foldl_allPositions_get {α : Type} (f : Fin 16 → α → α) (q : Fin 16) (v : Vector α 16) :
    (allPositions.foldl (fun (v : Vector α 16) (p : Fin 16) => upd v p (f p)) v)[q] = f q v[q] := by
  rw [foldl_upd_get f q allPositions (by decide) v, if_pos (mem_allPositions q)]

theorem State.placeCancels_congr {s t : State} (p : Fin 16) (q : QueueId) (c : Cpt) (hq : t.queue p q = s.queue p q)
    (hf : t.ftu = s.ftu) (hv : ∀ v : Fin 12, t.vce[v].underruns = s.vce[v].underruns ∧ t.vce[v].marks = s.vce[v].marks) :
    t.placeCancels p q c = s.placeCancels p q c := by
  have hbody : ∀ e, t.cancelBody p q e = s.cancelBody p q e := fun e => by
    unfold State.cancelBody
    split
    · rfl
    · next v _ => rw [(hv v).1, (hv v).2]
  simp only [State.placeCancels, hq, hf, hbody]

/-- The sessions on a position that ended for a reason, and what their SUPOUT terms became (R109, R44). -/
def State.Ended (s : State) (p : Fin 16) (reason : SessionEnd) (sst : Vector Session 4) (sup : Vector SupTerms 4) : Prop :=
  (∀ c : Fin 4, sst[c] =
    if s.sessionOn p c = true then { s.sst[c] with mode := .idle, target := none, lastEnd := reason } else s.sst[c]) ∧
  ∀ c : Fin 4, sup[c] = if s.sessionOn p c = true then .absent else s.mxe.supTerms[c]

/-- A session that stands after the sessions on `p` ended is one of another position, as it was. -/
theorem State.Ended.other {s : State} {p : Fin 16} {reason : SessionEnd} {sst : Vector Session 4}
    {sup : Vector SupTerms 4} (h : s.Ended p reason sst sup) (c : Fin 4) (hc : sst[c].mode ≠ .idle) :
    s.sessionOn p c = false ∧ sst[c] = s.sst[c] := by
  have he := h.1 c
  cases hon : s.sessionOn p c with
  | true =>
    rw [if_pos hon] at he
    exact absurd (by rw [he]) hc
  | false =>
    rw [if_neg (by simp [hon])] at he
    exact ⟨rfl, he⟩

/-- The IDLE effects after a change of the position record (R13). -/
theorem State.idleEffects_spec (s : State) (p : Fin 16) (f : Position → Position) :
    ∃ sst sup vce owed,
      (s.modPos p f).idleEffects p = { s with
        pct := upd s.pct p f
        sst := sst
        vce := vce
        sfe := { s.sfe with owed := owed }
        pqc := { s.pqc with line := s.pqc.line.set p [] }
        mxe := { s.mxe with supTerms := sup }
        cpt := s.placeCancels p .line (s.placeEndings p .callEnded s.cpt) } ∧
      s.Ended p .callEnded sst sup ∧
      ∀ v : Fin 12, vce[v] = if s.heldBy p .line v = true then s.vce[v].drain (some p) else s.vce[v] := by
  obtain ⟨sst, sup, h1, h2, h3⟩ := (s.modPos p f).endSessionsOn_spec p .callEnded
  obtain ⟨vce, owed, h4, h5⟩ := ((s.modPos p f).endSessionsOn p .callEnded).flushQueue_spec p .line
  rw [h1] at h4 h5
  exact ⟨sst, sup, vce, owed, by rw [State.idleEffects, h1, h4]; rfl, ⟨h2, h3⟩, h5⟩

/-- CLOSE of a position, in the order of R4. -/
theorem State.close_spec (s : State) (p : Fin 16) (plan : Plan) :
    ∃ sst sup vce owed,
      s.close p plan = { s with
        pct := upd s.pct p (fun x => { x with
          state := .closing, closePlan := some plan, line := none, call := .idle, reminderStatus := .stopped,
          band := .normal })
        sst := sst
        vce := vce
        sfe := { s.sfe with owed := owed }
        pqc := { s.pqc with agent := s.pqc.agent.set p [], line := s.pqc.line.set p [] }
        mxe := { s.mxe with supTerms := sup, lineTerms := s.mxe.lineTerms.set p .absent }
        hwi := { s.hwi with lineOut := s.hwi.lineOut.set p none }
        cpt := s.placeCancels p .line (s.placeCancels p .agent (s.placeEndings p .closed s.cpt)) } ∧
      s.Ended p .closed sst sup ∧
      ∀ v : Fin 12, vce[v] =
        if s.heldBy p .agent v = true ∨ s.heldBy p .line v = true then s.vce[v].drain (some p) else s.vce[v] := by
  let s1 := s.modPos p (fun x => { x with state := .closing, closePlan := some plan })
  obtain ⟨sst, sup, h1, h2, h3⟩ := s1.endSessionsOn_spec p .closed
  obtain ⟨vce, owed, h4, h5⟩ := (s1.endSessionsOn p .closed).flushQueue_spec p .agent
  obtain ⟨vce', owed', h6, h7⟩ := ((s1.endSessionsOn p .closed).flushQueue p .agent).flushQueue_spec p .line
  have hfinal : s.close p plan = (((((s1.endSessionsOn p .closed).flushQueue p .agent).flushQueue p .line).modPos p
      (fun x => { x with call := .idle }.stopReminder)).releaseLine p).modPos p (fun x => { x with band := .normal }) := by
    unfold State.close; rfl
  rw [h4, h1] at h6 h7
  rw [h1] at h5
  have hvce : ∀ v : Fin 12, vce[v].underruns = s.vce[v].underruns ∧ vce[v].marks = s.vce[v].marks := fun v => by
    rw [h5 v]
    split <;> exact ⟨rfl, rfl⟩
  refine ⟨sst, sup, vce', owed', ?_, ⟨h2, h3⟩, fun v => ?_⟩
  · rw [hfinal, h4, h1, h6]
    simp only [s1, State.releaseLine, State.modPos, State.setQueue, State.mk.injEq, true_and, upd_upd]
    refine ⟨rfl, ?_, trivial⟩
    · exact State.placeCancels_congr p .line _ rfl rfl hvce
  · rw [h7 v]
    change (if s.heldBy p .line v = true then vce[v].drain (some p) else vce[v]) = _
    rw [h5 v]
    change (if s.heldBy p .line v = true then
      (if s.heldBy p .agent v = true then s.vce[v].drain (some p) else s.vce[v]).drain (some p)
      else if s.heldBy p .agent v = true then s.vce[v].drain (some p) else s.vce[v]) = _
    by_cases ha : s.heldBy p .agent v = true <;> by_cases hl : s.heldBy p .line v = true <;>
      simp [ha, hl, Voice.drain_drain]

end Sys2Proof.Machine
end

