-- ==== Sys2Proof/Proofs/SessionLaws.lean ====
section
/-!
PROOFS. The two laws of the sessions (R104, R109) through every step.
-/

namespace Sys2Proof.Machine

/-! ### Counting channels -/

theorem channels_filter_length (f : Fin 4 → Bool) :
    (allChannels.filter f).length = (f 0).toNat + (f 1).toNat + (f 2).toNat + (f 3).toNat := by
  simp only [allChannels, List.filter]
  cases f 0 <;> cases f 1 <;> cases f 2 <;> cases f 3 <;> rfl

theorem channels_filter_le {f g : Fin 4 → Bool} (h : ∀ c, g c = true → f c = true) :
    (allChannels.filter g).length ≤ (allChannels.filter f).length :=
  (List.monotone_filter_right allChannels h).length_le

/-- One channel more at the most. -/
theorem channels_filter_succ {f g : Fin 4 → Bool} (k : Fin 4) (h : ∀ c, c ≠ k → g c = true → f c = true) :
    (allChannels.filter g).length ≤ (allChannels.filter f).length + 1 := by
  have hle : ∀ c, (g c).toNat ≤ (f c).toNat + if c = k then 1 else 0 := fun c => by
    split
    · exact (Bool.toNat_le _).trans (Nat.le_add_left _ _)
    · next hc => exact Bool.toNat_le_toNat (Bool.le_iff_imp.mpr (h c hc))
  have hone : ∀ k : Fin 4, (if 0 = k then 1 else 0) + (if 1 = k then 1 else 0) + (if 2 = k then 1 else 0) +
      (if 3 = k then 1 else 0) = 1 := by decide
  have := hone k
  have := hle 0
  have := hle 1
  have := hle 2
  have := hle 3
  simp only [channels_filter_length]
  omega

/-! ### The laws, record by record -/

/-- A position on which sessions may stand (R109). -/
def Position.Supervised (x : Position) : Prop := x.state = .opened ∧ x.call ≠ .idle ∧ x.supervisionAllowed = true

/-- The two laws of the sessions. -/
def State.SessionLaws (s : State) : Prop := s.SessionLimits ∧ s.SessionFooting

theorem State.sessionOn_iff (s : State) (p : Fin 16) (c : Fin 4) :
    s.sessionOn p c = true ↔ s.sst[c].mode ≠ .idle ∧ s.sst[c].target = some p := by
  simp [State.sessionOn]

theorem State.talkingOn_iff (s : State) (p : Fin 16) (c : Fin 4) :
    s.talkingOn p c = true ↔ s.sessionOn p c = true ∧ s.sst[c].mode.talking = true := by
  simp [State.talkingOn]

/-- Session `c` of `t` stands as in `s`, on a footing that is as good. -/
structure State.SessionStands (s t : State) (c : Fin 4) : Prop where
  mode : t.sst[c].mode = s.sst[c].mode
  target : t.sst[c].target = s.sst[c].target
  bound : s.hwi.channels[c].isSome = true → t.hwi.channels[c].isSome = true
  footing : ∀ p, s.sst[c].target = some p → (s.pos p).Supervised → (t.pos p).Supervised

/-- Where each session has ended or stands as before, the laws are kept. -/
theorem State.SessionLaws.mono {s t : State} (h : s.SessionLaws)
    (hc : ∀ c : Fin 4, t.sst[c].mode ≠ .idle → s.SessionStands t c) : t.SessionLaws := by
  obtain ⟨hlimits, hfooting⟩ := h
  have hon : ∀ p c, t.sessionOn p c = true → s.sessionOn p c = true := fun p c ht => by
    obtain ⟨hm, ht⟩ := (t.sessionOn_iff p c).mp ht
    have hs := hc c hm
    exact (s.sessionOn_iff p c).mpr ⟨hs.mode ▸ hm, hs.target ▸ ht⟩
  have htalk : ∀ p c, t.talkingOn p c = true → s.talkingOn p c = true := fun p c ht => by
    obtain ⟨ho, hm⟩ := (t.talkingOn_iff p c).mp ht
    have hs := hc c ((t.sessionOn_iff p c).mp ho).1
    exact (s.talkingOn_iff p c).mpr ⟨hon p c ho, hs.mode ▸ hm⟩
  refine ⟨fun p => ⟨(channels_filter_le (hon p)).trans (hlimits p).1,
    fun c k h1 h2 => (hlimits p).2 c k (htalk p c h1) (htalk p k h2)⟩, fun c hm => ?_⟩
  have hs := hc c hm
  obtain ⟨p, hp, hstate, hcall, hallowed, hbound⟩ := hfooting c (hs.mode ▸ hm)
  obtain ⟨h1, h2, h3⟩ := hs.footing p hp ⟨hstate, hcall, hallowed⟩
  exact ⟨p, hs.target.trans hp, h1, h2, h3, hs.bound hbound⟩

/-- A change that reaches no session record and no channel, and takes no position its footing, keeps the laws. -/
theorem State.SessionLaws.of_pct {s t : State} (h : s.SessionLaws)
    (hpos : ∀ p, (s.pos p).Supervised → (t.pos p).Supervised) (hsst : t.sst = s.sst := by rfl)
    (hch : t.hwi.channels = s.hwi.channels := by rfl) : t.SessionLaws :=
  h.mono fun c _ => ⟨by rw [hsst], by rw [hsst], by rw [hch]; exact id, fun p _ => hpos p⟩

theorem State.SessionLaws.of_eq {s t : State} (h : s.SessionLaws) (hpct : t.pct = s.pct := by rfl)
    (hsst : t.sst = s.sst := by rfl) (hch : t.hwi.channels = s.hwi.channels := by rfl) : t.SessionLaws :=
  h.of_pct (fun p hp => by rw [State.pos, hpct]; exact hp) hsst hch

/-- A change of one position record that takes it no footing keeps the laws. -/
theorem State.SessionLaws.modPos {s : State} (h : s.SessionLaws) (p : Fin 16) (f : Position → Position)
    (hf : (s.pos p).Supervised → (f (s.pos p)).Supervised) : (s.modPos p f).SessionLaws := by
  refine h.of_pct fun q hq => ?_
  simp only [State.pos, State.modPos_pct, Fin.getElem_fin, upd_get]
  split
  · next he => subst he; exact hf hq
  · exact hq

/-- A position that work leaves keeps its footing: only a CLOSING one is closed. -/
theorem Position.Worked.supervised {x y : Position} (h : x.Worked y) (hx : x.Supervised) : y.Supervised := by
  obtain ⟨hstate, hcall, hallowed⟩ := hx
  refine ⟨?_, h.call ▸ hcall, h.supervisionAllowed.trans hallowed⟩
  rcases h.state with ⟨he, -, -⟩ | ⟨he, -, -⟩
  · exact he.trans hstate
  · rw [hstate] at he; cases he

theorem sessions_powerOn (s : State) (h : ∀ c : Fin 4, s.sst[c].mode = .idle) : s.SessionLaws := by
  have hon : ∀ p c, s.sessionOn p c = false := fun p c => by
    rw [Bool.eq_false_iff, ne_eq, State.sessionOn_iff]
    exact fun hc => hc.1 (h c)
  refine ⟨fun p => ⟨?_, fun c k ht _ => ?_⟩, fun c hc => absurd (h c) hc⟩
  · rw [State.sessionCount, List.filter_eq_nil_iff.mpr (fun c _ => by simp [hon p c])]
    exact Nat.zero_le 2
  · simp [State.talkingOn, hon] at ht

theorem sessions_kept : Kept State.SessionLaws :=
  Kept.of_records _ (fun _ _ v h => h.of_eq v.pct v.sst v.channels)
    (sessions_powerOn _ (by decide)) fun s w h =>
      have hw := s.runWork_records w
      h.of_pct (fun p => (hw.positions p).supervised) hw.sst hw.channels

/-! ### Sessions that end -/

/-- The sessions on a position end: those on other positions stand, whatever becomes of its record (R109). -/
theorem State.SessionLaws.ended {s t : State} (h : s.SessionLaws) (p : Fin 16)
    (hsst : ∀ c : Fin 4, t.sst[c].mode ≠ .idle → s.sessionOn p c = false ∧ t.sst[c] = s.sst[c])
    (hpos : ∀ q, q ≠ p → t.pos q = s.pos q) (hch : t.hwi.channels = s.hwi.channels := by rfl) : t.SessionLaws := by
  refine h.mono fun c hc => ?_
  obtain ⟨hoff, he⟩ := hsst c hc
  refine ⟨by rw [he], by rw [he], by rw [hch]; exact id, fun q hq hs => ?_⟩
  have hqp : q ≠ p := fun e => by
    rw [Bool.eq_false_iff, ne_eq, State.sessionOn_iff] at hoff
    exact hoff ⟨he ▸ hc, e ▸ hq⟩
  rw [hpos q hqp]
  exact hs

theorem State.endSessionsOn_ended (s : State) (p : Fin 16) (reason : SessionEnd) (c : Fin 4)
    (hc : (s.endSessionsOn p reason).sst[c].mode ≠ .idle) :
    s.sessionOn p c = false ∧ (s.endSessionsOn p reason).sst[c] = s.sst[c] := by
  obtain ⟨sst, sup, he, h1, -⟩ := s.endSessionsOn_spec p reason
  rw [he] at hc ⊢
  have := h1 c
  cases hon : s.sessionOn p c with
  | true => exact absurd (by simp [this, hon]) hc
  | false => exact ⟨rfl, by simp [this, hon]⟩

/-- A change of a position record with the end of its sessions keeps the laws. -/
theorem State.SessionLaws.endSessionsOn {s : State} (h : s.SessionLaws) (p : Fin 16) (f : Position → Position)
    (reason : SessionEnd) : ((s.modPos p f).endSessionsOn p reason).SessionLaws := by
  have hspec := (s.modPos p f).endSessionsOn_ended p reason
  obtain ⟨sst, sup, he, -, -⟩ := (s.modPos p f).endSessionsOn_spec p reason
  refine h.ended p hspec (fun q hq => ?_) ?_
  · rw [he]; simp [State.pos, upd_other _ _ _ _ hq]
  · rw [he]; rfl

theorem State.SessionLaws.flushQueue {s : State} (h : s.SessionLaws) (p : Fin 16) (q : QueueId) :
    (s.flushQueue p q).SessionLaws := by
  obtain ⟨_, _, he, -⟩ := s.flushQueue_spec p q
  rw [he]
  exact h.of_eq

theorem State.SessionLaws.idleEffects {s : State} (h : s.SessionLaws) (p : Fin 16) (f : Position → Position) :
    ((s.modPos p f).idleEffects p).SessionLaws := (h.endSessionsOn p f .callEnded).flushQueue p .line

/-! ### Requests -/

/-- A JOIN that passes the checks of R103 keeps both limits and stands on its footing. -/
theorem State.SessionLaws.join {s : State} (h : s.SessionLaws) (f : JoinFields) (hok : s.joinStatus f = .ok) :
    (s.modSession f.channel (fun _ => f.session)).SessionLaws := by
  unfold State.joinStatus at hok
  dsimp only at hok
  split_ifs at hok with hbound hfree hup hallowed hroom htalk
  obtain ⟨hlimits, hfooting⟩ := h
  have hsst : ∀ c : Fin 4, (s.modSession f.channel (fun _ => f.session)).sst[c] =
      if c = f.channel then f.session else s.sst[c] := fun c => by
    simp only [State.modSession_sst, Fin.getElem_fin, upd_get]
  have hother : ∀ p c, c ≠ f.channel →
      (s.modSession f.channel (fun _ => f.session)).sessionOn p c = s.sessionOn p c := fun p c hc => by
    simp only [State.sessionOn, hsst, if_neg hc]
  have helse : ∀ p, p ≠ f.position → ∀ c,
      (s.modSession f.channel (fun _ => f.session)).sessionOn p c = true → s.sessionOn p c = true := fun p hp c hc => by
    by_cases he : c = f.channel
    · subst he
      simp [State.sessionOn, JoinFields.session, Ne.symm hp] at hc
    · rwa [hother p c he] at hc
  have htalks : ∀ p c, c ≠ f.channel → (s.modSession f.channel (fun _ => f.session)).talkingOn p c = true →
      s.talkingOn p c = true := fun p c hc ht => by
    simp only [State.talkingOn, hother p c hc, hsst, if_neg hc] at ht
    exact ht
  have hnone : ∀ c, (s.modSession f.channel (fun _ => f.session)).talkingOn f.position f.channel = true →
      s.talkingOn f.position c = false := fun c ht => by
    have hm : f.mode.talking = true := by
      have := ((State.talkingOn_iff _ _ _).mp ht).2
      rwa [hsst, if_pos rfl] at this
    have hn : ¬ (s.talker f.position).isSome = true := fun h => htalk ⟨hm, h⟩
    rw [State.talker, List.find?_isSome] at hn
    exact Bool.eq_false_iff.mpr fun hc => hn ⟨c, mem_allChannels c, hc⟩
  have hpos : ∀ p c, (s.modSession f.channel (fun _ => f.session)).talkingOn p c = true → c = f.channel →
      p = f.position := fun p c ht hc => by
    subst hc
    have := ((State.sessionOn_iff _ _ _).mp ((State.talkingOn_iff _ _ _).mp ht).1).2
    rw [hsst, if_pos rfl] at this
    exact (Option.some.inj this).symm
  refine ⟨fun p => ⟨?_, fun c k hc hk => ?_⟩, fun c hc => ?_⟩
  · by_cases hp : p = f.position
    · subst hp
      have := channels_filter_succ f.channel (f := s.sessionOn f.position)
        (g := (s.modSession f.channel (fun _ => f.session)).sessionOn f.position)
        (fun c hc => by rw [hother _ c hc]; exact id)
      unfold State.sessionCount at hroom ⊢
      omega
    · exact (channels_filter_le (helse p hp)).trans (hlimits p).1
  · by_cases hcf : c = f.channel <;> by_cases hkf : k = f.channel
    · exact hcf.trans hkf.symm
    · have hp := hpos p c hc hcf
      subst hcf hp
      exact absurd (htalks _ k hkf hk) (by simp [hnone k hc])
    · have hp := hpos p k hk hkf
      subst hkf hp
      exact absurd (htalks _ c hcf hc) (by simp [hnone c hk])
    · exact (hlimits p).2 c k (htalks p c hcf hc) (htalks p k hkf hk)
  · by_cases hcf : c = f.channel
    · subst hcf
      obtain ⟨hstate, hcall⟩ := hup
      refine ⟨f.position, by rw [hsst, if_pos rfl]; rfl, hstate, ?_, by simpa using hallowed, ?_⟩
      · rcases hcall with he | he <;> exact fun h => by simp_all
      · simpa [Option.isSome_iff_ne_none] using hbound
    · obtain ⟨p, hp, hrest⟩ := hfooting c (by rwa [hsst, if_neg hcf] at hc)
      exact ⟨p, by rw [hsst, if_neg hcf]; exact hp, hrest⟩

/-- A CHANGE_MODE that R106 lets through keeps both limits. -/
theorem State.SessionLaws.changeMode {s : State} (h : s.SessionLaws) (c : Fin 4) (mode : SupMode)
    (hup : s.sst[c].mode ≠ .idle) (hone : (mode.talking && s.otherTalks c) = false) :
    (s.modSession c (fun x => { x with mode := mode })).SessionLaws := by
  obtain ⟨hlimits, hfooting⟩ := h
  have hsst : ∀ k : Fin 4, (s.modSession c (fun x => { x with mode := mode })).sst[k] =
      if k = c then { s.sst[k] with mode := mode } else s.sst[k] := fun k => by
    simp only [State.modSession_sst, Fin.getElem_fin, upd_get]
  have hon : ∀ p k, (s.modSession c (fun x => { x with mode := mode })).sessionOn p k = true →
      s.sessionOn p k = true := fun p k hk => by
    rw [State.sessionOn_iff, hsst] at hk
    rw [State.sessionOn_iff]
    split at hk
    · next he => subst he; exact ⟨hup, hk.2⟩
    · exact hk
  have htalks : ∀ p k, k ≠ c → (s.modSession c (fun x => { x with mode := mode })).talkingOn p k = true →
      s.talkingOn p k = true := fun p k hk ht => by
    rw [State.talkingOn_iff] at ht ⊢
    rw [hsst, if_neg hk] at ht
    exact ⟨hon p k ht.1, ht.2⟩
  have halone : ∀ p k, k ≠ c → (s.modSession c (fun x => { x with mode := mode })).talkingOn p c = true →
      s.talkingOn p k = false := fun p k hk ht => by
    rw [State.talkingOn_iff, hsst, if_pos rfl] at ht
    have hm : mode.talking = true := ht.2
    have hp := ((s.sessionOn_iff p c).mp (hon p c ht.1)).2
    rw [hm, Bool.true_and, State.otherTalks, hp, List.any_eq_false] at hone
    simpa [hk] using hone k (mem_allChannels k)
  refine ⟨fun p => ⟨(channels_filter_le (hon p)).trans (hlimits p).1, fun a b ha hb => ?_⟩, fun k hk => ?_⟩
  · by_cases hac : a = c <;> by_cases hbc : b = c
    · exact hac.trans hbc.symm
    · subst hac
      exact absurd (htalks p b hbc hb) (by simp [halone p b hbc ha])
    · subst hbc
      exact absurd (htalks p a hac ha) (by simp [halone p a hac hb])
    · exact (hlimits p).2 a b (htalks p a hac ha) (htalks p b hbc hb)
  · rw [hsst] at hk ⊢
    split at hk
    · next he => subst he; rw [if_pos rfl]; exact hfooting k hup
    · next he => rw [if_neg he]; exact hfooting k hk

/-- A session made IDLE, with its channel unbound or not, leaves the others standing (R108, R109). -/
theorem State.SessionLaws.idled {s t : State} (h : s.SessionLaws) (c : Fin 4) (hidle : t.sst[c].mode = .idle)
    (hsst : ∀ k : Fin 4, k ≠ c → t.sst[k] = s.sst[k])
    (hch : ∀ k : Fin 4, k ≠ c → t.hwi.channels[k] = s.hwi.channels[k]) (hpct : t.pct = s.pct := by rfl) :
    t.SessionLaws := by
  refine h.mono fun k hk => ?_
  have hkc : k ≠ c := fun e => by subst e; exact hk hidle
  exact ⟨by rw [hsst k hkc], by rw [hsst k hkc], by rw [hch k hkc]; exact id,
    fun p _ hp => by rw [State.pos, hpct]; exact hp⟩

theorem State.SessionLaws.idleSession {s : State} (h : s.SessionLaws) (c : Fin 4) (last : SessionEnd) :
    (s.idleSession c last).SessionLaws :=
  h.idled c (by simp) (fun k hk => by simp [upd_other _ _ _ _ hk]) (fun _ _ => rfl)

theorem State.endSession_records (s : State) (c : Fin 4) (reason : SessionEnd) :
    (s.endSession c reason).sst[c].mode = .idle ∧ (∀ k : Fin 4, k ≠ c → (s.endSession c reason).sst[k] = s.sst[k]) ∧
      (s.endSession c reason).hwi = s.hwi ∧ (s.endSession c reason).pct = s.pct := by
  unfold State.endSession
  split
  · next hm => exact ⟨hm, fun _ _ => rfl, rfl, rfl⟩
  · split <;> exact ⟨by simp, fun k hk => by simp [upd_other _ _ _ _ hk], rfl, rfl⟩

theorem State.SessionLaws.unbindChannel {s : State} (h : s.SessionLaws) (c : Fin 4) :
    (s.unbindChannel c).SessionLaws := by
  unfold State.unbindChannel
  split
  · dsimp only
    obtain ⟨h1, h2, h3, h4⟩ := State.endSession_records { s with
      hwi := { s.hwi with channels := s.hwi.channels.set c none, supOut := s.hwi.supOut.set c none } } c .channelUnbound
    refine h.idled c h1 h2 (fun k hk => ?_) h4
    simp only [State.dropSup_hwi, h3, Fin.getElem_fin, set_get, if_neg hk]
  · exact h

theorem State.SessionLaws.bindChannel {s : State} (h : s.SessionLaws) (c : Fin 4) (b : SlotPair) :
    (s.bindChannel c b).SessionLaws :=
  h.mono fun k _ => ⟨rfl, rfl, fun hk => by
    simp only [State.bindChannel, Fin.getElem_fin, set_get] at hk ⊢
    split
    exacts [rfl, hk], fun _ _ hp => hp⟩

theorem State.SessionLaws.close {s : State} (h : s.SessionLaws) (p : Fin 16) (plan : Plan) :
    (s.close p plan).SessionLaws := by
  obtain ⟨sst, sup, vce, owed, he, hend, -⟩ := s.close_spec p plan
  rw [he]
  exact h.ended p (fun c hc => hend.other c hc) (fun q hq => by simp [State.pos, upd_other _ _ _ _ hq])

theorem State.SessionLaws.setSupervision {s : State} (h : s.SessionLaws) (p : Fin 16) (allowed : Bool) :
    (s.setSupervision p allowed).SessionLaws := by
  unfold State.setSupervision
  dsimp only
  split
  · exact h.endSessionsOn p _ .revoked
  · next hrevoke =>
    refine h.modPos p _ fun ⟨hstate, hcall, hallowed⟩ => ⟨hstate, hcall, ?_⟩
    rw [hallowed] at hrevoke
    simpa using hrevoke

theorem State.SessionLaws.setCall {s : State} (h : s.SessionLaws) (p : Fin 16) (c : CallState) :
    (s.setCall p c).state.SessionLaws := by
  unfold State.setCall
  dsimp only
  repeat' split
  all_goals dsimp only [State.okay, State.refuse]
  · exact h
  · exact h
  · exact h
  · exact h.modPos p _ fun hp => ⟨hp.1, CallState.noConfusion, hp.2.2⟩
  · exact h
  · refine h.modPos p _ fun hp => ?_
    unfold Position.startReminder
    split <;> exact ⟨hp.1, CallState.noConfusion, hp.2.2⟩
  · exact h
  · exact h.modPos p _ fun hp => ⟨hp.1, CallState.noConfusion, hp.2.2⟩
  · exact h.idleEffects p _
  · exact h.idleEffects p _
  · exact h

theorem State.SessionLaws.unbindLine {s : State} (h : s.SessionLaws) (p : Fin 16) : (s.unbindLine p).SessionLaws := by
  have hrelease : ∀ t : State, t.SessionLaws → (t.releaseLine p).SessionLaws := fun t ht =>
    State.SessionLaws.of_eq (ht.modPos p (fun x => { x with line := none }) id)
  unfold State.unbindLine
  split
  · exact hrelease s h
  · exact hrelease _ (h.idleEffects p _)
  · exact hrelease _ (h.idleEffects p _)

theorem State.SessionLaws.joinTail {s : State} (h : s.SessionLaws) (p : Fin 16) (q : QueueId) (e : Entry) :
    (s.joinTail p q e).state.SessionLaws := by
  unfold State.joinTail
  dsimp only
  split
  · cases q <;> exact h.of_eq
  · exact h

theorem State.SessionLaws.clearQueue {s : State} (h : s.SessionLaws) (p : Fin 16) (q : QueueId) :
    (s.clearQueue p q).state.SessionLaws := by
  unfold State.clearQueue
  split
  · exact h
  · exact h.flushQueue p q

theorem State.SessionLaws.openPosition {s : State} (h : s.SessionLaws) (p : Fin 16) (useRetained : Bool)
    (hclosed : (s.pos p).state = .closed) : (s.openPosition p useRetained).SessionLaws :=
  State.SessionLaws.of_eq (h.modPos p (fun x =>
    { x with state := .opened, retained := false, band := .normal, mutedCount := 0, mutedIssued := false })
    fun hp => absurd hp.1 (by rw [hclosed]; exact PosState.noConfusion))

theorem sessions_serve (k : Kind) (port : Port) (s : State) (r : Request) (h : s.SessionLaws) :
    (k.serve port s r).state.SessionLaws := by
  cases k <;> refine State.withArgs_law State.SessionLaws s _ _ h fun a => ?_
  case openPosition =>
    dsimp only
    split
    · next hclosed => exact h.openPosition _ _ hclosed
    · exact h
  case close =>
    dsimp only
    split
    exacts [h, h.close _ _, h.modPos _ _ id]
  case setDesk =>
    dsimp only
    split
    · exact h
    · refine h.modPos _ _ fun hp => ?_
      have hw := Position.worked_setMute (s.pos a.1) (a.2.mute.getD (s.pos a.1).mute)
      obtain ⟨hstate, hcall, hallowed⟩ := hw.supervised hp
      exact ⟨hstate, hcall, hallowed⟩
  case setSupervision =>
    dsimp only
    split
    exacts [h, h.setSupervision _ _]
  case setCall => exact h.setCall _ _
  case setReminder =>
    dsimp only
    split
    · exact h
    · refine h.modPos _ _ fun hp => ?_
      unfold Position.setReminder
      dsimp only
      repeat' split
      all_goals exact hp
  case ackReminder =>
    dsimp only
    split
    exacts [h.modPos _ _ id, h]
  case bindLine =>
    dsimp only
    repeat' split
    · exact h
    · exact h
    · exact State.SessionLaws.of_eq (h.modPos a.1 (fun x => { x with line := some _ }) id)
    · exact h
  case unbindLine =>
    split
    exacts [h.unbindLine _, h]
  case setSupChannel =>
    dsimp only
    repeat' split
    exacts [h.unbindChannel _, h, h, h.bindChannel _ _]
  case setEc =>
    dsimp only [State.setEc]
    repeat' split
    · exact h
    · exact State.SessionLaws.of_eq (h.modPos a.1 (fun x => { x with echo := x.echo.update a.2 }) id)
    · exact h.modPos _ _ id
  case join =>
    split
    · next hok => exact h.join a hok
    · exact h
  case changeMode =>
    dsimp only
    repeat' split
    · exact h
    · exact h
    · next hup hone => exact h.changeMode _ _ hup (Bool.eq_false_iff.mpr hone)
  case leave =>
    split
    exacts [h, h.idleSession _ _]
  case startProgram =>
    dsimp only
    split
    exacts [h.of_eq, h]
  case stopProgram =>
    repeat' split
    exacts [h, h.of_eq, h]
  case agentPrompt =>
    dsimp only
    split
    exacts [h.joinTail _ _ _, h]
  case coachPrompt =>
    dsimp only
    repeat' split
    exacts [h, h.joinTail _ _ _, h]
  case announce =>
    dsimp only
    split
    exacts [h.joinTail _ _ _, h]
  case clearAgentPrompts => exact h.clearQueue _ _
  case clearAnnounce => exact h.clearQueue _ _
  case setNr | setBattery | setHoldSource =>
    dsimp only
    repeat' split
    all_goals first | exact h | exact h.modPos _ _ id
  case setSupNr | takeReports | subscribeMeters | readPosition | readSession | readVoice | readStore | reset =>
    exact h.of_eq
  case readCoeffs =>
    dsimp only
    split <;> exact h
  case rescan =>
    repeat' split
    exacts [h, h, h.of_eq]

theorem sessions_softReset (s : State) : s.softReset.SessionLaws := by
  refine sessions_powerOn _ fun c => ?_
  have hsst : s.softReset.sst = Vector.replicate 4 .powerOn := by
    unfold State.softReset State.resetBlocks
    rw [State.reportAll_eq]
    dsimp only
    split <;> rfl
  rw [hsst]
  simp [Session.powerOn]

/-- Settles O56: a session ends, or stands as it was on a position and a channel that keep its footing; only a JOIN adds
one and only a CHANGE_MODE makes one talk. -/
theorem stepKeepsSessionLaws : Obligations.StepKeepsSessionLaws := by
  unfold Obligations.StepKeepsSessionLaws
  intro s t hlimits hfooting he
  exact step_law State.SessionLaws sessions_kept (fun _ _ h => h.of_eq) (fun _ _ h => h.of_eq) sessions_serve
    (fun s _ => sessions_softReset s) ⟨hlimits, hfooting⟩ he

end Sys2Proof.Machine
end

