-- ==== Sys2Proof/Proofs/RecordLaws.lean ====
section
/-!
PROOFS. The law of the position records (R1 to R4, R10, R12, R21) and the law of the slots (R32) through every step.
-/

namespace Sys2Proof.Machine

/-- The laws of the position records and of the slots. -/
def State.RecordLaws (s : State) : Prop := s.PositionLaw ∧ s.SlotLaw

/-! ### Records that stay lawful, bindings that stay or go -/

/-- Where every record stays lawful and no binding is new, the laws are kept. -/
theorem State.RecordLaws.mono {s t : State} (h : s.RecordLaws)
    (hpos : ∀ p, (s.pos p).Lawful → (t.pos p).Lawful)
    (hbound : ∀ e b, t.binding e = some b → s.binding e = some b) : t.RecordLaws :=
  ⟨fun p => hpos p (h.1 p), fun e f b c hef hb hc => h.2 e f b c hef (hbound e b hb) (hbound f c hc)⟩

theorem State.binding_congr {s t : State} (hpct : t.pct = s.pct) (hch : t.hwi.channels = s.hwi.channels) (e : Endpoint) :
    t.binding e = s.binding e := by
  cases e with
  | position p => simp only [State.binding, State.pos, hpct]
  | channel c => simp only [State.binding, hch]

theorem State.RecordLaws.of_eq {s t : State} (h : s.RecordLaws) (hpct : t.pct = s.pct := by rfl)
    (hch : t.hwi.channels = s.hwi.channels := by rfl) : t.RecordLaws :=
  h.mono (fun p hp => by rw [State.pos, hpct]; exact hp)
    fun e b hb => by rw [← State.binding_congr hpct hch]; exact hb

/-- A change of one position record that stays lawful and keeps or loses its line keeps the laws. -/
theorem State.RecordLaws.upd {s t : State} (h : s.RecordLaws) (p : Fin 16) (f : Position → Position)
    (hf : (s.pos p).Lawful → (f (s.pos p)).Lawful)
    (hline : (f (s.pos p)).line = (s.pos p).line ∨ (f (s.pos p)).line = none)
    (hpct : t.pct = upd s.pct p f := by rfl) (hch : t.hwi.channels = s.hwi.channels := by rfl) : t.RecordLaws := by
  have hpos : ∀ q, t.pos q = if q = p then f (s.pos q) else s.pos q := fun q => by
    simp only [State.pos, hpct, Fin.getElem_fin, upd_get]
  refine h.mono (fun q hq => ?_) fun e b hb => ?_
  · rw [hpos]
    split
    · next he => subst he; exact hf hq
    · exact hq
  · cases e with
    | channel c =>
      rw [State.binding, hch] at hb
      exact hb
    | position q =>
      rw [State.binding, hpos] at hb
      split at hb
      · next he =>
        subst he
        rcases hline with hl | hl
        · rwa [hl] at hb
        · rw [hl] at hb; cases hb
      · exact hb

/-- A change of fields that neither law speaks of. -/
theorem State.RecordLaws.modPos {s : State} (h : s.RecordLaws) (p : Fin 16) (f : Position → Position)
    (hf : (s.pos p).Lawful → (f (s.pos p)).Lawful) (hline : (f (s.pos p)).line = (s.pos p).line := by rfl) :
    (s.modPos p f).RecordLaws := h.upd p f hf (.inl hline)

theorem Position.Worked.lawful {x y : Position} (h : x.Worked y) (hx : x.Lawful) : y.Lawful := by
  obtain ⟨hplan, hretained, hline, hcall, hrunning, hbattery⟩ := hx
  refine ⟨?_, ?_, ?_, by rw [h.call, h.line]; exact hcall, fun hr => h.call ▸ hrunning (h.running hr),
    by rw [h.batteryCritical, h.batteryLow]; exact hbattery⟩ <;> rcases h.state with ⟨h1, h2, h3⟩ | ⟨h1, h2, h3⟩
  · rw [h1, h2]; exact hplan
  · simp [h2, h3]
  · rw [h1, h3]; exact hretained
  · exact fun _ => h2
  · rw [h1, h.line]; exact hline
  · rw [h.line]
    intro hb
    have := hline hb
    rw [h1] at this
    cases this

theorem records_powerOn (s : State) (hpos : ∀ p, ∃ r, s.pos p = { Position.powerOn with retained := r })
    (hch : s.hwi.channels = Vector.replicate 4 none) : s.RecordLaws := by
  have hnone : ∀ e, s.binding e = none := fun e => by
    cases e with
    | position p =>
      obtain ⟨r, hr⟩ := hpos p
      rw [State.binding, hr]
      rfl
    | channel c => simp [State.binding, hch]
  refine ⟨fun p => ?_, fun e f b c _ hb _ => ?_⟩
  · obtain ⟨r, hr⟩ := hpos p
    rw [hr]
    exact ⟨by simp [Position.powerOn], fun _ => rfl, by simp [Position.powerOn], by simp [Position.powerOn],
      by simp [Position.powerOn], by simp [Position.powerOn]⟩
  · rw [hnone] at hb
    cases hb

theorem State.runWork_recordLaws (s : State) (w : Work) (h : s.RecordLaws) : (s.runWork w).RecordLaws := by
  have hw := s.runWork_records w
  refine h.mono (fun p => (hw.positions p).lawful) fun e b hb => ?_
  cases e with
  | position p => rwa [State.binding, (hw.positions p).line] at hb
  | channel c => rwa [State.binding, hw.channels] at hb

theorem records_kept : Kept State.RecordLaws :=
  Kept.of_records _ (fun _ _ v h => h.of_eq v.pct v.channels)
    (records_powerOn _ (fun p => ⟨false, by simp [State.pos, State.powerOn, Position.powerOn]⟩) rfl)
    State.runWork_recordLaws

/-! ### Bindings (R32, R33, R35) -/

theorem State.slotsInUse_false {s : State} {e f : Endpoint} {b c : SlotPair} (h : ¬ s.slotsInUse e b = true) (hne : f ≠ e)
    (hc : s.binding f = some c) : c.inSlot ≠ b.inSlot ∧ c.outSlot ≠ b.outSlot := by
  simp only [State.slotsInUse, Bool.or_eq_true, List.any_eq_true, not_or, not_exists, not_and] at h
  obtain ⟨hpos, hch⟩ := h
  cases f with
  | position p =>
    have := hpos p (mem_allPositions p)
    rw [State.binding] at hc
    rw [hc] at this
    simpa [hne] using this
  | channel k =>
    have := hch k (mem_allChannels k)
    rw [State.binding] at hc
    rw [hc] at this
    simpa [hne] using this

/-- A pair bound to an endpoint that no other endpoint has a slot of keeps the law of the slots (R32). -/
theorem State.SlotLaw.bind {s t : State} (h : s.SlotLaw) (e : Endpoint) (b : SlotPair) (hfree : ¬ s.slotsInUse e b = true)
    (he : t.binding e = some b) (hother : ∀ f, f ≠ e → t.binding f = s.binding f) : t.SlotLaw := by
  intro f g x y hfg hx hy
  by_cases hf : f = e
  · subst hf
    rw [he] at hx
    rw [hother g hfg.symm] at hy
    obtain ⟨h1, h2⟩ := State.slotsInUse_false hfree hfg.symm hy
    cases hx
    exact ⟨h1.symm, h2.symm⟩
  · rw [hother f hf] at hx
    by_cases hg : g = e
    · subst hg
      rw [he] at hy
      cases hy
      exact State.slotsInUse_false hfree hf hx
    · rw [hother g hg] at hy
      exact h f g x y hfg hx hy

theorem State.RecordLaws.bindLine {s : State} (h : s.RecordLaws) (p : Fin 16) (b : SlotPair)
    (hopen : (s.pos p).state = .opened) (hfree : ¬ s.slotsInUse (.position p) b = true) : (s.bindLine p b).RecordLaws := by
  have hpos : ∀ q, (s.bindLine p b).pos q = if q = p then { s.pos q with line := some b } else s.pos q := fun q => by
    simp only [State.bindLine, State.pos, State.modPos_pct, Fin.getElem_fin, upd_get]
  refine ⟨fun q => ?_, h.2.bind (.position p) b hfree (by simp only [State.binding, hpos, if_true]) fun f hf => ?_⟩
  · rw [hpos]
    split
    · next he =>
      subst he
      obtain ⟨hplan, hretained, hline, hcall, hrunning, hbattery⟩ := h.1 q
      exact ⟨hplan, hretained, fun _ => hopen, fun _ => rfl, hrunning, hbattery⟩
    · exact h.1 q
  · cases f with
    | position q =>
      have : q ≠ p := fun e => hf (by rw [e])
      simp only [State.binding, hpos, if_neg this]
    | channel c => rfl

theorem State.RecordLaws.bindChannel {s : State} (h : s.RecordLaws) (c : Fin 4) (b : SlotPair)
    (hfree : ¬ s.slotsInUse (.channel c) b = true) : (s.bindChannel c b).RecordLaws := by
  refine ⟨fun q => h.1 q, h.2.bind (.channel c) b hfree ?_ fun f hf => ?_⟩
  · simp [State.binding, State.bindChannel]
  · cases f with
    | position q => rfl
    | channel k =>
      have : k ≠ c := fun e => hf (by rw [e])
      simp only [State.binding, State.bindChannel, Fin.getElem_fin, set_get, if_neg this]

theorem State.RecordLaws.unbindChannel {s : State} (h : s.RecordLaws) (c : Fin 4) : (s.unbindChannel c).RecordLaws := by
  unfold State.unbindChannel
  split
  · dsimp only
    obtain ⟨-, -, hhwi, hpct⟩ := State.endSession_records { s with
      hwi := { s.hwi with channels := s.hwi.channels.set c none, supOut := s.hwi.supOut.set c none } } c .channelUnbound
    refine h.mono (fun p hp => ?_) fun e b hb => ?_
    · simpa only [State.pos, State.dropSup_pct, hpct] using hp
    · cases e with
      | position p => simpa only [State.binding, State.pos, State.dropSup_pct, hpct] using hb
      | channel k =>
        simp only [State.binding, State.dropSup_hwi, hhwi, Fin.getElem_fin, set_get] at hb
        split at hb
        · cases hb
        · exact hb
  · exact h

/-! ### Requests on a position -/

theorem State.RecordLaws.endSessionsOn {s : State} (h : s.RecordLaws) (p : Fin 16) (reason : SessionEnd) :
    (s.endSessionsOn p reason).RecordLaws := by
  obtain ⟨_, _, he, -, -⟩ := s.endSessionsOn_spec p reason
  rw [he]
  exact h.of_eq

theorem State.RecordLaws.flushQueue {s : State} (h : s.RecordLaws) (p : Fin 16) (q : QueueId) :
    (s.flushQueue p q).RecordLaws := by
  obtain ⟨_, _, he, -⟩ := s.flushQueue_spec p q
  rw [he]
  exact h.of_eq

theorem State.RecordLaws.idleEffects {s : State} (h : s.RecordLaws) (p : Fin 16) : (s.idleEffects p).RecordLaws :=
  (h.endSessionsOn p .callEnded).flushQueue p .line

/-- The call of a lawful record ends: its reminder is stopped or was not RUNNING (R21). -/
theorem Position.Lawful.endCall {x : Position} (h : x.Lawful) (status : ReminderStatus) (hs : status ≠ .running) :
    ({ x with call := .idle, reminderStatus := status } : Position).Lawful := by
  obtain ⟨hplan, hretained, hline, -, -, hbattery⟩ := h
  exact ⟨hplan, hretained, hline, fun hc => absurd rfl hc, fun hr => absurd hr hs, hbattery⟩

theorem Position.Lawful.notRunning {x : Position} (h : x.Lawful) (hc : x.call ≠ .hold) : x.reminderStatus ≠ .running :=
  fun hr => by
    obtain ⟨-, -, -, -, hrunning, -⟩ := h
    exact hc (hrunning hr)

theorem State.RecordLaws.close {s : State} (h : s.RecordLaws) (p : Fin 16) (plan : Plan)
    (hopen : (s.pos p).state = .opened) : (s.close p plan).RecordLaws := by
  obtain ⟨_, _, _, _, he, -⟩ := s.close_spec p plan
  rw [he]
  refine h.upd p (fun x => { x with
    state := .closing, closePlan := some plan, line := none, call := .idle, reminderStatus := .stopped,
    band := .normal }) (fun ⟨_, hretained, _, _, _, hbattery⟩ => ?_) (.inr rfl)
  exact ⟨by simp, fun hr => absurd (hretained hr) (by rw [hopen]; exact PosState.noConfusion), by simp, by simp,
    by simp, hbattery⟩

theorem State.RecordLaws.openPosition {s : State} (h : s.RecordLaws) (p : Fin 16) (useRetained : Bool)
    (hclosed : (s.pos p).state = .closed) : (s.openPosition p useRetained).RecordLaws := by
  refine h.upd p (fun x =>
    { x with state := .opened, retained := false, band := .normal, mutedCount := 0, mutedIssued := false }) ?_ (.inl rfl)
  rintro ⟨hplan, -, -, hcall, hrunning, hbattery⟩
  refine ⟨?_, Bool.noConfusion, fun _ => rfl, hcall, hrunning, hbattery⟩
  rw [hclosed] at hplan
  simpa using hplan

theorem State.RecordLaws.setCall {s : State} (h : s.RecordLaws) (p : Fin 16) (c : CallState) :
    (s.setCall p c).state.RecordLaws := by
  have hend : ∀ status, status ≠ .running →
      ((s.modPos p (fun x => { x with call := .idle, reminderStatus := status })).idleEffects p).RecordLaws :=
    fun status hs => (h.modPos p _ fun hp => hp.endCall status hs).idleEffects p
  unfold State.setCall
  dsimp only
  split
  · next hup =>
    obtain ⟨-, hline⟩ := hup
    split
    all_goals try dsimp only [State.okay, State.refuse]
    · exact h
    · exact h
    · exact h
    · next hcall =>
      refine h.modPos p _ fun hp => ?_
      have hrun := hp.notRunning (by rw [hcall]; decide)
      obtain ⟨h1, h2, h3, -, -, h6⟩ := hp
      exact ⟨h1, h2, h3, fun _ => hline, fun hr => absurd hr hrun, h6⟩
    · exact h
    · split
      · refine h.modPos p _ (fun ⟨h1, h2, h3, _, _, h6⟩ => ?_) ?_
        · unfold Position.startReminder
          split <;> exact ⟨h1, h2, h3, fun _ => hline, fun _ => rfl, h6⟩
        · unfold Position.startReminder
          split <;> rfl
      · exact h
    · exact h.modPos p _ fun ⟨h1, h2, h3, _, _, h6⟩ => ⟨h1, h2, h3, fun _ => hline, ReminderStatus.noConfusion, h6⟩
    · next hcall =>
      refine (h.modPos p _ fun hp => ?_).idleEffects p
      exact hp.endCall _ (hp.notRunning (by rw [hcall]; decide))
    · exact hend _ ReminderStatus.noConfusion
  · exact h

theorem State.RecordLaws.releaseLine {s : State} (h : s.RecordLaws) (p : Fin 16) (hidle : (s.pos p).call = .idle) :
    (s.releaseLine p).RecordLaws :=
  h.upd p (fun x => { x with line := none })
    (fun ⟨h1, h2, _, _, h5, h6⟩ => ⟨h1, h2, Bool.noConfusion, fun hc => absurd hidle hc, h5, h6⟩) (.inr rfl)

theorem State.idleEffects_pct (s : State) (p : Fin 16) : (s.idleEffects p).pct = s.pct := by
  obtain ⟨_, _, he, -, -⟩ := s.endSessionsOn_spec p .callEnded
  obtain ⟨_, _, hf, -⟩ := (s.endSessionsOn p .callEnded).flushQueue_spec p .line
  rw [State.idleEffects, hf]
  dsimp only [State.setQueue]
  rw [he]

theorem State.RecordLaws.unbindLine {s : State} (h : s.RecordLaws) (p : Fin 16) : (s.unbindLine p).RecordLaws := by
  have hidle : ∀ f : Position → Position, (f (s.pos p)).call = .idle →
      (((s.modPos p f).idleEffects p).pos p).call = .idle := fun f hf => by
    simp only [State.pos, State.idleEffects_pct, State.modPos_pct, Fin.getElem_fin, upd_get, if_true]
    exact hf
  unfold State.unbindLine
  split
  · next hc => exact h.releaseLine p hc
  · next hcall =>
    refine State.RecordLaws.releaseLine ((h.modPos p _ fun hp => ?_).idleEffects p) p (hidle _ rfl)
    exact hp.endCall _ (hp.notRunning (by rw [hcall]; decide))
  · exact State.RecordLaws.releaseLine ((h.modPos p _ fun hp => hp.endCall _ ReminderStatus.noConfusion).idleEffects p) p
      (hidle _ rfl)

theorem Position.Lawful.setReminder {x : Position} (h : x.Lawful) (seconds : Nat) (again : Bool) :
    (x.setReminder seconds again).Lawful := by
  obtain ⟨h1, h2, h3, h4, h5, h6⟩ := h
  unfold Position.setReminder
  dsimp only
  split
  · exact ⟨h1, h2, h3, h4, ReminderStatus.noConfusion, h6⟩
  · split
    · exact ⟨h1, h2, h3, h4, h5, h6⟩
    · refine ⟨h1, h2, h3, h4, fun hr => ?_, h6⟩
      dsimp only at hr ⊢
      split at hr
      · assumption
      · exact h5 hr

theorem Position.setReminder_line (x : Position) (seconds : Nat) (again : Bool) : (x.setReminder seconds again).line = x.line := by
  unfold Position.setReminder
  dsimp only
  repeat' split
  all_goals rfl

theorem State.RecordLaws.joinTail {s : State} (h : s.RecordLaws) (p : Fin 16) (q : QueueId) (e : Entry) :
    (s.joinTail p q e).state.RecordLaws := by
  unfold State.joinTail
  dsimp only
  split
  · cases q <;> exact h.of_eq
  · exact h

theorem State.RecordLaws.clearQueue {s : State} (h : s.RecordLaws) (p : Fin 16) (q : QueueId) :
    (s.clearQueue p q).state.RecordLaws := by
  unfold State.clearQueue
  split
  · exact h
  · exact h.flushQueue p q

theorem records_serve (k : Kind) (port : Port) (s : State) (r : Request) (h : s.RecordLaws) :
    (k.serve port s r).state.RecordLaws := by
  cases k <;> refine State.withArgs_law State.RecordLaws s _ _ h fun a => ?_
  case openPosition =>
    dsimp only
    split
    · next hclosed => exact h.openPosition _ _ hclosed
    · exact h
  case close =>
    dsimp only
    split
    · exact h
    · next hopen => exact h.close _ _ hopen
    · next hclosing =>
      refine h.modPos _ _ fun ⟨_, h2, h3, h4, h5, h6⟩ => ⟨?_, h2, h3, h4, h5, h6⟩
      simpa using hclosing
  case setDesk =>
    dsimp only
    split
    · exact h
    · have hw := Position.worked_setMute (s.pos a.1) (a.2.mute.getD (s.pos a.1).mute)
      refine h.modPos _ _ (fun hp => ?_) hw.line
      obtain ⟨h1, h2, h3, h4, h5, h6⟩ := hw.lawful hp
      exact ⟨h1, h2, h3, h4, h5, h6⟩
  case setBattery =>
    dsimp only
    split
    · exact h
    · exact h.modPos _ _ fun ⟨h1, h2, h3, h4, h5, _⟩ => ⟨h1, h2, h3, h4, h5, Nat.min_le_right _ _⟩
  case setSupervision =>
    dsimp only [State.setSupervision]
    have hset : (s.modPos a.1 (fun x => { x with supervisionAllowed := a.2 })).RecordLaws := h.modPos _ _ id
    split
    · exact h
    · exact ite_law _ (hset.endSessionsOn _ _) hset
  case setCall => exact h.setCall _ _
  case setReminder =>
    dsimp only
    split
    exacts [h, h.modPos _ _ (fun hp => hp.setReminder _ _) (Position.setReminder_line _ _ _)]
  case ackReminder =>
    dsimp only
    split
    · next hup => exact h.modPos _ _ fun ⟨h1, h2, h3, h4, _, h6⟩ => ⟨h1, h2, h3, h4, fun _ => hup.2.1, h6⟩
    · exact h
  case setHoldSource =>
    dsimp only
    repeat' split
    all_goals first | exact h | exact h.modPos _ _ id
  case setNr =>
    dsimp only
    repeat' split
    all_goals first | exact h | exact h.modPos _ _ id
  case setEc =>
    dsimp only [State.setEc]
    have hset : (s.modPos a.1 (fun x => { x with echo := x.echo.update a.2 })).RecordLaws := h.modPos _ _ id
    split
    · exact h
    · exact ite_law _ hset.of_eq hset
  case bindLine =>
    dsimp only
    repeat' split
    · exact h
    · exact h
    · next hup _ _ _ hfree => exact h.bindLine _ _ hup.1 hfree
    · exact h
  case unbindLine =>
    split
    exacts [h.unbindLine _, h]
  case setSupChannel =>
    dsimp only
    repeat' split
    · exact h.unbindChannel _
    · exact h
    · exact h
    · next hfree => exact h.bindChannel _ _ hfree
  case join => split <;> exact h.of_eq
  case changeMode =>
    dsimp only
    repeat' split
    all_goals exact h.of_eq
  case leave => split <;> exact h.of_eq
  case startProgram =>
    dsimp only
    split <;> exact h.of_eq
  case stopProgram =>
    repeat' split
    all_goals exact h.of_eq
  case agentPrompt =>
    dsimp only
    split
    exacts [h.joinTail _ _ _, h]
  case coachPrompt =>
    dsimp only
    repeat' split
    exacts [h, h.joinTail _ _ _, h]
  case announce =>
    dsimp only
    split
    exacts [h.joinTail _ _ _, h]
  case clearAgentPrompts | clearAnnounce => exact h.clearQueue _ _
  case setSupNr | takeReports | subscribeMeters | readPosition | readSession | readVoice | readStore | reset =>
    exact h.of_eq
  case readCoeffs =>
    dsimp only
    split <;> exact h
  case rescan =>
    repeat' split
    all_goals exact h.of_eq

/-- A position record through a soft reset: all but the retained flag at its power-on value (R2, R184). -/
def Position.softReset (x : Position) : Position := { Position.powerOn with retained := x.retained }

theorem State.softReset_pct (s : State) : s.softReset.pct =
    allPositions.foldl (fun (v : Vector Position 16) (p : Fin 16) => upd v p Position.softReset) s.pct := by
  unfold State.softReset State.resetBlocks
  rw [State.reportAll_eq]
  dsimp only
  split <;> rfl

theorem State.softReset_pos (s : State) (p : Fin 16) : s.softReset.pos p = (s.pos p).softReset := by
  rw [State.pos, s.softReset_pct]
  exact foldl_allPositions_get (fun _ => Position.softReset) p s.pct

theorem State.softReset_channels (s : State) : s.softReset.hwi.channels = Vector.replicate 4 none := by
  unfold State.softReset State.resetBlocks
  rw [State.reportAll_eq]
  dsimp only
  split <;> rfl

theorem records_softReset (s : State) : s.softReset.RecordLaws :=
  records_powerOn _ (fun p => ⟨(s.pos p).retained, s.softReset_pos p⟩) s.softReset_channels

/-- Settles O57: each record's change keeps its own law, and only BIND_LINE and SET_SUP_CHANNEL bind, to slots that no
other endpoint has. -/
theorem stepKeepsRecordLaws : Obligations.StepKeepsRecordLaws := by
  unfold Obligations.StepKeepsRecordLaws
  intro s t hpos hslot he
  exact step_law State.RecordLaws records_kept (fun _ _ h => h.of_eq) (fun _ _ h => h.of_eq) records_serve
    (fun s _ => records_softReset s) ⟨hpos, hslot⟩ he

end Sys2Proof.Machine
end

