-- ==== Sys2Proof/Proofs/MixLaws.lean ====
section
/-!
PROOFS. The laws of the mix (R46 to R48, R52, R57) through every step: gains, the kinds of the sources and the range of
every sample that leaves the part, kept block by block.
-/

namespace Sys2Proof.Machine

/-! ### The laws, record by record -/

/-- A term has a gain code, and a source that its role may name. -/
structure Term.Lawful (role : Src → Prop) (t : Term) : Prop where
  gain : t.gain ≤ 8192
  source : ∀ x, t.source = some x → role x

/-- The roles that name no source, a voice, or a channel (R46 to R48). -/
def NoSource (_ : Src) : Prop := False

def VoiceSource (x : Src) : Prop := ∃ v, x = .voice v

def ChannelSource (x : Src) : Prop := ∃ c, x = .channel c

theorem Term.absent_lawful (role : Src → Prop) : Term.absent.Lawful role := ⟨Nat.zero_le _, fun _ h => nomatch h⟩

structure EarTerms.Lawful (t : EarTerms) : Prop where
  far : t.far.Lawful NoSource
  agentPrompt : t.agentPrompt.Lawful VoiceSource
  linePrompt : t.linePrompt.Lawful VoiceSource
  talk : t.talk.Lawful ChannelSource

structure LineTerms.Lawful (t : LineTerms) : Prop where
  mic : t.mic.Lawful NoSource
  talk : t.talk.Lawful ChannelSource
  linePrompt : t.linePrompt.Lawful VoiceSource
  hold : t.hold.Lawful VoiceSource

structure SupTerms.Lawful (t : SupTerms) : Prop where
  far : t.far.Lawful NoSource
  mic : t.mic.Lawful NoSource
  linePrompt : t.linePrompt.Lawful VoiceSource
  other : t.other.Lawful ChannelSource

theorem EarTerms.absent_lawful : EarTerms.absent.Lawful := by
  constructor <;> exact Term.absent_lawful _

theorem LineTerms.absent_lawful : LineTerms.absent.Lawful := by
  constructor <;> exact Term.absent_lawful _

theorem SupTerms.absent_lawful : SupTerms.absent.Lawful := by
  constructor <;> exact Term.absent_lawful _

theorem noSource_iff (o : Option Src) : (∀ x, o = some x → NoSource x) ↔ o = none := by
  cases o <;> simp [NoSource]

theorem voiceSource_iff (o : Option Src) : (∀ x, o = some x → VoiceSource x) ↔ ∀ c, o ≠ some (.channel c) := by
  rcases o with _ | ⟨_ | _⟩ <;> simp [VoiceSource]

theorem channelSource_iff (o : Option Src) : (∀ x, o = some x → ChannelSource x) ↔ ∀ v, o ≠ some (.voice v) := by
  rcases o with _ | ⟨_ | _⟩ <;> simp [ChannelSource]

/-- What the mix engine holds within its laws: its terms, its duck factors and its LINE and SUPOUT frames. -/
structure Mxe.Lawful (m : Mxe) : Prop where
  duck : ∀ p : Fin 16, m.duck[p].factor ≤ 4096
  earTerms : ∀ p : Fin 16, m.earTerms[p].Lawful
  lineTerms : ∀ p : Fin 16, m.lineTerms[p].Lawful
  supTerms : ∀ c : Fin 4, m.supTerms[c].Lawful
  line : ∀ p : Fin 16, FrameInRange m.line[p]
  sup : ∀ c : Fin 4, FrameInRange m.sup[c]

/-- The samples that slots carry lie in range. -/
def AllInRange (d : Vector (Option Sample) 32) : Prop := ∀ (k : Fin 32) x, d[k] = some x → InRange x

/-- What the highway interface sends lies in range. -/
structure Hwi.OutInRange (h : Hwi) : Prop where
  lineOut : ∀ p : Fin 16, ∀ f, h.lineOut[p] = some f → FrameInRange f
  supOut : ∀ c : Fin 4, ∀ f, h.supOut[c] = some f → FrameInRange f
  driven : AllInRange h.driven

/-- The LINE and SUPOUT frames taken at a frame event lie in range. -/
def Taken.InRange (t : Taken) : Prop :=
  (∀ p : Fin 16, FrameInRange t.line[p]) ∧ ∀ c : Fin 4, FrameInRange t.sup[c]

/-- The three laws of the mix, block by block. -/
structure State.MixLaws (s : State) : Prop where
  gains : ∀ p, (s.pos p).GainsLawful
  talkGain : ∀ c : Fin 4, s.sst[c].talkGain ≤ 8192
  mxe : s.mxe.Lawful
  hwi : s.hwi.OutInRange
  earpiece : ∀ p : Fin 16, FrameInRange s.hli[p].earpiece
  taken : s.taken.InRange

theorem State.mixLaws_iff (s : State) : s.MixLaws ↔ s.GainLaw ∧ s.TermLaw ∧ s.RangeLaw := by
  constructor
  · rintro ⟨hg, ht, ⟨hd, he, hl, hs, hlf, hsf⟩, ⟨hlo, hso, hdr⟩, hep, htl, hts⟩
    refine ⟨⟨fun p => ⟨hg p, hd p⟩, ht, fun p => ?_, fun p => ?_, fun c => ?_⟩, ⟨fun p => ?_, fun p => ?_, fun c => ?_⟩,
      fun p => ⟨hep p, hlf p, htl p, hlo p⟩, fun c => ⟨hsf c, hts c, hso c⟩, hdr⟩
    · exact ⟨(he p).far.gain, (he p).agentPrompt.gain, (he p).linePrompt.gain, (he p).talk.gain⟩
    · exact ⟨(hl p).mic.gain, (hl p).talk.gain, (hl p).linePrompt.gain, (hl p).hold.gain⟩
    · exact ⟨(hs c).far.gain, (hs c).mic.gain, (hs c).linePrompt.gain, (hs c).other.gain⟩
    · exact ⟨(noSource_iff _).mp (he p).far.source, (voiceSource_iff _).mp (he p).agentPrompt.source,
        (voiceSource_iff _).mp (he p).linePrompt.source, (channelSource_iff _).mp (he p).talk.source⟩
    · exact ⟨(noSource_iff _).mp (hl p).mic.source, (channelSource_iff _).mp (hl p).talk.source,
        (voiceSource_iff _).mp (hl p).linePrompt.source, (voiceSource_iff _).mp (hl p).hold.source⟩
    · exact ⟨(noSource_iff _).mp (hs c).far.source, (noSource_iff _).mp (hs c).mic.source,
        (voiceSource_iff _).mp (hs c).linePrompt.source, (channelSource_iff _).mp (hs c).other.source⟩
  · rintro ⟨⟨hg, ht, he, hl, hs⟩, ⟨het, hlt, hst⟩, hp, hc, hdr⟩
    refine ⟨fun p => (hg p).1, ht, ⟨fun p => (hg p).2, fun p => ?_, fun p => ?_, fun c => ?_, fun p => (hp p).2.1,
      fun c => (hc c).1⟩, ⟨fun p => (hp p).2.2.2, fun c => (hc c).2.2, hdr⟩, fun p => (hp p).1,
      fun p => (hp p).2.2.1, fun c => (hc c).2.1⟩
    · obtain ⟨g1, g2, g3, g4⟩ := he p
      obtain ⟨k1, k2, k3, k4⟩ := het p
      exact ⟨⟨g1, (noSource_iff _).mpr k1⟩, ⟨g2, (voiceSource_iff _).mpr k2⟩, ⟨g3, (voiceSource_iff _).mpr k3⟩,
        ⟨g4, (channelSource_iff _).mpr k4⟩⟩
    · obtain ⟨g1, g2, g3, g4⟩ := hl p
      obtain ⟨k1, k2, k3, k4⟩ := hlt p
      exact ⟨⟨g1, (noSource_iff _).mpr k1⟩, ⟨g2, (channelSource_iff _).mpr k2⟩, ⟨g3, (voiceSource_iff _).mpr k3⟩,
        ⟨g4, (voiceSource_iff _).mpr k4⟩⟩
    · obtain ⟨g1, g2, g3, g4⟩ := hs c
      obtain ⟨k1, k2, k3, k4⟩ := hst c
      exact ⟨⟨g1, (noSource_iff _).mpr k1⟩, ⟨g2, (noSource_iff _).mpr k2⟩, ⟨g3, (voiceSource_iff _).mpr k3⟩,
        ⟨g4, (channelSource_iff _).mpr k4⟩⟩

/-! ### What the mix engine makes (R46 to R48, R52, R57) -/

theorem clampInt_bounds (lo hi x : Int) (h : lo ≤ hi) : lo ≤ clampInt lo hi x ∧ clampInt lo hi x ≤ hi := by
  unfold clampInt
  split_ifs <;> omega

theorem clampSample_inRange (x : Int) : InRange (clampSample x) := clampInt_bounds _ _ _ (by decide)

theorem zero_inRange : InRange 0 := ⟨by decide, by decide⟩

theorem zeroFrame_inRange : FrameInRange zeroFrame := fun x hx => by
  rw [List.eq_of_mem_replicate hx]
  exact zero_inRange

theorem frameInRange_clamped (f : Nat → Int) (n : Nat) : FrameInRange ((List.range n).map (fun j => clampSample (f j))) :=
  fun x hx => by
    obtain ⟨j, -, rfl⟩ := List.mem_map.mp hx
    exact clampSample_inRange _

theorem useTerm_lawful {role : Src → Prop} (source : Option Src) (frame : Frame) (start target : Nat) (cut : Bool)
    (htarget : target ≤ 8192) (hrole : ∀ x, source = some x → role x) :
    (useTerm source frame start target cut).record.Lawful role := by
  refine ⟨?_, hrole⟩
  unfold useTerm
  dsimp only
  split
  exacts [Nat.zero_le _, htarget]

theorem namedTerm_lawful {role : Src → Prop} (frameOf : Src → Frame) (t : Term) (named : Option Src) (target : Nat)
    (cut departCut : Bool) (htarget : target ≤ 8192) (hrole : ∀ x, named = some x → role x) :
    (namedTerm frameOf t named target cut departCut).record.Lawful role := by
  unfold namedTerm
  split
  · exact useTerm_lawful _ _ _ _ _ htarget hrole
  · split
    · exact Term.absent_lawful role
    · exact Term.absent_lawful role

theorem fixedTerm_lawful (t : Term) (frame : Frame) (target : Nat) (cut : Bool) (htarget : target ≤ 8192) :
    (fixedTerm t frame target cut).record.Lawful NoSource :=
  useTerm_lawful _ _ _ _ _ htarget fun _ h => nomatch h

theorem State.roleTerm_lawful {role : Src → Prop} (s : State) (use : VoiceUse) (t : Term) (named : Option Src)
    (target : Nat) (cut departCut : Bool) (htarget : target ≤ 8192) (hrole : ∀ x, named = some x → role x) :
    (s.roleTerm use t named target cut departCut).record.Lawful role :=
  namedTerm_lawful _ t named target cut departCut htarget hrole

theorem earRecords_lawful {far agent line talk : TermUse} (h1 : far.record.Lawful NoSource)
    (h2 : agent.record.Lawful VoiceSource) (h3 : line.record.Lawful VoiceSource) (h4 : talk.record.Lawful ChannelSource) :
    (earRecords [far, agent, line, talk]).Lawful := ⟨h1, h2, h3, h4⟩

theorem lineRecords_lawful {mic talk line hold : TermUse} (h1 : mic.record.Lawful NoSource)
    (h2 : talk.record.Lawful ChannelSource) (h3 : line.record.Lawful VoiceSource) (h4 : hold.record.Lawful VoiceSource) :
    (lineRecords [mic, talk, line, hold]).Lawful := ⟨h1, h2, h3, h4⟩

theorem supRecords_lawful {far mic line other : TermUse} (h1 : far.record.Lawful NoSource)
    (h2 : mic.record.Lawful NoSource) (h3 : line.record.Lawful VoiceSource) (h4 : other.record.Lawful ChannelSource) :
    (supRecords [far, mic, line, other]).Lawful := ⟨h1, h2, h3, h4⟩

theorem map_voice_source (o : Option (Fin 12)) : ∀ x, o.map Src.voice = some x → VoiceSource x := fun x h => by
  obtain ⟨v, -, rfl⟩ := Option.map_eq_some_iff.mp h
  exact ⟨v, rfl⟩

theorem map_channel_source (o : Option (Fin 4)) : ∀ x, o.map Src.channel = some x → ChannelSource x := fun x h => by
  obtain ⟨c, -, rfl⟩ := Option.map_eq_some_iff.mp h
  exact ⟨c, rfl⟩

theorem Duck.next_factor (d : Duck) (gate : Option (Nat × Nat)) (h : d.factor ≤ 4096) : (d.next gate).factor ≤ 4096 := by
  unfold Duck.next
  split
  · exact (Nat.min_le_left _ _).trans h
  · exact Nat.min_le_left _ _

/-- A bank with one record written meets a law that it met and that the record meets. -/
theorem set_law {α : Type} {n : Nat} (P : α → Prop) {v : Vector α n} {x : α} (p : Fin n) (hv : ∀ q : Fin n, P v[q])
    (hx : P x) (q : Fin n) : P (v.set p x)[q] := by
  simp only [Fin.getElem_fin, set_get]
  split
  exacts [hx, hv q]

section
variable {s : State} (h : s.MixLaws)
include h

/-- The gain of a talking channel, 0 for none, is a gain code (R46 to R48). -/
theorem State.MixLaws.channelGain (o : Option (Fin 4)) :
    (match o with | some c => s.sst[c].talkGain | none => 0) ≤ 8192 := by
  cases o with
  | none => exact Nat.zero_le _
  | some c => exact h.talkGain c

theorem State.MixLaws.earUses_lawful (p : Fin 16) (d : Nat) (hd : d ≤ 4096) : (earRecords (s.earUses p d)).Lawful := by
  obtain ⟨hear, hprompt, hannounce, -⟩ := h.gains p
  refine earRecords_lawful (fixedTerm_lawful _ _ _ _ ?_) (s.roleTerm_lawful _ _ _ _ _ _ hprompt (map_voice_source _))
    (s.roleTerm_lawful _ _ _ _ _ _ hannounce (map_voice_source _))
    (s.roleTerm_lawful _ _ _ _ _ _ (h.channelGain _) (map_channel_source _))
  split
  · exact Nat.div_le_of_le_mul (by calc
      (s.pos p).earGain * d ≤ 8192 * 4096 := Nat.mul_le_mul hear hd
      _ = 4096 * 8192 := rfl)
  · exact Nat.zero_le _

theorem State.MixLaws.lineUses_lawful (p : Fin 16) : (lineRecords (s.lineUses p)).Lawful := by
  obtain ⟨-, -, -, hhold⟩ := h.gains p
  refine lineRecords_lawful (fixedTerm_lawful _ _ _ _ (by decide))
    (s.roleTerm_lawful _ _ _ _ _ _ (h.channelGain _) (map_channel_source _))
    (s.roleTerm_lawful _ _ _ _ _ _ (by decide) (map_voice_source _)) (s.roleTerm_lawful _ _ _ _ _ _ ?_ (map_voice_source _))
  split
  exacts [hhold, Nat.zero_le _]

theorem State.MixLaws.supUses_lawful (c : Fin 4) (p : Fin 16) : (supRecords (s.supUses c p)).Lawful := by
  refine supRecords_lawful (fixedTerm_lawful _ _ _ _ ?_) (fixedTerm_lawful _ _ _ _ (by decide))
    (s.roleTerm_lawful _ _ _ _ _ _ (by decide) (map_voice_source _))
    (s.roleTerm_lawful _ _ _ _ _ _ (h.channelGain _) (map_channel_source _))
  split <;> omega

theorem State.MixLaws.mixPosition_lawful {m : Mxe} (hm : m.Lawful) (p : Fin 16) : (mixPosition s m p).Lawful := by
  have hd := (s.mxe.duck[p]).next_factor (s.duckGate p) (h.mxe.duck p)
  unfold mixPosition
  dsimp only
  split
  · exact ⟨set_law (fun d : Duck => d.factor ≤ 4096) p hm.duck hd, set_law EarTerms.Lawful p hm.earTerms (h.earUses_lawful p _ hd),
      set_law LineTerms.Lawful p hm.lineTerms (h.lineUses_lawful p), hm.supTerms,
      set_law FrameInRange p hm.line (frameInRange_clamped _ _), hm.sup⟩
  · exact ⟨set_law (fun d : Duck => d.factor ≤ 4096) p hm.duck hd, set_law EarTerms.Lawful p hm.earTerms (h.earUses_lawful p _ hd),
      set_law LineTerms.Lawful p hm.lineTerms LineTerms.absent_lawful, hm.supTerms,
      set_law FrameInRange p hm.line zeroFrame_inRange, hm.sup⟩

theorem State.MixLaws.mixChannel_lawful {m : Mxe} (hm : m.Lawful) (c : Fin 4) : (mixChannel s m c).Lawful := by
  unfold mixChannel
  split
  · exact ⟨hm.duck, hm.earTerms, hm.lineTerms, set_law SupTerms.Lawful c hm.supTerms (h.supUses_lawful c _), hm.line,
      set_law FrameInRange c hm.sup (frameInRange_clamped _ _)⟩
  · exact ⟨hm.duck, hm.earTerms, hm.lineTerms, set_law SupTerms.Lawful c hm.supTerms SupTerms.absent_lawful, hm.line,
      set_law FrameInRange c hm.sup zeroFrame_inRange⟩

theorem State.MixLaws.runMix : s.runMix.MixLaws := by
  have h1 := foldl_law Mxe.Lawful (mixPosition s) (fun _ p hm => h.mixPosition_lawful hm p) allPositions _ h.mxe
  have h2 := foldl_law Mxe.Lawful (mixChannel s) (fun _ c hm => h.mixChannel_lawful hm c) allChannels _ h1
  have h3 := foldl_law Mxe.Lawful (measurePosition s)
    (fun _ _ hm => ⟨hm.duck, hm.earTerms, hm.lineTerms, hm.supTerms, hm.line, hm.sup⟩) allPositions _ h2
  exact ⟨h.gains, h.talkGain, h3, h.hwi, h.earpiece, h.taken⟩

end

/-! ### Records that stay -/

/-- What the laws of the mix speak of, from `s` to `t`: the frames stand, a term or a taken frame may go, and gain codes stay
gain codes; the waiting commands stand. -/
structure State.MixStands (s t : State) : Prop where
  gains : ∀ p, (s.pos p).GainsLawful → (t.pos p).GainsLawful := by exact fun _ h => h
  talkGain : ∀ c : Fin 4, s.sst[c].talkGain ≤ 8192 → t.sst[c].talkGain ≤ 8192 := by exact fun _ h => h
  mxe : s.mxe.Lawful → t.mxe.Lawful := by exact id
  hwi : s.hwi.OutInRange → t.hwi.OutInRange := by exact id
  hli : ∀ p : Fin 16, t.hli[p].earpiece = s.hli[p].earpiece := by exact fun _ => rfl
  taken : t.taken = s.taken := by rfl
  pending : t.pending = s.pending := by rfl

theorem State.MixLaws.of_stands {s t : State} (h : s.MixLaws) (v : s.MixStands t) : t.MixLaws :=
  ⟨fun p => v.gains p (h.gains p), fun c => v.talkGain c (h.talkGain c), v.mxe h.mxe, v.hwi h.hwi,
    fun p => by rw [v.hli]; exact h.earpiece p, by rw [v.taken]; exact h.taken⟩

theorem State.MixStands.trans {s t u : State} (v : s.MixStands t) (w : t.MixStands u) : s.MixStands u :=
  ⟨fun p => w.gains p ∘ v.gains p, fun c => w.talkGain c ∘ v.talkGain c, w.mxe ∘ v.mxe, w.hwi ∘ v.hwi,
    fun p => (w.hli p).trans (v.hli p), w.taken.trans v.taken, w.pending.trans v.pending⟩

theorem State.MixStands.modPos (s : State) (p : Fin 16) (f : Position → Position)
    (hf : (s.pos p).GainsLawful → (f (s.pos p)).GainsLawful) : s.MixStands (s.modPos p f) where
  gains q hq := by
    simp only [State.pos, State.modPos_pct, Fin.getElem_fin, upd_get]
    split
    · next he => subst he; exact hf hq
    · exact hq

theorem Position.Worked.gains {x y : Position} (h : x.Worked y) (hx : x.GainsLawful) : y.GainsLawful := by
  obtain ⟨h1, h2, h3, h4⟩ := hx
  exact ⟨h.earGain ▸ h1, h.promptGain ▸ h2, h.announceGain ▸ h3, h.holdGain ▸ h4⟩

theorem State.Evaluated.mixStands {s t : State} (h : s.Evaluated t) : s.MixStands t where
  gains p := (h.positions p).gains
  talkGain c := by rw [h.sst]; exact id
  mxe := by rw [h.mxe]; exact id
  hwi := by rw [h.hwi]; exact id
  hli p := by rw [h.hli]
  taken := h.taken
  pending := h.pending

/-! ### Outputs (R37, R39) -/

theorem getD_inRange {f : Frame} (hf : FrameInRange f) (j : Nat) : InRange (f.getD j 0) := by
  rw [List.getD_eq_getElem?_getD]
  cases hx : f[j]? with
  | none => exact zero_inRange
  | some x => exact hf x (List.mem_of_getElem? hx)

theorem takenSample_inRange {o : Option Frame} (h : ∀ f, o = some f → FrameInRange f) (j : Nat) :
    InRange (takenSample o j) := by
  cases o with
  | none => exact zero_inRange
  | some f => exact getD_inRange (h f rfl) j

theorem allInRange_none : AllInRange (Vector.replicate 32 none) := fun k x hx => by simp at hx

/-- Slots that carry samples in range, one of them driven anew with a taken sample. -/
theorem AllInRange.set {d : Vector (Option Sample) 32} (h : AllInRange d) (k : Fin 32) {o : Option Frame}
    (ho : ∀ f, o = some f → FrameInRange f) (j : Nat) : AllInRange (d.set k (some (takenSample o j))) := fun i x hx => by
  simp only [Fin.getElem_fin, set_get] at hx
  split at hx
  · cases hx
    exact takenSample_inRange ho j
  · exact h i x hx

theorem State.drive_inRange (s : State) (h : s.hwi.OutInRange) (j : Nat) : AllInRange (s.drive j) := by
  unfold State.drive
  split
  · refine foldl_law AllInRange _ (fun d c hd => ?_) allChannels _
      (foldl_law AllInRange _ (fun d p hd => ?_) allPositions _ allInRange_none)
    · split
      · exact hd
      · next b _ => exact hd.set b.outSlot (h.supOut c) j
    · split
      · exact hd
      · next b _ => exact hd.set b.outSlot (h.lineOut p) j
  · exact allInRange_none

theorem State.MixLaws.driveNow {s : State} (h : s.MixLaws) : s.driveNow.MixLaws :=
  h.of_stands { hwi := fun o => ⟨o.lineOut, o.supOut, s.drive_inRange o _⟩ }

theorem State.MixLaws.lineTake {s : State} (h : s.MixLaws) (p : Fin 16) : ∀ f, s.lineTake p = some f → FrameInRange f := by
  intro f hf
  unfold State.lineTake at hf
  split at hf
  · cases hf
    split
    exacts [zeroFrame_inRange, h.taken.1 p]
  · cases hf

theorem State.MixLaws.supTake {s : State} (h : s.MixLaws) (c : Fin 4) : ∀ f, s.supTake c = some f → FrameInRange f := by
  intro f hf
  unfold State.supTake at hf
  split at hf
  · cases hf
    split
    exacts [zeroFrame_inRange, h.taken.2 c]
  · cases hf

theorem State.MixLaws.runHighwayOut {s : State} (h : s.MixLaws) : s.runHighwayOut.MixLaws := by
  have h1 := foldl_law Hwi.OutInRange
    (fun (o : Hwi) (p : Fin 16) => { o with lineOut := o.lineOut.set p (s.lineTake p) })
    (fun _ p ho => ⟨set_law (fun o => ∀ f, o = some f → FrameInRange f) p ho.lineOut (h.lineTake p), ho.supOut, ho.driven⟩)
    allPositions _ h.hwi
  have h2 := foldl_law Hwi.OutInRange
    (fun (o : Hwi) (c : Fin 4) => { o with supOut := o.supOut.set c (s.supTake c) })
    (fun _ c ho => ⟨ho.lineOut, set_law (fun o => ∀ f, o = some f → FrameInRange f) c ho.supOut (h.supTake c), ho.driven⟩)
    allChannels _ h1
  exact (h.of_stands { hwi := fun _ => h2 } : State.MixLaws { s with hwi := _ }).driveNow

theorem State.MixLaws.runEarpiece {s : State} (h : s.MixLaws) (p : Fin 16) : (s.runEarpiece p).MixLaws := by
  refine ⟨h.gains, h.talkGain, h.mxe, h.hwi, fun q => ?_, h.taken⟩
  simp only [State.runEarpiece_hli, Fin.getElem_fin, upd_get]
  split
  · unfold State.earpieceFrame
    dsimp only
    split
    exacts [zeroFrame_inRange, frameInRange_clamped _ _]
  · exact h.earpiece q

/-! ### The operations -/

theorem State.MixLaws.runWork {s : State} (h : s.MixLaws) (w : Work) : (s.runWork w).MixLaws := by
  cases hw : evaluates w with
  | true => exact h.of_stands (s.runWork_evaluated w hw).mixStands
  | false =>
    cases w with
    | noise n => exact h.of_stands {}
    | mix => exact h.runMix
    | meterClose =>
      simp only [State.runWork, State.runMeterClose]
      split
      · exact h.of_stands { mxe := fun m => ⟨m.duck, m.earTerms, m.lineTerms, m.supTerms, m.line, m.sup⟩ }
      · exact h
    | earpiece p => exact h.runEarpiece p
    | highwayOut => exact h.runHighwayOut
    | _ => cases hw

theorem Hwi.outInRange_of_none {o : Hwi} (h1 : o.lineOut = Vector.replicate 16 none)
    (h2 : o.supOut = Vector.replicate 4 none) (h3 : AllInRange o.driven) : o.OutInRange :=
  ⟨fun p f hf => by simp [h1] at hf, fun c f hf => by simp [h2] at hf, h3⟩

theorem Mxe.lawful_of_absent {m : Mxe} (h1 : m.duck = Vector.replicate 16 .powerOn)
    (h2 : m.earTerms = Vector.replicate 16 .absent) (h3 : m.lineTerms = Vector.replicate 16 .absent)
    (h4 : m.supTerms = Vector.replicate 4 .absent) (h5 : ∀ p : Fin 16, FrameInRange m.line[p])
    (h6 : ∀ c : Fin 4, FrameInRange m.sup[c]) : m.Lawful where
  duck p := by simp [h1, Duck.powerOn]
  earTerms p := by simpa [h2] using EarTerms.absent_lawful
  lineTerms p := by simpa [h3] using LineTerms.absent_lawful
  supTerms c := by simpa [h4] using SupTerms.absent_lawful
  line := h5
  sup := h6

theorem Position.powerOn_gains : Position.powerOn.GainsLawful := by
  unfold Position.GainsLawful Position.powerOn
  decide

theorem mixLaws_powerOn (rstn : Bool) (pending : List Instr) : (State.powerOn rstn pending).MixLaws where
  gains p := by simpa [State.pos, State.powerOn] using Position.powerOn_gains
  talkGain c := by simp [State.powerOn, Session.powerOn]
  mxe := Mxe.lawful_of_absent rfl rfl rfl rfl (fun p => by simpa [State.powerOn, Mxe.powerOn] using zeroFrame_inRange)
    (fun c => by simpa [State.powerOn, Mxe.powerOn] using zeroFrame_inRange)
  hwi := Hwi.outInRange_of_none rfl rfl allInRange_none
  earpiece p := by simpa [State.powerOn, Headset.powerOn] using zeroFrame_inRange
  taken := ⟨fun p => by simpa [State.powerOn, Taken.powerOn] using zeroFrame_inRange,
    fun c => by simpa [State.powerOn, Taken.powerOn] using zeroFrame_inRange⟩

theorem Hwi.OutInRange.foldl {β : Type} {o : Hwi} (h : o.OutInRange) (f : Hwi → β → Hwi)
    (hf : ∀ o b, (f o b).lineOut = o.lineOut ∧ (f o b).supOut = o.supOut ∧ (f o b).driven = o.driven) (l : List β) :
    (l.foldl f o).OutInRange :=
  foldl_law Hwi.OutInRange f (fun o b ho => by
    obtain ⟨h1, h2, h3⟩ := hf o b
    exact ⟨h1 ▸ ho.lineOut, h2 ▸ ho.supOut, h3 ▸ ho.driven⟩) l o h

theorem State.MixLaws.beginFrame {s : State} (h : s.MixLaws) : s.beginFrame.MixLaws := by
  refine ⟨h.gains, h.talkGain, h.mxe, ?_, fun p => ?_, h.mxe.line, h.mxe.sup⟩
  · have h1 := h.hwi.foldl (fun (o : Hwi) (p : Fin 16) => { o with far := o.far.set p (padFrame s.hwi.farInput[p]) })
      (fun _ _ => ⟨rfl, rfl, rfl⟩) allPositions
    have h2 := h1.foldl (fun (o : Hwi) (c : Fin 4) => { o with talk := o.talk.set c (s.talkFrame c) })
      (fun _ _ => ⟨rfl, rfl, rfl⟩) allChannels
    exact ⟨h2.lineOut, h2.supOut, h2.driven⟩
  · change FrameInRange (allPositions.foldl (fun (v : Vector Headset 16) (p : Fin 16) => upd v p Headset.complete) s.hli)[p].earpiece
    rw [foldl_allPositions_get (fun _ => Headset.complete)]
    exact h.earpiece p

theorem State.MixLaws.collect {s : State} (h : s.MixLaws) (b : Bool) (slots : List Word16) :
    (s.collect b slots).MixLaws := by
  have h1 := h.hwi.foldl (fun (o : Hwi) (p : Fin 16) =>
    { o with farInput := upd o.farInput p (fun f => f ++ [inputSample b slots o.farSlot[p]]) })
    (fun _ _ => ⟨rfl, rfl, rfl⟩) allPositions
  have h2 := h1.foldl (fun (o : Hwi) (c : Fin 4) =>
    { o with talkInput := upd o.talkInput c (fun f => f ++ [inputSample b slots o.talkSlot[c]]) })
    (fun _ _ => ⟨rfl, rfl, rfl⟩) allChannels
  rw [State.collect]
  exact h.of_stands { hwi := fun _ => h2 }

theorem State.MixLaws.modHeadset {s : State} (h : s.MixLaws) (p : Fin 16) (f : Headset → Headset)
    (hf : ∀ x, (f x).earpiece = x.earpiece) : (s.modHeadset p f).MixLaws := by
  refine h.of_stands { hli := fun q => ?_ }
  simp only [State.modHeadset_hli, Fin.getElem_fin, upd_get]
  split
  · exact hf _
  · rfl

theorem mix_kept : Kept State.MixLaws where
  powerOn s _ := mixLaws_powerOn _ _
  released s _ := (mixLaws_powerOn false s.pending).of_stands {}
  mark s _ _ h := h.of_stands {}
  quiet s _ _ h := h.of_stands {}
  write s _ _ h := h.of_stands {}
  read s _ h := h.of_stands {}
  report s _ _ h := h.of_stands {}
  work s _ h := h.of_stands {}
  ftu s _ h := h.of_stands {}
  runWork s w h := h.runWork w
  poolGrant s h := by
    obtain ⟨_, _, he⟩ := s.poolGrant_frame
    rw [he]
    exact h.of_stands {}
  grantFetch s h := by
    obtain ⟨_, _, he⟩ := s.grantFetch_frame
    rw [he]
    exact h.of_stands {}
  beginFrame s h := h.beginFrame
  collect s b slots h := h.collect b slots
  latch s h := by
    rw [State.latchSlots]
    exact h.of_stands { hwi := fun o => ⟨o.lineOut, o.supOut, o.driven⟩ }
  drive s h := h.driveNow
  toFreeRun s h := h.of_stands { hwi := fun o => ⟨o.lineOut, o.supOut, allInRange_none⟩ }
  cutOff s p _ h := h.modHeadset p _ fun _ => rfl
  arrive s p words framed h := h.modHeadset p _ fun x => by
    unfold Headset.arrive
    split <;> rfl
  completeFetch s _ _ h _ _ := h.of_stands {}
  timeoutFetch s _ h _ := by
    unfold State.timeoutFetch
    dsimp only
    split
    · rw [State.failStore_eq]
      exact h.of_stands {}
    · exact h.of_stands {}
  engine s _ h _ := h.of_stands {}

end Sys2Proof.Machine
end

