-- ==== Sys2Proof/Proofs/NoiseLaws.lean ====
section
/-!
PROOFS. The laws of the noise gains and floors (R85, R86, R95) and of the restarted learning (R35) through every step, and
with them the requests' part in the laws of the mix.
-/

namespace Sys2Proof.Machine

/-! ### The work of a noise frame (R89 to R96) -/

theorem targetGain_bounds (set : NoiseSettings) (learning : Bool) (c : NoiseCtx) (e : Nat) (h : set.floor ≤ 4096) :
    set.floor ≤ targetGain set learning c e ∧ targetGain set learning c e ≤ 4096 := by
  unfold targetGain
  split_ifs <;> omega

theorem noiseFrame_gain (set : NoiseSettings) (c : NoiseCtx) (input : Frame) (live : Bool) :
    ∃ learning c1 e, (noiseFrame set c input live).1.gain = targetGain set learning c1 e := by
  unfold noiseFrame
  dsimp only
  split
  · exact ⟨_, _, _, rfl⟩
  · split <;> exact ⟨_, _, _, rfl⟩

theorem classedMove_relearning (c : NoiseCtx) (live : Bool) (e : Nat) :
    (classedMove c live e).relearning = c.relearning := by
  unfold classedMove runMove estimateMove speechMove
  dsimp only
  split_ifs <;> rfl

theorem learnMove_relearning (c : NoiseCtx) (live : Bool) (e : Nat) (hc : c.state = .learn)
    (h : (learnMove c live e).relearning = true) : (learnMove c live e).state = .learn := by
  unfold learnMove at h ⊢
  dsimp only at h ⊢
  split_ifs at h ⊢
  · exact hc
  · exact hc

/-- A learning that a binding restarted goes on until it completes (R35). -/
theorem noiseFrame_relearning (set : NoiseSettings) (c : NoiseCtx) (input : Frame) (live : Bool)
    (hc : c.relearning = true → c.state = .learn) (h : (noiseFrame set c input live).1.relearning = true) :
    (noiseFrame set c input live).1.state = .learn := by
  unfold noiseFrame at h ⊢
  dsimp only at h ⊢
  by_cases hl : c.state = .learn
  · simp only [hl, decide_true, if_true] at h ⊢
    exact learnMove_relearning c live _ hl h
  · simp only [hl, decide_false, Bool.false_eq_true, if_false] at h ⊢
    split_ifs at h ⊢
    · rfl
    all_goals exact absurd (hc ((classedMove_relearning c live _).symm.trans h)) hl

/-! ### Gains and floors (R95) -/

theorem GainHeld.refl (f g : Nat) : GainHeld f g f g := by
  unfold GainHeld
  omega

/-- A gain that stays, or moves to its floor or above. -/
theorem GainHeld.move {f g f1 g1 g2 : Nat} (h : GainHeld f g f1 g1) (hg : g2 = g1 ∨ f1 ≤ g2) : GainHeld f g f1 g2 := by
  rcases hg with rfl | hg
  exacts [h, .inl hg]

/-- The law of the noise gains after a step from `s` (R95, R35). -/
def State.NoiseStep (s t : State) : Prop := t.NoiseLaw ∧ s.GainsHeld t

theorem State.NoiseStep.refl {s : State} (h : s.NoiseLaw) : s.NoiseStep s :=
  ⟨h, fun _ => .refl _ _, fun _ => .refl _ _⟩

/-- Gains that stay, or take 4096, under the floors as they are. -/
theorem State.NoiseStep.worked {r s t : State} (h : r.NoiseStep s)
    (hfloor : ∀ p, (t.pos p).noise = (s.pos p).noise) (hn : s.nru.Worked t.nru) : r.NoiseStep t := by
  obtain ⟨⟨hgain, hpos, hsup⟩, hheld, hheldSup⟩ := h
  refine ⟨⟨fun n => ?_, fun p => by rw [hfloor]; exact hpos p, fun c => by rw [hn.supSettings, hn.channels]; exact hsup c⟩,
    fun p => ?_, fun c => by rw [hn.supSettings, hn.channels]; exact hheldSup c⟩
  · rcases hn.gain n with he | he <;> rw [he]
    exact hgain n
  · rw [hfloor]
    exact (hheld p).move ((hn.gain (noiseOfPosition p)).imp_right fun he => by rw [he]; exact hpos p)

theorem State.NoiseStep.of_eq {r s t : State} (h : r.NoiseStep s) (hfloor : ∀ p, (t.pos p).noise = (s.pos p).noise)
    (hnru : t.nru = s.nru) : r.NoiseStep t :=
  h.worked hfloor (hnru ▸ .refl _)

/-! ### The work of a noise context at a frame event -/

theorem noiseOfChannel_injective {c k : Fin 4} (h : noiseOfChannel c = noiseOfChannel k) : c = k :=
  Fin.ext (by simpa [noiseOfChannel] using congrArg Fin.val h)

theorem State.noiseSettings_position (s : State) (p : Fin 16) : s.noiseSettings (noiseOfPosition p) = (s.pos p).noise := by
  simp [State.noiseSettings, noiseOfPosition]

theorem State.noiseSettings_channel (s : State) (c : Fin 4) :
    s.noiseSettings (noiseOfChannel c) = s.nru.supSettings[c] := by
  simp [State.noiseSettings, noiseOfChannel]

theorem State.NoiseLaw.floor {s : State} (h : s.NoiseLaw) (n : Fin 20) : (s.noiseSettings n).floor ≤ 4096 := by
  obtain ⟨-, hpos, hsup⟩ := h
  unfold State.noiseSettings
  split
  exacts [hpos _, (hsup _).1]

/-- A noise context is frozen, or works a frame under the settings in force (R87, R88). -/
theorem State.noiseResult_cases (s : State) (n : Fin 20) : (s.noiseResult n).1 = noiseFrozen s.nru.contexts[n] ∨
    ∃ input live, (s.noiseResult n).1 = (noiseFrame (s.noiseSettings n) s.nru.contexts[n] input live).1 := by
  unfold State.noiseResult
  dsimp only
  split
  · split
    · exact .inr ⟨_, _, rfl⟩
    · exact .inl rfl
  · exact .inr ⟨_, _, rfl⟩

/-- The applied gain stays, or lies within its floor and 4096 (R95). -/
theorem State.noiseResult_bounds (s : State) (h : s.NoiseLaw) (n : Fin 20) :
    (s.noiseResult n).1.gain = s.nru.contexts[n].gain ∨
      (s.noiseSettings n).floor ≤ (s.noiseResult n).1.gain ∧ (s.noiseResult n).1.gain ≤ 4096 := by
  obtain he | ⟨input, live, he⟩ := s.noiseResult_cases n <;> rw [he]
  · exact .inl rfl
  · obtain ⟨learning, c1, e, hg⟩ := noiseFrame_gain (s.noiseSettings n) s.nru.contexts[n] input live
    rw [hg]
    exact .inr (targetGain_bounds _ _ _ _ (h.floor n))

theorem State.noiseResult_relearning (s : State) (n : Fin 20)
    (h : s.nru.contexts[n].relearning = true → s.nru.contexts[n].state = .learn)
    (hr : (s.noiseResult n).1.relearning = true) : (s.noiseResult n).1.state = .learn := by
  obtain he | ⟨input, live, he⟩ := s.noiseResult_cases n <;> rw [he] at hr ⊢
  · exact h hr
  · exact noiseFrame_relearning _ _ _ _ h hr

theorem State.NoiseStep.runNoise {r s : State} (h : r.NoiseStep s) (n : Fin 20) : r.NoiseStep (s.runNoise n) := by
  obtain ⟨hlaw, hheld, hheldSup⟩ := h
  have hbounds := s.noiseResult_bounds hlaw n
  have hctx : ∀ k : Fin 20, (s.runNoise n).nru.contexts[k] = if k = n then (s.noiseResult n).1 else s.nru.contexts[k] :=
    fun k => by simp only [State.runNoise_nru, Fin.getElem_fin, upd_get]
  have hmove : ∀ k : Fin 20, (s.runNoise n).nru.contexts[k].gain = s.nru.contexts[k].gain ∨
      (s.noiseSettings k).floor ≤ (s.runNoise n).nru.contexts[k].gain := fun k => by
    rw [hctx]
    split
    · next he => subst he; exact hbounds.imp_right And.left
    · exact .inl rfl
  refine ⟨⟨fun k => ?_, hlaw.2.1, fun c => ⟨(hlaw.2.2 c).1, ?_⟩⟩, fun p => ?_, fun c => ?_⟩
  · rw [hctx]
    split
    · rcases hbounds with he | ⟨-, hle⟩
      · rw [he]; exact hlaw.1 n
      · exact hle
    · exact hlaw.1 k
  · rw [hctx]
    split
    · next he => subst he; exact s.noiseResult_relearning _ (hlaw.2.2 c).2
    · exact (hlaw.2.2 c).2
  · exact (hheld p).move (by rw [← s.noiseSettings_position]; exact hmove _)
  · exact (hheldSup c).move (by rw [← s.noiseSettings_channel]; exact hmove _)

theorem State.NoiseStep.runWork {r s : State} (h : r.NoiseStep s) (w : Work) : r.NoiseStep (s.runWork w) := by
  cases hw : evaluates w with
  | true =>
    have hs := s.runWork_evaluated w hw
    exact h.worked (fun p => (hs.positions p).noise) hs.nru
  | false =>
    cases w with
    | noise n => exact h.runNoise n
    | mix => exact h.of_eq (fun _ => rfl) rfl
    | meterClose =>
      simp only [State.runWork, State.runMeterClose]
      split
      exacts [h.of_eq (fun _ => rfl) rfl, h]
    | earpiece p => exact h.of_eq (fun _ => rfl) rfl
    | highwayOut =>
      refine h.of_eq (fun p => ?_) ?_ <;>
        simp only [State.runWork, State.runHighwayOut, State.pos, State.driveNow_nru, State.driveNow_pct]
    | _ => cases hw

/-- Where every gain is 4096 and every floor the power-on value, no floor is above its gain. -/
theorem State.NoiseStep.powerOn (r : State) {t : State} (hpos : ∀ p, (t.pos p).noise = .powerOn)
    (hctx : ∀ n : Fin 20, t.nru.contexts[n].gain = 4096 ∧ t.nru.contexts[n].relearning = false)
    (hsup : t.nru.supSettings = Vector.replicate 4 .powerOn) : r.NoiseStep t := by
  have hfloor : NoiseSettings.powerOn.floor ≤ 4096 := by decide
  have hset : ∀ c : Fin 4, t.nru.supSettings[c] = .powerOn := fun c => by simp [hsup]
  refine ⟨⟨fun n => by rw [(hctx n).1], fun p => by rw [hpos]; exact hfloor, fun c => ?_⟩, fun p => .inl ?_, fun c => .inl ?_⟩
  · rw [hset, (hctx _).2]
    exact ⟨hfloor, Bool.noConfusion⟩
  · rw [hpos, (hctx _).1]; exact hfloor
  · rw [hset, (hctx _).1]; exact hfloor

theorem noise_kept (r : State) : Kept r.NoiseStep :=
  Kept.of_records _ (fun _ _ v h => h.of_eq (fun p => by rw [State.pos, v.pct]) v.nru)
    (.powerOn r (fun p => by simp [State.pos, State.powerOn, Position.powerOn])
      (fun n => by simp [State.powerOn, Nru.powerOn, NoiseCtx.powerOn]) rfl)
    fun _ w h => h.runWork w

/-! ### What a request does to the mix and to the noise contexts -/

/-- A step that the laws of the mix and of the noise gains live through. -/
structure State.MixStep (s t : State) : Prop where
  mix : s.MixStands t
  noise : s.NoiseLaw → s.NoiseStep t

/-- A change that touches no noise context and no noise settings, and that the laws of the mix live through. -/
structure State.MixQuiet (s t : State) : Prop extends s.MixStands t where
  noise : ∀ p, (t.pos p).noise = (s.pos p).noise := by exact fun _ => rfl
  nru : t.nru = s.nru := by rfl

theorem State.MixQuiet.step {s t : State} (h : s.MixQuiet t) : s.MixStep t :=
  ⟨h.toMixStands, fun hn => (State.NoiseStep.refl hn).of_eq h.noise h.nru⟩

theorem State.MixQuiet.refl (s : State) : s.MixQuiet s := {}

theorem State.MixQuiet.trans {s t u : State} (h : s.MixQuiet t) (g : t.MixQuiet u) : s.MixQuiet u :=
  ⟨h.toMixStands.trans g.toMixStands, fun p => (g.noise p).trans (h.noise p), g.nru.trans h.nru⟩

theorem State.MixQuiet.modPos (s : State) (p : Fin 16) (f : Position → Position)
    (hf : ∀ x : Position, x.GainsLawful → (f x).GainsLawful := by exact fun _ => id)
    (hn : ∀ x, (f x).noise = x.noise := by exact fun _ => rfl) : s.MixQuiet (s.modPos p f) where
  toMixStands := .modPos s p f (hf _)
  noise q := by
    simp only [State.pos, State.modPos_pct, Fin.getElem_fin, upd_get]
    split
    · exact hn _
    · rfl

theorem Mxe.Lawful.supTerms_absent {m : Mxe} (h : m.Lawful) (sup : Vector SupTerms 4)
    (hsup : ∀ c : Fin 4, sup[c] = .absent ∨ sup[c] = m.supTerms[c]) : Mxe.Lawful { m with supTerms := sup } :=
  ⟨h.duck, h.earTerms, h.lineTerms, fun c => by
    rcases hsup c with he | he <;> (dsimp only; rw [he])
    exacts [SupTerms.absent_lawful, h.supTerms c], h.line, h.sup⟩

theorem State.MixQuiet.endSessionsOn (s : State) (p : Fin 16) (reason : SessionEnd) :
    s.MixQuiet (s.endSessionsOn p reason) := by
  obtain ⟨sst, sup, he, hsst, hsup⟩ := s.endSessionsOn_spec p reason
  rw [he]
  refine { talkGain := fun c hc => ?_, mxe := fun m => m.supTerms_absent sup fun c => ?_ }
  · dsimp only
    rw [hsst]
    split <;> exact hc
  · rw [hsup]
    split
    exacts [.inl rfl, .inr rfl]

theorem State.MixQuiet.flushQueue (s : State) (p : Fin 16) (q : QueueId) : s.MixQuiet (s.flushQueue p q) := by
  obtain ⟨_, _, he, -⟩ := s.flushQueue_spec p q
  rw [he]
  exact {}

theorem State.MixQuiet.idleEffects (s : State) (p : Fin 16) : s.MixQuiet (s.idleEffects p) :=
  (endSessionsOn s p .callEnded).trans (flushQueue _ p .line)

theorem State.MixQuiet.releaseLine (s : State) (p : Fin 16) : s.MixQuiet (s.releaseLine p) := by
  have h : s.MixQuiet (s.modPos p (fun x => { x with line := none })) := .modPos s p _
  exact {
    gains := h.gains
    mxe := fun m => ⟨m.duck, m.earTerms, set_law LineTerms.Lawful p m.lineTerms LineTerms.absent_lawful, m.supTerms,
      m.line, m.sup⟩
    hwi := fun o => ⟨set_law (fun o => ∀ f, o = some f → FrameInRange f) p o.lineOut (fun _ h => nomatch h), o.supOut,
      o.driven⟩
    noise := h.noise }

theorem State.MixQuiet.modSession (s : State) (c : Fin 4) (f : Session → Session)
    (hf : s.sst[c].talkGain ≤ 8192 → (f s.sst[c]).talkGain ≤ 8192) : s.MixQuiet (s.modSession c f) where
  talkGain k hk := by
    simp only [State.modSession_sst, Fin.getElem_fin, upd_get]
    split
    · next he => subst he; exact hf hk
    · exact hk

theorem State.MixQuiet.dropSup (s : State) (c : Fin 4) : s.MixQuiet (s.dropSup c) where
  mxe m := ⟨m.duck, m.earTerms, m.lineTerms, set_law SupTerms.Lawful c m.supTerms SupTerms.absent_lawful, m.line, m.sup⟩

theorem State.MixQuiet.idleSession (s : State) (c : Fin 4) (last : SessionEnd) : s.MixQuiet (s.idleSession c last) :=
  (modSession s c _ id).trans (dropSup _ c)

theorem State.MixQuiet.endSession (s : State) (c : Fin 4) (reason : SessionEnd) : s.MixQuiet (s.endSession c reason) := by
  unfold State.endSession
  split
  · exact refl s
  · split
    · exact idleSession s c reason
    · exact (idleSession s c reason).trans {}

theorem State.MixQuiet.unbindChannel (s : State) (c : Fin 4) : s.MixQuiet (s.unbindChannel c) := by
  unfold State.unbindChannel
  split
  · have h : s.MixQuiet { s with
        hwi := { s.hwi with channels := s.hwi.channels.set c none, supOut := s.hwi.supOut.set c none } } :=
      { hwi := fun o => ⟨o.lineOut, set_law (fun o => ∀ f, o = some f → FrameInRange f) c o.supOut (fun _ h => nomatch h),
          o.driven⟩ }
    exact (h.trans (endSession _ c _)).trans (dropSup _ c)
  · exact refl s

theorem State.MixQuiet.joinTail (s : State) (p : Fin 16) (q : QueueId) (e : Entry) :
    s.MixQuiet (s.joinTail p q e).state := by
  unfold State.joinTail
  dsimp only
  split
  · cases q <;> exact {}
  · exact refl s

theorem State.MixQuiet.clearQueue (s : State) (p : Fin 16) (q : QueueId) : s.MixQuiet (s.clearQueue p q).state := by
  unfold State.clearQueue
  split
  exacts [refl s, flushQueue s p q]

theorem State.Ended.absent {s : State} {p : Fin 16} {reason : SessionEnd} {sst : Vector Session 4}
    {sup : Vector SupTerms 4} (h : s.Ended p reason sst sup) (c : Fin 4) :
    sst[c].talkGain = s.sst[c].talkGain ∧ (sup[c] = .absent ∨ sup[c] = s.mxe.supTerms[c]) := by
  rw [h.1, h.2]
  split
  exacts [⟨rfl, .inl rfl⟩, ⟨rfl, .inr rfl⟩]

theorem State.MixQuiet.close (s : State) (p : Fin 16) (plan : Plan) : s.MixQuiet (s.close p plan) := by
  obtain ⟨sst, sup, vce, owed, he, hend, -⟩ := s.close_spec p plan
  have hpos : s.MixQuiet (s.modPos p (fun x => { x with
      state := .closing, closePlan := some plan, line := none, call := .idle, reminderStatus := .stopped,
      band := .normal })) := .modPos s p _
  rw [he]
  exact {
    gains := hpos.gains
    talkGain := fun c hc => (hend.absent c).1 ▸ hc
    mxe := fun m =>
      have m' := m.supTerms_absent sup fun c => (hend.absent c).2
      ⟨m.duck, m.earTerms, set_law LineTerms.Lawful p m.lineTerms LineTerms.absent_lawful, m'.supTerms, m.line, m.sup⟩
    hwi := fun o => ⟨set_law (fun o => ∀ f, o = some f → FrameInRange f) p o.lineOut (fun _ h => nomatch h), o.supOut,
      o.driven⟩
    noise := hpos.noise }

theorem Position.startReminder_same (x : Position) :
    (x.GainsLawful → ({ x with call := .hold }.startReminder).GainsLawful) ∧
      ({ x with call := .hold }.startReminder).noise = x.noise := by
  unfold Position.startReminder
  split <;> exact ⟨id, rfl⟩

theorem State.MixQuiet.setCall (s : State) (p : Fin 16) (c : CallState) : s.MixQuiet (s.setCall p c).state := by
  unfold State.setCall
  dsimp only
  repeat' split
  all_goals dsimp only [State.okay, State.refuse]
  · exact refl s
  · exact refl s
  · exact refl s
  · exact modPos s p _
  · exact refl s
  · exact modPos s p _ (fun x => x.startReminder_same.1) fun x => x.startReminder_same.2
  · exact refl s
  · exact modPos s p _
  · exact (modPos s p _).trans (idleEffects _ p)
  · exact (modPos s p _).trans (idleEffects _ p)
  · exact refl s

theorem State.MixQuiet.unbindLine (s : State) (p : Fin 16) : s.MixQuiet (s.unbindLine p) := by
  unfold State.unbindLine
  split
  · exact releaseLine s p
  · exact ((modPos s p _).trans (idleEffects _ p)).trans (releaseLine _ p)
  · exact ((modPos s p _).trans (idleEffects _ p)).trans (releaseLine _ p)

theorem gainCode_le (n : Nat) : gainCode n ≤ 8192 := Nat.min_le_right _ _

/-- A gain field that a request may carry is a gain code, given or kept. -/
theorem gainOr_le (o : Option Nat) {x : Nat} (hx : x ≤ 8192) : (o.map gainCode).getD x ≤ 8192 := by
  cases o with
  | none => exact hx
  | some n => exact gainCode_le n

theorem floorOr_le (o : Option Nat) {x : Nat} (hx : x ≤ 4096) : (o.map (min 4096)).getD x ≤ 4096 := by
  cases o with
  | none => exact hx
  | some n => exact Nat.min_le_left _ _

theorem Position.setDesk_gains {x : Position} (h : x.GainsLawful) (f : DeskFields) : (x.setDesk f).GainsLawful := by
  obtain ⟨h1, h2, h3, h4⟩ := (x.worked_setMute (f.mute.getD x.mute)).gains h
  have hx := x.worked_setMute (f.mute.getD x.mute)
  obtain ⟨g1, g2, g3, -⟩ := h
  exact ⟨gainOr_le _ g1, gainOr_le _ g2, gainOr_le _ g3, h4⟩

theorem joinArgs_talkGain {l : List Byte} {f : JoinFields} (h : joinArgs l = .ok f) : f.talkGain ≤ 8192 := by
  unfold joinArgs at h
  split at h
  · split at h
    · simp only [bind, Except.bind, pure, Except.pure] at h
      repeat' split at h
      all_goals cases h
      exact gainCode_le _
    · cases h
  · cases h

theorem State.openPosition_step (s : State) (p : Fin 16) (useRetained : Bool) :
    s.MixStep (s.openPosition p useRetained) := by
  have hpos : s.MixQuiet (s.modPos p (fun x =>
      { x with state := .opened, retained := false, band := .normal, mutedCount := 0, mutedIssued := false })) :=
    .modPos s p _
  refine ⟨{ gains := hpos.gains, mxe := fun m => ⟨set_law (fun d : Duck => d.factor ≤ 4096) p m.duck (by decide), m.earTerms,
      m.lineTerms, m.supTerms, m.line, m.sup⟩ }, fun h => (State.NoiseStep.refl h).worked hpos.noise ?_⟩
  refine Nru.Worked.modPosition s.nru p _ fun c => .inr ?_
  unfold NoiseCtx.opened
  split <;> rfl

theorem State.bindLine_quiet (s : State) (p : Fin 16) (b : SlotPair) : s.MixQuiet (s.bindLine p b) := by
  have h : s.MixQuiet (s.modPos p (fun x => { x with line := some b })) := .modPos s p _
  refine {
    gains := h.gains
    mxe := fun m => ?_
    hwi := fun o => ⟨set_law (fun o => ∀ f, o = some f → FrameInRange f) p o.lineOut (fun _ h => nomatch h), o.supOut,
      o.driven⟩
    noise := h.noise }
  unfold State.bindLine
  dsimp only
  split
  · exact ⟨m.duck, m.earTerms, m.lineTerms, m.supTerms, m.line, m.sup⟩
  · exact m

/-- A binding restarts the learning of the channel's context, which keeps its gain (R35, R97). -/
theorem State.bindChannel_step (s : State) (c : Fin 4) (b : SlotPair) : s.MixStep (s.bindChannel c b) := by
  refine ⟨{ hwi := fun o => ⟨o.lineOut, ?_, o.driven⟩ }, fun ⟨hgain, hpos, hsup⟩ => ⟨⟨fun n => ?_, hpos, fun k =>
    ⟨(hsup k).1, ?_⟩⟩, fun p => ?_, fun k => ?_⟩⟩
  · unfold State.bindChannel
    dsimp only
    split
    exacts [o.supOut, set_law (fun o => ∀ f, o = some f → FrameInRange f) c o.supOut (fun _ h => nomatch h)]
  · simp only [State.bindChannel, State.modNoise_nru, Fin.getElem_fin, upd_get]
    split <;> exact hgain _
  · simp only [State.bindChannel, State.modNoise_nru, Fin.getElem_fin, upd_get]
    split
    exacts [fun _ => rfl, (hsup k).2]
  · refine (GainHeld.refl _ _).move (.inl ?_)
    simp only [State.bindChannel, State.modNoise_nru, Fin.getElem_fin, upd_get]
    split <;> rfl
  · refine (GainHeld.refl _ _).move (.inl ?_)
    simp only [State.bindChannel, State.modNoise_nru, Fin.getElem_fin, upd_get]
    split <;> rfl

/-- A floor raised above the gain leaves it as it was (R95). -/
theorem GainHeld.floor (f g f' : Nat) : GainHeld f g f' g := by
  unfold GainHeld
  omega

theorem State.setNr_step (s : State) (p : Fin 16) (enable : Option Bool) (floor : Option Nat) :
    s.MixStep (s.modPos p (fun x => { x with noise := x.noise.update enable floor })) := by
  have hpos : ∀ q, ((s.modPos p (fun x => { x with noise := x.noise.update enable floor })).pos q).noise =
      if q = p then (s.pos q).noise.update enable floor else (s.pos q).noise := fun q => by
    simp only [State.pos, State.modPos_pct, Fin.getElem_fin, upd_get]
    split <;> rfl
  refine ⟨.modPos s p _ id, fun ⟨hgain, hfloor, hsup⟩ => ⟨⟨hgain, fun q => ?_, hsup⟩, fun q => .floor _ _ _,
    fun c => .refl _ _⟩⟩
  rw [hpos]
  split
  exacts [floorOr_le _ (hfloor q), hfloor q]

theorem State.setSupNr_step (s : State) (c : Fin 4) (enable : Option Bool) (floor : Option Nat) :
    s.MixStep { s with nru := { s.nru with
      supSettings := s.nru.supSettings.set c (s.nru.supSettings[c].update enable floor) } } := by
  refine ⟨{}, fun ⟨hgain, hfloor, hsup⟩ => ⟨⟨hgain, hfloor, fun k => ⟨?_, (hsup k).2⟩⟩, fun q => .refl _ _,
    fun k => .floor _ _ _⟩⟩
  exact set_law (fun x : NoiseSettings => x.floor ≤ 4096) c (fun k => (hsup k).1) (floorOr_le _ (hsup c).1) k

theorem mix_serve (k : Kind) (port : Port) (s : State) (r : Request) : s.MixStep (k.serve port s r).state := by
  have h0 : s.MixStep s := (State.MixQuiet.refl s).step
  cases k <;> refine State.withArgs_ok_law s.MixStep s _ _ h0 fun a ha => ?_
  case openPosition =>
    dsimp only
    split
    exacts [s.openPosition_step _ _, h0]
  case close =>
    dsimp only
    split
    exacts [h0, (State.MixQuiet.close s _ _).step, (State.MixQuiet.modPos s _ _).step]
  case setDesk =>
    dsimp only
    split
    · exact h0
    · exact (State.MixQuiet.modPos s a.1 (fun x => x.setDesk a.2) (fun _ hx => Position.setDesk_gains hx a.2)
        fun x => (x.worked_setMute _).noise).step
  case setBattery =>
    dsimp only
    split
    exacts [h0, (State.MixQuiet.modPos s _ _).step]
  case setSupervision =>
    dsimp only [State.setSupervision]
    have hset : s.MixQuiet (s.modPos a.1 (fun x => { x with supervisionAllowed := a.2 })) := .modPos s _ _
    split
    · exact h0
    · exact ite_law s.MixStep (hset.trans (.endSessionsOn _ _ _)).step hset.step
  case setCall => exact (State.MixQuiet.setCall s _ _).step
  case setReminder =>
    dsimp only
    split
    · exact h0
    · have hsame : ∀ x : Position, (x.GainsLawful → (x.setReminder a.2.1 a.2.2).GainsLawful) ∧
          (x.setReminder a.2.1 a.2.2).noise = x.noise := fun x => by
        unfold Position.setReminder
        dsimp only
        repeat' split
        all_goals exact ⟨id, rfl⟩
      exact (State.MixQuiet.modPos s _ _ (fun x => (hsame x).1) fun x => (hsame x).2).step
  case ackReminder =>
    dsimp only
    split
    exacts [(State.MixQuiet.modPos s _ _).step, h0]
  case setHoldSource =>
    dsimp only
    repeat' split
    exacts [h0, h0, (State.MixQuiet.modPos s a.1 (fun x => x.setHold a.2.1 a.2.2)
      fun _ ⟨h1, h2, h3, h4⟩ => ⟨h1, h2, h3, gainOr_le _ h4⟩).step]
  case setNr =>
    dsimp only
    split
    exacts [h0, s.setNr_step _ _ _]
  case setSupNr => exact s.setSupNr_step _ _ _
  case setEc =>
    dsimp only [State.setEc]
    have hset : s.MixQuiet (s.modPos a.1 (fun x => { x with echo := x.echo.update a.2 })) := .modPos s _ _
    split
    · exact h0
    · exact ite_law s.MixStep (hset.trans {}).step hset.step
  case bindLine =>
    dsimp only
    repeat' split
    exacts [h0, h0, (s.bindLine_quiet _ _).step, h0]
  case unbindLine =>
    split
    exacts [(State.MixQuiet.unbindLine s _).step, h0]
  case setSupChannel =>
    dsimp only
    repeat' split
    exacts [(State.MixQuiet.unbindChannel s _).step, h0, h0, s.bindChannel_step _ _]
  case join =>
    split
    · exact (State.MixQuiet.modSession s _ _ fun _ => joinArgs_talkGain ha).step
    · exact h0
  case changeMode =>
    dsimp only
    repeat' split
    exacts [h0, h0, (State.MixQuiet.modSession s _ _ id).step]
  case leave =>
    split
    exacts [h0, (State.MixQuiet.idleSession s _ _).step]
  case startProgram =>
    dsimp only
    split
    exacts [State.MixQuiet.step {}, h0]
  case stopProgram =>
    repeat' split
    exacts [h0, State.MixQuiet.step {}, h0]
  case agentPrompt =>
    dsimp only
    split
    exacts [(State.MixQuiet.joinTail s _ _ _).step, h0]
  case coachPrompt =>
    dsimp only
    repeat' split
    exacts [h0, (State.MixQuiet.joinTail s _ _ _).step, h0]
  case announce =>
    dsimp only
    split
    exacts [(State.MixQuiet.joinTail s _ _ _).step, h0]
  case clearAgentPrompts | clearAnnounce => exact (State.MixQuiet.clearQueue s _ _).step
  case takeReports | subscribeMeters | readPosition | readSession | readVoice | readStore | reset =>
    exact State.MixQuiet.step {}
  case readCoeffs =>
    dsimp only
    split <;> exact h0
  case rescan =>
    repeat' split
    exacts [h0, h0, State.MixQuiet.step {}]

/-! ### RESET and every step -/

/-- What a soft reset leaves of the sessions, the mix, the links and the noise reducer (R184). -/
theorem State.softReset_blocks (s : State) : s.softReset.sst = Vector.replicate 4 .powerOn ∧
    s.softReset.mxe = s.mxe.softReset ∧ s.softReset.hwi = s.hwi.softReset ∧ s.softReset.taken = s.taken.softReset ∧
    s.softReset.hli = allPositions.foldl (fun (v : Vector Headset 16) (p : Fin 16) => upd v p Headset.softReset) s.hli ∧
    s.softReset.nru.supSettings = Vector.replicate 4 .powerOn ∧
    s.softReset.nru.contexts = allNoise.foldl (fun (v : Vector NoiseCtx 20) (n : Fin 20) =>
      upd v n (fun c => c.softReset (s.contextClosed n))) s.nru.contexts := by
  unfold State.softReset State.resetBlocks
  rw [State.reportAll_eq]
  dsimp only
  split <;> exact ⟨rfl, rfl, rfl, rfl, rfl, rfl, rfl⟩

theorem State.MixLaws.softReset {s : State} (h : s.MixLaws) : s.softReset.MixLaws := by
  obtain ⟨hsst, hmxe, hhwi, htaken, hhli, -, -⟩ := s.softReset_blocks
  refine ⟨fun p => ?_, fun c => ?_, ?_, ?_, fun p => ?_, ?_⟩
  · rw [State.softReset_pos]
    exact Position.powerOn_gains
  · rw [hsst]
    simp [Session.powerOn]
  · rw [hmxe]
    exact Mxe.lawful_of_absent rfl rfl rfl rfl h.mxe.line h.mxe.sup
  · rw [hhwi]
    exact Hwi.outInRange_of_none rfl rfl h.hwi.driven
  · rw [hhli, foldl_allPositions_get (fun _ => Headset.softReset)]
    exact h.earpiece p
  · rw [htaken]
    exact h.taken

theorem foldl_allNoise_get {α : Type} (f : Fin 20 → α → α) (q : Fin 20) (v : Vector α 20) :
    (allNoise.foldl (fun (v : Vector α 20) (n : Fin 20) => upd v n (f n)) v)[q] = f q v[q] := by
  rw [foldl_upd_get f q allNoise (by decide) v, if_pos (by revert q; decide)]

theorem State.NoiseStep.softReset (r s : State) : r.NoiseStep s.softReset := by
  obtain ⟨-, -, -, -, -, hsup, hctx⟩ := s.softReset_blocks
  refine .powerOn r (fun p => ?_) (fun n => ?_) hsup
  · rw [State.softReset_pos]
    rfl
  · rw [hctx, foldl_allNoise_get (fun n (c : NoiseCtx) => c.softReset (s.contextClosed n))]
    exact ⟨rfl, rfl⟩

/-- Settles O58: the mix engine derives gain codes and clamps its sums, a noise frame's gain lies between floor and 4096,
and only SET_NR and SET_SUP_NR raise a floor, in a step that works no frame. -/
theorem stepKeepsMixLaws : Obligations.StepKeepsMixLaws := by
  unfold Obligations.StepKeepsMixLaws
  refine ⟨fun s t hgain hterm hrange he => ?_, fun s t hnoise he => ?_⟩
  · refine (State.mixLaws_iff t).mp (step_law State.MixLaws mix_kept (fun _ _ h => h.of_stands {})
      (fun _ _ h => ⟨h.gains, h.talkGain, h.mxe, h.hwi, h.earpiece, h.taken⟩) (fun k port s r h => h.of_stands (mix_serve k port s r).mix) (fun _ h => h.softReset)
      ((State.mixLaws_iff s).mpr ⟨hgain, hterm, hrange⟩) he)
  · refine step_law_from (fun u => u.NoiseLaw ∧ u.pct = s.pct ∧ u.nru = s.nru) s.NoiseStep (fun u hu => ?_) (noise_kept s)
      (fun _ _ h => h) (fun _ _ h => h) (fun _ _ h => h) (fun k port u r hu => ?_)
      (fun u _ => .softReset s u) ⟨hnoise, rfl, rfl⟩ he
    · obtain ⟨-, hpct, hnru⟩ := hu
      exact (State.NoiseStep.refl hnoise).of_eq (fun p => by rw [State.pos, hpct]) hnru
    · obtain ⟨hlaw, hpct, hnru⟩ := hu
      obtain ⟨hlaw', hheld⟩ := (mix_serve k port u r).noise hlaw
      refine ⟨hlaw', ?_⟩
      unfold State.GainsHeld State.pos at hheld ⊢
      rwa [hpct, hnru] at hheld

end Sys2Proof.Machine
end

