-- ==== Sys2Proof/Proofs/VoiceWork.lean ====
section
/-!
PROOFS. What a voice's own work keeps (R122 to R133): its use, its buffer within 256 samples, and a refill flag only at a
begun CLIP step with samples remaining.
-/

namespace Sys2Proof.Machine

/-! ### The law of one voice -/

/-- A voice that plays or is about to: PRIMING or PLAYING. -/
def Voice.Active (x : Voice) : Prop := x.state = .priming ∨ x.state = .playing

/-- A voice that asks for samples (R127): it works at a begun CLIP step with samples remaining. -/
def Voice.Asks (x : Voice) : Prop :=
  x.Active ∧ x.endFetched = false ∧ x.entered = true ∧
    ∃ i n q, x.current = some i ∧ x.steps[i]? = some (.clip n) ∧ x.clip = some q ∧ 0 < q.remaining

/-- The law of one voice (R118, R127, R128). -/
structure Voice.Sound (x : Voice) : Prop where
  free : x.state = .free → x.use = .none
  buffer : x.buffer.length ≤ 256
  refill : x.refill = true → x.Asks

theorem Voice.Sound.refill_false {x : Voice} (h : x.Sound) (ha : ¬ x.Active) : x.refill = false :=
  Bool.eq_false_iff.mpr fun hr => ha (h.refill hr).1

theorem Voice.Active.not_free {x : Voice} (h : x.Active) : x.state ≠ .free := by
  rcases h with h | h <;> simp [h]

theorem Voice.Active.not_draining {x : Voice} (h : x.Active) : x.state ≠ .draining := by
  rcases h with h | h <;> simp [h]

theorem Voice.inProgram_iff (x : Voice) : x.inProgram = true ↔ x.use = .program ∧ x.Active := by
  simp [Voice.inProgram, Voice.Active]

/-! ### The fetch side (R125 to R130) -/

/-- A voice while its fetch side works. -/
structure Voice.Works (v : Voice) : Prop where
  active : v.Active
  endFetched : v.endFetched = false
  buffer : v.buffer.length ≤ 256
  refill : v.refill = true → v.Asks

section
variable {v : Voice} (h : v.Works)
include h

theorem Voice.Works.moveTo (hr : v.refill = false) (target : Option Nat) : Voice.Works (v.moveTo target) :=
  ⟨h.active, h.endFetched, h.buffer, fun hr' => absurd (hr.symm.trans hr') (by decide)⟩

theorem Voice.Works.goOn (hr : v.refill = false) (i : Nat) : Voice.Works (v.goOn i) := h.moveTo hr _

/-- At a step that is no CLIP, no refill flag stands. -/
theorem Voice.Works.refill_false {i : Nat} {step : Step} (hi : v.current = some i) (hstep : v.steps[i]? = some step)
    (hno : ∀ n, step ≠ .clip n) : v.refill = false :=
  Bool.eq_false_iff.mpr fun hr => by
    obtain ⟨-, -, -, j, n, q, hj, hn, -⟩ := h.refill hr
    rw [hi] at hj
    cases hj
    rw [hstep] at hn
    cases hn
    exact hno n rfl

theorem Voice.Works.arrive (step : Step) : Voice.Works (v.arrive step) := by
  unfold Voice.arrive
  split
  · exact h
  · next he =>
    have hr : v.refill = true → False := fun hr => he (h.refill hr).2.2.1
    split <;> exact ⟨h.active, h.endFetched, h.buffer, fun hr' => (hr hr').elim⟩

theorem Voice.Works.placeSilence (hr : v.refill = false) : v.placeSilence.Works := by
  refine ⟨h.active, h.endFetched, ?_, fun hr' => absurd (hr.symm.trans hr') (by decide)⟩
  have hb := h.buffer
  simp only [Voice.placeSilence, Voice.space, Config.bufferSize, List.length_append, List.length_replicate]
  omega

theorem Voice.Works.passLoop (hr : v.refill = false) (i target count : Nat) : Voice.Works (v.passLoop i target count) := by
  have hl : ∀ l target, Voice.Works (({ v with loops := l } : Voice).moveTo target) := fun l target =>
    ⟨h.active, h.endFetched, h.buffer, fun hr' => absurd (hr.symm.trans hr') (by decide)⟩
  unfold Voice.passLoop
  dsimp only
  split
  · exact hl _ _
  · split
    · exact hl _ _
    · exact hl _ _

theorem Voice.Works.skipClip (i : Nat) : Voice.Works (v.skipClip i) :=
  ⟨h.active, h.endFetched, h.buffer, fun hr => nomatch hr⟩

theorem Voice.Works.wrap (hr : v.refill = false) : v.wrap.Works :=
  ⟨h.active, h.endFetched, h.buffer, fun hr' => absurd (hr.symm.trans hr') (by decide)⟩

end

theorem Voice.arrive_same (v : Voice) (step : Step) :
    (v.arrive step).current = v.current ∧ (v.arrive step).steps = v.steps ∧ (v.arrive step).entered = true := by
  unfold Voice.arrive
  split
  · next he => exact ⟨rfl, rfl, he⟩
  · split <;> exact ⟨rfl, rfl, rfl⟩

/-- What the fetch side does at a step keeps the voice's work, whether it stays or leaves. -/
def StepAct.Works (act : StepAct) : Prop :=
  act.stay.voice.Works ∧ ∀ g, act.leave = some g → g.voice.Works

theorem begunClip_works (view : FetchView) (f : Fetching) (i n : Nat) (progress : ClipProgress)
    (h : f.voice.Works) (hi : f.voice.current = some i) (hstep : f.voice.steps[i]? = some (.clip n))
    (he : f.voice.entered = true) (hclip : f.voice.clip = some progress) :
    (begunClip view f i progress).Works := by
  have hremaining : f.voice.refill = true → progress.remaining ≠ 0 := fun hr => by
    obtain ⟨-, -, -, _, _, q, -, -, hq, hpos⟩ := h.refill hr
    rw [hclip] at hq
    cases hq
    omega
  unfold begunClip
  dsimp only
  split
  · next hz =>
    refine ⟨h, fun g hg => ?_⟩
    cases hg
    exact h.goOn (Bool.eq_false_iff.mpr fun hr => hremaining hr hz) i
  · next hz =>
    split
    · refine ⟨h, fun g hg => ?_⟩
      cases hg
      exact h.skipClip i
    · exact ⟨h, fun g hg => nomatch hg⟩
    · refine ⟨⟨h.active, h.endFetched, h.buffer, fun _ => ⟨?_, h.endFetched, he, i, n, progress, hi, hstep, hclip, ?_⟩⟩,
        fun g hg => nomatch hg⟩
      · exact h.active
      · exact Nat.pos_of_ne_zero hz

theorem clipAct_works (view : FetchView) (f : Fetching) (i n : Nat)
    (h : f.voice.Works) (hi : f.voice.current = some i) (hstep : f.voice.steps[i]? = some (.clip n))
    (he : f.voice.entered = true) : (clipAct view f i n).Works := by
  have hskip : StepAct.Works { stay := f, leave := some { f with voice := f.voice.skipClip i } } :=
    ⟨h, fun g hg => by cases hg; exact h.skipClip i⟩
  unfold clipAct
  dsimp only
  split
  · next progress hclip => exact begunClip_works view f i n progress h hi hstep he hclip
  · next hclip =>
    split
    · exact ⟨h, fun g hg => nomatch hg⟩
    · exact hskip
    · split
      · exact hskip
      · split
        · refine begunClip_works view _ i n _ ⟨h.active, h.endFetched, h.buffer, fun hr => ?_⟩ hi hstep he rfl
          obtain ⟨-, -, -, _, _, q, -, -, hq, -⟩ := h.refill hr
          rw [hclip] at hq
          cases hq
        · exact hskip

theorem Fetching.passMark_works {f : Fetching} (h : f.voice.Works) (hr : f.voice.refill = false) (code : Nat) :
    Voice.Works (f.passMark code).voice ∧ (f.passMark code).voice.refill = false := by
  unfold Fetching.passMark
  split
  · exact ⟨h, hr⟩
  · split
    · exact ⟨⟨h.active, h.endFetched, h.buffer, fun hr' => absurd (hr.symm.trans hr') (by decide)⟩, hr⟩
    · exact ⟨h, hr⟩

theorem stepAct_works (view : FetchView) (f : Fetching) (i : Nat) (step : Step)
    (h : f.voice.Works) (hi : f.voice.current = some i) (hstep : f.voice.steps[i]? = some step) :
    (stepAct view f i step).Works := by
  obtain ⟨hcurrent, hsteps, hentered⟩ := f.voice.arrive_same step
  have h1 := h.arrive step
  have hr : (∀ n, step ≠ .clip n) → (f.voice.arrive step).refill = false :=
    h1.refill_false (hcurrent.trans hi) (hsteps ▸ hstep)
  cases step with
  | mark code =>
    obtain ⟨h2, hr2⟩ := Fetching.passMark_works (f := { f with voice := f.voice.arrive (.mark code) }) h1
      (hr fun _ => Step.noConfusion) code
    exact ⟨h1, fun g hg => by cases hg; exact h2.goOn hr2 i⟩
  | loop target count =>
    exact ⟨h1, fun g hg => by cases hg; exact h1.passLoop (hr fun _ => Step.noConfusion) i target count⟩
  | silence frames =>
    have hr1 := hr fun _ => Step.noConfusion
    have h2 := h1.placeSilence hr1
    refine ⟨h2, fun g hg => ?_⟩
    unfold stepAct at hg
    dsimp only at hg
    split at hg
    · cases hg
      exact h2.goOn hr1 i
    · cases hg
  | clip n => exact clipAct_works view _ i n h1 (hcurrent.trans hi) (hsteps ▸ hstep) hentered

theorem fetchSide_works (view : FetchView) (moves : Nat) (f : Fetching) (h : f.voice.Works) :
    (fetchSide view moves f).voice.buffer.length ≤ 256 ∧
      ((fetchSide view moves f).voice.refill = true → (fetchSide view moves f).voice.Asks) := by
  have hdone : ∀ {v : Voice}, v.Works → v.buffer.length ≤ 256 ∧ (v.refill = true → v.Asks) := fun h => ⟨h.buffer, h.refill⟩
  have hend : ∀ {v : Voice}, v.Works → v.current = none → v.refill = false := fun h hend =>
    Bool.eq_false_iff.mpr fun hr => by
      obtain ⟨-, -, -, _, _, _, hcur, -⟩ := h.refill hr
      rw [hend] at hcur
      cases hcur
  induction moves generalizing f with
  | zero =>
    unfold fetchSide
    split
    · next hcur =>
      split
      · exact hdone h
      · exact ⟨h.buffer, fun hr => absurd ((hend h hcur).symm.trans hr) (by decide)⟩
    · next i hi =>
      split
      · exact hdone h
      · next step hstep => exact hdone (stepAct_works view f i step h hi hstep).1
  | succ m ih =>
    unfold fetchSide
    split
    · next hcur =>
      have hr := hend h hcur
      split
      · dsimp only
        split
        · exact ih _ (h.wrap hr)
        · split
          · next hspace =>
            refine hdone (Voice.Works.wrap (v := { f.voice with buffer := f.voice.buffer ++ zeroFrame })
              ⟨h.active, h.endFetched, ?_, fun hr' => absurd (hr.symm.trans hr') (by decide)⟩ hr)
            have hb := h.buffer
            simp only [frameSize, Voice.space, Config.bufferSize] at hspace
            simp only [List.length_append, zeroFrame, List.length_replicate]
            omega
          · exact hdone h
      · exact ⟨h.buffer, fun hr' => absurd (hr.symm.trans hr') (by decide)⟩
    · next i hi =>
      split
      · exact hdone h
      · next step hstep =>
        obtain ⟨hstay, hleave⟩ := stepAct_works view f i step h hi hstep
        dsimp only
        split
        · exact hdone hstay
        · next g hg => exact ih g (hleave g hg)

/-! ### The fetch side keeps state and use -/

/-- A voice in the state and use of another. -/
def Voice.SameUse (x v : Voice) : Prop := v.state = x.state ∧ v.use = x.use

theorem Voice.SameUse.trans {x y z : Voice} (h : x.SameUse y) (g : y.SameUse z) : x.SameUse z :=
  ⟨g.1.trans h.1, g.2.trans h.2⟩

/-- What the fetch side does at a step keeps the voice's state and use, whether it stays or leaves. -/
def StepAct.SameUse (x : Voice) (act : StepAct) : Prop :=
  x.SameUse act.stay.voice ∧ ∀ g, act.leave = some g → x.SameUse g.voice

theorem StepAct.SameUse.stays {x : Voice} {f : Fetching} (h : x.SameUse f.voice) :
    StepAct.SameUse x { stay := f, leave := none } := ⟨h, fun _ hg => nomatch hg⟩

theorem StepAct.SameUse.leaves {x : Voice} {f g : Fetching} (h : x.SameUse f.voice) (hg : x.SameUse g.voice) :
    StepAct.SameUse x { stay := f, leave := some g } := ⟨h, fun _ he => by cases he; exact hg⟩

theorem Voice.arrive_use (v : Voice) (step : Step) : v.SameUse (v.arrive step) := by
  unfold Voice.arrive
  split
  · exact ⟨rfl, rfl⟩
  · split <;> exact ⟨rfl, rfl⟩

theorem Voice.passLoop_use (v : Voice) (i target count : Nat) : v.SameUse (v.passLoop i target count) := by
  unfold Voice.passLoop
  dsimp only
  split
  · exact ⟨rfl, rfl⟩
  · split <;> exact ⟨rfl, rfl⟩

theorem Fetching.passMark_use (f : Fetching) (code : Nat) : f.voice.SameUse (f.passMark code).voice := by
  unfold Fetching.passMark
  split
  · exact ⟨rfl, rfl⟩
  · split <;> exact ⟨rfl, rfl⟩

theorem begunClip_use (view : FetchView) (f : Fetching) (i : Nat) (progress : ClipProgress) :
    (begunClip view f i progress).SameUse f.voice := by
  unfold begunClip
  dsimp only
  split
  · exact .leaves ⟨rfl, rfl⟩ ⟨rfl, rfl⟩
  · split
    · exact .leaves ⟨rfl, rfl⟩ ⟨rfl, rfl⟩
    · exact .stays ⟨rfl, rfl⟩
    · exact .stays ⟨rfl, rfl⟩

theorem clipAct_use (view : FetchView) (f : Fetching) (i n : Nat) : (clipAct view f i n).SameUse f.voice := by
  unfold clipAct
  dsimp only
  split
  · exact begunClip_use _ _ _ _
  · split
    · exact .stays ⟨rfl, rfl⟩
    · exact .leaves ⟨rfl, rfl⟩ ⟨rfl, rfl⟩
    · split
      · exact .leaves ⟨rfl, rfl⟩ ⟨rfl, rfl⟩
      · split
        · exact begunClip_use _ _ _ _
        · exact .leaves ⟨rfl, rfl⟩ ⟨rfl, rfl⟩

theorem stepAct_use (view : FetchView) (f : Fetching) (i : Nat) (step : Step) :
    (stepAct view f i step).SameUse f.voice := by
  have h1 := f.voice.arrive_use step
  cases step with
  | mark code =>
    have h2 := Fetching.passMark_use { f with voice := f.voice.arrive (.mark code) } code
    exact .leaves h1 ((h1.trans h2).trans ⟨rfl, rfl⟩)
  | loop target count => exact .leaves h1 (h1.trans (Voice.passLoop_use _ i target count))
  | silence frames =>
    unfold stepAct
    dsimp only
    split
    · exact .leaves (h1.trans ⟨rfl, rfl⟩) (h1.trans ⟨rfl, rfl⟩)
    · exact .stays (h1.trans ⟨rfl, rfl⟩)
  | clip n =>
    obtain ⟨h2, h3⟩ := clipAct_use view { f with voice := f.voice.arrive (.clip n) } i n
    exact ⟨h1.trans h2, fun g hg => h1.trans (h3 g hg)⟩

theorem fetchSide_use (view : FetchView) (moves : Nat) (f : Fetching) :
    f.voice.SameUse (fetchSide view moves f).voice := by
  induction moves generalizing f with
  | zero =>
    unfold fetchSide
    split
    · split <;> exact ⟨rfl, rfl⟩
    · split
      · exact ⟨rfl, rfl⟩
      · exact (stepAct_use view f _ _).1
  | succ m ih =>
    unfold fetchSide
    split
    · split
      · dsimp only
        split
        · exact Voice.SameUse.trans ⟨rfl, rfl⟩ (ih _)
        · split <;> exact ⟨rfl, rfl⟩
      · exact ⟨rfl, rfl⟩
    · next i _ =>
      split
      · exact ⟨rfl, rfl⟩
      · next step _ =>
        obtain ⟨hstay, hleave⟩ := stepAct_use view f i step
        dsimp only
        split
        · exact hstay
        · next g hg => exact (hleave g hg).trans (ih g)

/-- The fetch side of a frame event keeps state and use, and leaves a voice alone for which a fetch is in flight. -/
theorem Voice.fetched_use (x : Voice) (inFlight : Bool) (view : FetchView) :
    x.SameUse (x.fetched inFlight view).voice ∧ (inFlight = true → (x.fetched inFlight view).voice = x) := by
  unfold Voice.fetched
  split
  · next hworks =>
    refine ⟨fetchSide_use view _ { voice := x, marks := [] }, fun hf => ?_⟩
    simp [hf] at hworks
  · exact ⟨⟨rfl, rfl⟩, fun _ => rfl⟩

theorem Voice.Sound.fetched {x : Voice} (h : x.Sound) (inFlight : Bool) (view : FetchView) :
    (x.fetched inFlight view).voice.Sound := by
  obtain ⟨⟨hstate, huse⟩, -⟩ := x.fetched_use inFlight view
  unfold Voice.fetched at hstate huse ⊢
  split
  · next hworks =>
    rw [if_pos hworks] at hstate huse
    simp only [Bool.and_eq_true, Bool.or_eq_true, beq_iff_eq, Bool.not_eq_true'] at hworks
    obtain ⟨⟨hx, hend⟩, -⟩ := hworks
    obtain ⟨hbuffer, hrefill⟩ := fetchSide_works view Config.stepMoves { voice := x, marks := [] } ⟨hx, hend, h.buffer, h.refill⟩
    exact ⟨fun hf => huse.trans (h.free (hstate.symm.trans hf)), hbuffer, hrefill⟩
  · exact h

end Sys2Proof.Machine
end

