-- ==== Sys2Proof/Proofs/PromptLaws.lean ====
section
/-!
PROOFS. The laws of the prompt queues, the hold sources and the voices (R118, R128, R133, R136, R153) through every step.
-/

namespace Sys2Proof.Machine

/-! ### A voice's output, its fetches and its end -/

/-- A voice that the fetch `f` in flight is for (R127, R128, R133). -/
def Voice.Fetches (x : Voice) (f : Fetch) : Prop :=
  x.state ≠ .free ∧
    (x.Active → x.endFetched = false ∧ x.refill = false ∧ x.buffer.length + f.count * f.expand ≤ 256)

/-- A change that leaves an active voice active in its use, and makes no other active. -/
structure Voice.Stands (x y : Voice) : Prop where
  active : x.Active → y.Active
  back : y.Active → x.Active
  use : x.Active → y.use = x.use

theorem Voice.Stands.refl (x : Voice) : x.Stands x := ⟨id, id, fun _ => rfl⟩

theorem Voice.Stands.trans {x y z : Voice} (h : x.Stands y) (g : y.Stands z) : x.Stands z :=
  ⟨g.active ∘ h.active, h.back ∘ g.back, fun hx => (g.use (h.active hx)).trans (h.use hx)⟩

theorem Voice.Stands.of_same {x y : Voice} (hs : y.state = x.state) (hu : y.use = x.use) : x.Stands y := by
  exact ⟨fun h => by unfold Voice.Active; rw [hs]; exact h, fun h => by unfold Voice.Active at h; rwa [hs] at h, fun _ => hu⟩

/-- A voice that is not active, and does not become so. -/
theorem Voice.Stands.of_idle {x y : Voice} (hx : ¬ x.Active) (hy : ¬ y.Active) : x.Stands y :=
  ⟨fun h => absurd h hx, fun h => absurd h hy, fun h => absurd h hx⟩

theorem Voice.release_idle (x : Voice) : ¬ x.release.Active := by
  simp [Voice.Active, Voice.release]

theorem Voice.drain_idle (x : Voice) (p : Option (Fin 16)) : ¬ (x.drain p).Active := by
  simp [Voice.Active, Voice.drain]

theorem Voice.Sound.release {x : Voice} (h : x.Sound) (hx : x.refill = false) : x.release.Sound :=
  ⟨fun _ => rfl, h.buffer, fun hr => absurd (hx.symm.trans hr) (by decide)⟩

theorem Voice.Sound.drain {x : Voice} (h : x.Sound) (p : Option (Fin 16)) : (x.drain p).Sound :=
  ⟨fun hf => (nomatch hf), h.buffer, fun hr => nomatch hr⟩

theorem Voice.start_sound (x : Voice) (use : VoiceUse) (steps : List Step) : (x.start use steps).Sound :=
  ⟨fun hf => (nomatch hf), Nat.zero_le _, fun hr => nomatch hr⟩

theorem Voice.Sound.of_same {x y : Voice} (h : x.Sound) (hs : y.state = x.state) (hu : y.use = x.use)
    (hb : y.buffer.length ≤ 256) (hr : y.refill = false ∨ y.refill = x.refill ∧ (x.Asks → y.Asks)) : y.Sound where
  free hf := hu.trans (h.free (hs.symm.trans hf))
  buffer := hb
  refill hr' := by
    rcases hr with hr | ⟨hr, hasks⟩
    · exact absurd (hr.symm.trans hr') (by decide)
    · exact hasks (h.refill (hr.symm.trans hr'))

theorem Voice.prime_cases (x : Voice) : x.prime = x ∨ x.state = .priming ∧ x.prime = { x with state := .playing } := by
  unfold Voice.prime
  split
  · next h =>
    simp only [Voice.primed, Bool.and_eq_true, beq_iff_eq] at h
    exact .inr ⟨h.1, rfl⟩
  · exact .inl rfl

theorem Voice.prime_stands (x : Voice) : x.Stands x.prime ∧ (x.Sound → x.prime.Sound) ∧
    ∀ f, x.Fetches f → x.prime.Fetches f := by
  obtain he | ⟨hs, he⟩ := x.prime_cases <;> rw [he]
  · exact ⟨.refl x, id, fun _ => id⟩
  · have hx : x.Active := .inl hs
    refine ⟨⟨fun _ => .inr rfl, fun _ => hx, fun _ => rfl⟩, fun h => ⟨fun hf => (nomatch hf), h.buffer, fun hr => ?_⟩,
      fun f hf => ⟨fun hf' => (nomatch hf'), fun _ => hf.2 hx⟩⟩
    obtain ⟨-, hrest⟩ := h.refill hr
    exact ⟨.inr rfl, hrest⟩

theorem Voice.output_stands (x : Voice) (inFlight : Bool) : x.Stands (x.output inFlight) ∧
    (x.Sound → (x.output inFlight).Sound) ∧ (inFlight = true → ∀ f, x.Fetches f → (x.output inFlight).Fetches f) := by
  unfold Voice.output
  split
  · next hs =>
    exact ⟨.of_same rfl rfl, fun h => h.of_same rfl rfl h.buffer (.inr ⟨rfl, id⟩), fun _ f hf => absurd hs hf.1⟩
  · exact ⟨.of_same rfl rfl, fun h => h.of_same rfl rfl h.buffer (.inr ⟨rfl, id⟩), fun _ f hf => hf⟩
  · refine ⟨.of_same rfl rfl, fun h => h.of_same rfl rfl ?_ (.inr ⟨rfl, id⟩), fun _ f hf => ⟨hf.1, fun ha => ?_⟩⟩
    · exact (x.buffer.drop_sublist frameSize).length_le.trans h.buffer
    · obtain ⟨h1, h2, h3⟩ := hf.2 ha
      exact ⟨h1, h2, (Nat.add_le_add_right (x.buffer.drop_sublist frameSize).length_le _).trans h3⟩
  · next hs =>
    have hx : ¬ x.Active := fun ha => ha.not_draining hs
    have hsame : ∀ y : Voice, y.state = x.state → y.use = x.use → y.refill = x.refill → y.buffer.length ≤ x.buffer.length →
        x.Stands (if inFlight = true then y else y.release) ∧
        (x.Sound → (if inFlight = true then y else y.release).Sound) ∧
        (inFlight = true → ∀ f, x.Fetches f → (if inFlight = true then y else y.release).Fetches f) := by
      intro y hys hyu hyr hyb
      have hy : ¬ y.Active := fun ha => ha.not_draining (hys.trans hs)
      have hsound : x.Sound → y.Sound := fun h =>
        h.of_same hys hyu (hyb.trans h.buffer) (.inl (hyr.trans (h.refill_false hx)))
      split
      · exact ⟨.of_idle hx hy, hsound, fun _ f hf => ⟨by rw [hys]; exact hf.1, fun ha => absurd ha hy⟩⟩
      · next hb => exact ⟨.of_idle hx y.release_idle, fun h => (hsound h).release ((hsound h).refill_false hy),
          fun hb' => absurd hb' hb⟩
    by_cases hramp : x.ramp = .pending
    · simp only [hramp, if_true]
      exact hsame x.fade rfl rfl rfl (Nat.zero_le _)
    · simp only [hramp, if_false]
      exact hsame x.silent rfl rfl rfl le_rfl

theorem Voice.played_stands (x : Voice) (inFlight : Bool) : x.Stands (x.played inFlight) ∧
    (x.Sound → (x.played inFlight).Sound) ∧ (inFlight = true → ∀ f, x.Fetches f → (x.played inFlight).Fetches f) := by
  obtain ⟨h1, h2, h3⟩ := x.prime_stands
  obtain ⟨g1, g2, g3⟩ := x.prime.output_stands inFlight
  exact ⟨h1.trans g1, g2 ∘ h2, fun hb f hf => g3 hb f (h3 f hf)⟩

theorem placedSamples_length (f : Fetch) (stored : List Word16) :
    (placedSamples f stored).length = stored.length * f.expand := by
  induction stored with
  | nil => simp [placedSamples]
  | cons w rest ih =>
    simp only [placedSamples, List.flatMap_cons, List.length_append, placedSample, List.length_replicate,
      List.length_cons] at ih ⊢
    rw [ih, Nat.succ_mul, Nat.add_comm]

theorem Voice.endDrainFetch_stands (x : Voice) (hx : ¬ x.Active) :
    x.Stands x.endDrainFetch ∧ (x.Sound → x.endDrainFetch.Sound) := by
  unfold Voice.endDrainFetch
  split
  · exact ⟨.of_idle hx x.release_idle, fun h => h.release (h.refill_false hx)⟩
  · exact ⟨.refl x, id⟩

/-- A fetch that completes with all its samples (R128). -/
theorem Voice.fetchDone_stands (x : Voice) (f : Fetch) (stored : List Word16) (hlen : stored.length = f.count) :
    x.Stands (x.fetchDone f stored) ∧ (x.Sound → x.Fetches f → (x.fetchDone f stored).Sound) := by
  have hreceive : x.Active → x.Stands (x.receive f stored) ∧ (x.Sound → x.Fetches f → (x.receive f stored).Sound) :=
    fun ha => ⟨.of_same rfl rfl, fun h hf => by
      obtain ⟨-, hr, hb⟩ := hf.2 ha
      refine h.of_same rfl rfl ?_ (.inl hr)
      simp only [Voice.receive, List.length_append, placedSamples_length, hlen]
      exact hb⟩
  unfold Voice.fetchDone
  split
  · next hs => exact hreceive (.inl hs)
  · next hs => exact hreceive (.inr hs)
  · next hs =>
    obtain ⟨h1, h2⟩ := x.endDrainFetch_stands fun ha => ha.not_draining hs
    exact ⟨h1, fun h _ => h2 h⟩
  · exact ⟨.refl x, fun h _ => h⟩

theorem Voice.fetchLost_stands (x : Voice) : x.Stands x.fetchLost ∧ (x.Sound → x.fetchLost.Sound) := by
  unfold Voice.fetchLost
  split
  · next hs => exact x.endDrainFetch_stands fun ha => ha.not_draining hs
  · exact ⟨.refl x, id⟩

/-! ### The laws of a state -/

/-- The laws of the queues and of the hold sources (R118, R136, R153). -/
structure State.PromptLaws (s : State) : Prop where
  queues : ∀ p q, QueueLawful (s.queue p q)
  entries : ∀ p q, ∀ e ∈ s.queue p q, ∀ v : Fin 12, e.voice = some v → s.vce[v].use = .prompt p q ∧ s.vce[v].Active
  hold : s.HoldLaw

/-- What the voices add to them (R118, R127, R128, R133). -/
structure State.VoicesLawful (s : State) : Prop where
  held : ∀ v : Fin 12, s.vce[v].Active →
    s.vce[v].use = .program ∨ ∃ p q, s.vce[v].use = .prompt p q ∧ s.heldBy p q v = true
  sound : ∀ v : Fin 12, s.vce[v].Sound
  flight : ∀ f, s.sfe.fetch = some f → s.vce[f.voice].Fetches f

theorem State.promptLaws_iff (s : State) : s.PromptLaws ↔ s.PromptLaw ∧ s.HoldLaw :=
  ⟨fun ⟨h1, h2, h3⟩ => ⟨⟨h1, h2⟩, h3⟩, fun ⟨⟨h1, h2⟩, h3⟩ => ⟨h1, h2, h3⟩⟩

theorem State.heldBy_iff (s : State) (p : Fin 16) (q : QueueId) (v : Fin 12) :
    s.heldBy p q v = true ↔ ∃ e ∈ s.queue p q, e.voice = some v := by
  simp [State.heldBy]

theorem State.PromptLaws.heldBy {s : State} (h : s.PromptLaws) {p : Fin 16} {q : QueueId} {v : Fin 12}
    (hv : s.heldBy p q v = true) : s.vce[v].use = .prompt p q ∧ s.vce[v].Active := by
  obtain ⟨e, he, hev⟩ := (s.heldBy_iff p q v).mp hv
  exact h.entries p q e he v hev

/-- Under the laws of the queues, a voice is held by the entries of the queue that its use names, and while active only. -/
theorem State.PromptLaws.unheld {s : State} (h : s.PromptLaws) {v : Fin 12}
    (hv : ∀ p q, ¬ (s.vce[v].use = .prompt p q ∧ s.vce[v].Active)) (p : Fin 16) (q : QueueId) : s.heldBy p q v = false :=
  Bool.eq_false_iff.mpr fun hh => hv p q (h.heldBy hh)

theorem State.PromptLaws.voicesLawful_iff {s : State} (h : s.PromptLaws) :
    s.VoicesLawful ↔ s.VoiceLaw ∧ s.FetchLaw := by
  constructor
  · rintro ⟨hheld, hsound, hflight⟩
    refine ⟨⟨fun v => ⟨?_, (hsound v).buffer⟩, fun f hf => (hflight f hf).1⟩, fun f hf => (hflight f hf).2,
      fun v => (hsound v).refill⟩
    unfold State.VoiceCondition
    dsimp only
    cases hs : s.vce[v].state with
    | free =>
      exact .inl ⟨rfl, (hsound v).free hs, h.unheld fun p q ⟨_, ha⟩ => ha.not_free hs⟩
    | draining => exact .inr (.inr (.inr ⟨rfl, h.unheld fun p q ⟨_, ha⟩ => ha.not_draining hs⟩))
    | priming | playing =>
      have ha : s.vce[v].Active := by unfold Voice.Active; rw [hs]; simp
      rcases hheld v ha with hu | ⟨p, q, hu, hh⟩
      · exact .inr (.inl ⟨by simp, hu, h.unheld fun p q ⟨hu', _⟩ => by rw [hu] at hu'; cases hu'⟩)
      · refine .inr (.inr (.inl ⟨by simp, p, q, hu, hh, fun p' q' hh' => ?_⟩))
        have := (h.heldBy hh').1
        rw [hu] at this
        cases this
        exact ⟨rfl, rfl⟩
  · rintro ⟨⟨hcond, hfree⟩, hflight, hrefill⟩
    refine ⟨fun v ha => ?_, fun v => ⟨fun hf => ?_, (hcond v).2, hrefill v⟩, fun f hf => ⟨hfree f hf, hflight f hf⟩⟩
    · obtain ⟨h1 | h1 | h1 | h1, -⟩ := hcond v
      · exact absurd h1.1 ha.not_free
      · exact .inl h1.2.1
      · obtain ⟨-, p, q, hu, hh, -⟩ := h1
        exact .inr ⟨p, q, hu, hh⟩
      · exact absurd h1.1 ha.not_draining
    · obtain ⟨h1 | h1 | h1 | h1, -⟩ := hcond v
      · exact h1.2.1
      · rcases h1.1 with he | he <;> rw [hf] at he <;> cases he
      · rcases h1.1 with he | he <;> rw [hf] at he <;> cases he
      · rw [hf] at h1
        cases h1.1

/-! ### Steps -/

/-- A step that the laws live through: those of the queues by themselves, those of the voices with them. -/
structure State.VoiceStep (s t : State) : Prop where
  prompts : s.PromptLaws → t.PromptLaws
  voices : s.PromptLaws → s.VoicesLawful → t.VoicesLawful

theorem State.VoiceStep.refl (s : State) : s.VoiceStep s := ⟨id, fun _ => id⟩

theorem State.VoiceStep.trans {s t u : State} (h : s.VoiceStep t) (g : t.VoiceStep u) : s.VoiceStep u :=
  ⟨g.prompts ∘ h.prompts, fun hp hv => g.voices (h.prompts hp) (h.voices hp hv)⟩

/-- A change of the voices alone, in which every active voice stays active in its use, or a programme is started. -/
theorem State.VoiceStep.of_voices {s t : State}
    (hstands : ∀ v : Fin 12, s.vce[v].Stands t.vce[v] ∨ ¬ s.vce[v].Active ∧ t.vce[v].use = .program)
    (hsound : s.VoicesLawful → ∀ v : Fin 12, t.vce[v].Sound)
    (hflight : s.VoicesLawful → ∀ f, t.sfe.fetch = some f → t.vce[f.voice].Fetches f)
    (hpqc : t.pqc = s.pqc := by rfl) (hpct : t.pct = s.pct := by rfl) : s.VoiceStep t := by
  have hqueue : ∀ p q, t.queue p q = s.queue p q := fun p q => by
    cases q <;> simp only [State.queue, hpqc]
  have hactive : ∀ v : Fin 12, s.vce[v].Active → t.vce[v].Active ∧ t.vce[v].use = s.vce[v].use := fun v ha => by
    rcases hstands v with h | ⟨h, -⟩
    · exact ⟨h.active ha, h.use ha⟩
    · exact absurd ha h
  refine ⟨fun h => ⟨fun p q => by rw [hqueue]; exact h.queues p q, fun p q e he v hv => ?_, fun p hp v hv => ?_⟩,
    fun _ h => ⟨fun v ha => ?_, hsound h, hflight h⟩⟩
  · rw [hqueue] at he
    obtain ⟨hu, ha⟩ := h.entries p q e he v hv
    exact ⟨(hactive v ha).2.trans hu, (hactive v ha).1⟩
  · rw [State.pos, hpct] at hp hv
    obtain ⟨hu, ha⟩ := (Voice.inProgram_iff _).mp (h.hold p hp v hv)
    exact (Voice.inProgram_iff _).mpr ⟨(hactive v ha).2.trans hu, (hactive v ha).1⟩
  · rcases hstands v with hs | ⟨-, hu⟩
    · rw [hs.use (hs.back ha)]
      simp only [State.heldBy, hqueue]
      exact h.held v (hs.back ha)
    · exact .inl hu

/-- A change that touches no voice, no queue and no fetch, after which every hold source is none, as before, or a voice
in PROGRAM use. -/
theorem State.VoiceStep.of_hold {s t : State}
    (hhold : ∀ p v, (t.pos p).call = .hold → (t.pos p).holdSource = some v →
      (s.pos p).call = .hold ∧ (s.pos p).holdSource = some v ∨ s.vce[v].inProgram = true)
    (hvce : t.vce = s.vce := by rfl) (hpqc : t.pqc = s.pqc := by rfl) (hfetch : t.sfe.fetch = s.sfe.fetch := by rfl) :
    s.VoiceStep t := by
  have hqueue : ∀ p q, t.queue p q = s.queue p q := fun p q => by
    cases q <;> simp only [State.queue, hpqc]
  refine ⟨fun h => ⟨fun p q => by rw [hqueue]; exact h.queues p q, fun p q e he => ?_, fun p hp v hv => ?_⟩,
    fun _ h => ⟨fun v => ?_, fun v => ?_, fun f hf => ?_⟩⟩
  · rw [hvce]
    exact h.entries p q e (hqueue p q ▸ he)
  · rw [hvce]
    exact (hhold p v hp hv).elim (fun ⟨h1, h2⟩ => h.hold p h1 v h2) id
  · simp only [State.heldBy, hqueue, hvce]
    exact h.held v
  · rw [hvce]; exact h.sound v
  · rw [hvce]
    exact h.flight f (hfetch ▸ hf)

theorem State.VoiceStep.of_eq {s t : State} (hpct : t.pct = s.pct := by rfl) (hvce : t.vce = s.vce := by rfl)
    (hpqc : t.pqc = s.pqc := by rfl) (hfetch : t.sfe.fetch = s.sfe.fetch := by rfl) : s.VoiceStep t :=
  .of_hold (fun p v h1 h2 => .inl (by rw [State.pos, hpct] at h1 h2; exact ⟨h1, h2⟩)) hvce hpqc hfetch

end Sys2Proof.Machine
end

