-- ==== Sys2Proof/Proofs/PromptSteps.lean ====
section
/-!
PROOFS. Each operation on voices, queues and hold sources as a step that their laws live through (R124 to R136, R147 to R165).
-/

namespace Sys2Proof.Machine

/-! ### Entries that leave a queue (R162 to R164) -/

/-- Entries leave queue `q` of position `p`, and with them the voices that they held become inactive. -/
theorem State.VoiceStep.of_dequeue {s t : State} (p : Fin 16) (q : QueueId) (l : List Entry)
    (hqueue : ∀ p' q', t.queue p' q' = if p' = p ∧ q' = q then l else s.queue p' q')
    (hlawful : QueueLawful (s.queue p q) → QueueLawful l) (hsub : ∀ e ∈ l, e ∈ s.queue p q)
    (hvoice : s.PromptLaws → ∀ v : Fin 12,
      t.vce[v] = s.vce[v] ∧ (s.heldBy p q v = true → ∃ e ∈ l, e.voice = some v) ∨
      s.vce[v].use = .prompt p q ∧ ¬ t.vce[v].Active ∧ ∀ e ∈ l, e.voice ≠ some v)
    (hsound : s.VoicesLawful → ∀ v : Fin 12, t.vce[v].Sound)
    (hflight : s.VoicesLawful → ∀ f, t.sfe.fetch = some f → t.vce[f.voice].Fetches f)
    (hpct : t.pct = s.pct := by rfl) : s.VoiceStep t := by
  refine ⟨fun h => ⟨fun p' q' => ?_, fun p' q' e he v hv => ?_, fun p' hp v hv => ?_⟩,
    fun hp h => ⟨fun v ha => ?_, hsound h, hflight h⟩⟩
  · rw [hqueue]
    split
    · exact hlawful (h.queues p q)
    · exact h.queues p' q'
  · rw [hqueue] at he
    split at he
    · next hpq =>
      obtain ⟨rfl, rfl⟩ := hpq
      rcases hvoice h v with ⟨hs, -⟩ | ⟨-, -, hno⟩
      · rw [hs]; exact h.entries p' q' e (hsub e he) v hv
      · exact absurd hv (hno e he)
    · next hpq =>
      obtain ⟨hu, ha⟩ := h.entries p' q' e he v hv
      rcases hvoice h v with ⟨hs, -⟩ | ⟨hu', -, -⟩
      · rw [hs]; exact ⟨hu, ha⟩
      · rw [hu] at hu'
        cases hu'
        exact absurd ⟨rfl, rfl⟩ hpq
  · rw [State.pos, hpct] at hp hv
    have hin := h.hold p' hp v hv
    rcases hvoice h v with ⟨hs, -⟩ | ⟨hu', -, -⟩
    · rw [hs]; exact hin
    · rw [((Voice.inProgram_iff _).mp hin).1] at hu'
      cases hu'
  · rcases hvoice hp v with ⟨hs, hheld⟩ | ⟨-, hidle, -⟩
    · rw [hs] at ha ⊢
      refine (h.held v ha).imp_right fun ⟨p', q', hu, hh⟩ => ⟨p', q', hu, ?_⟩
      rw [State.heldBy_iff, hqueue]
      split
      · next hpq =>
        obtain ⟨rfl, rfl⟩ := hpq
        exact hheld hh
      · exact (s.heldBy_iff p' q' v).mp hh
    · exact absurd ha hidle

theorem State.setQueue_queue (s : State) (p : Fin 16) (q : QueueId) (l : List Entry) (p' : Fin 16) (q' : QueueId) :
    (s.setQueue p q l).queue p' q' = if p' = p ∧ q' = q then l else s.queue p' q' := by
  cases q <;> cases q' <;> simp [State.setQueue, State.queue, set_get]

theorem QueueLawful.nil : QueueLawful [] := ⟨Nat.zero_le _, fun _ he => (nomatch he), .nil⟩

theorem QueueLawful.rest {e : Entry} {l : List Entry} (h : QueueLawful (e :: l)) : QueueLawful l := by
  obtain ⟨h1, h2, h3⟩ := h
  exact ⟨(Nat.le_succ _).trans h1, fun x hx => h2 x (List.mem_of_mem_tail hx), (List.pairwise_cons.mp h3).2⟩

/-- A queue is flushed, and the voices its entries held drain (R164, R165). -/
theorem State.VoiceStep.flushQueue (s : State) (p : Fin 16) (q : QueueId) : s.VoiceStep (s.flushQueue p q) := by
  obtain ⟨vce, owed, he, hvce⟩ := s.flushQueue_spec p q
  rw [he]
  refine .of_dequeue p q [] (fun p' q' => ?_) (fun _ => .nil) (fun _ he => (nomatch he)) (fun h v => ?_) (fun h v => ?_)
    fun h f hf => ?_
  · rw [← s.setQueue_queue p q [] p' q']
    cases q <;> cases q' <;> rfl
  · change vce[v] = _ ∧ _ ∨ _ ∧ ¬ vce[v].Active ∧ _
    rw [hvce]
    split
    · next hh => exact .inr ⟨(h.heldBy hh).1, Voice.drain_idle _ _, fun _ he => (nomatch he)⟩
    · next hh => exact .inl ⟨rfl, fun hh' => absurd hh' hh⟩
  · change vce[v].Sound
    rw [hvce]
    split
    exacts [(h.sound v).drain _, h.sound v]
  · change vce[f.voice].Fetches f
    rw [hvce]
    split
    · exact ⟨fun hs => (nomatch hs), fun ha => absurd ha (Voice.drain_idle _ _)⟩
    · exact h.flight f hf

/-! ### The work of a voice at a frame event (R122 to R133) -/

theorem State.inFlight_of_fetch {s : State} {f : Fetch} (hf : s.sfe.fetch = some f) : s.inFlight f.voice = true := by
  simp [State.inFlight, hf]

/-- A change of one voice, told apart from the others. -/
theorem modVoice_cases (s : State) (v : Fin 12) (f : Voice → Voice) (P : Fin 12 → Voice → Prop)
    (hsame : P v (f s.vce[v])) (hother : ∀ w : Fin 12, w ≠ v → P w s.vce[w]) (w : Fin 12) : P w (s.modVoice v f).vce[w] := by
  simp only [State.modVoice_vce, Fin.getElem_fin, upd_get]
  split
  · next he => subst he; exact hsame
  · next he => exact hother w he

theorem State.VoiceStep.played (s : State) (v : Fin 12) : s.VoiceStep (s.modVoice v (fun x => x.played (s.inFlight v))) := by
  obtain ⟨hstands, hsound, hflight⟩ := s.vce[v].played_stands (s.inFlight v)
  refine .of_voices ?_ (fun h => ?_) (fun h f hf => ?_)
  · exact modVoice_cases s v _ (fun w y => s.vce[w].Stands y ∨ ¬ s.vce[w].Active ∧ y.use = .program) (.inl hstands)
      fun w _ => .inl (.refl _)
  · exact modVoice_cases s v _ (fun _ y => y.Sound) (hsound (h.sound v)) fun w _ => h.sound w
  · refine modVoice_cases s v _ (fun w y => w = f.voice → y.Fetches f) (fun he => ?_) (fun w _ he => ?_) f.voice rfl
    · subst he
      exact hflight (State.inFlight_of_fetch hf) f (h.flight f hf)
    · subst he
      exact h.flight f hf

theorem State.VoiceStep.fetched (s : State) (v : Fin 12) (view : FetchView) :
    s.VoiceStep (s.modVoice v (fun _ => (s.vce[v].fetched (s.inFlight v) view).voice)) := by
  obtain ⟨⟨hstate, huse⟩, hflight⟩ := s.vce[v].fetched_use (s.inFlight v) view
  refine .of_voices ?_ (fun h => ?_) (fun h f hf => ?_)
  · exact modVoice_cases s v _ (fun w y => s.vce[w].Stands y ∨ ¬ s.vce[w].Active ∧ y.use = .program)
      (.inl (.of_same hstate huse)) fun w _ => .inl (.refl _)
  · exact modVoice_cases s v _ (fun _ y => y.Sound) ((h.sound v).fetched _ _) fun w _ => h.sound w
  · refine modVoice_cases s v _ (fun w y => w = f.voice → y.Fetches f) (fun he => ?_) (fun w _ he => ?_) f.voice rfl
    · subst he
      rw [hflight (State.inFlight_of_fetch hf)]
      exact h.flight f hf
    · subst he
      exact h.flight f hf

theorem QueueLawful.head_holds {l : List Entry} (h : QueueLawful l) {e : Entry} (he : e ∈ l) (hv : e.voice ≠ none) :
    l.head? = some e := by
  obtain ⟨-, htail, -⟩ := h
  cases l with
  | nil => cases he
  | cons x l =>
    rcases List.mem_cons.mp he with rfl | hm
    · rfl
    · exact absurd (htail e hm) hv

/-- A prompt that has been played to its end leaves the head of its queue, and its voice is released (R124, R162). -/
theorem State.VoiceStep.completePrompt (s : State) (v : Fin 12) (hdone : s.vce[v].completes = true) :
    s.VoiceStep (s.completePrompt v) := by
  simp only [Voice.completes, Bool.and_eq_true, beq_iff_eq] at hdone
  obtain ⟨⟨⟨hplaying, hprompt⟩, hend⟩, -⟩ := hdone
  have ha : s.vce[v].Active := .inr hplaying
  have hsound : s.VoicesLawful → ∀ w : Fin 12, (s.modVoice v Voice.release).vce[w].Sound := fun h =>
    modVoice_cases s v _ (fun _ y => y.Sound) ((h.sound v).release (Bool.eq_false_iff.mpr fun hr => by
      have := ((h.sound v).refill hr).2.1
      rw [hend] at this
      cases this)) fun w _ => h.sound w
  have hflight : s.VoicesLawful → ∀ f, s.sfe.fetch = some f → (s.modVoice v Voice.release).vce[f.voice].Fetches f :=
    fun h f hf => modVoice_cases s v _ (fun w y => w = f.voice → y.Fetches f) (fun he => by
      subst he
      have := ((h.flight f hf).2 ha).1
      rw [hend] at this
      cases this) (fun w _ he => by subst he; exact h.flight f hf) f.voice rfl
  have hleave : ∀ p q l, s.vce[v].use = .prompt p q → (∀ e ∈ l, e ∈ s.queue p q) →
      (QueueLawful (s.queue p q) → QueueLawful l ∧ (∀ e ∈ l, e.voice ≠ some v) ∧
        ∀ w : Fin 12, w ≠ v → s.heldBy p q w = true → ∃ e ∈ l, e.voice = some w) →
      s.VoiceStep ((s.modVoice v Voice.release).setQueue p q l) := by
    intro p q l hu hsub hl
    have hvce : ((s.modVoice v Voice.release).setQueue p q l).vce = (s.modVoice v Voice.release).vce := by cases q <;> rfl
    have hfetch : ((s.modVoice v Voice.release).setQueue p q l).sfe = s.sfe := by cases q <;> rfl
    have hpct : ((s.modVoice v Voice.release).setQueue p q l).pct = s.pct := by cases q <;> rfl
    refine .of_dequeue p q l (fun p' q' => State.setQueue_queue _ p q l p' q') (fun hq => (hl hq).1) hsub (fun h w => ?_)
      (by rw [hvce]; exact hsound) (by rw [hvce, hfetch]; exact hflight) hpct
    obtain ⟨-, hno, hkeep⟩ := hl (h.queues p q)
    rw [hvce]
    exact modVoice_cases s v _ (fun w y => y = s.vce[w] ∧ (s.heldBy p q w = true → ∃ e ∈ l, e.voice = some w) ∨
      s.vce[w].use = .prompt p q ∧ ¬ y.Active ∧ ∀ e ∈ l, e.voice ≠ some w) (.inr ⟨hu, Voice.release_idle _, hno⟩)
      (fun w hw => .inl ⟨rfl, hkeep w hw⟩) w
  have hsame : ∀ p q, s.setQueue p q (s.queue p q) = s := fun p q => by
    cases q <;> simp [State.setQueue, State.queue]
  have hidle : ∀ p q, s.vce[v].use = .prompt p q → (∀ e, (s.queue p q).head? = some e → e.voice ≠ some v) →
      s.VoiceStep (s.modVoice v Voice.release) := by
    intro p q hu hhead
    have hstep := hleave p q (s.queue p q) hu (fun _ => id) fun hq => ⟨hq, fun e he hv =>
      hhead e (hq.head_holds he (by rw [hv]; exact Option.some_ne_none v)) hv, fun w _ hw => (s.heldBy_iff p q w).mp hw⟩
    have he : (s.modVoice v Voice.release).setQueue p q (s.queue p q) = s.modVoice v Voice.release := by
      cases q <;> simp [State.setQueue, State.queue, State.modVoice]
    rwa [he] at hstep
  unfold State.completePrompt
  dsimp only
  split
  · next p q hu =>
    have hqueue : (s.modVoice v Voice.release).queue p q = s.queue p q := by cases q <;> rfl
    split
    · next hnil =>
      rw [hqueue] at hnil
      exact hidle p q hu fun e he => by rw [hnil] at he; cases he
    · next e rest hcons =>
      rw [hqueue] at hcons
      split
      · next hev =>
        refine (hleave p q rest hu (fun x hx => by rw [hcons]; exact List.mem_cons_of_mem _ hx) fun hq => ?_).trans .of_eq
        rw [hcons] at hq
        have hrest := hq.rest
        obtain ⟨-, htail, -⟩ := hq
        refine ⟨hrest, fun x hx hxv => ?_, fun w hw hheld => ?_⟩
        · rw [htail x hx] at hxv
          cases hxv
        · obtain ⟨x, hx, hxw⟩ := (s.heldBy_iff p q w).mp hheld
          rw [hcons] at hx
          rcases List.mem_cons.mp hx with rfl | hx
          · rw [hev] at hxw
            exact absurd (Option.some.inj hxw).symm hw
          · exact ⟨x, hx, hxw⟩
      · next hev =>
        refine hidle p q hu fun x hx => ?_
        rw [hcons] at hx
        cases hx
        exact hev
  · next hno =>
    exfalso
    unfold Voice.isPrompt at hprompt
    split at hprompt
    · next p q hu => exact hno p q hu
    · cases hprompt

theorem State.VoiceStep.report (s : State) (port : Port) (body : ReportBody) : s.VoiceStep (s.report port body) := .of_eq

theorem State.VoiceStep.runVoice (s : State) (v : Fin 12) : s.VoiceStep (s.runVoice v) := by
  have h1 := State.VoiceStep.played s v
  unfold State.runVoice
  dsimp only
  split
  · next hdone => exact h1.trans (.completePrompt _ v hdone)
  · have h2 := h1.trans (State.VoiceStep.fetched (s.modVoice v (fun x => x.played (s.inFlight v))) v
      { store := s.sfe.store, directory := s.sfe.directory })
    exact foldl_law (s.VoiceStep ·) _ (fun t code ht => ht.trans (.report t _ _)) _ _ (h2.trans .of_eq)

/-! ### Grants and the ends of fetches (R128, R147 to R151, R160) -/

theorem State.bestFlag_refill {s : State} {v : Fin 12} (h : s.bestFlag = some v) : s.vce[v].refill = true := by
  unfold State.bestFlag at h
  split at h
  · next w hw =>
    cases h
    exact (Bool.and_eq_true _ _ ▸ List.find?_some hw).1
  · split at h
    · next w hw =>
      cases h
      exact (Bool.and_eq_true _ _ ▸ List.find?_some hw).1
    · simpa using List.find?_some h

theorem State.nextFetch_refill {s : State} {v : Fin 12} (h : s.nextFetch = some v) : s.vce[v].refill = true := by
  unfold State.nextFetch at h
  split at h
  · cases h
  · split at h
    · split at h
      · next hr => cases h; exact hr
      · exact State.bestFlag_refill h
    · exact State.bestFlag_refill h

theorem fetchSize_fits (remaining fill expand : Nat) (h : fill ≤ 256) :
    fill + fetchSize remaining fill expand * expand ≤ 256 := by
  have h1 : fetchSize remaining fill expand ≤ (256 - fill) / expand :=
    (Nat.min_le_right _ _).trans (Nat.min_le_left _ _)
  have h2 := (Nat.mul_le_mul_right expand h1).trans (Nat.div_mul_le_self _ _)
  omega

theorem State.VoiceStep.grantFetch (s : State) : s.VoiceStep s.grantFetch := by
  unfold State.grantFetch
  split
  · exact .refl s
  · next v hv =>
    split
    · next progress e _ _ =>
      have hr := State.nextFetch_refill hv
      dsimp only
      refine .of_voices ?_ (fun h => ?_) (fun h f hf => ?_)
      · exact modVoice_cases s v _ (fun w y => s.vce[w].Stands y ∨ ¬ s.vce[w].Active ∧ y.use = .program)
          (.inl (.of_same rfl rfl)) fun w _ => .inl (.refl _)
      · exact modVoice_cases s v _ (fun _ y => y.Sound) ((h.sound v).of_same rfl rfl (h.sound v).buffer (.inl rfl))
          fun w _ => h.sound w
      · cases hf
        obtain ⟨ha, hend, -⟩ := (h.sound v).refill hr
        refine modVoice_cases s v _ (fun w y => w = v → y.Fetches _) (fun _ => ?_) (fun w hw he => absurd he hw) v rfl
        exact ⟨ha.not_free, fun _ => ⟨hend, rfl, fetchSize_fits _ _ _ (h.sound v).buffer⟩⟩
    · exact .refl s

theorem State.VoiceStep.completeFetch (s : State) (f : Fetch) (stored : List Word16) (hf : s.sfe.fetch = some f)
    (hlen : stored.length = f.count) : s.VoiceStep (s.completeFetch f stored) := by
  obtain ⟨hstands, hsound⟩ := s.vce[f.voice].fetchDone_stands f stored hlen
  refine .of_voices ?_ (fun h => ?_) (fun h f hf => nomatch hf)
  · exact modVoice_cases s f.voice _ (fun w y => s.vce[w].Stands y ∨ ¬ s.vce[w].Active ∧ y.use = .program)
      (.inl hstands) fun w _ => .inl (.refl _)
  · exact modVoice_cases s f.voice _ (fun _ y => y.Sound) (hsound (h.sound _) (h.flight f hf)) fun w _ => h.sound w

theorem State.VoiceStep.timeoutFetch (s : State) (f : Fetch) : s.VoiceStep (s.timeoutFetch f) := by
  obtain ⟨hstands, hsound⟩ := s.vce[f.voice].fetchLost_stands
  have h1 : s.VoiceStep { s.modVoice f.voice Voice.fetchLost with
      sfe := { s.sfe with fetch := none, timeouts := min Config.timeoutLimit (s.sfe.timeouts + 1) } } := by
    refine .of_voices ?_ (fun h => ?_) (fun h f hf => nomatch hf)
    · exact modVoice_cases s f.voice _ (fun w y => s.vce[w].Stands y ∨ ¬ s.vce[w].Active ∧ y.use = .program)
        (.inl hstands) fun w _ => .inl (.refl _)
    · exact modVoice_cases s f.voice _ (fun _ y => y.Sound) (hsound (h.sound _)) fun w _ => h.sound w
  unfold State.timeoutFetch
  dsimp only
  split
  · rw [State.failStore_eq]
    exact h1.trans .of_eq
  · exact h1.trans .of_eq

end Sys2Proof.Machine
end

