-- ==== Sys2Proof/Proofs/PromptKept.lean ====
section
/-!
PROOFS. The laws of the prompt queues, hold sources and voices through every command: pool grants, entries that join, the work
of a frame event, and the requests.
-/

namespace Sys2Proof.Machine

/-! ### Entries that join a queue and pool grants (R153, R157, R160) -/

/-- An entry without a voice joins the tail of a queue that has room, with no automatic entry of its kind (R154, R157). -/
theorem State.VoiceStep.enqueue (s : State) (p : Fin 16) (q : QueueId) (e : Entry) (hvoice : e.voice = none)
    (hroom : (s.queue p q).length < 4) (hauto : ∀ a ∈ s.queue p q, a.autoKind.isSome = true → a.autoKind ≠ e.autoKind) :
    s.VoiceStep (s.enqueue p q e) := by
  have hqueue := State.setQueue_queue s p q (s.queue p q ++ [e])
  have hvce : (s.enqueue p q e).vce = s.vce := by cases q <;> rfl
  have hfetch : (s.enqueue p q e).sfe = s.sfe := by cases q <;> rfl
  have hpct : (s.enqueue p q e).pct = s.pct := by cases q <;> rfl
  refine ⟨fun h => ⟨fun p' q' => ?_, fun p' q' x hx v hv => ?_, fun p' hp v hv => ?_⟩,
    fun _ h => ⟨fun v ha => ?_, by rw [hvce]; exact h.sound, by rw [hvce, hfetch]; exact h.flight⟩⟩
  · rw [State.enqueue, hqueue]
    split
    · obtain ⟨h1, h2, h3⟩ := h.queues p q
      refine ⟨by rw [List.length_append]; exact hroom, fun x hx => ?_, ?_⟩
      · cases hl : s.queue p q with
        | nil => rw [hl] at hx; cases hx
        | cons a l =>
          rw [hl] at hx h2
          rcases List.mem_append.mp hx with hx | hx
          · exact h2 x hx
          · rw [List.mem_singleton.mp hx]; exact hvoice
      · refine List.pairwise_append.mpr ⟨h3, List.pairwise_singleton _ _, fun a ha b hb => ?_⟩
        rw [List.mem_singleton.mp hb]
        exact hauto a ha
    · exact h.queues p' q'
  · rw [State.enqueue, hqueue] at hx
    rw [hvce]
    split at hx
    · next hpq =>
      obtain ⟨rfl, rfl⟩ := hpq
      rcases List.mem_append.mp hx with hx | hx
      · exact h.entries p' q' x hx v hv
      · rw [List.mem_singleton.mp hx, hvoice] at hv
        cases hv
    · exact h.entries p' q' x hx v hv
  · rw [State.pos, hpct] at hp hv
    rw [hvce]
    exact h.hold p' hp v hv
  · rw [hvce] at ha ⊢
    refine (h.held v ha).imp_right fun ⟨p', q', hu, hh⟩ => ⟨p', q', hu, ?_⟩
    rw [State.heldBy_iff] at hh ⊢
    obtain ⟨x, hx, hxv⟩ := hh
    refine ⟨x, ?_, hxv⟩
    rw [State.enqueue, hqueue]
    split
    · next hpq =>
      obtain ⟨rfl, rfl⟩ := hpq
      exact List.mem_append_left _ hx
    · exact hx

theorem State.VoiceStep.offer (s : State) (p : Fin 16) (k : AutoKind) : s.VoiceStep (s.offer p k) := by
  unfold State.offer
  split
  · exact .refl s
  · split
    · next hoffer =>
      obtain ⟨-, hroom, hnone⟩ := hoffer
      refine .enqueue s p .agent _ rfl hroom fun a ha _ he => ?_
      have hne := List.all_eq_true.mp hnone a ha
      simp only [Entry.autoKind] at he
      split at he
      · next k' hk =>
        cases he
        simp [hk] at hne
      · cases he
    · exact .refl s

theorem State.freeVoice_free {s : State} {v : Fin 12} (h : s.freeVoice = some v) : s.vce[v].state = .free := by
  simpa using List.find?_some h

/-- The arbiter starts a FREE voice for a head that waits (R160, R161). -/
theorem State.VoiceStep.poolGrant (s : State) : s.VoiceStep s.poolGrant := by
  unfold State.poolGrant
  split
  · next v p q hv hhead =>
    split
    · exact .refl s
    · next e rest hl =>
      have hfree := State.freeVoice_free hv
      have hwaits : e.voice = none := by
        have := List.find?_some hhead
        simpa [State.headWaiting, hl] using this
      have hidle : ¬ s.vce[v].Active := fun ha => ha.not_free hfree
      have hqueue : ∀ p' q', (s.setQueue p q ({ e with voice := some v } :: rest)).queue p' q' =
          if p' = p ∧ q' = q then { e with voice := some v } :: rest else s.queue p' q' := s.setQueue_queue p q _
      have hvce : (s.setQueue p q ({ e with voice := some v } :: rest)).vce = s.vce := by cases q <;> rfl
      have hfetch : (s.setQueue p q ({ e with voice := some v } :: rest)).sfe = s.sfe := by cases q <;> rfl
      have hpct : (s.setQueue p q ({ e with voice := some v } :: rest)).pct = s.pct := by cases q <;> rfl
      generalize s.setQueue p q ({ e with voice := some v } :: rest) = t at hqueue hvce hfetch hpct ⊢
      have hq : ∀ p' q', State.queue { t.modVoice v (fun x => x.start (.prompt p q) e.steps) with
          pqc := { (t.modVoice v (fun x => x.start (.prompt p q) e.steps)).pqc with pointer := p } } p' q' =
          if p' = p ∧ q' = q then { e with voice := some v } :: rest else s.queue p' q' := fun p' q' => by
        rw [← hqueue]
        cases q' <;> rfl
      have hother : ∀ w : Fin 12, w ≠ v → (t.modVoice v (fun x => x.start (.prompt p q) e.steps)).vce[w] = s.vce[w] :=
        fun w hw => by rw [State.modVoice_vce, hvce]; exact upd_other _ _ _ _ hw
      have hself : (t.modVoice v (fun x => x.start (.prompt p q) e.steps)).vce[v] = s.vce[v].start (.prompt p q) e.steps := by
        rw [State.modVoice_vce, hvce]; exact upd_same _ _ _
      refine ⟨fun h => ⟨fun p' q' => ?_, fun p' q' x hx w hw => ?_, fun p' hp w hw => ?_⟩,
        fun hp h => ⟨fun w ha => ?_, fun w => ?_, fun f hf => ?_⟩⟩
      · rw [hq]
        split
        · obtain ⟨h1, h2, h3⟩ := h.queues p q
          rw [hl] at h1 h2 h3
          exact ⟨h1, h2, List.pairwise_cons.mpr ((List.pairwise_cons.mp h3).imp_left id)⟩
        · exact h.queues p' q'
      · have hbusy : ∀ p' q', ∀ x ∈ s.queue p' q', ∀ w : Fin 12, x.voice = some w → w ≠ v ∧
            s.vce[w].use = .prompt p' q' ∧ s.vce[w].Active := fun p' q' x hx w hw => by
          obtain ⟨hu, ha⟩ := h.entries p' q' x hx w hw
          exact ⟨fun he => by subst he; exact hidle ha, hu, ha⟩
        rw [hq] at hx
        split at hx
        · next hpq =>
          obtain ⟨rfl, rfl⟩ := hpq
          rcases List.mem_cons.mp hx with rfl | hx
          · cases hw
            dsimp only
            rw [hself]
            exact ⟨rfl, .inl rfl⟩
          · obtain ⟨hne, hrest⟩ := hbusy p' q' x (by rw [hl]; exact List.mem_cons_of_mem _ hx) w hw
            dsimp only
            rw [hother w hne]
            exact hrest
        · obtain ⟨hne, hrest⟩ := hbusy p' q' x hx w hw
          dsimp only
          rw [hother w hne]
          exact hrest
      · have hin := h.hold p' (by rw [State.pos, ← hpct]; exact hp) w (by rw [State.pos, ← hpct]; exact hw)
        have hne : w ≠ v := fun he => by
          subst he
          exact hidle ((Voice.inProgram_iff _).mp hin).2
        dsimp only
        rw [hother w hne]
        exact hin
      · by_cases hw : w = v
        · subst hw
          refine .inr ⟨p, q, by dsimp only; rw [hself]; rfl, (State.heldBy_iff ..).mpr ⟨{ e with voice := some w }, ?_, rfl⟩⟩
          rw [hq, if_pos ⟨rfl, rfl⟩]
          exact List.mem_cons_self
        · dsimp only at ha ⊢
          rw [hother w hw] at ha ⊢
          refine (h.held w ha).imp_right fun ⟨p', q', hu, hh⟩ => ⟨p', q', hu, ?_⟩
          obtain ⟨x, hx, hxw⟩ := (State.heldBy_iff ..).mp hh
          refine (State.heldBy_iff ..).mpr ⟨x, ?_, hxw⟩
          rw [hq]
          split
          · next hpq =>
            obtain ⟨rfl, rfl⟩ := hpq
            rw [hl] at hx
            rcases List.mem_cons.mp hx with rfl | hx
            · rw [hwaits] at hxw
              cases hxw
            · exact List.mem_cons_of_mem _ hx
          · exact hx
      · by_cases hw : w = v
        · subst hw
          dsimp only
          rw [hself]
          exact Voice.start_sound _ _ _
        · dsimp only
          rw [hother w hw]
          exact h.sound w
      · have hf' : s.sfe.fetch = some f := by rw [← hfetch]; exact hf
        have hne : f.voice ≠ v := fun he => (h.flight f hf').1 (he ▸ hfree)
        dsimp only
        rw [hother f.voice hne]
        exact h.flight f hf'
  · exact .refl s

/-! ### The commands that are no requests -/

theorem State.VoiceStep.worked {s t : State} (h : s.PositionsWorked t) (hvce : t.vce = s.vce := by rfl)
    (hpqc : t.pqc = s.pqc := by rfl) (hfetch : t.sfe.fetch = s.sfe.fetch := by rfl) : s.VoiceStep t :=
  .of_hold (fun p _ h1 h2 => .inl ⟨(h p).call.symm.trans h1, (h p).holdSource.symm.trans h2⟩) hvce hpqc hfetch

/-- A change of one position record, whose hold source in HOLD is none, as before, or a voice in PROGRAM use. -/
theorem State.VoiceStep.setPos (s : State) (p : Fin 16) (f : Position → Position)
    (hf : ∀ v, (f (s.pos p)).call = .hold → (f (s.pos p)).holdSource = some v →
      (s.pos p).call = .hold ∧ (s.pos p).holdSource = some v ∨ s.vce[v].inProgram = true) :
    s.VoiceStep (s.modPos p f) := by
  refine .of_hold fun q v h1 h2 => ?_
  simp only [State.pos, State.modPos_pct, Fin.getElem_fin, upd_get] at h1 h2
  split at h1
  · next he =>
    subst he
    rw [if_pos rfl] at h2
    exact hf v h1 h2
  · next he =>
    rw [if_neg he] at h2
    exact .inl ⟨h1, h2⟩

theorem State.VoiceStep.modPos (s : State) (p : Fin 16) (f : Position → Position)
    (hf : ∀ x, (f x).call = x.call ∧ (f x).holdSource = x.holdSource := by exact fun _ => ⟨rfl, rfl⟩) :
    s.VoiceStep (s.modPos p f) :=
  .setPos s p f fun _ h1 h2 => .inl ⟨(hf _).1.symm.trans h1, (hf _).2.symm.trans h2⟩

theorem State.VoiceStep.reportAll (s : State) (ports : List Port) (body : ReportBody) :
    s.VoiceStep (s.reportAll ports body) := by
  rw [State.reportAll_eq]
  exact .of_eq

theorem State.VoiceStep.runBattery (s : State) (p : Fin 16) : s.VoiceStep (s.runBattery p) := by
  unfold State.runBattery
  dsimp only
  repeat' split
  · exact modPos s p _
  · exact ((modPos s p _).trans (report _ _ _)).trans (offer _ p _)
  · exact ((modPos s p _).trans (reportAll _ _ _)).trans (offer _ p _)
  · exact ((modPos s p _).trans (reportAll _ _ _)).trans (offer _ p _)
  · exact modPos s p _
  · exact refl s

theorem State.VoiceStep.runReminder (s : State) (p : Fin 16) : s.VoiceStep (s.runReminder p) := by
  unfold State.runReminder
  dsimp only
  repeat' split
  · exact ((modPos s p _ fun x => by split <;> exact ⟨rfl, rfl⟩).trans (reportAll _ _ _)).trans (offer _ p _)
  · exact modPos s p _
  · exact refl s

theorem State.VoiceStep.runMuted (s : State) (p : Fin 16) : s.VoiceStep (s.runMuted p) := by
  have h1 : s.VoiceStep (s.modPos p (fun x => { x with mutedCount := min 500 (x.mutedCount + 1) })) := modPos s p _
  unfold State.runMuted
  dsimp only
  repeat' split
  · exact ((h1.trans (modPos _ p fun x => { x with mutedIssued := true })).trans (report _ _ _)).trans (offer _ p _)
  · exact h1
  · exact refl s

theorem State.VoiceStep.meterReports (s : State) (port : Port) : s.VoiceStep (s.meterReports port) :=
  foldl_law (s.VoiceStep ·) _ (fun t _ ht => ite_law _ (ht.trans (report t _ _)) ht) _ _ (refl s)

theorem State.VoiceStep.runMeterPeriod (s : State) (port : Port) : s.VoiceStep (s.runMeterPeriod port) := by
  unfold State.runMeterPeriod
  repeat' split
  · exact refl s
  · exact (of_eq (t := s.modPort port (fun ps => { ps with counter := ps.period.frames }))).trans (meterReports _ port)
  · exact of_eq

theorem State.VoiceStep.runWork (s : State) (w : Work) : s.VoiceStep (s.runWork w) := by
  have hw := (s.runWork_records w).positions
  cases w with
  | presence p =>
    refine .worked hw ?_ ?_ ?_ <;> simp only [State.runWork, State.runPresence] <;> repeat' split
    all_goals rfl
  | button p =>
    refine .worked hw ?_ ?_ ?_ <;> simp only [State.runWork, State.runButton] <;> repeat' split
    all_goals rfl
  | battery p => exact runBattery s p
  | reminder p => exact runReminder s p
  | muted p => exact runMuted s p
  | echo p =>
    simp only [State.runWork, State.runEcho]
    split <;> exact of_eq
  | noise n => exact of_eq
  | mix => exact of_eq
  | meterClose =>
    simp only [State.runWork, State.runMeterClose]
    split
    exacts [of_eq, refl s]
  | earpiece p => exact of_eq
  | highwayOut =>
    refine .worked hw ?_ ?_ ?_ <;>
      simp only [State.runWork, State.runHighwayOut, State.driveNow_vce, State.driveNow_pqc, State.driveNow_sfe]
  | voice v => exact runVoice s v
  | close p =>
    refine .worked hw ?_ ?_ ?_ <;> simp only [State.runWork, State.runClose] <;> repeat' split
    all_goals rfl
  | meterPeriod port => exact runMeterPeriod s port

section
variable {t : State} (hqueue : ∀ p q, t.queue p q = []) (hvce : ∀ v : Fin 12, t.vce[v] = .powerOn)
include hqueue

/-- Where no queue holds an entry and no call is up, the laws of the queues hold. -/
theorem State.promptLaws_fresh (hcall : ∀ p, (t.pos p).call = .idle) : t.PromptLaws := by
  refine ⟨fun p q => by rw [hqueue]; exact .nil, fun p q e he => ?_, fun p hp => ?_⟩
  · rw [hqueue] at he
    cases he
  · rw [hcall] at hp
    cases hp

omit hqueue
include hvce

/-- Where every voice is at its power-on value and no fetch is in flight, the laws of the voices hold. -/
theorem State.voicesLawful_fresh (hfetch : t.sfe.fetch = none) : t.VoicesLawful := by
  refine ⟨fun v ha => ?_, fun v => ?_, fun f hf => ?_⟩
  · rw [hvce] at ha
    exact absurd rfl ha.not_free
  · rw [hvce]
    exact ⟨fun _ => rfl, Nat.zero_le _, fun hr => nomatch hr⟩
  · rw [hfetch] at hf
    cases hf

include hqueue

theorem State.VoiceStep.fresh (s : State) (hcall : ∀ p, (t.pos p).call = .idle) (hfetch : t.sfe.fetch = none) :
    s.VoiceStep t :=
  ⟨fun _ => promptLaws_fresh hqueue hcall, fun _ _ => voicesLawful_fresh hvce hfetch⟩

end

theorem prompts_kept (r : State) : Kept r.VoiceStep where
  powerOn s _ := .fresh (fun p q => by cases q <;> simp [State.queue, State.powerOn, Pqc.powerOn])
    (fun v => by simp [State.powerOn]) r (fun p => by simp [State.pos, State.powerOn, Position.powerOn]) rfl
  released s _ := .fresh (fun p q => by cases q <;> simp [State.queue, State.released, State.powerOn, Pqc.powerOn])
    (fun v => by simp [State.released, State.powerOn]) r
    (fun p => by simp [State.pos, State.released, State.powerOn, Position.powerOn]) rfl
  mark s _ _ h := h.trans .of_eq
  quiet s _ _ h := h.trans .of_eq
  write s _ _ h := h.trans .of_eq
  read s _ h := h.trans .of_eq
  report s _ _ h := h.trans .of_eq
  work s _ h := h.trans .of_eq
  ftu s _ h := h.trans .of_eq
  runWork s w h := h.trans (.runWork s w)
  poolGrant s h := h.trans (.poolGrant s)
  grantFetch s h := h.trans (.grantFetch s)
  beginFrame s h := h.trans .of_eq
  collect s b slots h := by
    rw [State.collect]
    exact h.trans .of_eq
  latch s h := by
    rw [State.latchSlots]
    exact h.trans .of_eq
  drive s h := h.trans .of_eq
  toFreeRun s h := h.trans .of_eq
  cutOff s _ _ h := h.trans .of_eq
  arrive s _ _ _ h := h.trans .of_eq
  completeFetch s f stored h hf hlen := h.trans (.completeFetch s f stored hf hlen)
  timeoutFetch s f h _ := h.trans (.timeoutFetch s f)
  engine s _ h he := h.trans (.of_eq rfl rfl rfl he)

/-! ### Requests -/

theorem State.VoiceStep.endSessionsOn (s : State) (p : Fin 16) (reason : SessionEnd) :
    s.VoiceStep (s.endSessionsOn p reason) := by
  obtain ⟨_, _, he, -, -⟩ := s.endSessionsOn_spec p reason
  rw [he]
  exact of_eq

theorem State.VoiceStep.idleEffects (s : State) (p : Fin 16) : s.VoiceStep (s.idleEffects p) :=
  (endSessionsOn s p .callEnded).trans (flushQueue _ p .line)

/-- A call that is not in HOLD asks nothing of its hold source. -/
theorem State.VoiceStep.setIdle (s : State) (p : Fin 16) (f : Position → Position) (hf : ∀ x, (f x).call ≠ .hold) :
    s.VoiceStep (s.modPos p f) :=
  .setPos s p f fun _ h1 _ => absurd h1 (hf _)

theorem State.VoiceStep.releaseLine (s : State) (p : Fin 16) : s.VoiceStep (s.releaseLine p) :=
  (modPos s p (fun x => { x with line := none })).trans .of_eq

theorem State.VoiceStep.close (s : State) (p : Fin 16) (plan : Plan) : s.VoiceStep (s.close p plan) := by
  have h : s.VoiceStep _ := (((((modPos s p (fun x => { x with state := .closing, closePlan := some plan })).trans
    (endSessionsOn _ p .closed)).trans (flushQueue _ p .agent)).trans (flushQueue _ p .line)).trans
    (setIdle _ p (fun x => { x with call := .idle }.stopReminder) fun _ => CallState.noConfusion)).trans
    ((releaseLine _ p).trans (modPos _ p (fun x => { x with band := .normal })))
  exact h

theorem State.VoiceStep.setCall (s : State) (p : Fin 16) (c : CallState) : s.VoiceStep (s.setCall p c).state := by
  have hend : ∀ f : Position → Position, (∀ x, (f x).call = .idle) → s.VoiceStep ((s.modPos p f).idleEffects p) :=
    fun f hf => (setIdle s p f fun x => by rw [hf]; exact CallState.noConfusion).trans (idleEffects _ p)
  unfold State.setCall
  dsimp only
  split
  · split
    all_goals try dsimp only [State.okay, State.refuse]
    · exact refl s
    · exact refl s
    · exact refl s
    · exact setIdle s p _ fun _ => CallState.noConfusion
    · exact refl s
    · split
      · next hgood =>
        refine setPos s p _ fun v _ h2 => .inr ?_
        have hsource : (s.pos p).holdSource = some v := by
          rw [← h2]
          unfold Position.startReminder
          split <;> rfl
        rwa [State.holdSourceGood, hsource] at hgood
      · exact refl s
    · exact setIdle s p _ fun _ => CallState.noConfusion
    · exact hend _ fun _ => rfl
    · exact hend _ fun _ => rfl
  · exact refl s

theorem State.VoiceStep.unbindLine (s : State) (p : Fin 16) : s.VoiceStep (s.unbindLine p) := by
  have hend : ∀ f : Position → Position, (∀ x, (f x).call = .idle) →
      s.VoiceStep (((s.modPos p f).idleEffects p).releaseLine p) := fun f hf =>
    ((setIdle s p f fun x => by rw [hf]; exact CallState.noConfusion).trans (idleEffects _ p)).trans (releaseLine _ p)
  unfold State.unbindLine
  split
  · exact releaseLine s p
  · exact hend _ fun _ => rfl
  · exact hend _ fun _ => rfl

theorem State.VoiceStep.endSession (s : State) (c : Fin 4) (reason : SessionEnd) : s.VoiceStep (s.endSession c reason) := by
  unfold State.endSession
  split
  · exact refl s
  · split <;> exact of_eq

theorem State.VoiceStep.unbindChannel (s : State) (c : Fin 4) : s.VoiceStep (s.unbindChannel c) := by
  unfold State.unbindChannel
  split
  · have h1 : s.VoiceStep { s with
        hwi := { s.hwi with channels := s.hwi.channels.set c none, supOut := s.hwi.supOut.set c none } } := of_eq
    exact (h1.trans (endSession _ c _)).trans of_eq
  · exact refl s

/-- A FREE voice is started for a programme (R134). -/
theorem State.VoiceStep.startProgram (s : State) (v : Fin 12) (steps : List Step) (hfree : s.vce[v].state = .free) :
    s.VoiceStep (s.modVoice v (fun x => x.start .program steps)) := by
  refine .of_voices ?_ (fun h => ?_) (fun h f hf => ?_)
  · exact modVoice_cases s v _ (fun w y => s.vce[w].Stands y ∨ ¬ s.vce[w].Active ∧ y.use = .program)
      (.inr ⟨fun ha => ha.not_free hfree, rfl⟩) fun w _ => .inl (.refl _)
  · exact modVoice_cases s v _ (fun _ y => y.Sound) (Voice.start_sound _ _ _) fun w _ => h.sound w
  · refine modVoice_cases s v _ (fun w y => w = f.voice → y.Fetches f) (fun he => ?_) (fun w _ he => ?_) f.voice rfl
    · exact absurd (he ▸ hfree) (h.flight f hf).1
    · subst he
      exact h.flight f hf

/-- A programme that no position in HOLD names drains (R135). -/
theorem State.VoiceStep.stopProgram (s : State) (v : Fin 12) (hunused : ¬ s.holdsOn v = true)
    (hprogram : s.vce[v].inProgram = true) : s.VoiceStep (s.drainVoice v none) := by
  have huse := ((Voice.inProgram_iff _).mp hprogram).1
  have hother : ∀ w : Fin 12, w ≠ v → (s.drainVoice v none).vce[w] = s.vce[w] := fun w hw => by
    rw [State.drainVoice_vce]
    exact upd_other _ _ _ _ hw
  have hself : (s.drainVoice v none).vce[v] = s.vce[v].drain none := by
    rw [State.drainVoice_vce]
    exact upd_same _ _ _
  refine ⟨fun h => ⟨h.queues, fun p q e he w hw => ?_, fun p hp w hw => ?_⟩, fun _ h => ⟨fun w ha => ?_, fun w => ?_,
    fun f hf => ?_⟩⟩
  · obtain ⟨hu, ha⟩ := h.entries p q e he w hw
    have hne : w ≠ v := fun hwv => by
      subst hwv
      rw [huse] at hu
      cases hu
    rw [hother w hne]
    exact ⟨hu, ha⟩
  · have hne : w ≠ v := fun hwv => by
      subst hwv
      refine hunused (List.any_eq_true.mpr ⟨p, mem_allPositions p, ?_⟩)
      simp only [Bool.and_eq_true, beq_iff_eq]
      exact ⟨hp, hw⟩
    rw [hother w hne]
    exact h.hold p hp w hw
  · have hne : w ≠ v := fun hwv => by
      subst hwv
      rw [hself] at ha
      exact Voice.drain_idle _ _ ha
    rw [hother w hne] at ha ⊢
    exact h.held w ha
  · by_cases hw : w = v
    · subst hw
      rw [hself]
      exact (h.sound w).drain none
    · rw [hother w hw]
      exact h.sound w
  · by_cases hw : f.voice = v
    · subst hw
      rw [hself]
      exact ⟨VoiceState.noConfusion, fun ha => absurd ha (Voice.drain_idle _ _)⟩
    · rw [hother _ hw]
      exact h.flight f hf

theorem State.VoiceStep.joinTail (s : State) (p : Fin 16) (q : QueueId) (e : Entry) (hvoice : e.voice = none)
    (hauto : e.autoKind = none) : s.VoiceStep (s.joinTail p q e).state := by
  unfold State.joinTail
  dsimp only
  split
  · next hroom =>
    refine enqueue s p q e hvoice hroom fun a _ ha => ?_
    rw [hauto]
    exact Option.isSome_iff_ne_none.mp ha
  · exact refl s

theorem State.VoiceStep.clearQueue (s : State) (p : Fin 16) (q : QueueId) : s.VoiceStep (s.clearQueue p q).state := by
  unfold State.clearQueue
  split
  exacts [refl s, flushQueue s p q]

theorem Position.setReminder_hold (x : Position) (seconds : Nat) (again : Bool) :
    (x.setReminder seconds again).call = x.call ∧ (x.setReminder seconds again).holdSource = x.holdSource := by
  unfold Position.setReminder
  dsimp only
  repeat' split
  all_goals exact ⟨rfl, rfl⟩

theorem prompts_serve (k : Kind) (port : Port) (s : State) (r : Request) : s.VoiceStep (k.serve port s r).state := by
  have h0 := State.VoiceStep.refl s
  cases k <;> refine State.withArgs_law s.VoiceStep s _ _ h0 fun a => ?_
  case openPosition =>
    dsimp only
    split
    · exact (State.VoiceStep.modPos s a.1 fun x =>
        { x with state := .opened, retained := false, band := .normal, mutedCount := 0, mutedIssued := false }).trans .of_eq
    · exact h0
  case close =>
    dsimp only
    split
    exacts [h0, .close s _ _, .modPos s _ _]
  case setDesk =>
    dsimp only
    split
    · exact h0
    · exact .modPos s a.1 (fun x => x.setDesk a.2) fun x =>
        ⟨(x.worked_setMute _).call, (x.worked_setMute _).holdSource⟩
  case setBattery | setNr =>
    dsimp only
    split
    exacts [h0, .modPos s _ _]
  case setSupervision =>
    dsimp only [State.setSupervision]
    have hset : s.VoiceStep (s.modPos a.1 (fun x => { x with supervisionAllowed := a.2 })) := .modPos s _ _
    split
    · exact h0
    · exact ite_law s.VoiceStep (hset.trans (.endSessionsOn _ _ _)) hset
  case setCall => exact .setCall s _ _
  case setReminder =>
    dsimp only
    split
    exacts [h0, .modPos s _ _ fun x => x.setReminder_hold _ _]
  case ackReminder =>
    dsimp only
    split
    exacts [.modPos s _ _, h0]
  case setHoldSource =>
    dsimp only
    repeat' split
    · exact h0
    · exact h0
    · next hgood =>
      refine .setPos s a.1 (fun x => x.setHold a.2.1 a.2.2) fun v _ h2 => .inr ?_
      change a.2.1 = some v at h2
      rw [h2] at hgood
      simpa using hgood
  case setEc =>
    dsimp only [State.setEc]
    have hset : s.VoiceStep (s.modPos a.1 (fun x => { x with echo := x.echo.update a.2 })) := .modPos s _ _
    split
    · exact h0
    · exact ite_law s.VoiceStep (hset.trans .of_eq) hset
  case bindLine =>
    dsimp only
    repeat' split
    · exact h0
    · exact h0
    · exact (State.VoiceStep.modPos s a.1 fun x => { x with line := some _ }).trans .of_eq
    · exact h0
  case unbindLine =>
    split
    exacts [.unbindLine s _, h0]
  case setSupChannel =>
    dsimp only
    repeat' split
    exacts [.unbindChannel s _, h0, h0, .of_eq]
  case join =>
    split
    exacts [.of_eq, h0]
  case changeMode =>
    dsimp only
    repeat' split
    exacts [h0, h0, .of_eq]
  case leave =>
    split
    exacts [h0, .of_eq]
  case startProgram =>
    dsimp only
    split
    · next hfree => exact .startProgram s _ _ hfree
    · exact h0
  case stopProgram =>
    repeat' split
    · exact h0
    · next hunused hprogram => exact .stopProgram s _ hunused hprogram
    · exact h0
  case agentPrompt =>
    dsimp only
    split
    exacts [.joinTail s _ _ _ rfl rfl, h0]
  case coachPrompt =>
    dsimp only
    repeat' split
    exacts [h0, .joinTail s _ _ _ rfl rfl, h0]
  case announce =>
    dsimp only
    split
    exacts [.joinTail s _ _ _ rfl rfl, h0]
  case clearAgentPrompts | clearAnnounce => exact .clearQueue s _ _
  case setSupNr | takeReports | subscribeMeters | readPosition | readSession | readVoice | readStore | reset =>
    exact .of_eq
  case readCoeffs =>
    dsimp only
    split <;> exact h0
  case rescan =>
    repeat' split
    exacts [h0, h0, .of_eq]

theorem State.softReset_voices (s : State) : s.softReset.vce = Vector.replicate 12 .powerOn ∧ s.softReset.pqc = .powerOn ∧
    s.softReset.sfe.fetch = none := by
  unfold State.softReset State.resetBlocks
  rw [State.reportAll_eq]
  dsimp only
  split <;> exact ⟨rfl, rfl, rfl⟩

theorem State.VoiceStep.softReset (r s : State) : r.VoiceStep s.softReset := by
  obtain ⟨hvce, hpqc, hfetch⟩ := s.softReset_voices
  refine .fresh (fun p q => ?_) (fun v => by simp [hvce]) r (fun p => ?_) hfetch
  · cases q <;> simp [State.queue, hpqc, Pqc.powerOn]
  · rw [State.softReset_pos]
    rfl

/-- Settles O55: an operation starts FREE voices alone, takes a voice from a play list with the entry that holds it, and
leaves every other voice active in its use. -/
theorem stepKeepsPromptLaws : Obligations.StepKeepsPromptLaws := by
  unfold Obligations.StepKeepsPromptLaws
  intro s t hprompt hhold he
  have hs := (State.promptLaws_iff s).mpr ⟨hprompt, hhold⟩
  have hstep : s.VoiceStep t := step_law s.VoiceStep (prompts_kept s) (fun _ _ h => h.trans .of_eq)
    (fun _ _ h => h.trans .of_eq) (fun k port u r h => h.trans (prompts_serve k port u r)) (fun u _ => .softReset s u)
    (.refl s) he
  have ht := hstep.prompts hs
  obtain ⟨h1, h2⟩ := (State.promptLaws_iff t).mp ht
  exact ⟨h1, h2, fun hv hf => ht.voicesLawful_iff.mp (hstep.voices hs (hs.voicesLawful_iff.mpr ⟨hv, hf⟩))⟩

end Sys2Proof.Machine
end

