-- ==== Sys2Proof/Proofs/Commands.lean ====
section
/-!
PROOFS. The commands in general: a step takes the front command, every command completes, and what the release and the
assertion of RSTN and a write transfer do (R1, R25, R32, R169, R185).
-/

namespace Sys2Proof.Machine

/-- Settles O1: a step is defined by the front of the queue. -/
theorem stepTakesFrontCommand : Obligations.StepTakesFrontCommand := by
  unfold Obligations.StepTakesFrontCommand
  refine ⟨fun c s rest => rfl, fun s h => ?_⟩
  unfold step
  rw [h]

/-! ### Every command completes -/

theorem State.runWork_pending (s : State) (w : Work) : (s.runWork w).pending = s.pending := by
  cases hw : evaluates w with
  | true => exact (s.runWork_evaluated w hw).pending
  | false =>
    cases w with
    | meterClose =>
      simp only [State.runWork, State.runMeterClose]
      split <;> rfl
    | highwayOut => simp only [State.runWork, State.runHighwayOut, State.driveNow_pending]
    | noise | mix | earpiece => rfl
    | _ => cases hw

theorem pending_kept (l : List Instr) : Kept (fun s => s.pending = l) where
  powerOn _ h := h
  released _ h := h
  mark _ _ _ h := h
  quiet _ _ _ h := h
  write _ _ _ h := h
  read _ _ h := h
  report _ _ _ h := h
  work _ _ h := h
  ftu _ _ h := h
  runWork s w h := (s.runWork_pending w).trans h
  poolGrant s h := by
    obtain ⟨_, _, he⟩ := s.poolGrant_frame
    rw [he]
    exact h
  grantFetch s h := by
    obtain ⟨_, _, he⟩ := s.grantFetch_frame
    rw [he]
    exact h
  beginFrame _ h := h
  collect s b slots h := by
    rw [State.collect]
    exact h
  latch s h := by
    rw [State.latchSlots]
    exact h
  drive _ h := h
  toFreeRun _ h := h
  cutOff _ _ _ h := h
  arrive _ _ _ _ h := h
  completeFetch _ _ _ h _ _ := h
  timeoutFetch s _ h _ := by
    unfold State.timeoutFetch
    dsimp only
    split
    · rw [State.failStore_eq]
      exact h
    · exact h
  engine _ _ h _ := h

theorem State.softReset_pending (s : State) : s.softReset.pending = s.pending := by
  unfold State.softReset State.resetBlocks
  rw [State.reportAll_eq]
  dsimp only
  split <;> rfl

theorem exec_next (c : Instr) (s : State) : ∃ t, exec c s = .next t := by
  cases c <;> exact ⟨_, rfl⟩

/-- Settles O2: each arm of `exec` answers a next state, and no block's change reaches the waiting commands. -/
theorem everyCommandCompletes : Obligations.EveryCommandCompletes := by
  unfold Obligations.EveryCommandCompletes
  intro c s
  obtain ⟨t, he⟩ := exec_next c s
  refine ⟨t, he, ?_⟩
  cases hc : requestRow c with
  | none => exact (pending_kept s.pending).exec hc rfl he
  | some x =>
    exact request_law (fun u => u.pending = s.pending) (fun u => u.pending = s.pending) (fun _ => id) (fun _ _ h => h)
      (fun _ _ h => h) (fun k port u r h => (mix_serve k port u r).mix.pending.trans h)
      (fun u h => u.softReset_pending.trans h) hc rfl he

/-! ### RSTN and write transfers -/

/-- Settles O3: the released part has every position record at its power-on value. -/
theorem releaseSetsPositionRecords : Obligations.ReleaseSetsPositionRecords := by
  unfold Obligations.ReleaseSetsPositionRecords
  intro s hs
  refine ⟨State.released s.pending, by simp [exec, execRstnRelease, hs], fun p => ?_⟩
  simp only [State.released, State.powerOn, State.pos, Nru.powerOn, Fin.getElem_fin, Vector.getElem_replicate]
  exact ⟨rfl, rfl, rfl⟩

/-- Settles O4: and every other block. -/
theorem releaseSetsOtherBlocks : Obligations.ReleaseSetsOtherBlocks := by
  unfold Obligations.ReleaseSetsOtherBlocks
  intro s hs
  refine ⟨State.released s.pending, by simp [exec, execRstnRelease, hs], rfl, rfl, ⟨rfl, rfl, rfl, rfl⟩, fun p => ?_, fun k => ?_,
    fun c => ?_, ⟨fun p => ?_, fun c => ?_⟩, fun v => ?_, ⟨rfl, rfl, rfl, rfl, rfl, rfl, rfl, fun k => ?_⟩, rfl, fun port => ?_⟩
  · simp only [State.released, State.powerOn, Fin.getElem_fin, Vector.getElem_replicate]
    exact ⟨rfl, rfl⟩
  · simp [State.released, State.powerOn, Hwi.powerOn]
  · simp only [State.released, State.powerOn, Hwi.powerOn, Nru.powerOn, Fin.getElem_fin, Vector.getElem_replicate]
    exact ⟨trivial, rfl, rfl, rfl⟩
  · simp only [State.released, State.powerOn, Mxe.powerOn, State.queue, Pqc.powerOn, Fin.getElem_fin, Vector.getElem_replicate]
    exact ⟨rfl, trivial, trivial, rfl, rfl, rfl, rfl, trivial, trivial⟩
  · simp only [State.released, State.powerOn, Mxe.powerOn, Fin.getElem_fin, Vector.getElem_replicate]
    rfl
  · simp only [State.released, State.powerOn, Fin.getElem_fin, Vector.getElem_replicate]
    rfl
  · cases k <;> rfl
  · cases port <;> exact ⟨rfl, rfl, rfl, rfl, rfl, rfl, rfl, rfl⟩

theorem State.eventWork_held (s : State) (w : Work) (due : State → Bool) (hs : s.rstn = true) : s.eventWork w due = s := by
  simp [State.eventWork, hs]

/-- While RSTN is asserted a command other than RSTN's own and the transfers has no effect (R185). -/
theorem exec_held {c : Instr} (s : State) (hs : s.rstn = true) (hassert : c ≠ .rstnAssert) (hrelease : c ≠ .rstnRelease)
    (hwrite : ∀ port bytes, c ≠ .writeTransfer port bytes) (hread : ∀ port, c ≠ .readTransfer port) :
    exec c s = .next s := by
  cases hc : requestRow c with
  | some x =>
    obtain ⟨port, k⟩ := x
    by_cases hk : k = .reset
    · subst hk
      rw [requestRow_reset hc, exec_reset, s.take_held port _ _ hs]
      simp [State.takeRequest, hs]
    · rw [exec_request s hc hk, s.take_held port _ _ hs]
  | none =>
    cases c
    case rstnAssert => exact absurd rfl hassert
    case rstnRelease => exact absurd rfl hrelease
    case writeTransfer port bytes => exact absurd rfl (hwrite port bytes)
    case readTransfer port => exact absurd rfl (hread port)
    case fetchCompletion samples =>
      simp only [exec, execFetchCompletion, hs]
      split <;> simp
    case fetchTimeout =>
      simp only [exec, execFetchTimeout, hs]
      split <;> simp
    case samplePeriod | frameEvent | highwaySync | syncGapTimeout | headsetFrameArrival | fetchGrant | voicePoolGrant |
        scanReadDone | scanReadTimeout =>
      simp [exec, execSamplePeriod, execFrameEvent, execHighwaySync, execSyncGapTimeout, execHeadsetFrameArrival,
        execFetchGrant, execVoicePoolGrant, execScanReadDone, execScanReadTimeout, hs]
    all_goals first
      | exact congrArg _ (State.eventWork_held s _ _ hs)
      | cases hc

/-- Settles O5: the asserted part is at its power-on values, and an exec arm looks at RSTN first. -/
theorem assertedResetHoldsThePart : Obligations.AssertedResetHoldsThePart := by
  unfold Obligations.AssertedResetHoldsThePart
  refine ⟨fun s => ⟨State.powerOn true s.pending, rfl, rfl, fun port => by cases port <;> rfl⟩, fun s hs => ⟨?_, ?_, ?_⟩⟩
  · intro port bytes
    simp [exec, execWriteTransfer, hs, State.modPort]
  · intro port
    simp [exec, execReadTransfer, hs, State.modPort]
  · exact fun c hassert hrelease hwrite hread => exec_held s hs hassert hrelease hwrite hread

/-- Settles O6: a write transfer's mark by what it carried and how many exchanges are held. -/
theorem writeTransferIsMarked : Obligations.WriteTransferIsMarked := by
  unfold Obligations.WriteTransferIsMarked
  intro s port hs
  refine ⟨fun bytes hlen => ?_, fun kind tag length params => ⟨fun hheld => ?_, fun hheld => ?_⟩⟩
  · have hnone : requestOf bytes = none := by
      unfold requestOf
      split
      · simp only [List.length_cons] at hlen
        omega
      · rfl
    simp [exec, execWriteTransfer, hs, State.modPort, PortState.write, hnone]
  · have hheld' : (s.cpt.get port).held < 4 := hheld
    simp [exec, execWriteTransfer, hs, State.modPort, PortState.write, requestOf, Config.exchangeDepth, hheld', State.port]
  · have hheld' : ¬ (s.cpt.get port).held < 4 := Nat.not_lt.mpr hheld
    simp [exec, execWriteTransfer, hs, State.modPort, PortState.write, requestOf, Config.exchangeDepth, hheld', busyMark,
      Response.bytes, State.port]
    cases (s.cpt.get port).overflow <;> rfl

/-! ### Reset meets the laws -/

theorem reset_queue (p : Fin 16) (q : QueueId) : State.reset.queue p q = [] := by
  cases q <;> simp [State.reset, State.released, State.powerOn, State.queue, Pqc.powerOn]

theorem reset_pos (p : Fin 16) : State.reset.pos p = .powerOn := by
  simp [State.reset, State.released, State.powerOn, State.pos]

theorem reset_voice (v : Fin 12) : State.reset.vce[v] = .powerOn := by
  simp [State.reset, State.released, State.powerOn]

theorem reset_context (n : Fin 20) : State.reset.nru.contexts[n] = .powerOn := by
  simp [State.reset, State.released, State.powerOn, Nru.powerOn]

/-- Settles O59: each law holds where the records it speaks of are at their power-on values. -/
theorem resetMeetsLaws : Obligations.ResetMeetsLaws := by
  have hports : State.reset.AllPorts (Holding fun _ => 4) := allPorts_powerOn rfl holding_powerOn
  have hsessions : State.reset.SessionLaws :=
    sessions_powerOn _ fun c => by simp [State.reset, State.released, State.powerOn, Session.powerOn]
  have hrecords : State.reset.RecordLaws := records_powerOn _ (fun p => ⟨false, reset_pos p⟩) rfl
  have hmix : State.reset.MixLaws := (mixLaws_powerOn false []).of_stands {}
  have hnoise : State.reset.NoiseStep State.reset :=
    .powerOn _ (fun p => by rw [reset_pos]; rfl) (fun n => by rw [reset_context]; exact ⟨rfl, rfl⟩) rfl
  have hprompt : State.reset.PromptLaws := State.promptLaws_fresh reset_queue fun p => by rw [reset_pos]; rfl
  have hvoice : State.reset.VoicesLawful := State.voicesLawful_fresh reset_voice rfl
  obtain ⟨hreport, hexchange⟩ := (allPorts_holding _).mp hports
  obtain ⟨hgain, hterm, hrange⟩ := (State.mixLaws_iff _).mp hmix
  obtain ⟨hqueues, hhold⟩ := (State.promptLaws_iff _).mp hprompt
  obtain ⟨hvoices, hfetch⟩ := hprompt.voicesLawful_iff.mp hvoice
  exact ⟨hreport, hexchange, hqueues, hhold, hsessions.1, hsessions.2, hrecords.1, hrecords.2, hgain, hterm, hrange,
    hvoices, hfetch, hnoise.1, fun p => by rw [reset_pos, reset_context]; decide,
    fun c => by
      rw [reset_context]
      simp [State.reset, State.released, State.powerOn, Nru.powerOn, NoiseSettings.powerOn, NoiseCtx.powerOn]⟩

end Sys2Proof.Machine
end

