-- ==== Sys2Proof/Proofs/Rows.lean ====
section
/-!
PROOFS. How the rows of the request table take requests: one response for each, no effect of a refusal, and what a
CLOSING position refuses (R5, R6, R170, R172).
-/

namespace Sys2Proof.Machine

/-! ### Replies (R172) -/

/-- A request is taken with OK or CHANGED, or refused with no effect and no data. -/
def Reply.Sound (s : State) (a : Reply) : Prop := (a.status = .ok ∨ a.status = .changed) ∨ ∃ status, a = s.refuse status

theorem State.okay_sound (s t : State) (data : List Byte) : (t.okay data).Sound s := .inl (.inl rfl)

theorem State.refuse_sound (s : State) (status : Status) : (s.refuse status).Sound s := .inr ⟨status, rfl⟩

theorem State.withArgs_sound {α : Type} (s : State) (args : Except Status α) (own : α → Reply) (hown : ∀ a, (own a).Sound s) :
    (s.withArgs args own).Sound s := by
  cases args with
  | error e => exact s.refuse_sound e
  | ok a => exact hown a

theorem State.setCall_sound (s : State) (p : Fin 16) (call : CallState) : (s.setCall p call).Sound s := by
  unfold State.setCall
  dsimp only
  split
  · split
    case h_6 =>
      split
      exacts [s.okay_sound _ _, s.refuse_sound _]
    case h_5 => exact s.refuse_sound _
    all_goals exact s.okay_sound _ _
  · exact s.refuse_sound _

theorem State.joinTail_sound (s : State) (p : Fin 16) (q : QueueId) (e : Entry) : (s.joinTail p q e).Sound s := by
  unfold State.joinTail
  dsimp only
  split
  exacts [s.okay_sound _ _, s.refuse_sound _]

theorem State.clearQueue_sound (s : State) (p : Fin 16) (q : QueueId) : (s.clearQueue p q).Sound s := by
  unfold State.clearQueue
  split
  exacts [s.refuse_sound _, s.okay_sound _ _]

theorem serve_sound (k : Kind) (port : Port) (s : State) (r : Request) : (k.serve port s r).Sound s := by
  cases k <;> refine s.withArgs_sound _ _ fun a => ?_
  case setCall => exact s.setCall_sound _ _
  case clearAgentPrompts | clearAnnounce => exact s.clearQueue_sound _ _
  case readCoeffs =>
    dsimp only
    split
    · exact s.refuse_sound _
    · refine .inl ?_
      dsimp only
      split
      exacts [.inl rfl, .inr rfl]
  all_goals
    try dsimp only
    repeat' split
    all_goals first
      | exact s.okay_sound _ _
      | exact s.refuse_sound _
      | exact s.joinTail_sound _ _ _

theorem State.answer_sound (s : State) (port : Port) (k : Kind) (r : Request) : (s.answer port r (k.serve port)).Sound s := by
  obtain ⟨status, ha⟩ | ha := s.answer_cases port r (k.serve port)
  · rw [ha]; exact s.refuse_sound status
  · rw [ha]; exact serve_sound k port s r

/-! ### The exchanges that the ports hold (R168) -/

/-- A port holds the untaken requests and the responses that it has in `c`. -/
def SameExchanges (c : Cpt) (port : Port) (ps : PortState) : Prop :=
  ps.untaken = (c.get port).untaken ∧ ps.responses = (c.get port).responses

theorem sameExchanges_kept (c : Cpt) : PortKept (SameExchanges c) where
  place _ ps r h := by
    obtain ⟨hu, hr⟩ := placeReport_exchanges ps r
    exact ⟨hu.trans h.1, hr.trans h.2⟩
  take _ _ _ h := h
  meter _ _ _ _ _ h := h

/-- Neither a common check nor an owner reaches the requests and responses that the ports hold. -/
theorem State.answer_exchanges (s : State) (port : Port) (k : Kind) (r : Request) :
    (s.answer port r (k.serve port)).state.AllPorts (SameExchanges s.cpt) := by
  have h : s.AllPorts (SameExchanges s.cpt) := fun _ => ⟨rfl, rfl⟩
  obtain ⟨status, ha⟩ | ha := s.answer_cases port r (k.serve port)
  · rw [ha]; exact h
  · rw [ha]; exact (sameExchanges_kept _).serve k port r h

/-- A soft reset answers what was untaken behind the responses that wait (R184). -/
theorem State.softReset_responses (s : State) (port : Port) : (s.softReset.port port).responses =
    (s.port port).responses ++ (s.port port).untaken.map (s.port port).aborted := by
  have hblocks : ∀ t : State, t.resetBlocks.cpt = t.cpt := fun t => by
    unfold State.resetBlocks
    dsimp only
    split
    exacts [rfl, rfl]
  let c : Cpt := { line := s.cpt.line.softReset, desk := s.cpt.desk.softReset, supervision := s.cpt.supervision.softReset }
  have hall : s.softReset.AllPorts (SameExchanges c) :=
    (sameExchanges_kept c).reportAll _ _ fun x => by rw [State.port, hblocks]; exact ⟨rfl, rfl⟩
  rw [(hall port).2]
  cases port <;> rfl

/-! ### Rows (R170) -/

section
variable {c : Instr} {port : Port} {k : Kind} (s : State) (hc : requestRow c = some (port, k))

/-- With no request that the row takes, `takeRequest` takes none. -/
theorem State.takeRequest_none {s : State} {port : Port} {k : Kind} (serve : State → Request → Reply)
    (h : ∀ r rest, (s.port port).untaken = r :: rest → k.takes r = false) : s.takeRequest port k serve = (s, none) := by
  unfold State.takeRequest
  split
  · rfl
  · split
    · rfl
    · next r rest hr => rw [h r rest hr]; rfl

include hc

theorem exec_idle (h : ∀ r rest, (s.port port).untaken = r :: rest → k.takes r = false) : exec c s = .next s := by
  by_cases hk : k = .reset
  · subst hk
    rw [requestRow_reset hc, exec_reset, State.take, State.takeRequest_none serveReset h]
    rfl
  · rw [exec_request s hc hk, State.take, State.takeRequest_none _ h]

variable {r : Request} {rest : List Request} (hoff : s.offers port r rest) (hk : k.takes r = true)
include hoff hk

/-- A request that the row takes is answered; RESET's own change follows its response. -/
theorem exec_taken : let a := (s.popRequest port rest).answer port r (k.serve port)
    let t := a.state.respond port (responseTo r (s.port port).overflow a)
    exec c s = .next (if k = .reset ∧ a.status = .ok then t.softReset else t) := by
  intro a t
  by_cases hreset : k = .reset
  · subst hreset
    have htake : s.takeRequest port .reset serveReset = (t, some a.status) := by
      simp [State.takeRequest, hoff.1, hoff.2, hk, t, a, Kind.serve]
    rw [requestRow_reset hc, exec_reset, State.take, htake]
    simp only [Option.some.injEq, true_and]
  · rw [exec_request s hc hreset, s.take_offers port k _ r rest hoff hk, if_neg (hreset ·.1)]

end

theorem Cpt.get_responding (c : Cpt) (port x : Port) (y : Response) :
    ((c.responding port y).get x).untaken = (c.get x).untaken ∧
      ((c.responding port y).get x).responses = if x = port then (c.get x).responses ++ [y] else (c.get x).responses := by
  rw [Cpt.responding, Cpt.get_set]
  split
  · next h => subst h; exact ⟨rfl, rfl⟩
  · exact ⟨rfl, rfl⟩

theorem Cpt.get_taking_untaken (c : Cpt) (port x : Port) (rest : List Request) :
    ((c.taking port rest).get x).untaken = if x = port then rest else (c.get x).untaken := by
  rw [Cpt.taking, Cpt.get_set]
  split
  · rfl
  · rfl

/-- Settles O9: the row's answer leaves the exchanges alone, the response joins the tail, and a soft reset appends. -/
theorem requestsAreAnsweredOnce : Obligations.RequestsAreAnsweredOnce := by
  unfold Obligations.RequestsAreAnsweredOnce
  intro c port k s hc
  refine ⟨fun r rest hoff hk => ?_, fun hnone => ?_, fun r rest hr hother => ?_⟩
  · have hexec := exec_taken s hc hoff hk
    have hports := (s.popRequest port rest).answer_exchanges port k r
    have hsound := (s.popRequest port rest).answer_sound port k r
    generalize (s.popRequest port rest).answer port r (k.serve port) = a at hexec hports hsound
    dsimp only at hexec
    let x := responseTo r (s.port port).overflow a
    have hresponses : ∀ y, ((a.state.respond port x).port y).responses =
        if y = port then (s.port port).responses ++ [x] else (s.port y).responses := fun y => by
      obtain ⟨-, hr⟩ := a.state.cpt.get_responding port y x
      have hy := (hports y).2
      rw [State.popRequest_eq, Cpt.taking_get_responses] at hy
      rw [State.port, State.respond_eq, hr]
      simp only [State.port] at hy ⊢
      rw [hy]
      split
      · next h => rw [h]
      · rfl
    have huntaken : ∀ y, ((a.state.respond port x).port y).untaken =
        if y = port then rest else (s.port y).untaken := fun y => by
      obtain ⟨hu, -⟩ := a.state.cpt.get_responding port y x
      have hy := (hports y).1
      rw [State.popRequest_eq, Cpt.get_taking_untaken] at hy
      rw [State.port, State.respond_eq, hu]
      exact hy
    refine ⟨_, a.status, a.data, hexec, ?_, fun hreset => ?_, fun hok hchanged => ?_⟩
    · split
      · rw [State.softReset_responses, hresponses, if_pos rfl]
        simp [x, responseTo, Request.answer]
      · rw [hresponses, if_pos rfl]
        simp [x, responseTo, Request.answer]
    · rw [if_neg (fun h => hreset h.1), huntaken, hresponses, if_pos rfl, if_pos rfl]
      exact ⟨rfl, rfl, fun y hy => by rw [huntaken, hresponses, if_neg hy, if_neg hy]; exact ⟨rfl, rfl⟩⟩
    · rw [if_neg (fun h => hok h.2)]
      obtain (h | h) | ⟨status, rfl⟩ := hsound
      exacts [absurd h hok, absurd h hchanged, ⟨rfl, rfl⟩]
  · exact exec_idle s hc fun r rest hr => by rw [hnone] at hr; cases hr
  · obtain ⟨x, hx, hne⟩ := hother
    refine exec_idle s hc fun r' rest' hr' => ?_
    rw [hr] at hr'
    cases hr'
    simp [Kind.takes, hx, hne]

/-! ### Requests that meet a CLOSING position (R5, R6) -/

theorem argsOf_map {α β : Type} {args : Except Status α} {f : α → β} {b : β} (h : (argsOf args).map f = some b) :
    ∃ a, args = .ok a ∧ f a = b := by
  cases args with
  | error e => cases h
  | ok a => exact ⟨a, rfl, Option.some.inj h⟩

theorem argsOf_some {α : Type} {args : Except Status α} {a : α} (h : argsOf args = some a) : args = .ok a := by
  cases args with
  | error e => cases h
  | ok b => exact congrArg _ (Option.some.inj h)

theorem State.joinStatus_notOpened {s : State} {f : JoinFields} (h : (s.pos f.position).state ≠ .opened) :
    s.joinStatus f = .badState := by
  simp only [State.joinStatus, h, false_and, not_false_eq_true, if_true, ite_self]

/-- An owner that refuses acceptable parameters. -/
theorem State.withArgs_refused {α : Type} {s : State} {args : Except Status α} {own : α → Reply} {a : α} {status : Status}
    (hargs : args = .ok a) (hown : own a = s.refuse status) : s.withArgs args own = s.refuse status := by
  rw [hargs]
  exact hown

/-- The owner of a request that names a CLOSING position refuses it with BAD_STATE, but for CLOSE and the two reads (R6). -/
theorem serve_closing {k : Kind} {s : State} {r : Request} {p : Fin 16} (port : Port) (hnamed : k.named r.params = some p)
    (hstate : (s.pos p).state = .closing) (hclose : k ≠ .close) (hread : k ≠ .readPosition) (hcoeffs : k ≠ .readCoeffs) :
    k.serve port s r = s.refuse .badState := by
  have hopened : (s.pos p).state ≠ .opened := by rw [hstate]; decide
  have hclosed : (s.pos p).state ≠ .closed := by rw [hstate]; decide
  cases k
  case close => exact absurd rfl hclose
  case readPosition => exact absurd rfl hread
  case readCoeffs => exact absurd rfl hcoeffs
  case ackReminder | unbindLine => exact State.withArgs_refused (argsOf_some hnamed) (if_neg fun h => hopened h.1)
  case clearAgentPrompts | clearAnnounce => exact State.withArgs_refused (argsOf_some hnamed) (if_pos hstate)
  case join =>
    obtain ⟨f, hargs, rfl⟩ := argsOf_map hnamed
    exact State.withArgs_refused hargs (by rw [State.joinStatus_notOpened hopened])
  case openPosition =>
    obtain ⟨a, hargs, rfl⟩ := argsOf_map hnamed
    exact State.withArgs_refused hargs (if_neg hclosed)
  case setCall | bindLine | announce =>
    obtain ⟨a, hargs, rfl⟩ := argsOf_map hnamed
    exact State.withArgs_refused hargs (if_neg fun h => hopened h.1)
  case agentPrompt =>
    obtain ⟨a, hargs, rfl⟩ := argsOf_map hnamed
    exact State.withArgs_refused hargs (if_neg hopened)
  case coachPrompt =>
    obtain ⟨a, hargs, rfl⟩ := argsOf_map hnamed
    exact State.withArgs_refused hargs (if_pos hopened)
  case setDesk | setBattery | setSupervision | setReminder | setEc | setNr | setHoldSource =>
    obtain ⟨a, hargs, rfl⟩ := argsOf_map hnamed
    exact State.withArgs_refused hargs (if_pos hstate)
  all_goals cases hnamed

theorem exec_closePosition (port : Port) (s : State) :
    exec (.closePosition port) s = .next (s.take port .close serveClose) := rfl

section
variable {s : State} {r : Request} {p : Fin 16} {plan : Plan} (hargs : closeArgs r.params = .ok (p, plan))
include hargs

theorem serveClose_closing (hstate : (s.pos p).state = .closing) :
    serveClose s r = (s.modPos p (fun x => { x with closePlan := some plan })).okay [] := by
  simp only [serveClose, State.withArgs, hargs, hstate]

theorem serveClose_closed (hstate : (s.pos p).state = .closed) : serveClose s r = s.refuse .badState := by
  simp only [serveClose, State.withArgs, hargs, hstate]

theorem serveClose_opened (hstate : (s.pos p).state = .opened) : serveClose s r = (s.close p plan).okay [] := by
  simp only [serveClose, State.withArgs, hargs, hstate]

end

/-- Settles O10: each owner looks at the state of the position it names. -/
theorem closingPositionRequests : Obligations.ClosingPositionRequests := by
  unfold Obligations.ClosingPositionRequests
  refine ⟨fun c port k s r rest p hc hasks hnamed hstate hclose hread hcoeffs => ?_,
    fun s port r rest p plan hasks hargs => ⟨fun hstate => ?_, fun hstate => ?_⟩⟩
  · have hreset : k ≠ .reset := fun h => by subst h; cases hnamed
    rw [exec_request s hc hreset, s.take_refused port k _ r rest .badState hasks
      (serve_closing port hnamed hstate hclose hread hcoeffs)]
  · rw [exec_closePosition, s.take_okay port .close _ r rest _ _ hasks (serveClose_closing hargs hstate) rfl]
    rfl
  · rw [exec_closePosition, s.take_refused port .close _ r rest .badState hasks (serveClose_closed hargs hstate)]

end Sys2Proof.Machine
end

