-- ==== Sys2Proof/Proofs/Parameters.lean ====
section
/-!
PROOFS. How parameters are read: the common checks on a length, a number and a named value, the field masks, and the
step lists (R119, R171, R186).
-/

namespace Sys2Proof.Machine

/-! ### The checks of R171 on the parameters -/

/-- Reading a number that is within its limit or fails check 4. -/
structure Ranged {α : Type} (inRange : Bool) (e : Except Status α) : Prop where
  out : inRange = false → e = .error .outOfRange
  ok : inRange = true → ∃ a, e = .ok a

/-- Reading parameters of an allowed length: check 4, then check 5. -/
structure Fitted {α : Type} (inRange named : Bool) (e : Except Status α) : Prop where
  out : inRange = false → e = .error .outOfRange
  bad : inRange = true → named = false → e = .error .badRequest

/-- Reading the parameters of a kind: checks 3, 4 and 5 in their order. -/
structure Checked {α : Type} (k : Kind) (params : List Byte) (e : Except Status α) : Prop where
  misfit : k.layout.fits params = false → e = .error .badRequest
  fitted : k.layout.fits params = true → Fitted (k.inRange params) (k.valuesNamed params) e

theorem Ranged.bind {α β : Type} {i n : Bool} {e : Except Status α} {f : α → Except Status β} (h : Ranged i e)
    (hf : ∀ a, n = false → f a = .error .badRequest) : Fitted i n (e >>= f) where
  out hi := by rw [h.out hi]; rfl
  bad hi hn := by
    obtain ⟨a, ha⟩ := h.ok hi
    rw [ha]
    exact hf a hn

theorem Ranged.and {α β : Type} {i j n : Bool} {e : Except Status α} {f : α → Except Status β} (h : Ranged i e)
    (hf : ∀ a, Fitted j n (f a)) : Fitted (i && j) n (e >>= f) := by
  cases i with
  | false => exact ⟨fun _ => by rw [h.out rfl]; rfl, fun hi => nomatch hi⟩
  | true =>
    obtain ⟨a, ha⟩ := h.ok rfl
    rw [ha]
    exact hf a

theorem Checked.of_misfit {α : Type} {k : Kind} {params : List Byte} {e : Except Status α}
    (hfits : k.layout.fits params = false) (he : e = .error .badRequest) : Checked k params e :=
  ⟨fun _ => he, fun h => by rw [hfits] at h; cases h⟩

theorem Checked.of_fitted {α : Type} {k : Kind} {params : List Byte} {e : Except Status α} {i n : Bool}
    (hfits : k.layout.fits params = true) (h : Fitted i n e) (hi : k.inRange params = i) (hn : k.valuesNamed params = n) :
    Checked k params e :=
  ⟨fun hf => by rw [hfits] at hf; (cases hf), fun _ => by rw [hi, hn]; exact h⟩

/-- What the checks make of a request: its owner is asked only with parameters that pass them (R171). -/
theorem Checked.withArgs {α : Type} {k : Kind} {params : List Byte} {args : Except Status α} (h : Checked k params args)
    (s : State) (own : α → Reply) :
    (k.layout.fits params = false → s.withArgs args own = s.refuse .badRequest) ∧
    (k.layout.fits params = true → k.inRange params = false → s.withArgs args own = s.refuse .outOfRange) ∧
    (k.layout.fits params = true → k.inRange params = true → k.valuesNamed params = false →
      s.withArgs args own = s.refuse .badRequest) :=
  ⟨fun hf => by rw [h.misfit hf]; rfl, fun hf hi => by rw [(h.fitted hf).out hi]; rfl,
    fun hf hi hn => by rw [(h.fitted hf).bad hi hn]; rfl⟩

/-! ### Numbers and named values (R186) -/

theorem positionOf_ranged (b : Byte) : Ranged (decide (b.toNat < 16)) (positionOf b) where
  out h := dif_neg (of_decide_eq_false h)
  ok h := ⟨_, dif_pos (of_decide_eq_true h)⟩

theorem channelOf_ranged (b : Byte) : Ranged (decide (b.toNat < 4)) (channelOf b) where
  out h := dif_neg (of_decide_eq_false h)
  ok h := ⟨_, dif_pos (of_decide_eq_true h)⟩

theorem voiceOf_ranged (b : Byte) : Ranged (decide (b.toNat < 12)) (voiceOf b) where
  out h := dif_neg (of_decide_eq_false h)
  ok h := ⟨_, dif_pos (of_decide_eq_true h)⟩

theorem sourceOf_ranged (b : Byte) : Ranged (b == 0xFF || decide (b.toNat < 12)) (sourceOf b) := by
  unfold sourceOf
  by_cases hb : b = 0xFF
  · subst hb
    exact ⟨fun h => (nomatch h), fun _ => ⟨none, rfl⟩⟩
  · rw [if_neg hb, beq_eq_false_iff_ne.mpr hb, Bool.false_or]
    have h := voiceOf_ranged b
    refine ⟨fun hr => by rw [h.out hr]; rfl, fun hr => ?_⟩
    obtain ⟨v, hv⟩ := h.ok hr
    exact ⟨some v, by rw [hv]; rfl⟩

theorem flagOf_unnamed {n : Nat} (h : decide (n ≤ 1) = false) : flagOf n = .error .badRequest := by
  match n with
  | 0 => cases h
  | 1 => cases h
  | _ + 2 => rfl

theorem planOf_unnamed {b : Byte} (h : decide (b.toNat ≤ 1) = false) : planOf b = .error .badRequest := by
  unfold planOf
  match b.toNat, h with
  | _ + 2, _ => rfl

theorem callOf_unnamed {b : Byte} (h : decide (b.toNat ≤ 2) = false) : callOf b = .error .badRequest := by
  unfold callOf
  match b.toNat, h with
  | _ + 3, _ => rfl

theorem modeOf_unnamed {b : Byte} (h : decide (1 ≤ b.toNat ∧ b.toNat ≤ 3) = false) : modeOf b = .error .badRequest := by
  unfold modeOf
  match b.toNat, h with
  | 0, _ => rfl
  | _ + 4, _ => rfl

theorem periodOf_unnamed {b : Byte} (h : decide (b.toNat ≤ 4) = false) : periodOf b = .error .badRequest := by
  unfold periodOf
  match b.toNat, h with
  | _ + 5, _ => rfl

/-- A field given holds `n`; one left out holds nothing to check. -/
theorem flagOptOf_unnamed {mask n : Nat} (h : (decide (mask % 2 = 0) || decide (n ≤ 1)) = false) :
    flagOptOf (if mask % 2 = 1 then some n else none) = .error .badRequest := by
  obtain ⟨hm, hn⟩ := Bool.or_eq_false_iff.mp h
  have hm' : mask % 2 = 1 := by have := of_decide_eq_false hm; omega
  rw [if_pos hm', flagOptOf, flagOf_unnamed hn]
  rfl

theorem flagOptOf_cases (o : Option Nat) : (∃ a, flagOptOf o = .ok a) ∨ flagOptOf o = .error .badRequest := by
  match o with
  | none => exact .inl ⟨none, rfl⟩
  | some 0 => exact .inl ⟨some false, rfl⟩
  | some 1 => exact .inl ⟨some true, rfl⟩
  | some (_ + 2) => exact .inr rfl

theorem echoModeOptOf_unnamed {mask n : Nat} (h : (decide (mask % 2 = 0) || decide (n ≤ 2)) = false) :
    echoModeOptOf (if mask % 2 = 1 then some n else none) = .error .badRequest := by
  obtain ⟨hm, hn⟩ := Bool.or_eq_false_iff.mp h
  have hm' : mask % 2 = 1 := by have := of_decide_eq_false hm; omega
  rw [if_pos hm']
  match n, hn with
  | _ + 3, _ => rfl

/-! ### Parameters of a fixed length -/

theorem Ranged.fitted {α : Type} {i : Bool} {e : Except Status α} (h : Ranged i e) : Fitted i true e :=
  ⟨h.out, fun _ hn => nomatch hn⟩

/-- Further parameters in which no value can be wrong. -/
theorem Ranged.map {α β : Type} {i : Bool} {e : Except Status α} (f : α → β) (h : Ranged i e) :
    Fitted i true (e >>= fun a => pure (f a)) :=
  h.bind fun _ hn => nomatch hn

section
variable (params : List Byte)

theorem openArgs_checked : Checked .openPosition params (openArgs params) := by
  match params with
  | [p, plan] =>
    exact .of_fitted rfl ((positionOf_ranged p).bind fun _ (hn : decide (plan.toNat ≤ 1) = false) => by
      rw [flagOf_unnamed hn]; rfl) (by simp [Kind.inRange, Kind.limits]) rfl
  | [] | [_] => exact .of_misfit rfl rfl
  | _ :: _ :: _ :: _ => exact .of_misfit (by simp [Kind.layout, Layout.fits]) rfl

theorem closeArgs_checked : Checked .close params (closeArgs params) := by
  match params with
  | [p, plan] =>
    exact .of_fitted rfl ((positionOf_ranged p).bind fun _ (hn : decide (plan.toNat ≤ 1) = false) => by
      rw [planOf_unnamed hn]; rfl) (by simp [Kind.inRange, Kind.limits]) rfl
  | [] | [_] => exact .of_misfit rfl rfl
  | _ :: _ :: _ :: _ => exact .of_misfit (by simp [Kind.layout, Layout.fits]) rfl

theorem batteryArgs_checked : Checked .setBattery params (batteryArgs params) := by
  match params with
  | [p, _, _] => exact .of_fitted rfl ((positionOf_ranged p).map _) (by simp [Kind.inRange, Kind.limits]) rfl
  | [] | [_] | [_, _] => exact .of_misfit rfl rfl
  | _ :: _ :: _ :: _ :: _ => exact .of_misfit (by simp [Kind.layout, Layout.fits]) rfl

theorem supervisionArgs_checked : Checked .setSupervision params (supervisionArgs params) := by
  match params with
  | [p, allowed] =>
    exact .of_fitted rfl ((positionOf_ranged p).bind fun _ (hn : decide (allowed.toNat ≤ 1) = false) => by
      rw [flagOf_unnamed hn]; rfl) (by simp [Kind.inRange, Kind.limits]) rfl
  | [] | [_] => exact .of_misfit rfl rfl
  | _ :: _ :: _ :: _ => exact .of_misfit (by simp [Kind.layout, Layout.fits]) rfl

theorem callArgs_checked : Checked .setCall params (callArgs params) := by
  match params with
  | [p, call] =>
    exact .of_fitted rfl ((positionOf_ranged p).bind fun _ (hn : decide (call.toNat ≤ 2) = false) => by
      rw [callOf_unnamed hn]; rfl) (by simp [Kind.inRange, Kind.limits]) rfl
  | [] | [_] => exact .of_misfit rfl rfl
  | _ :: _ :: _ :: _ => exact .of_misfit (by simp [Kind.layout, Layout.fits]) rfl

theorem reminderArgs_checked : Checked .setReminder params (reminderArgs params) := by
  match params with
  | [p, _, _, again] =>
    exact .of_fitted rfl ((positionOf_ranged p).bind fun _ (hn : decide (again.toNat ≤ 1) = false) => by
      rw [flagOf_unnamed hn]; rfl) (by simp [Kind.inRange, Kind.limits]) rfl
  | [] | [_] | [_, _] | [_, _, _] => exact .of_misfit rfl rfl
  | _ :: _ :: _ :: _ :: _ :: _ => exact .of_misfit (by simp [Kind.layout, Layout.fits]) rfl

theorem bindArgs_checked : Checked .bindLine params (bindArgs params) := by
  match params with
  | [p, _, _] => exact .of_fitted rfl ((positionOf_ranged p).map _) (by simp [Kind.inRange, Kind.limits]) rfl
  | [] | [_] | [_, _] => exact .of_misfit rfl rfl
  | _ :: _ :: _ :: _ :: _ => exact .of_misfit (by simp [Kind.layout, Layout.fits]) rfl

theorem coeffArgs_checked : Checked .readCoeffs params (coeffArgs params) := by
  match params with
  | [p, _, _, _] => exact .of_fitted rfl ((positionOf_ranged p).map _) (by simp [Kind.inRange, Kind.limits]) rfl
  | [] | [_] | [_, _] | [_, _, _] => exact .of_misfit rfl rfl
  | _ :: _ :: _ :: _ :: _ :: _ => exact .of_misfit (by simp [Kind.layout, Layout.fits]) rfl

theorem supChannelArgs_checked : Checked .setSupChannel params (supChannelArgs params) := by
  match params with
  | [c] => exact .of_fitted rfl ((channelOf_ranged c).map _) (by simp [Kind.inRange, Kind.limits]) rfl
  | [c, _, _] => exact .of_fitted rfl ((channelOf_ranged c).map _) (by simp [Kind.inRange, Kind.limits]) rfl
  | [] | [_, _] => exact .of_misfit rfl rfl
  | _ :: _ :: _ :: _ :: _ => exact .of_misfit (by simp [Kind.layout, Layout.fits]) rfl

theorem changeModeArgs_checked : Checked .changeMode params (changeModeArgs params) := by
  match params with
  | [c, mode] =>
    exact .of_fitted rfl ((channelOf_ranged c).bind fun _ (hn : decide (1 ≤ mode.toNat ∧ mode.toNat ≤ 3) = false) => by
      rw [modeOf_unnamed hn]; rfl) (by simp [Kind.inRange, Kind.limits]) rfl
  | [] | [_] => exact .of_misfit rfl rfl
  | _ :: _ :: _ :: _ => exact .of_misfit (by simp [Kind.layout, Layout.fits]) rfl

theorem holdArgs_checked : Checked .setHoldSource params (holdArgs params) := by
  match params with
  | [p, v] =>
    exact .of_fitted rfl ((positionOf_ranged p).and fun _ => (sourceOf_ranged v).map _)
      (by simp [Kind.inRange, Kind.limits]) rfl
  | [p, v, _, _] =>
    exact .of_fitted rfl ((positionOf_ranged p).and fun _ => (sourceOf_ranged v).map _)
      (by simp [Kind.inRange, Kind.limits]) rfl
  | [] | [_] | [_, _, _] => exact .of_misfit rfl rfl
  | _ :: _ :: _ :: _ :: _ :: _ => exact .of_misfit (by simp [Kind.layout, Layout.fits]) rfl

end

/-! ### Field masks (R186) -/

/-- The bytes of the fields that a mask gives. -/
def givenLength : List Nat → Nat → Nat
  | [], _ => 0
  | size :: sizes, mask => (if mask % 2 = 1 then size else 0) + givenLength sizes (mask / 2)

theorem givenLength_eq (sizes : List Nat) (mask : Nat) :
    ((List.range sizes.length).map (fun i => if mask.testBit i then sizes.getD i 0 else 0)).sum = givenLength sizes mask := by
  induction sizes generalizing mask with
  | nil => rfl
  | cons size sizes ih =>
    rw [givenLength, ← ih, List.length_cons, List.range_succ_eq_map, List.map_cons, List.sum_cons, List.map_map]
    simp [Nat.testBit_zero, Function.comp_def, Nat.testBit_succ]

/-- A mask is read when it names no field above the last, and exactly the given fields follow it. -/
theorem maskedFields_isSome (sizes : List Nat) (mask : Nat) (bytes : List Byte) : (maskedFields sizes mask bytes).isSome =
    (decide (mask < 2 ^ sizes.length) && bytes.length == givenLength sizes mask) := by
  induction sizes generalizing mask bytes with
  | nil =>
    rw [maskedFields]
    split
    · next h => simp [h.1, h.2, givenLength]
    · next h =>
      symm
      simpa [givenLength] using h
  | cons size sizes ih =>
    have hhalf : mask / 2 < 2 ^ sizes.length ↔ mask < 2 ^ (sizes.length + 1) := by rw [pow_succ]; omega
    rw [maskedFields, givenLength]
    split
    · split
      · simp; omega
      · rw [Option.isSome_map, ih, List.length_drop]
        simp only [hhalf, List.length_cons]
        refine congrArg _ (Bool.eq_iff_iff.mpr ?_)
        simp only [beq_iff_eq]
        omega
    · rw [Option.isSome_map, ih]
      simp [hhalf]

theorem maskedFields_length {sizes : List Nat} {mask : Nat} {bytes : List Byte} {l : List (Option Nat)}
    (h : maskedFields sizes mask bytes = some l) : l.length = sizes.length := by
  induction sizes generalizing mask bytes l with
  | nil =>
    rw [maskedFields] at h
    split at h
    · cases h; rfl
    · cases h
  | cons size sizes ih =>
    rw [maskedFields] at h
    split at h
    · split at h
      · cases h
      · obtain ⟨m, hm, rfl⟩ := Option.map_eq_some_iff.mp h
        simp [ih hm]
    · obtain ⟨m, hm, rfl⟩ := Option.map_eq_some_iff.mp h
      simp [ih hm]

theorem masked_fits (pre : List Byte) (mask : Byte) (rest : List Byte) (sizes : List Nat) :
    (Layout.masked pre.length sizes).fits (pre ++ mask :: rest) = (maskedFields sizes mask.toNat rest).isSome := by
  rw [maskedFields_isSome, ← givenLength_eq]
  simp only [Layout.fits, List.getElem?_append_right (Nat.le_refl _), Nat.sub_self, List.getElem?_cons_zero,
    List.length_append, List.length_cons, BitVec.testBit_toNat]
  refine congrArg _ (Bool.eq_iff_iff.mpr ?_)
  simp only [beq_iff_eq]
  omega

/-- The first field, of one byte, holds the byte after the mask. -/
theorem maskedFields_head {sizes : List Nat} {mask : Nat} {bytes : List Byte} {x : Option Nat} {l : List (Option Nat)}
    (h : maskedFields (1 :: sizes) mask bytes = some (x :: l)) :
    x = if mask % 2 = 1 then some (bytes.getD 0 0).toNat else none := by
  rw [maskedFields] at h
  split at h
  · next hm =>
    rw [if_pos hm]
    split at h
    · cases h
    · obtain ⟨m, -, he⟩ := Option.map_eq_some_iff.mp h
      cases he
      match bytes with
      | [] => contradiction
      | b :: _ => rfl
  · next hm =>
    obtain ⟨m, -, he⟩ := Option.map_eq_some_iff.mp h
    cases he
    rw [if_neg hm]

/-- The last field, of one byte, holds the last byte. -/
theorem maskedFields_last {sizes : List Nat} {mask : Nat} {bytes : List Byte} {l : List (Option Nat)}
    (h : maskedFields (sizes ++ [1]) mask bytes = some l) :
    l.getLast? = some (if mask / 2 ^ sizes.length % 2 = 1 then some (bytes.getLastD 0).toNat else none) ∧
      (mask / 2 ^ sizes.length % 2 = 1 → bytes ≠ []) := by
  induction sizes generalizing mask bytes l with
  | nil =>
    have hlen := maskedFields_isSome [1] mask bytes
    rw [List.nil_append] at h
    rw [h] at hlen
    match l, maskedFields_length h with
    | [x], _ =>
      rw [maskedFields_head h]
      simp only [List.length_nil, pow_zero, Nat.div_one, List.getLast?_singleton]
      have hcount : bytes.length = if mask % 2 = 1 then 1 else 0 := by
        simpa [givenLength] using (Bool.and_eq_true_iff.mp hlen.symm).2
      split
      · next hm =>
        rw [if_pos hm] at hcount
        obtain ⟨b, rfl⟩ := List.length_eq_one_iff.mp hcount
        exact ⟨rfl, fun _ => List.cons_ne_nil _ _⟩
      · next hm => exact ⟨rfl, fun h => absurd h hm⟩
  | cons size sizes ih =>
    have hshift : mask / 2 / 2 ^ sizes.length = mask / 2 ^ (sizes.length + 1) := by
      rw [Nat.div_div_eq_div_mul, ← pow_succ']
    rw [List.cons_append, maskedFields] at h
    split at h
    · split at h
      · cases h
      · obtain ⟨m, hm, rfl⟩ := Option.map_eq_some_iff.mp h
        obtain ⟨hlast, hne⟩ := ih hm
        rw [hshift] at hlast hne
        rw [List.getLast?_cons, hlast, List.length_cons]
        refine ⟨?_, fun hb hn => hne hb (by rw [hn, List.drop_nil])⟩
        split
        · next hb =>
          have : (bytes.drop size).getLastD 0 = bytes.getLastD 0 := by
            rw [List.getLastD_eq_getLast?, List.getLastD_eq_getLast?, List.getLast?_drop,
              if_neg (fun hle => hne hb (List.drop_eq_nil_of_le hle))]
          rw [this]
          rfl
        · rfl
    · obtain ⟨m, hm, rfl⟩ := Option.map_eq_some_iff.mp h
      obtain ⟨hlast, hne⟩ := ih hm
      rw [hshift] at hlast hne
      rw [List.getLast?_cons, hlast, List.length_cons]
      exact ⟨rfl, hne⟩

section
variable (params : List Byte)

theorem deskArgs_checked : Checked .setDesk params (deskArgs params) := by
  match params with
  | [] | [_] => exact .of_misfit rfl rfl
  | p :: mask :: rest =>
    have hfits : Kind.setDesk.layout.fits (p :: mask :: rest) = _ := masked_fits [p] mask rest _
    dsimp only [deskArgs]
    cases hm : maskedFields [1, 2, 2, 2, 2, 1] mask.toNat rest with
    | none => exact .of_misfit (by rw [hfits, hm]; rfl) rfl
    | some l =>
      match l, maskedFields_length hm with
      | [mute, _, _, _, _, button], _ =>
        have hmute := maskedFields_head hm
        obtain ⟨hbutton, hne⟩ := maskedFields_last (sizes := [1, 2, 2, 2, 2]) hm
        simp only [List.getLast?_cons_cons, List.getLast?_singleton, Option.some.injEq] at hbutton
        refine .of_fitted (by rw [hfits, hm]; rfl) ((positionOf_ranged p).bind fun _ hn => ?_)
          (by simp [Kind.inRange, Kind.limits]) rfl
        obtain ⟨a, ha⟩ | ha := flagOptOf_cases mute
        · rw [ha]
          obtain hn | hn := Bool.and_eq_false_iff.mp hn
          · rw [hmute] at ha
            exact nomatch ha.symm.trans (flagOptOf_unnamed hn)
          · have hlast : (p :: mask :: rest).getLastD 0 = rest.getLastD 0 := by
              cases rest with
              | nil => exact absurd rfl (hne (Nat.mod_two_ne_zero.mp (of_decide_eq_false (Bool.or_eq_false_iff.mp hn).1)))
              | cons b l => rfl
            rw [hlast] at hn
            have hflag : flagOptOf button = .error .badRequest := by
              rw [hbutton]
              exact flagOptOf_unnamed hn
            rw [hflag]
            rfl
        · rw [ha]
          rfl

theorem echoArgs_checked : Checked .setEc params (echoArgs params) := by
  match params with
  | [] | [_] => exact .of_misfit rfl rfl
  | p :: mask :: rest =>
    have hfits : Kind.setEc.layout.fits (p :: mask :: rest) = _ := masked_fits [p] mask rest _
    dsimp only [echoArgs]
    cases hm : maskedFields [1, 1, 1, 2, 4, 1, 2] mask.toNat rest with
    | none => exact .of_misfit (by rw [hfits, hm]; rfl) rfl
    | some l =>
      match l, maskedFields_length hm with
      | [mode, _, _, _, _, _, _], _ =>
        refine .of_fitted (by rw [hfits, hm]; rfl) ((positionOf_ranged p).bind fun _ hn => ?_)
          (by simp [Kind.inRange, Kind.limits]) rfl
        have hmode : echoModeOptOf mode = .error .badRequest := by
          rw [maskedFields_head hm]
          exact echoModeOptOf_unnamed hn
        rw [hmode]
        rfl

theorem nrArgs_checked : Checked .setNr params (nrArgs params) := by
  match params with
  | [] | [_] => exact .of_misfit rfl rfl
  | p :: mask :: rest =>
    have hfits : Kind.setNr.layout.fits (p :: mask :: rest) = _ := masked_fits [p] mask rest _
    dsimp only [nrArgs, noiseFields]
    cases hm : maskedFields [1, 2] mask.toNat rest with
    | none => exact .of_misfit (by rw [hfits, hm]; rfl) rfl
    | some l =>
      match l, maskedFields_length hm with
      | [enable, _], _ =>
        refine .of_fitted (by rw [hfits, hm]; rfl) ((positionOf_ranged p).bind fun _ hn => ?_)
          (by simp [Kind.inRange, Kind.limits]) rfl
        have henable : flagOptOf enable = .error .badRequest := by
          rw [maskedFields_head hm]
          exact flagOptOf_unnamed hn
        simp only [henable]
        rfl

theorem supNrArgs_checked : Checked .setSupNr params (supNrArgs params) := by
  match params with
  | [] | [_] => exact .of_misfit rfl rfl
  | c :: mask :: rest =>
    have hfits : Kind.setSupNr.layout.fits (c :: mask :: rest) = _ := masked_fits [c] mask rest _
    dsimp only [supNrArgs, noiseFields]
    cases hm : maskedFields [1, 2] mask.toNat rest with
    | none => exact .of_misfit (by rw [hfits, hm]; rfl) rfl
    | some l =>
      match l, maskedFields_length hm with
      | [enable, _], _ =>
        refine .of_fitted (by rw [hfits, hm]; rfl) ((channelOf_ranged c).bind fun _ hn => ?_)
          (by simp [Kind.inRange, Kind.limits]) rfl
        have henable : flagOptOf enable = .error .badRequest := by
          rw [maskedFields_head hm]
          exact flagOptOf_unnamed hn
        simp only [henable]
        rfl

theorem joinArgs_checked : Checked .join params (joinArgs params) := by
  match params with
  | [] | [_] | [_, _] | [_, _, _] => exact .of_misfit rfl rfl
  | c :: p :: mode :: mask :: rest =>
    have hfits : Kind.join.layout.fits (c :: p :: mode :: mask :: rest) = _ := masked_fits [c, p, mode] mask rest _
    dsimp only [joinArgs]
    cases hm : maskedFields [2, 2, 2] mask.toNat rest with
    | none => exact .of_misfit (by rw [hfits, hm]; rfl) rfl
    | some l =>
      match l, maskedFields_length hm with
      | [_, _, _], _ =>
        exact .of_fitted (by rw [hfits, hm]; rfl)
          ((channelOf_ranged c).and fun _ => (positionOf_ranged p).bind fun _
            (hn : decide (1 ≤ mode.toNat ∧ mode.toNat ≤ 3) = false) => by rw [modeOf_unnamed hn]; rfl)
          (by simp [Kind.inRange, Kind.limits]) rfl

end

/-! ### Step lists (R119) -/

/-- A step of these numbers is one of the four kinds with its parameter in range. -/
def stepAcceptable (i kind a b : Nat) : Bool :=
  match kind with
  | 1 => decide (b ≤ 511)
  | 2 => decide (1 ≤ b ∧ b ≤ 4095)
  | 3 => decide (a < i ∧ b ≤ 255)
  | 4 => true
  | _ => false

theorem stepOf_isSome (i : Nat) (kind a lo hi : Byte) :
    (stepOf i kind a lo hi).isSome = stepAcceptable i kind.toNat a.toNat (lo.toNat + 256 * hi.toNat) := by
  have hb : leNat [lo, hi] = lo.toNat + 256 * hi.toNat := by simp [leNat]
  rw [stepOf, hb]
  generalize kind.toNat = n
  match n with
  | 1 | 2 | 3 => simp only [stepAcceptable]; split <;> simp_all
  | 0 | 4 | _ + 5 => rfl

/-- The steps that `n` times four bytes from step `i` on hold are read when each of them is acceptable. -/
theorem stepsFrom_isSome (n i : Nat) (l : List Byte) (h : l.length = 4 * n) :
    (stepsFrom i l).isSome = (List.range n).all (fun j => stepAcceptable (i + j) (l.getD (4 * j) 0).toNat
      (l.getD (1 + 4 * j) 0).toNat ((l.getD (2 + 4 * j) 0).toNat + 256 * (l.getD (3 + 4 * j) 0).toNat)) := by
  induction n generalizing i l with
  | zero =>
    rw [List.length_eq_zero_iff.mp h]
    rfl
  | succ n ih =>
    match l, h with
    | kind :: a :: lo :: hi :: rest, h =>
      have hrest : rest.length = 4 * n := by simp only [List.length_cons] at h; omega
      have hstep := stepOf_isSome i kind a lo hi
      rw [List.range_succ_eq_map, List.all_cons, List.all_map, stepsFrom]
      have htail : ((fun j => stepAcceptable (i + j) ((kind :: a :: lo :: hi :: rest).getD (4 * j) 0).toNat
          ((kind :: a :: lo :: hi :: rest).getD (1 + 4 * j) 0).toNat
          (((kind :: a :: lo :: hi :: rest).getD (2 + 4 * j) 0).toNat +
            256 * ((kind :: a :: lo :: hi :: rest).getD (3 + 4 * j) 0).toNat)) ∘ Nat.succ) =
          (fun j => stepAcceptable (i + 1 + j) (rest.getD (4 * j) 0).toNat (rest.getD (1 + 4 * j) 0).toNat
            ((rest.getD (2 + 4 * j) 0).toNat + 256 * (rest.getD (3 + 4 * j) 0).toNat)) := by
        funext j
        simp only [Function.comp_apply, Nat.succ_eq_add_one, Nat.mul_add, Nat.mul_one, ← Nat.add_assoc, List.getD_cons_succ]
        rw [Nat.add_right_comm]
      rw [htail, ← ih (i + 1) rest hrest]
      change _ = (stepAcceptable i kind.toNat a.toNat (lo.toNat + 256 * hi.toNat) && _)
      rw [← hstep]
      cases stepOf i kind a lo hi with
      | none => rfl
      | some x => simp

theorem stepsOf_unnamed {list : List Byte} (hlen : stepsLengthOk list = true) (h : stepsAcceptable list = false) :
    stepsOf list = .error .badRequest := by
  match list with
  | [] => rfl
  | n :: rest =>
    have hcount : rest.length = 4 * n.toNat := by simpa [stepsLengthOk] using hlen
    dsimp only [stepsOf]
    split
    · rfl
    · next hn =>
      have hall := stepsFrom_isSome n.toNat 0 rest hcount
      have hrange : decide (1 ≤ n.toNat ∧ n.toNat ≤ 8) = true := decide_eq_true (by omega)
      have hsteps : (stepsFrom 0 rest).isSome = false := by
        rw [hall, ← h, stepsAcceptable]
        simp only [List.getD_cons_zero, hrange, Bool.true_and, Nat.zero_add]
        refine congrArg _ (funext fun j => ?_)
        have hget : ∀ m : Nat, (n :: rest).getD (m + 1 + 4 * j) 0 = rest.getD (m + 4 * j) 0 := fun m => by
          rw [Nat.add_right_comm, List.getD_cons_succ]
        have hkind : (n :: rest).getD (1 + 4 * j) 0 = rest.getD (4 * j) 0 := by rw [Nat.add_comm, List.getD_cons_succ]
        change _ = stepAcceptable j ((n :: rest).getD (1 + 4 * j) 0).toNat ((n :: rest).getD (2 + 4 * j) 0).toNat
          (((n :: rest).getD (3 + 4 * j) 0).toNat + 256 * ((n :: rest).getD (4 + 4 * j) 0).toNat)
        rw [hget 2, hget 3, hget 1, hkind]
      rw [Option.isSome_eq_false_iff, Option.isNone_iff_eq_none] at hsteps
      rw [hsteps]

theorem steps_fits (pre list : List Byte) : (Layout.steps pre.length).fits (pre ++ list) = stepsLengthOk list := by
  cases list with
  | nil => simp [Layout.fits, stepsLengthOk]
  | cons n rest =>
    simp only [Layout.fits, List.getElem?_append_right (Nat.le_refl _), Nat.sub_self, List.getElem?_cons_zero,
      List.length_append, List.length_cons, stepsLengthOk]
    refine Bool.eq_iff_iff.mpr ?_
    simp only [beq_iff_eq]
    omega

section
variable (params : List Byte)

theorem startArgs_checked : Checked .startProgram params (startArgs params) := by
  match params with
  | [] => exact .of_misfit rfl rfl
  | v :: list =>
    have hfits : Kind.startProgram.layout.fits (v :: list) = _ := steps_fits [v] list
    dsimp only [startArgs]
    cases hlen : stepsLengthOk list with
    | false => exact .of_misfit (hfits.trans hlen) rfl
    | true =>
      exact .of_fitted (hfits.trans hlen) ((voiceOf_ranged v).bind fun _ hn => by rw [stepsOf_unnamed hlen hn]; rfl)
        (by simp [Kind.inRange, Kind.limits]) rfl

theorem announceArgs_checked : Checked .announce params (announceArgs params) := by
  match params with
  | [] => exact .of_misfit rfl rfl
  | p :: list =>
    have hfits : Kind.announce.layout.fits (p :: list) = _ := steps_fits [p] list
    dsimp only [announceArgs]
    cases hlen : stepsLengthOk list with
    | false => exact .of_misfit (hfits.trans hlen) rfl
    | true =>
      exact .of_fitted (hfits.trans hlen) ((positionOf_ranged p).bind fun _ hn => by rw [stepsOf_unnamed hlen hn]; rfl)
        (by simp [Kind.inRange, Kind.limits]) rfl

theorem flagOf_cases (n : Nat) : (∃ a, flagOf n = .ok a) ∨ flagOf n = .error .badRequest := by
  match n with
  | 0 => exact .inl ⟨false, rfl⟩
  | 1 => exact .inl ⟨true, rfl⟩
  | _ + 2 => exact .inr rfl

/-- Both kinds of prompt request for the AGENT queue are read alike. -/
theorem promptArgs_checked {k : Kind} (hk : k = .agentPrompt ∨ k = .coachPrompt) : Checked k params (promptArgs params) := by
  have hlayout : k.layout = .steps 2 := by rcases hk with rfl | rfl <;> rfl
  match params with
  | [] => exact .of_misfit (by rw [hlayout]; rfl) rfl
  | [_] => exact .of_misfit (by rw [hlayout]; rfl) rfl
  | p :: duck :: list =>
    have hfits : k.layout.fits (p :: duck :: list) = stepsLengthOk list := by rw [hlayout]; exact steps_fits [p, duck] list
    dsimp only [promptArgs]
    cases hlen : stepsLengthOk list with
    | false => exact .of_misfit (hfits.trans hlen) rfl
    | true =>
      refine .of_fitted (n := decide (duck.toNat ≤ 1) && stepsAcceptable list) (hfits.trans hlen)
        ((positionOf_ranged p).bind fun _ hn => ?_)
        (by rcases hk with rfl | rfl <;> simp [Kind.inRange, Kind.limits]) (by rcases hk with rfl | rfl <;> rfl)
      obtain ⟨a, ha⟩ | ha := flagOf_cases duck.toNat
      · rw [ha]
        obtain hn | hn := Bool.and_eq_false_iff.mp hn
        · exact nomatch ha.symm.trans (flagOf_unnamed hn)
        · rw [stepsOf_unnamed hlen hn]
          rfl
      · rw [ha]
        rfl

/-! ### The common checks (R171) -/

theorem noArgs_checked {k : Kind} (hlayout : k.layout = .lengths [0] := by rfl) (hlimits : k.limits = [] := by rfl)
    (hsource : k ≠ .setHoldSource := by decide) (hnamed : ∀ l, k.valuesNamed l = true := by intro; rfl) :
    Checked k params (noArgs params) := by
  match params with
  | [] =>
    exact .of_fitted (i := true) (n := true) (by rw [hlayout]; rfl)
      ⟨fun h => (nomatch h), fun _ h => (nomatch h)⟩ (by simp [Kind.inRange, hlimits, hsource]) (hnamed _)
  | _ :: _ => exact .of_misfit (by simp [hlayout, Layout.fits]) rfl

theorem maxArg_checked : Checked .takeReports params (maxArg params) := by
  match params with
  | [_] => exact .of_fitted (i := true) (n := true) rfl ⟨fun h => (nomatch h), fun _ h => (nomatch h)⟩ rfl rfl
  | [] => exact .of_misfit rfl rfl
  | _ :: _ :: _ => exact .of_misfit (by simp [Kind.layout, Layout.fits]) rfl

theorem meterArgs_checked : Checked .subscribeMeters params (meterArgs params) := by
  match params with
  | [_, _, period] =>
    exact .of_fitted (i := true) (n := decide (period.toNat ≤ 4)) rfl ⟨fun h => (nomatch h), fun _ (hn : decide (period.toNat ≤ 4) = false) => by
      rw [meterArgs, periodOf_unnamed hn]; rfl⟩ rfl rfl
  | [] | [_] | [_, _] => exact .of_misfit rfl rfl
  | _ :: _ :: _ :: _ :: _ => exact .of_misfit (by simp [Kind.layout, Layout.fits]) rfl

theorem positionArg_checked {k : Kind} (hlayout : k.layout = .lengths [1] := by rfl) (hlimits : k.limits = [16] := by rfl)
    (hsource : k ≠ .setHoldSource := by decide) (hnamed : ∀ l, k.valuesNamed l = true := by intro; rfl) :
    Checked k params (positionArg params) := by
  match params with
  | [p] => exact .of_fitted (by rw [hlayout]; rfl) (positionOf_ranged p).fitted (by simp [Kind.inRange, hlimits, hsource]) (hnamed _)
  | [] => exact .of_misfit (by rw [hlayout]; rfl) rfl
  | _ :: _ :: _ => exact .of_misfit (by simp [hlayout, Layout.fits]) rfl

theorem channelArg_checked {k : Kind} (hlayout : k.layout = .lengths [1] := by rfl) (hlimits : k.limits = [4] := by rfl)
    (hsource : k ≠ .setHoldSource := by decide) (hnamed : ∀ l, k.valuesNamed l = true := by intro; rfl) :
    Checked k params (channelArg params) := by
  match params with
  | [c] => exact .of_fitted (by rw [hlayout]; rfl) (channelOf_ranged c).fitted (by simp [Kind.inRange, hlimits, hsource]) (hnamed _)
  | [] => exact .of_misfit (by rw [hlayout]; rfl) rfl
  | _ :: _ :: _ => exact .of_misfit (by simp [hlayout, Layout.fits]) rfl

theorem voiceArg_checked {k : Kind} (hlayout : k.layout = .lengths [1] := by rfl) (hlimits : k.limits = [12] := by rfl)
    (hsource : k ≠ .setHoldSource := by decide) (hnamed : ∀ l, k.valuesNamed l = true := by intro; rfl) :
    Checked k params (voiceArg params) := by
  match params with
  | [v] => exact .of_fitted (by rw [hlayout]; rfl) (voiceOf_ranged v).fitted (by simp [Kind.inRange, hlimits, hsource]) (hnamed _)
  | [] => exact .of_misfit (by rw [hlayout]; rfl) rfl
  | _ :: _ :: _ => exact .of_misfit (by simp [hlayout, Layout.fits]) rfl

end

/-- The owner of each kind is asked only with parameters that pass checks 3 to 5. -/
theorem serve_checked (k : Kind) (port : Port) (s : State) (r : Request) :
    (k.layout.fits r.params = false → k.serve port s r = s.refuse .badRequest) ∧
    (k.layout.fits r.params = true → k.inRange r.params = false → k.serve port s r = s.refuse .outOfRange) ∧
    (k.layout.fits r.params = true → k.inRange r.params = true → k.valuesNamed r.params = false →
      k.serve port s r = s.refuse .badRequest) := by
  cases k
  case openPosition => exact (openArgs_checked _).withArgs s _
  case close => exact (closeArgs_checked _).withArgs s _
  case setDesk => exact (deskArgs_checked _).withArgs s _
  case setBattery => exact (batteryArgs_checked _).withArgs s _
  case setSupervision => exact (supervisionArgs_checked _).withArgs s _
  case setCall => exact (callArgs_checked _).withArgs s _
  case setReminder => exact (reminderArgs_checked _).withArgs s _
  case ackReminder | readPosition | unbindLine | clearAgentPrompts | clearAnnounce =>
    exact (positionArg_checked _).withArgs s _
  case bindLine => exact (bindArgs_checked _).withArgs s _
  case setSupChannel => exact (supChannelArgs_checked _).withArgs s _
  case setEc => exact (echoArgs_checked _).withArgs s _
  case readCoeffs => exact (coeffArgs_checked _).withArgs s _
  case setNr => exact (nrArgs_checked _).withArgs s _
  case setSupNr => exact (supNrArgs_checked _).withArgs s _
  case join => exact (joinArgs_checked _).withArgs s _
  case changeMode => exact (changeModeArgs_checked _).withArgs s _
  case leave | readSession => exact (channelArg_checked _).withArgs s _
  case startProgram => exact (startArgs_checked _).withArgs s _
  case stopProgram | readVoice => exact (voiceArg_checked _).withArgs s _
  case setHoldSource => exact (holdArgs_checked _).withArgs s _
  case rescan | readStore | reset => exact (noArgs_checked _).withArgs s _
  case agentPrompt => exact (promptArgs_checked _ (.inl rfl)).withArgs s _
  case coachPrompt => exact (promptArgs_checked _ (.inr rfl)).withArgs s _
  case announce => exact (announceArgs_checked _).withArgs s _
  case takeReports => exact (maxArg_checked _).withArgs s _
  case subscribeMeters => exact (meterArgs_checked _).withArgs s _

/-- A request answered with a refusal changes nothing but its port (R172). -/
theorem exec_refused {c : Instr} {port : Port} {k : Kind} {s : State} {r : Request} {rest : List Request} {status : Status}
    (hc : requestRow c = some (port, k)) (hoff : s.offers port r rest) (hk : k.takes r = true)
    (ha : (s.popRequest port rest).answer port r (k.serve port) = (s.popRequest port rest).refuse status)
    (hok : status ≠ .ok) : exec c s = .next { s with cpt := s.cpt.answered port r rest status [] } := by
  rw [exec_taken s hc hoff hk, ha, if_neg (fun h => hok h.2)]
  rfl

/-- Settles O8: `State.answer` makes checks 1, 2 and the second half of 3; reading the parameters makes the others. -/
theorem commonChecksRefuse : Obligations.CommonChecksRefuse := by
  unfold Obligations.CommonChecksRefuse
  intro c port k s r rest hc hoff
  obtain ⟨hmisfit, hout, hbad⟩ := serve_checked k port (s.popRequest port rest) r
  have hserve : r.whole k → k.allows port = true →
      (s.popRequest port rest).answer port r (k.serve port) = k.serve port (s.popRequest port rest) r :=
    State.answer_asks _ port k r _
  refine ⟨fun hnone => ?_, fun hkind hallows => ?_, fun hkind hallows hlen => ?_, fun hw ha hf => ?_, fun hw ha hf hi => ?_,
    fun hw ha hf hi hn => ?_⟩
  · exact exec_refused hc hoff (by simp [Kind.takes, hnone]) (by simp [State.answer, hnone]) (by decide)
  · exact exec_refused hc hoff (k.takes_whole r hkind) (State.answer_notPermitted _ port k r _ hkind hallows) (by decide)
  · exact exec_refused hc hoff (k.takes_whole r hkind) (by simp [State.answer, hkind, hallows, hlen]) (by decide)
  · exact exec_refused hc hoff (k.takes_whole r hw.1) ((hserve hw ha).trans (hmisfit hf)) (by decide)
  · exact exec_refused hc hoff (k.takes_whole r hw.1) ((hserve hw ha).trans (hout hf hi)) (by decide)
  · exact exec_refused hc hoff (k.takes_whole r hw.1) ((hserve hw ha).trans (hbad hf hi hn)) (by decide)

end Sys2Proof.Machine
end

