-- ==== Sys2Proof/Proofs/RequestTable.lean ====
section
/-!
PROOFS. The parameters of every kind read in the order of the request table (R102, R119, R186).
-/

namespace Sys2Proof.Machine

theorem positionOf_ofNat (p : Fin 16) : positionOf (BitVec.ofNat 8 p.val) = .ok p := by
  revert p; decide

theorem channelOf_ofNat (c : Fin 4) : channelOf (BitVec.ofNat 8 c.val) = .ok c := by
  revert c; decide

theorem voiceOf_ofNat (v : Fin 12) : voiceOf (BitVec.ofNat 8 v.val) = .ok v := by
  revert v; decide

theorem sourceOf_ofNat (v : Fin 12) : sourceOf (BitVec.ofNat 8 v.val) = .ok (some v) := by
  revert v; decide

theorem leNat_four (a b c d : Byte) : leNat [a, b, c, d] = a.toNat + 256 * b.toNat + 65536 * (c.toNat + 256 * d.toNat) := by
  simp only [leNat]
  omega

/-- The fields that a mask gives are read one after another, and those left out are told apart. -/
theorem maskedFields_fields {sizes : List Nat} {fields : List (Option (List Byte))}
    (h : List.Forall₂ (fun size field => ∀ bytes, field = some bytes → bytes.length = size) sizes fields) :
    maskedFields sizes (fields.foldr (fun field mask => (if field.isSome then 1 else 0) + 2 * mask) 0)
        (fields.flatMap (fun field => field.getD [])) =
      some (fields.map (Option.map leNat)) := by
  induction h with
  | nil => rfl
  | @cons size field sizes fields hsize h ih =>
    rw [List.foldr_cons, List.flatMap_cons, List.map_cons, maskedFields]
    cases field with
    | none =>
      rw [if_neg (by simp)]
      simp [ih]
    | some bytes =>
      have hlen := hsize bytes rfl
      rw [if_pos (by simp [Nat.add_mod]), if_neg (by simp [hlen]), Option.getD_some, ← hlen, List.drop_left, List.take_left]
      have hhalf : ∀ m : Nat, (1 + 2 * m) / 2 = m := fun m => by omega
      simp [hhalf, ih]

/-- Settles O11: each kind's parameters evaluate once its number is read; the masks by `maskedFields_fields`. -/
theorem parametersInTableOrder : Obligations.ParametersInTableOrder := by
  unfold Obligations.ParametersInTableOrder
  refine ⟨?_, fun sizes fields h => maskedFields_fields h⟩
  intro p c v a b d e f g h i j
  dsimp only
  refine ⟨?_, ?_, ?_, ?_, ?_, ?_, ?_, ?_, ?_, ?_, ?_, ?_, ?_, ?_, ?_, ?_, ?_, ?_, ?_, ?_, ?_, ?_, ?_, ?_, ?_, ?_, ?_, ?_, ?_, ?_, ?_,
    ?_, ?_, ?_⟩
  · simp only [openArgs, positionOf_ofNat]; rfl
  · simp only [openArgs, positionOf_ofNat]; rfl
  · simp only [closeArgs, positionOf_ofNat]; rfl
  · simp only [closeArgs, positionOf_ofNat]; rfl
  · simp only [deskArgs, positionOf_ofNat]; rfl
  · simp only [batteryArgs, positionOf_ofNat]; rfl
  · simp only [supervisionArgs, positionOf_ofNat]; rfl
  · simp only [supervisionArgs, positionOf_ofNat]; rfl
  · simp only [callArgs, positionOf_ofNat]; rfl
  · simp only [callArgs, positionOf_ofNat]; rfl
  · simp only [callArgs, positionOf_ofNat]; rfl
  · simp only [reminderArgs, positionOf_ofNat]; rfl
  · simp only [positionArg, positionOf_ofNat]
  · simp only [channelArg, channelOf_ofNat]
  · simp only [voiceArg, voiceOf_ofNat]
  · simp only [bindArgs, positionOf_ofNat]; rfl
  · simp only [supChannelArgs, channelOf_ofNat]; rfl
  · simp only [supChannelArgs, channelOf_ofNat]; rfl
  · rw [← leNat_four]; simp only [echoArgs, positionOf_ofNat]; rfl
  · simp only [coeffArgs, positionOf_ofNat]; rfl
  · simp only [nrArgs, positionOf_ofNat]; rfl
  · simp only [supNrArgs, channelOf_ofNat]; rfl
  · rw [Nat.min_comm 8192, ← clampNat_eq_max_min (by decide)]
    simp only [joinArgs, channelOf_ofNat, positionOf_ofNat]; rfl
  · simp only [joinArgs, channelOf_ofNat, positionOf_ofNat]; rfl
  · simp only [joinArgs, channelOf_ofNat, positionOf_ofNat]; rfl
  · simp only [changeModeArgs, channelOf_ofNat]; rfl
  · simp only [changeModeArgs, channelOf_ofNat]; rfl
  · simp only [holdArgs, positionOf_ofNat]; rfl
  · simp only [holdArgs, positionOf_ofNat, sourceOf_ofNat]; rfl
  · simp only [startArgs, voiceOf_ofNat]; rfl
  · simp only [promptArgs, positionOf_ofNat]; rfl
  · simp only [announceArgs, positionOf_ofNat]; rfl
  · rfl
  · rfl

end Sys2Proof.Machine
end

