-- ==== Sys2Proof/Proofs/PositionRows.lean ====
section
/-!
PROOFS. The requests of the position controller and the READ requests (chapter 1, R116, R137, R152).
-/

namespace Sys2Proof.Machine

/-! ### A row of the request table at work -/

theorem State.withArgs_eq {α : Type} {s : State} {args : Except Status α} {own : α → Reply} {a : α} {x : Reply}
    (hargs : args = .ok a) (hown : own a = x) : s.withArgs args own = x := by
  rw [hargs]
  exact hown

section
variable {c : Instr} {port : Port} {k : Kind} {s : State} {r : Request} {rest : List Request} (h : s.asks port k r rest)
include h

/-- A request that its owner refuses changes nothing but its port (R172). -/
theorem exec_of_refuse {status : Status} (hserve : k.serve port (s.popRequest port rest) r =
      (s.popRequest port rest).refuse status) (hc : requestRow c = some (port, k) := by rfl) (hk : k ≠ .reset := by decide) :
    exec c s = .next { s with cpt := s.cpt.answered port r rest status [] } := by
  rw [exec_request s hc hk, s.take_refused port k _ r rest status h hserve]

/-- A request that its owner takes with an effect that reaches no port (R172). -/
theorem exec_of_okay {t : State} {data : List Byte} (hserve : k.serve port (s.popRequest port rest) r = t.okay data)
    (ht : t.cpt = s.cpt.taking port rest := by rfl) (hc : requestRow c = some (port, k) := by rfl)
    (hk : k ≠ .reset := by decide) : exec c s = .next { t with cpt := s.cpt.answered port r rest .ok data } := by
  rw [exec_request s hc hk, s.take_okay port k _ r rest t data h hserve ht]

/-- A request that its owner takes: its response joins the ports as its effect left them. -/
theorem exec_of_taken {t : State} {data : List Byte} (hserve : k.serve port (s.popRequest port rest) r = t.okay data)
    (hc : requestRow c = some (port, k) := by rfl) (hk : k ≠ .reset := by decide) :
    exec c s = .next { t with cpt := t.cpt.responding port (r.answer (s.port port).overflow .ok data) } := by
  rw [exec_request s hc hk, s.take_asks port k _ r rest h, hserve]
  rfl

end

/-! ### OPEN and CLOSE (R3, R4) -/

theorem EchoCtx.setCoeffs_zero (c : EchoCtx) : c.setCoeffs zeroCoeffs = { c with
    coeffs := List.replicate 128 0
    generation := if c.coeffs = List.replicate 128 0 then c.generation else c.generation + 1 } := rfl

theorem EchoCtx.opened_eq (c : EchoCtx) (back : Bool) (mode : EchoMode) : c.opened back mode = { c with
    coeffs := if back = true then c.coeffs else List.replicate 128 0
    generation := if back = true ∨ c.coeffs = List.replicate 128 0 then c.generation else c.generation + 1
    hangover := 0, good := 0, poor := 0, diverge := 0, erle := 0
    state := if mode = .off then .off else .converging } := by
  cases back with
  | true => simp [EchoCtx.opened, EchoCtx.zeroCounters]
  | false => simp [EchoCtx.opened, EchoCtx.zeroCounters, EchoCtx.setCoeffs_zero]

/-- Settles O12: OPEN looks at the state of the position alone. -/
theorem openStartsPosition : Obligations.OpenStartsPosition := by
  unfold Obligations.OpenStartsPosition
  intro s port r rest p useRetained hasks hargs
  refine ⟨fun hstate => ?_, fun hstate => ?_⟩
  · exact exec_of_refuse hasks (State.withArgs_refused hargs (if_neg hstate))
  · refine (exec_of_okay hasks (State.withArgs_eq hargs (if_pos hstate))).trans (congrArg _ ?_)
    simp only [byteBool_eq, State.openPosition, EchoCtx.opened_eq]
    rfl

/-- Settles O13: `close_spec` says what CLOSE leaves. -/
theorem closeDisconnectsPosition : Obligations.CloseDisconnectsPosition := by
  unfold Obligations.CloseDisconnectsPosition
  intro s port r rest p plan hasks hargs hstate
  obtain ⟨sst, sup, vce, owed, hclose, ⟨hsst, hsup⟩, hvce⟩ := (s.popRequest port rest).close_spec p plan
  have hserve := serveClose_opened (s := s.popRequest port rest) hargs hstate
  rw [hclose] at hserve
  exact ⟨_, exec_of_taken hasks hserve, rfl, hsst, hsup, hvce⟩

/-! ### SET_DESK and SET_SUPERVISION (R9, R11) -/

theorem Position.setMute_eq (x : Position) (on : Bool) : x.setMute on = { x with
    mute := on
    mutedCount := if x.mute = true ∧ on = false then 0 else x.mutedCount
    mutedIssued := if x.mute = true ∧ on = false then false else x.mutedIssued } := by
  cases hx : x.mute <;> cases on <;> simp [Position.setMute, hx]

theorem Position.setDesk_eq (x : Position) (f : DeskFields) : x.setDesk f = { x with
    mute := f.mute.getD x.mute
    earGain := (f.earGain.map (fun g => min g 8192)).getD x.earGain
    sidetone := (f.sidetone.map (fun g => min g 2048)).getD x.sidetone
    promptGain := (f.promptGain.map (fun g => min g 8192)).getD x.promptGain
    announceGain := (f.announceGain.map (fun g => min g 8192)).getD x.announceGain
    buttonMute := f.buttonMute.getD x.buttonMute
    mutedCount := if x.mute = true ∧ f.mute.getD x.mute = false then 0 else x.mutedCount
    mutedIssued := if x.mute = true ∧ f.mute.getD x.mute = false then false else x.mutedIssued } := by
  have hcode : gainCode = fun g => min g 8192 := rfl
  have hside : min 2048 = fun g : Nat => min g 2048 := funext fun g => Nat.min_comm _ _
  rw [Position.setDesk, Position.setMute_eq, hcode, hside]

/-- Settles O14: SET_DESK writes one record, and the data are read from it. -/
theorem setDeskWritesSettings : Obligations.SetDeskWritesSettings := by
  unfold Obligations.SetDeskWritesSettings
  intro s port r rest p f hasks hargs hstate
  refine (exec_of_okay hasks (State.withArgs_eq hargs (if_neg hstate))).trans (congrArg _ ?_)
  simp only [Position.deskBytes, Position.setDesk_eq, byteBool_eq]
  rfl

section
variable {s : State} {p : Fin 16}

theorem State.setSupervision_keeps {allowed : Bool} (h : ¬((s.pos p).supervisionAllowed = true ∧ allowed = false)) :
    s.setSupervision p allowed = s.modPos p (fun x => { x with supervisionAllowed := allowed }) := by
  unfold State.setSupervision
  exact if_neg (by simpa using h)

theorem State.setSupervision_revokes (h : (s.pos p).supervisionAllowed = true) :
    s.setSupervision p false = (s.modPos p (fun x => { x with supervisionAllowed := false })).endSessionsOn p .revoked := by
  unfold State.setSupervision
  exact if_pos (by simpa using h)

end

/-- Settles O16: only a change from yes to no reaches the sessions. -/
theorem setSupervisionRevokes : Obligations.SetSupervisionRevokes := by
  unfold Obligations.SetSupervisionRevokes
  intro s port r rest p allowed hasks hargs hstate
  let s' := s.popRequest port rest
  have hserve : serveSetSupervision s' r = (s'.setSupervision p allowed).okay [] :=
    State.withArgs_eq hargs (if_neg hstate)
  refine ⟨fun hkeep => ?_, fun hyes hno => ?_⟩
  · rw [State.setSupervision_keeps (s := s') hkeep] at hserve
    exact exec_of_okay hasks hserve
  · subst hno
    obtain ⟨sst, sup, hends, hsst, hsup⟩ :=
      (s'.modPos p (fun x => { x with supervisionAllowed := false })).endSessionsOn_spec p .revoked
    rw [State.setSupervision_revokes (s := s') hyes, hends] at hserve
    exact ⟨_, exec_of_taken hasks hserve, rfl, hsst, hsup⟩

/-! ### SET_CALL (R12, R13) -/

/-- The record of a position whose call ends: a reminder RUNNING in HOLD stops (R13). -/
def Position.idled (x : Position) : Position :=
  { x with call := .idle, reminderStatus := if x.call = .hold then .stopped else x.reminderStatus }

theorem State.modPos_congr {s : State} {p : Fin 16} {f g : Position → Position} (h : f (s.pos p) = g (s.pos p)) :
    s.modPos p f = s.modPos p g := by
  have hupd : upd s.pct p f = upd s.pct p g := congrArg (s.pct.set p ·) h
  unfold State.modPos
  rw [hupd]

theorem State.modPos_idled_talk {s : State} {p : Fin 16} (h : (s.pos p).call = .talk) :
    s.modPos p (fun x => { x with call := .idle }) = s.modPos p Position.idled :=
  State.modPos_congr (by rw [Position.idled, h]; rfl)

theorem State.modPos_idled_hold {s : State} {p : Fin 16} (h : (s.pos p).call = .hold) :
    s.modPos p (fun x => { x with call := .idle }.stopReminder) = s.modPos p Position.idled :=
  State.modPos_congr (by rw [Position.idled, h]; rfl)

section
variable {s : State} {p : Fin 16} {call : CallState}

theorem State.setCall_refused (h : ¬((s.pos p).state = .opened ∧ (s.pos p).line.isSome = true)) :
    s.setCall p call = s.refuse .badState := by
  unfold State.setCall
  exact if_neg h

variable (hstate : (s.pos p).state = .opened) (hline : (s.pos p).line.isSome = true)
include hstate hline

theorem State.setCall_same : s.setCall p (s.pos p).call = s.okay [] := by
  unfold State.setCall
  rw [if_pos ⟨hstate, hline⟩]
  cases (s.pos p).call <;> rfl

theorem State.setCall_idle_talk (h : (s.pos p).call = .idle) :
    s.setCall p .talk = (s.modPos p (fun x => { x with call := .talk })).okay [] := by
  unfold State.setCall
  rw [if_pos ⟨hstate, hline⟩, h]

theorem State.setCall_idle_hold (h : (s.pos p).call = .idle) : s.setCall p .hold = s.refuse .badState := by
  unfold State.setCall
  rw [if_pos ⟨hstate, hline⟩, h]

theorem State.setCall_talk_hold (h : (s.pos p).call = .talk) : s.setCall p .hold =
    if s.holdSourceGood p then (s.modPos p (fun x => { x with call := .hold }.startReminder)).okay []
    else s.refuse .badState := by
  unfold State.setCall
  rw [if_pos ⟨hstate, hline⟩, h]

theorem State.setCall_hold_talk (h : (s.pos p).call = .hold) :
    s.setCall p .talk = (s.modPos p (fun x => { x with call := .talk, reminderStatus := .stopped })).okay [] := by
  unfold State.setCall
  rw [if_pos ⟨hstate, hline⟩, h]
  rfl

theorem State.setCall_idles (h : (s.pos p).call ≠ .idle) : s.setCall p .idle = ((s.modPos p Position.idled).idleEffects p).okay [] := by
  unfold State.setCall
  rw [if_pos ⟨hstate, hline⟩]
  cases hcall : (s.pos p).call with
  | idle => exact absurd hcall h
  | talk => rw [← State.modPos_idled_talk hcall]
  | hold => rw [← State.modPos_idled_hold hcall]

end

theorem Position.startReminder_hold (x : Position) : { x with call := .hold }.startReminder = { x with
    call := .hold
    reminderCounter := if x.reminderInterval = 0 then x.reminderCounter else x.reminderInterval
    reminderStatus := if x.reminderInterval = 0 then x.reminderStatus else .running } := by
  unfold Position.startReminder
  dsimp only
  split <;> rfl

/-- The hold source is none, or plays a programme (R12). -/
theorem State.holdSourceGood_iff (s : State) (p : Fin 16) : s.holdSourceGood p = true ↔
    ∀ v : Fin 12, (s.pos p).holdSource = some v → s.vce[v].use = .program ∧ (s.vce[v].state = .priming ∨ s.vce[v].state = .playing) := by
  unfold State.holdSourceGood
  cases (s.pos p).holdSource with
  | none => simp
  | some v => simp [Voice.inProgram]

/-- Settles O17: `setCall` looks at the state, the binding and the two call states. -/
theorem setCallMoves : Obligations.SetCallMoves := by
  unfold Obligations.SetCallMoves
  intro s port r rest p call hasks hargs
  let s' := s.popRequest port rest
  refine ⟨fun h => ?_, fun hstate hline => ⟨fun hcall => ?_, fun hcall hto => ?_, fun hcall hto => ?_, fun hcall hto hgood => ?_,
    fun hcall hto hbad hsome => ?_, fun hcall hto => ?_⟩⟩
  · exact exec_of_refuse hasks (State.withArgs_refused hargs (State.setCall_refused (s := s') h))
  · subst hcall
    exact exec_of_okay (t := s') hasks (State.withArgs_eq hargs (State.setCall_same (s := s') hstate hline))
  · subst hto
    exact exec_of_okay hasks (State.withArgs_eq hargs (State.setCall_idle_talk (s := s') hstate hline hcall))
  · subst hto
    exact exec_of_refuse hasks (State.withArgs_refused hargs (State.setCall_idle_hold (s := s') hstate hline hcall))
  · subst hto
    refine (exec_of_okay hasks (State.withArgs_eq hargs ((State.setCall_talk_hold (s := s') hstate hline hcall).trans
      (if_pos ((s'.holdSourceGood_iff p).mpr hgood))))).trans (congrArg _ ?_)
    simp only [Position.startReminder_hold]
    rfl
  · subst hto
    obtain ⟨v, hv⟩ := Option.ne_none_iff_exists'.mp hsome
    exact exec_of_refuse hasks (State.withArgs_refused hargs ((State.setCall_talk_hold (s := s') hstate hline hcall).trans
      (if_neg fun h => hbad v hv ((s'.holdSourceGood_iff p).mp h v hv))))
  · subst hto
    exact exec_of_okay hasks (State.withArgs_eq hargs (State.setCall_hold_talk (s := s') hstate hline hcall))

/-! ### The end of a call (R13, R34) -/

section
variable {s : State} {p : Fin 16}

theorem State.unbindLine_idle (h : (s.pos p).call = .idle) : s.unbindLine p = s.releaseLine p := by
  unfold State.unbindLine
  rw [h]

theorem State.unbindLine_ends (h : (s.pos p).call ≠ .idle) : s.unbindLine p = ((s.modPos p Position.idled).idleEffects p).releaseLine p := by
  unfold State.unbindLine
  cases hcall : (s.pos p).call with
  | idle => exact absurd hcall h
  | talk => rw [← State.modPos_idled_talk hcall]
  | hold => rw [← State.modPos_idled_hold hcall]

end

/-- Settles O18: SET_CALL makes the IDLE effects, and UNBIND_LINE releases the line behind them. -/
theorem callEndsWithIdleEffects : Obligations.CallEndsWithIdleEffects := by
  unfold Obligations.CallEndsWithIdleEffects
  intro s port r rest p unbind hasks hstate hline hcall
  let s' := s.popRequest port rest
  obtain ⟨sst, sup, vce, owed, heffects, ⟨hsst, hsup⟩, hvce⟩ := s'.idleEffects_spec p Position.idled
  cases unbind with
  | false =>
    obtain ⟨hasks, hargs⟩ := hasks
    have hserve : serveSetCall s' r = _ := State.withArgs_eq hargs (State.setCall_idles (s := s') hstate hline hcall)
    rw [heffects] at hserve
    exact ⟨_, exec_of_taken hasks hserve, rfl, hsst, hsup, hvce⟩
  | true =>
    obtain ⟨hasks, hargs⟩ := hasks
    have hserve : serveUnbindLine s' r = (s'.unbindLine p).okay [] :=
      State.withArgs_eq hargs (if_pos ⟨hstate, hline⟩)
    rw [State.unbindLine_ends (s := s') hcall, heffects] at hserve
    refine ⟨_, exec_of_taken hasks hserve, ?_, hsst, hsup, hvce⟩
    simp only [State.releaseLine, State.modPos, upd_upd]
    rfl

/-! ### SET_REMINDER and ACK_REMINDER (R20, R22) -/

theorem reminderFrames_eq (seconds : Nat) :
    reminderFrames seconds = if seconds = 0 then 0 else max 10 (min 600 seconds) * 250 := by
  rw [reminderFrames, clampNat_eq_max_min (by decide)]

theorem Position.setReminder_eq (x : Position) (seconds : Nat) (again : Bool) : x.setReminder seconds again = { x with
    reminderInterval := reminderFrames seconds
    reminderRepeat := again
    reminderCounter := if seconds ≠ 0 ∧ x.reminderStatus = .running then x.reminderCounter else reminderFrames seconds
    reminderStatus :=
      if seconds = 0 then .stopped
      else if x.reminderStatus ≠ .running ∧ x.call = .hold then .running
      else x.reminderStatus } := by
  unfold Position.setReminder
  by_cases h : seconds = 0
  · subst h
    simp [reminderFrames]
  · cases x.reminderStatus <;> simp [h]

/-- Settles O19: each of the two writes one record. -/
theorem reminderRequests : Obligations.ReminderRequests := by
  unfold Obligations.ReminderRequests
  refine ⟨fun s port r rest p seconds again hasks hargs hstate => ?_, fun s port r rest p hasks hargs => ⟨fun hdue => ?_, fun hdue => ?_⟩⟩
  · refine (exec_of_okay hasks (State.withArgs_eq hargs (if_neg hstate))).trans (congrArg _ ?_)
    simp only [Position.setReminder_eq, reminderFrames_eq]
    rfl
  · exact exec_of_okay hasks (State.withArgs_eq hargs (if_pos hdue))
  · exact exec_of_refuse hasks (State.withArgs_refused hargs (if_neg hdue))

end Sys2Proof.Machine
end

