-- ==== Sys2Proof/Proofs/Reads.lean ====
section
/-!
PROOFS. The READ requests (R24, R116, R137, R152): the items of a record, each as R187 writes it.
-/

namespace Sys2Proof.Machine

/-! ### Items (R187) -/

theorem byte2_eq (n : Nat) : byte2 n = [BitVec.ofNat 8 n, BitVec.ofNat 8 (n / 256)] := rfl

theorem byte4_eq (n : Nat) : byte4 n =
    [BitVec.ofNat 8 n, BitVec.ofNat 8 (n / 256), BitVec.ofNat 8 (n / 65536), BitVec.ofNat 8 (n / 16777216)] := by
  simp only [byte4, leBytes, Nat.div_div_eq_div_mul]

theorem byteInt16_eq (x : Int) :
    byteInt16 x = [BitVec.ofNat 8 (x % 65536).toNat, BitVec.ofNat 8 ((x % 65536).toNat / 256)] := by
  rw [byteInt16, BitVec.toNat_ofInt, byte2_eq]
  rfl

theorem byteBool_flag (b : Bool) : byteBool b = if b = true then [1] else [0] := by cases b <;> rfl

theorem byteOpt_one (o : Option Nat) : byteOpt 1 o = (o.map (fun n => [BitVec.ofNat 8 n])).getD [0xFF] := by cases o <;> rfl

theorem byteOpt_two (o : Option Nat) :
    byteOpt 2 o = (o.map (fun n => [BitVec.ofNat 8 n, BitVec.ofNat 8 (n / 256)])).getD [0xFF, 0xFF] := by cases o <;> rfl

theorem byteOpt_four (o : Option Nat) : byteOpt 4 o = (o.map (fun n => [BitVec.ofNat 8 n, BitVec.ofNat 8 (n / 256),
    BitVec.ofNat 8 (n / 65536), BitVec.ofNat 8 (n / 16777216)])).getD [0xFF, 0xFF, 0xFF, 0xFF] := by
  cases o with
  | none => rfl
  | some n => exact byte4_eq n

/-! ### Named values by their place -/

theorem PosState.code_eq (x : PosState) : x.code = [PosState.closed, .opened, .closing].idxOf x := by cases x <;> rfl

theorem Plan.code_eq : Plan.code = fun x => [Plan.keep, .clear].idxOf x := by funext x; cases x <;> rfl

theorem CallState.code_eq (x : CallState) : x.code = [CallState.idle, .talk, .hold].idxOf x := by cases x <;> rfl

theorem EchoMode.code_eq (x : EchoMode) : x.code = [EchoMode.off, .adapt, .freeze].idxOf x := by cases x <;> rfl

theorem Band.code_eq (x : Band) : x.code = [Band.normal, .low, .critical].idxOf x := by cases x <;> rfl

theorem ReminderStatus.code_eq (x : ReminderStatus) : x.code = [ReminderStatus.stopped, .running, .expired].idxOf x := by
  cases x <;> rfl

theorem SupMode.code_eq (x : SupMode) : x.code = [SupMode.idle, .listen, .whisper, .barge].idxOf x := by cases x <;> rfl

theorem SessionEnd.code_eq (x : SessionEnd) :
    x.code = [SessionEnd.none, .left, .callEnded, .closed, .revoked, .channelUnbound].idxOf x := by cases x <;> rfl

theorem NoiseState.code_eq (x : NoiseState) : x.code = [NoiseState.learn, .pause, .speech].idxOf x := by cases x <;> rfl

theorem VoiceState.code_eq (x : VoiceState) : x.code = [VoiceState.free, .priming, .playing, .draining].idxOf x := by
  cases x <;> rfl

theorem StoreState.code_eq (x : StoreState) : x.code = [StoreState.scanning, .ready, .unavailable].idxOf x := by
  cases x <;> rfl

theorem StoreFailure.code_eq (x : StoreFailure) : x.code = [StoreFailure.none, .scan, .timeout].idxOf x := by
  cases x <;> rfl

theorem VoiceUse.bytes_eq (x : VoiceUse) : x.bytes = match x with
    | .none => [0, 0xFF, 0xFF]
    | .program => [1, 0xFF, 0xFF]
    | .prompt p q => [2] ++ [BitVec.ofNat 8 p.val] ++ [BitVec.ofNat 8 ([QueueId.agent, .line].idxOf q)] := by
  match x with
  | .none | .program => rfl
  | .prompt p .agent | .prompt p .line => rfl

theorem State.inFlight_eq (s : State) (v : Fin 12) : s.inFlight v = decide (∃ f, s.sfe.fetch = some f ∧ f.voice = v) := by
  unfold State.inFlight
  cases s.sfe.fetch with
  | none => simp
  | some f => simp [beq_eq_decide]

/-! ### The records -/

/-- A request that reads a record: its owner changes nothing. -/
theorem exec_of_read {c : Instr} {port : Port} {k : Kind} {s : State} {r : Request} {rest : List Request} {data data' : List Byte}
    (h : s.asks port k r rest) (hserve : k.serve port (s.popRequest port rest) r = (s.popRequest port rest).okay data)
    (hdata : data = data') (hc : requestRow c = some (port, k) := by rfl) (hk : k ≠ .reset := by decide) :
    exec c s = .next { s with cpt := s.cpt.answered port r rest .ok data' } := by
  subst hdata
  exact exec_of_okay (t := s.popRequest port rest) h hserve rfl hc hk

/-- Settles O20: an owner of a READ returns the bytes of a record, and these are its items one after another. -/
theorem readsChangeNothing : Obligations.ReadsChangeNothing := by
  unfold Obligations.ReadsChangeNothing
  dsimp only
  refine ⟨fun n => ⟨byte2_eq n, byte4_eq n⟩, byteInt16_eq, fun s port r rest =>
    ⟨fun p hasks hargs => ?_, fun c hasks hargs => ?_, fun v hasks hargs => ?_, fun hasks hargs => ?_⟩⟩
  · refine exec_of_read (data := (s.pos p).bytes) hasks (State.withArgs_eq hargs rfl) ?_
    unfold Position.bytes Position.deskBytes EchoSettings.bytes NoiseSettings.bytes
    conv_lhs => simp only [← List.append_assoc]
    simp only [byteSlots, byte1_eq, byte2_eq, byte4_eq, byteBool_flag, byteOpt_one, Option.map_map, Function.comp_def,
      PosState.code_eq, Plan.code_eq, CallState.code_eq, EchoMode.code_eq, Band.code_eq, ReminderStatus.code_eq]
  · refine exec_of_read (data := s.sessionBytes c) hasks (State.withArgs_eq hargs rfl) ?_
    simp only [State.sessionBytes, byteSlots, byte1_eq, byte2_eq, byteBool_flag, byteOpt_one, Option.map_map,
      Function.comp_def, SupMode.code_eq, SessionEnd.code_eq, NoiseState.code_eq, List.append_assoc]
  · refine exec_of_read (data := s.voiceBytes v) hasks (State.withArgs_eq hargs rfl) ?_
    have hstep : Step.bytes = fun x => match x with
        | .clip n => [1, 0] ++ byte2 n
        | .silence n => [2, 0] ++ byte2 n
        | .loop target count => [3] ++ byte1 target ++ byte2 count
        | .mark code => [4] ++ byte1 code ++ [0, 0] := by funext x; cases x <;> rfl
    simp only [State.voiceBytes, stepListBytes, marksBytes, hstep, byte1_eq, byte2_eq, byteBool_flag, byteOpt_one, byteOpt_four,
      Option.map_map, Function.comp_def, VoiceState.code_eq, VoiceUse.bytes_eq, State.inFlight_eq, List.append_assoc]
    rfl
  · have hnone : noArgs r.params = .ok () := by rw [hargs]; rfl
    refine exec_of_read (data := s.storeBytes) hasks (State.withArgs_eq hnone rfl) ?_
    simp only [State.storeBytes, State.refillMask, byte1_eq, byte2_eq, byteOpt_one, byteOpt_two, Option.map_map,
      Function.comp_def, StoreState.code_eq, StoreFailure.code_eq, List.append_assoc]

end Sys2Proof.Machine
end

