-- ==== Sys2Proof/Proofs/AudioRows.lean ====
section
/-!
PROOFS. The requests of the highway slot map, the echo canceller and the noise reducer (R33 to R35, R65, R66, R81, R85,
R86).
-/

namespace Sys2Proof.Machine

/-! ### Slots (R32) -/

theorem State.slotsInUse_iff (s : State) (e : Endpoint) (b : SlotPair) : s.slotsInUse e b = true ↔
    ∃ f x, f ≠ e ∧ s.binding f = some x ∧ (x.inSlot = b.inSlot ∨ x.outSlot = b.outSlot) := by
  constructor
  · intro h
    unfold State.slotsInUse at h
    simp only [Bool.or_eq_true, List.any_eq_true, Bool.and_eq_true, decide_eq_true_eq, Option.any_eq_true, beq_iff_eq] at h
    obtain ⟨p, -, hne, x, hx, hxb⟩ | ⟨c, -, hne, x, hx, hxb⟩ := h
    · exact ⟨.position p, x, hne, hx, hxb⟩
    · exact ⟨.channel c, x, hne, hx, hxb⟩
  · rintro ⟨f, x, hne, hx, hxb⟩
    by_contra h
    obtain ⟨h1, h2⟩ := State.slotsInUse_false h hne hx
    exact hxb.elim h1 h2

/-- No slot of the pair is bound to another endpoint. -/
theorem State.slotsInUse_free {s : State} {e : Endpoint} {b : SlotPair}
    (h : ∀ f x, f ≠ e → s.binding f = some x → x.inSlot ≠ b.inSlot ∧ x.outSlot ≠ b.outSlot) : ¬ s.slotsInUse e b = true := by
  rw [State.slotsInUse_iff]
  rintro ⟨f, x, hne, hx, hxb⟩
  obtain ⟨h1, h2⟩ := h f x hne hx
  exact hxb.elim h1 h2

theorem slotPairOf_pair (b : SlotPair) : slotPairOf b.inSlot.val b.outSlot.val = some b := by
  simp [slotPairOf, slotOf]

theorem slotPairOf_none {i o : Nat} (h : 31 < i ∨ 31 < o) : slotPairOf i o = none := by
  unfold slotPairOf slotOf
  obtain h | h := h
  · rw [dif_neg (by omega)]
  · rw [dif_neg (show ¬ o < 32 by omega)]
    split <;> simp_all

theorem State.binding_popRequest (s : State) (port : Port) (rest : List Request) :
    (s.popRequest port rest).binding = s.binding := by
  funext e
  cases e <;> rfl

/-! ### BIND_LINE and UNBIND_LINE (R33, R34) -/

section
variable {s : State} {r : Request} {p : Fin 16} {i o : Nat} (hargs : bindArgs r.params = .ok (p, i, o))
  (hstate : (s.pos p).state = .opened) (hcall : (s.pos p).call = .idle)
include hargs hstate hcall

theorem serveBindLine_out (h : 31 < i ∨ 31 < o) : serveBindLine s r = s.refuse .outOfRange :=
  State.withArgs_eq hargs ((if_pos ⟨hstate, hcall⟩).trans (by rw [slotPairOf_none h]))

theorem serveBindLine_pair {b : SlotPair} (hi : b.inSlot.val = i) (ho : b.outSlot.val = o) : serveBindLine s r =
    if s.slotsInUse (.position p) b then s.refuse .inUse else (s.bindLine p b).okay [] := by
  subst hi ho
  exact State.withArgs_eq hargs ((if_pos ⟨hstate, hcall⟩).trans (by rw [slotPairOf_pair]))

end

theorem State.bindLine_eq (s : State) (p : Fin 16) (b : SlotPair) : s.bindLine p b = { s with
    pct := upd s.pct p (fun x => { x with line := some b })
    hwi := { s.hwi with lineOut := s.hwi.lineOut.set p none }
    mxe := { s.mxe with
      lineClips := if (s.pos p).line = none then s.mxe.lineClips.set p 0 else s.mxe.lineClips } } := by
  unfold State.bindLine
  dsimp only
  cases hline : (s.pos p).line <;> rfl

/-- Settles O21: BIND_LINE's checks stand one after another. -/
theorem lineBindings : Obligations.LineBindings := by
  unfold Obligations.LineBindings
  refine ⟨fun s port r rest p i o hasks hargs => ⟨fun h => ?_, fun hstate hcall h => ?_, fun b hstate hcall hi ho => ⟨fun h => ?_, fun h => ?_⟩⟩,
    fun s port r rest p hasks hargs => ⟨fun h => ?_, fun hstate hline hcall => ?_⟩⟩
  · exact exec_of_refuse hasks (State.withArgs_refused hargs (if_neg h))
  · exact exec_of_refuse hasks (serveBindLine_out (s := s.popRequest port rest) hargs hstate hcall h)
  · refine exec_of_refuse hasks ((serveBindLine_pair (s := s.popRequest port rest) hargs hstate hcall hi ho).trans (if_pos ?_))
    rw [State.slotsInUse_iff, State.binding_popRequest]
    exact h
  · refine (exec_of_okay hasks ((serveBindLine_pair (s := s.popRequest port rest) hargs hstate hcall hi ho).trans
      (if_neg (State.slotsInUse_free ?_)))).trans (congrArg _ ?_)
    · rw [State.binding_popRequest]
      exact h
    · rw [State.bindLine_eq]
      rfl
  · exact exec_of_refuse hasks (State.withArgs_refused hargs (if_neg h))
  · have hserve : serveUnbindLine (s.popRequest port rest) r = ((s.popRequest port rest).unbindLine p).okay [] :=
      State.withArgs_eq hargs (if_pos ⟨hstate, hline⟩)
    rw [State.unbindLine_idle (s := s.popRequest port rest) hcall] at hserve
    exact exec_of_okay hasks hserve

/-! ### SET_SUP_CHANNEL (R35) -/

theorem State.rebindsSession_iff (s : State) (c : Fin 4) :
    s.rebindsSession c = true ↔ s.hwi.channels[c] ≠ none ∧ s.sst[c].mode ≠ .idle := by
  simp [State.rebindsSession, Option.isSome_iff_ne_none]

theorem State.bindChannel_eq (s : State) (c : Fin 4) (b : SlotPair) : s.bindChannel c b = { s with
    hwi := { s.hwi with
      channels := s.hwi.channels.set c (some b)
      supOut := if s.hwi.channels[c] ≠ none ∧ s.sst[c].mode ≠ .idle then s.hwi.supOut else s.hwi.supOut.set c none }
    nru := { s.nru with contexts := upd s.nru.contexts (noiseOfChannel c) (fun n => { n with
      state := .learn, learned := 0, hangover := 0, speechRun := 0, relearning := true }) } } := by
  unfold State.bindChannel
  simp only [State.rebindsSession_iff]
  rfl

section
variable {s : State} {c : Fin 4}

theorem State.unbindChannel_unbound (h : s.hwi.channels[c] = none) : s.unbindChannel c = s := by
  unfold State.unbindChannel
  exact if_neg (by rw [h]; decide)

variable (h : s.hwi.channels[c] ≠ none)
include h

theorem State.unbindChannel_idle (hidle : s.sst[c].mode = .idle) : s.unbindChannel c = { s with
    hwi := { s.hwi with channels := s.hwi.channels.set c none, supOut := s.hwi.supOut.set c none }
    mxe := { s.mxe with supTerms := s.mxe.supTerms.set c .absent } } := by
  unfold State.unbindChannel
  rw [if_pos (Option.isSome_iff_ne_none.mpr h)]
  let s1 : State := { s with
    hwi := { s.hwi with channels := s.hwi.channels.set c none, supOut := s.hwi.supOut.set c none } }
  change (s1.endSession c .channelUnbound).dropSup c = _
  rw [s1.endSession_idle c _ hidle]
  rfl

theorem State.unbindChannel_session {p : Fin 16} (hmode : s.sst[c].mode ≠ .idle) (htarget : s.sst[c].target = some p) :
    s.unbindChannel c = { s with
      hwi := { s.hwi with channels := s.hwi.channels.set c none, supOut := s.hwi.supOut.set c none }
      mxe := { s.mxe with supTerms := s.mxe.supTerms.set c .absent }
      sst := upd s.sst c (fun x => { x with mode := .idle, target := none, lastEnd := .channelUnbound })
      cpt := s.cpt.place s.ftu.frameCount .supervision (.sessionEnded c p .channelUnbound) } := by
  unfold State.unbindChannel
  rw [if_pos (Option.isSome_iff_ne_none.mpr h)]
  let s1 : State := { s with
    hwi := { s.hwi with channels := s.hwi.channels.set c none, supOut := s.hwi.supOut.set c none } }
  have hon : s1.sessionOn p c = true := by
    change s.sessionOn p c = true
    simp only [State.sessionOn, htarget, beq_self_eq_true, Bool.and_true]
    exact bne_iff_ne.mpr hmode
  change (s1.endSession c .channelUnbound).dropSup c = _
  rw [s1.endSession_on c p _ hon]
  simp only [State.dropSup, Vector.set_set]
  rfl

end

/-- Settles O22: a pair binds where no other endpoint has its slots, and a release reaches the session of the channel. -/
theorem channelBindings : Obligations.ChannelBindings := by
  unfold Obligations.ChannelBindings
  intro s port r rest c hasks
  let s' := s.popRequest port rest
  have hrelease : supChannelArgs r.params = .ok (c, none) → serveSetSupChannel s' r = (s'.unbindChannel c).okay [] :=
    fun hargs => State.withArgs_eq hargs rfl
  refine ⟨fun b hargs h => ?_, fun i o hargs h => ?_, fun b hargs h => ?_, fun hargs => ⟨fun hnone => ?_, fun hsome => ⟨fun hidle => ?_,
    fun p hmode htarget => ?_⟩⟩⟩
  · have hfree : ¬ s'.slotsInUse (.channel c) b = true := State.slotsInUse_free (by rw [State.binding_popRequest]; exact h)
    have hserve : serveSetSupChannel s' r = (s'.bindChannel c b).okay [] :=
      State.withArgs_eq hargs (by dsimp only; rw [slotPairOf_pair]; exact if_neg hfree)
    rw [State.bindChannel_eq] at hserve
    exact exec_of_okay hasks hserve
  · exact exec_of_refuse hasks (State.withArgs_eq hargs (by dsimp only; rw [slotPairOf_none h]))
  · have hused : s'.slotsInUse (.channel c) b = true := by
      rw [State.slotsInUse_iff, State.binding_popRequest]
      exact h
    exact exec_of_refuse hasks (State.withArgs_eq hargs (by dsimp only; rw [slotPairOf_pair]; exact if_pos hused))
  · have hserve := hrelease hargs
    rw [State.unbindChannel_unbound (s := s') hnone] at hserve
    exact exec_of_okay (t := s') hasks hserve
  · have hserve := hrelease hargs
    rw [State.unbindChannel_idle (s := s') hsome hidle] at hserve
    exact exec_of_okay hasks hserve
  · have hserve := hrelease hargs
    rw [State.unbindChannel_session (s := s') hsome hmode htarget] at hserve
    exact exec_of_taken hasks hserve

/-! ### SET_EC (R65, R66) -/

theorem EchoSettings.update_eq (e : EchoSettings) (f : EchoFields) : e.update f =
    { mode := f.mode.getD e.mode
      muConv := (f.muConv.map (fun x => min 255 x)).getD e.muConv
      muTrack := (f.muTrack.map (fun x => min 255 x)).getD e.muTrack
      bulkDelay := (f.bulkDelay.map (fun x => min 255 x)).getD e.bulkDelay
      delta := (f.delta.map (fun x => max 1024 (min 16777215 x))).getD e.delta
      talkCode := (f.talkCode.map (fun x => max 1 (min 16 x))).getD e.talkCode
      hangover := (f.hangover.map (fun x => min 4095 x)).getD e.hangover } := by
  have hclamp : ∀ {lo hi : Nat}, lo ≤ hi → clampNat lo hi = fun x => max lo (min hi x) := fun h => funext (clampNat_eq_max_min h)
  rw [EchoSettings.update, hclamp (by decide), hclamp (by decide), hclamp (by decide), hclamp (by decide)]
  simp only [Nat.zero_max]

/-- What a SET_EC does to the context of an OPEN position (R66). -/
theorem EchoCtx.applySettings_eq (c : EchoCtx) (old new : EchoSettings) :
    let toOff : Prop := old.mode ≠ .off ∧ new.mode = .off
    let fromOff : Prop := old.mode = .off ∧ new.mode ≠ .off
    let moved : Prop := old.bulkDelay ≠ new.bulkDelay
    c.applySettings old new = { c with
      coeffs := if moved then List.replicate 128 0 else c.coeffs
      generation := if moved ∧ c.coeffs ≠ List.replicate 128 0 then c.generation + 1 else c.generation
      state := if toOff then .off else if fromOff then .converging
        else if moved then (if new.mode = .off then .off else .converging) else c.state
      good := if toOff ∨ fromOff ∨ moved then 0 else c.good
      poor := if toOff ∨ fromOff ∨ moved then 0 else c.poor
      diverge := if toOff ∨ fromOff ∨ moved then 0 else c.diverge
      hangover := min (if fromOff ∨ moved then 0 else c.hangover) new.hangover } := by
  dsimp only
  have hchange : c.changeMode old.mode new.mode = { c with
      state := if old.mode ≠ .off ∧ new.mode = .off then .off else if old.mode = .off ∧ new.mode ≠ .off then .converging
        else c.state
      good := if (old.mode ≠ .off ∧ new.mode = .off) ∨ old.mode = .off ∧ new.mode ≠ .off then 0 else c.good
      poor := if (old.mode ≠ .off ∧ new.mode = .off) ∨ old.mode = .off ∧ new.mode ≠ .off then 0 else c.poor
      diverge := if (old.mode ≠ .off ∧ new.mode = .off) ∨ old.mode = .off ∧ new.mode ≠ .off then 0 else c.diverge
      hangover := if old.mode = .off ∧ new.mode ≠ .off then 0 else c.hangover } := by
    cases old.mode <;> cases new.mode <;> rfl
  unfold EchoCtx.applySettings
  dsimp only
  rw [hchange, EchoCtx.changeDelay]
  by_cases hmoved : old.bulkDelay = new.bulkDelay
  · simp only [hmoved, if_true, ne_eq, not_true_eq_false, or_false, false_and, if_false]
  · simp only [hmoved, if_false, ne_eq, not_false_eq_true, or_true, true_and, if_true, EchoCtx.setCoeffs_zero,
      EchoCtx.zeroCounters]
    by_cases hoff : new.mode = .off <;> simp [hoff]

theorem State.setEc_eq (s : State) (p : Fin 16) (f : EchoFields) : s.setEc p f = { s with
    pct := upd s.pct p (fun x => { x with echo := (s.pos p).echo.update f })
    ecu := if (s.pos p).state = .opened
      then s.ecu.set p (s.ecu[p].applySettings (s.pos p).echo ((s.pos p).echo.update f)) else s.ecu } := by
  unfold State.setEc
  dsimp only
  split <;> rfl

/-- Settles O23: the settings are clamped, and an OPEN position's context follows them. -/
theorem setEcWritesAndActs : Obligations.SetEcWritesAndActs := by
  unfold Obligations.SetEcWritesAndActs
  intro s port r rest p f hasks hargs hstate
  have hserve : serveSetEc (s.popRequest port rest) r = ((s.popRequest port rest).setEc p f).okay
      ((s.pos p).echo.update f).bytes := State.withArgs_eq hargs (if_neg hstate)
  rw [State.setEc_eq] at hserve
  refine (exec_of_okay hasks hserve).trans (congrArg _ ?_)
  simp only [EchoCtx.applySettings_eq, EchoSettings.update_eq, EchoSettings.bytes, byte1_eq]
  rfl

/-! ### READ_COEFFS, SET_NR and SET_SUP_NR (R81, R85, R86) -/

/-- A request that its owner answers without an effect. -/
theorem exec_of_reply {c : Instr} {port : Port} {k : Kind} {s : State} {r : Request} {rest : List Request} {a : Reply}
    (h : s.asks port k r rest) (hserve : k.serve port (s.popRequest port rest) r = a) (ha : a.state = s.popRequest port rest)
    (hc : requestRow c = some (port, k) := by rfl) (hk : k ≠ .reset := by decide) :
    exec c s = .next { s with cpt := s.cpt.answered port r rest a.status a.data } := by
  rw [exec_request s hc hk, s.take_asks port k _ r rest h, hserve, ha]
  rfl

section
variable {s : State} {r : Request} {p : Fin 16} {chunk expected : Nat}
  (hargs : coeffArgs r.params = .ok (p, chunk, expected)) (h : chunk ≤ 3)
include hargs h

theorem serveReadCoeffs_same (hsame : chunk = 0 ∨ expected = s.ecu[p].generation.toNat) :
    serveReadCoeffs s r = { state := s, status := .ok, data := s.ecu[p].chunkBytes chunk } :=
  State.withArgs_eq hargs ((if_neg (Nat.not_lt.mpr h)).trans (by rw [if_pos hsame]))

theorem serveReadCoeffs_changed (hother : ¬(chunk = 0 ∨ expected = s.ecu[p].generation.toNat)) :
    serveReadCoeffs s r = { state := s, status := .changed, data := s.ecu[p].chunkBytes chunk } :=
  State.withArgs_eq hargs ((if_neg (Nat.not_lt.mpr h)).trans (by rw [if_neg hother]))

end

/-- Settles O24: READ_COEFFS compares the generation for a later chunk alone. -/
theorem readCoeffsShowsGeneration : Obligations.ReadCoeffsShowsGeneration := by
  unfold Obligations.ReadCoeffsShowsGeneration
  intro s port r rest p chunk expected hasks hargs
  refine ⟨fun h => ?_, fun h => ⟨fun hsame => ?_, fun hother => ?_⟩⟩
  · exact exec_of_refuse hasks (State.withArgs_refused hargs (if_pos h))
  · exact exec_of_reply hasks (serveReadCoeffs_same (s := s.popRequest port rest) hargs h hsame) rfl
  · exact exec_of_reply hasks (serveReadCoeffs_changed (s := s.popRequest port rest) hargs h hother) rfl

/-- Settles O25: the two requests write one settings record each. -/
theorem noiseSettingsWritten : Obligations.NoiseSettingsWritten := by
  unfold Obligations.NoiseSettingsWritten
  intro s port r rest enable floor
  refine ⟨fun p hasks hargs hstate => ?_, fun c hasks hargs => ?_⟩
  · refine (exec_of_okay hasks (State.withArgs_eq hargs (if_neg hstate))).trans (congrArg _ ?_)
    simp only [NoiseSettings.bytes, byteBool_eq, NoiseSettings.update]
    rfl
  · refine (exec_of_okay hasks (State.withArgs_eq hargs rfl)).trans (congrArg _ ?_)
    simp only [NoiseSettings.bytes, byteBool_eq, NoiseSettings.update]
    rfl

end Sys2Proof.Machine
end

