-- ==== Sys2Proof/Proofs/SessionRows.lean ====
section
/-!
PROOFS. The requests of the session table, the voice engine and the prompt queues (R102, R103, R106, R108, R134 to R136,
R154 to R156, R164).
-/

namespace Sys2Proof.Machine

/-! ### JOIN (R102, R103) -/

theorem modeOf_code {mode : SupMode} (h : mode ≠ .idle) : modeOf (BitVec.ofNat 8 mode.code) = .ok mode := by
  cases mode with
  | idle => exact absurd rfl h
  | listen | whisper | barge => rfl

/-- The mask of three fields of two bytes, and the fields that it gives. -/
theorem maskedFields_three (talk duck release : Option (Byte × Byte)) :
    maskedFields [2, 2, 2] (BitVec.ofNat 8 ((if talk.isSome then 1 else 0) + 2 * (if duck.isSome then 1 else 0) +
        4 * (if release.isSome then 1 else 0))).toNat
      ((talk.map (fun y => [y.1, y.2])).getD [] ++ (duck.map (fun y => [y.1, y.2])).getD [] ++
        (release.map (fun y => [y.1, y.2])).getD []) =
      some [talk.map (fun y => leNat [y.1, y.2]), duck.map (fun y => leNat [y.1, y.2]),
        release.map (fun y => leNat [y.1, y.2])] := by
  have hsize : ∀ x : Option (Byte × Byte), ∀ bytes, x.map (fun y => [y.1, y.2]) = some bytes → bytes.length = 2 := fun x bytes h => by
    obtain ⟨y, -, rfl⟩ := Option.map_eq_some_iff.mp h
    rfl
  have h := maskedFields_fields (.cons (hsize talk) (.cons (hsize duck) (.cons (hsize release) .nil)))
  have hmask : ∀ a b c : Bool, (BitVec.ofNat 8 ((if a then 1 else 0) + 2 * (if b then 1 else 0) +
      4 * (if c then 1 else 0))).toNat = (if a then 1 else 0) + 2 * ((if b then 1 else 0) + 2 * ((if c then 1 else 0) + 2 * 0)) := by
    decide
  rw [hmask]
  simpa [Function.comp_def] using h

theorem SupMode.talking_iff (m : SupMode) : m.talking = true ↔ m = .whisper ∨ m = .barge := by cases m <;> decide

theorem State.talker_isSome (s : State) (p : Fin 16) : (s.talker p).isSome = true ↔ ∃ k, s.talkingOn p k = true := by
  simp [State.talker, mem_allChannels]

/-- The checks of R103, one after another. -/
theorem State.joinStatus_eq (s : State) (f : JoinFields) : s.joinStatus f =
    if s.hwi.channels[f.channel] = none then .badState
    else if s.sst[f.channel].mode ≠ .idle then .badState
    else if ¬((s.pos f.position).state = .opened ∧ ((s.pos f.position).call = .talk ∨ (s.pos f.position).call = .hold)) then .badState
    else if (s.pos f.position).supervisionAllowed = false then .notPermitted
    else if 2 ≤ s.sessionCount f.position then .noResource
    else if (f.mode = .whisper ∨ f.mode = .barge) ∧ ∃ k, s.talkingOn f.position k = true then .inUse
    else .ok := by
  unfold State.joinStatus
  simp only [Option.isNone_iff_eq_none, SupMode.talking_iff, State.talker_isSome]

section
variable {s : State} {r : Request} {f : JoinFields} (hargs : joinArgs r.params = .ok f)
include hargs

theorem serveJoin_refused {status : Status} (h : s.joinStatus f = status) (hok : status ≠ .ok) :
    serveJoin s r = s.refuse status := by
  refine State.withArgs_eq hargs ?_
  rw [h]
  cases status with
  | ok => exact absurd rfl hok
  | _ => rfl

theorem serveJoin_okay (h : s.joinStatus f = .ok) : serveJoin s r = (s.modSession f.channel (fun _ => f.session)).okay
    (byte2 f.talkGain ++ byte2 f.duckLevel ++ byte2 f.release) :=
  State.withArgs_eq hargs (by rw [h])

end

/-- Settles O26: the checks of R103 stand one after another. -/
theorem joinChecksInOrder : Obligations.JoinChecksInOrder := by
  unfold Obligations.JoinChecksInOrder
  refine ⟨fun c p mode talk duck release hmode => ?_, fun s port r rest f hasks hargs => ?_⟩
  · dsimp only
    simp only [List.cons_append, List.nil_append, List.append_assoc, joinArgs]
    rw [← List.append_assoc, maskedFields_three talk duck release]
    simp only [channelOf_ofNat, positionOf_ofNat, modeOf_code hmode]
    refine congrArg Except.ok (JoinFields.mk.injEq .. ▸ ⟨rfl, rfl, rfl, ?_, ?_, ?_⟩)
    · cases talk with
      | none => rfl
      | some y => exact Nat.min_comm _ _
    · cases duck <;> rfl
    · cases release with
      | none => rfl
      | some y => exact clampNat_eq_max_min (by decide) _
  · dsimp only
    let s' := s.popRequest port rest
    have hstatus : s'.joinStatus f = _ := s.joinStatus_eq f
    have hrefuse : ∀ {status : Status}, s'.joinStatus f = status → status ≠ .ok → exec (.join port) s =
        .next { s with cpt := s.cpt.answered port r rest status [] } := fun h hok =>
      exec_of_refuse hasks (serveJoin_refused hargs h hok)
    refine ⟨fun h => hrefuse ?_ (by decide), fun h1 h => hrefuse ?_ (by decide), fun h1 h2 h => hrefuse ?_ (by decide),
      fun h1 h2 h3 h => hrefuse ?_ (by decide), fun h1 h2 h3 h4 h => hrefuse ?_ (by decide),
      fun h1 h2 h3 h4 h5 ht h => hrefuse ?_ (by decide),
      fun h1 h2 h3 h4 h5 h => exec_of_okay hasks (serveJoin_okay (s := s') hargs ?_)⟩
    · rw [hstatus, if_pos (not_not.mp h)]
    all_goals rw [hstatus, if_neg h1]
    · rw [if_pos h]
    all_goals rw [if_neg (not_not.mpr h2)]
    · rw [if_pos h]
    all_goals rw [if_neg (not_not.mpr h3)]
    · rw [if_pos h]
    all_goals rw [if_neg (by rw [h4]; decide)]
    · rw [if_pos h]
    all_goals rw [if_neg (Nat.not_le.mpr h5)]
    · rw [if_pos ⟨ht, h⟩]
    · rw [if_neg]
      rintro ⟨ht, k, hk⟩
      rw [h ht k] at hk
      cases hk

/-! ### CHANGE_MODE and LEAVE (R106, R108) -/

theorem State.otherTalks_iff (s : State) (c : Fin 4) : s.otherTalks c = true ↔
    ∃ k p, k ≠ c ∧ s.sst[c].target = some p ∧ s.talkingOn p k = true := by
  unfold State.otherTalks
  cases s.sst[c].target with
  | none => simp
  | some p => simp [mem_allChannels]

/-- Settles O27: a record that is not IDLE takes the mode unless two would talk, and leaves without a report. -/
theorem sessionModeAndLeave : Obligations.SessionModeAndLeave := by
  unfold Obligations.SessionModeAndLeave
  intro s port r rest c
  let s' := s.popRequest port rest
  refine ⟨fun mode hasks hargs => ?_, fun hasks hargs => ⟨fun hidle => ?_, fun hmode => ?_⟩⟩
  · have hcond : (mode.talking && s'.otherTalks c) = true ↔ (mode = .whisper ∨ mode = .barge) ∧
        ∃ k p, k ≠ c ∧ s.sst[c].target = some p ∧ s.talkingOn p k = true := by
      rw [Bool.and_eq_true, SupMode.talking_iff, State.otherTalks_iff]
      rfl
    refine ⟨fun hidle => ?_, fun hmode htalks hother => ?_, fun hmode hfree => ?_⟩
    · exact exec_of_refuse hasks (State.withArgs_refused hargs (if_pos hidle))
    · exact exec_of_refuse hasks (State.withArgs_refused hargs ((if_neg hmode).trans (if_pos (hcond.mpr ⟨htalks, hother⟩))))
    · exact exec_of_okay hasks (State.withArgs_eq hargs ((if_neg hmode).trans (if_neg (mt hcond.mp hfree))))
  · exact exec_of_refuse hasks (State.withArgs_refused hargs (if_pos hidle))
  · exact exec_of_okay hasks (State.withArgs_eq hargs (if_neg hmode))

/-! ### Programmes and the hold source (R134 to R136) -/

theorem State.holdsOn_iff (s : State) (v : Fin 12) :
    s.holdsOn v = true ↔ ∃ p, (s.pos p).call = .hold ∧ (s.pos p).holdSource = some v := by
  simp [State.holdsOn, mem_allPositions]

/-- Settles O28: START_PROGRAM looks at the voice, STOP_PROGRAM at the positions in HOLD first. -/
theorem programsStartAndStop : Obligations.ProgramsStartAndStop := by
  unfold Obligations.ProgramsStartAndStop
  intro s port r rest v
  let s' := s.popRequest port rest
  refine ⟨fun steps hasks hargs => ⟨fun h => ?_, fun h => ?_⟩, fun hasks hargs => ?_⟩
  · exact exec_of_refuse hasks (State.withArgs_refused hargs (if_neg h))
  · exact exec_of_okay hasks (State.withArgs_eq hargs (if_pos h))
  · have hnamed : s'.holdsOn v = true ↔ _ := s'.holdsOn_iff v
    have hprogram : s'.vce[v].inProgram = true ↔ _ := s'.vce[v].inProgram_iff
    refine ⟨fun h => ?_, fun h hno => ?_, fun h hyes => ?_⟩
    · exact exec_of_refuse hasks (State.withArgs_refused hargs (if_pos (hnamed.mpr h)))
    · exact exec_of_refuse hasks (State.withArgs_refused hargs ((if_neg (mt hnamed.mp h)).trans (if_neg (mt hprogram.mp hno))))
    · have hserve : serveStopProgram s' r = (s'.drainVoice v none).okay [] :=
        State.withArgs_eq hargs ((if_neg (mt hnamed.mp h)).trans (if_pos (hprogram.mpr hyes)))
      rw [State.drainVoice_eq] at hserve
      exact ⟨_, exec_of_okay hasks hserve⟩

/-- Settles O29: the position and the voice are looked at before the two fields are written. -/
theorem setHoldSourceWrites : Obligations.SetHoldSourceWrites := by
  unfold Obligations.SetHoldSourceWrites
  intro s port r rest p source gain hasks hargs
  dsimp only
  let s' := s.popRequest port rest
  have hbad : source.any (fun v => !s'.vce[v].inProgram) = true ↔
      ¬∀ v : Fin 12, source = some v → s.vce[v].use = .program ∧ (s.vce[v].state = .priming ∨ s.vce[v].state = .playing) := by
    cases source with
    | none => simp
    | some v =>
      rw [Option.any_some, Bool.not_eq_true', Bool.eq_false_iff, ne_eq, Voice.inProgram_iff]
      refine not_congr ⟨fun h w hw => ?_, fun h => h v rfl⟩
      cases hw
      exact h
  refine ⟨fun hgood => ?_, fun ⟨hstate, hsource⟩ => ?_⟩
  · by_cases hstate : (s.pos p).state = .closing
    · exact exec_of_refuse hasks (State.withArgs_refused hargs (if_pos hstate))
    · exact exec_of_refuse hasks (State.withArgs_refused hargs ((if_neg hstate).trans
        (if_pos (hbad.mpr fun h => hgood ⟨hstate, h⟩))))
  · refine (exec_of_okay hasks (State.withArgs_eq hargs ((if_neg hstate).trans
      (if_neg fun h => hbad.mp h hsource)))).trans (congrArg _ ?_)
    have hcode : byteOpt 1 (source.map (fun v => v.val)) = [match source with
        | none => 0xFF
        | some v => BitVec.ofNat 8 v.val] := by cases source <;> rfl
    rw [hcode]
    rfl

/-! ### Prompts (R154 to R156, R164) -/

section
variable {s : State} {p : Fin 16} {q : QueueId} {e : Entry}

theorem State.joinTail_full (h : 4 ≤ (s.queue p q).length) : s.joinTail p q e = s.refuse .queueFull := by
  unfold State.joinTail
  exact if_neg (Nat.not_lt.mpr h)

theorem State.joinTail_room (h : (s.queue p q).length < 4) : s.joinTail p q e = (s.setQueue p q (s.queue p q ++ [e])).okay
    [BitVec.ofNat 8 (s.queue p q).length, BitVec.ofNat 8 ((s.queue p q).length + 1)] := by
  unfold State.joinTail
  exact if_pos h

end

/-- Settles O30: each of the three looks at the position, then at the room of the queue. -/
theorem promptsJoinTheTail : Obligations.PromptsJoinTheTail := by
  unfold Obligations.PromptsJoinTheTail
  intro s port r rest p duck steps
  dsimp only
  refine ⟨fun hasks hargs hstate => ?_, fun hasks hargs hstate => ⟨fun hfull => ?_, fun hroom => ?_⟩, fun hasks hargs hstate => ?_,
    fun hasks hargs hstate => ⟨fun hno => ?_, fun hyes hfull => ?_, fun hyes hroom => ?_⟩,
    fun hasks hargs => ⟨fun hstate => ?_, fun hstate hcall hfull => ?_, fun hstate hcall hroom => ?_⟩⟩
  · exact exec_of_refuse hasks (State.withArgs_refused hargs (if_neg hstate))
  · exact exec_of_refuse hasks (State.withArgs_refused hargs ((if_pos hstate).trans (State.joinTail_full hfull)))
  · exact exec_of_okay hasks (State.withArgs_eq hargs ((if_pos hstate).trans (State.joinTail_room hroom)))
  · exact exec_of_refuse hasks (State.withArgs_refused hargs (if_pos hstate))
  · exact exec_of_refuse hasks (State.withArgs_refused hargs ((if_neg (not_not.mpr hstate)).trans
      (if_neg (by rw [Bool.not_eq_true]; exact hno))))
  · exact exec_of_refuse hasks (State.withArgs_refused hargs ((if_neg (not_not.mpr hstate)).trans
      ((if_pos hyes).trans (State.joinTail_full hfull))))
  · exact exec_of_okay hasks (State.withArgs_eq hargs ((if_neg (not_not.mpr hstate)).trans
      ((if_pos hyes).trans (State.joinTail_room hroom))))
  · exact exec_of_refuse hasks (State.withArgs_refused hargs (if_neg hstate))
  · exact exec_of_refuse hasks (State.withArgs_refused hargs ((if_pos ⟨hstate, hcall⟩).trans (State.joinTail_full hfull)))
  · exact exec_of_okay hasks (State.withArgs_eq hargs ((if_pos ⟨hstate, hcall⟩).trans (State.joinTail_room hroom)))

/-- Settles O31: `flushQueue_spec` says what a flush leaves. -/
theorem clearsFlushTheQueue : Obligations.ClearsFlushTheQueue := by
  unfold Obligations.ClearsFlushTheQueue
  intro s port r rest p q hasks hargs hstate
  let s' := s.popRequest port rest
  obtain ⟨vce, owed, hflush, hvce⟩ := s'.flushQueue_spec p q
  have hclear : s'.clearQueue p q = (s'.flushQueue p q).okay (byte1 (s.queue p q).length) := if_neg hstate
  rw [hflush] at hclear
  cases q with
  | agent => exact ⟨_, exec_of_taken hasks (State.withArgs_eq hargs hclear), rfl, hvce⟩
  | line => exact ⟨_, exec_of_taken hasks (State.withArgs_eq hargs hclear), rfl, hvce⟩

/-! ### RESCAN (R144) -/

/-- Settles O33: RESCAN looks at the voices, then at the store. -/
theorem rescanBeginsScan : Obligations.RescanBeginsScan := by
  unfold Obligations.RescanBeginsScan
  intro s port r rest hasks hparams
  have hargs : noArgs r.params = .ok () := by rw [hparams]; rfl
  let s' := s.popRequest port rest
  have hbusy : allVoices.any (fun v => s'.vce[v].state != .free) = true ↔ ∃ v : Fin 12, s.vce[v].state ≠ .free := by
    simp [mem_allVoices, s']
  have hfree : (∀ v : Fin 12, s.vce[v].state = .free) → ¬ allVoices.any (fun v => s'.vce[v].state != .free) = true :=
    fun h hany => (hbusy.mp hany).elim fun v hv => hv (h v)
  refine ⟨fun h => ?_, fun h hscan => ?_, fun h hscan => ?_⟩
  · exact exec_of_refuse hasks (State.withArgs_refused hargs (if_pos (hbusy.mpr h)))
  · exact exec_of_refuse hasks (State.withArgs_refused hargs ((if_neg (hfree h)).trans (if_pos hscan)))
  · exact exec_of_okay hasks (State.withArgs_eq hargs ((if_neg (hfree h)).trans (if_neg hscan)))

end Sys2Proof.Machine
end

