-- ==== Sys2Proof/Proofs/ReportRows.lean ====
section
/-!
PROOFS. The report queues: where a report goes, the bytes of an entry, and the requests TAKE_REPORTS and SUBSCRIBE_METERS
(R175 to R182, R187).
-/

namespace Sys2Proof.Machine

/-! ### A report that arrives (R176 to R178) -/

theorem Report.urgent_iff (x : Report) : x.urgent = true ↔
    (∃ p level, x.body = .batteryCritical p level) ∨ (∃ cause, x.body = .storeFailed cause) ∨ x.body = .highwayLost := by
  unfold Report.urgent
  cases x.body <;> simp [ReportBody.urgent]

theorem Report.meterOf_iff (x : Report) (p : Fin 16) : x.meterOf = some p ↔ ∃ w, x.body = .meter p w := by
  unfold Report.meterOf
  cases x.body <;> simp [eq_comm]

section
variable {ps : PortState} {r : Report}

/-- A METER whose position's METER is held takes its place. -/
theorem placeReport_meter {p : Fin 16} {ahead behind : List Report} {x : Report} (hr : r.meterOf = some p)
    (hsplit : ps.reports = ahead ++ x :: behind) (hx : x.meterOf = some p)
    (hother : ∀ y ∈ ahead ++ behind, y.meterOf ≠ some p) :
    placeReport ps r = { ps with reports := ahead ++ r :: behind } := by
  have hsame : ∀ y : Report, r.sameMeter y = true ↔ y.meterOf = some p := fun y => by
    rw [Report.sameMeter_iff, hr]
    simp
  have hany : ps.reports.any r.sameMeter = true :=
    List.any_eq_true.mpr ⟨x, by rw [hsplit]; simp, (hsame x).mpr hx⟩
  have hkeep : ∀ l : List Report, (∀ y ∈ l, y ∈ ahead ++ behind) → l.map (fun h => if r.sameMeter h then r else h) = l := fun l hl => by
    refine (List.map_congr_left fun y hy => ?_).trans (List.map_id l)
    exact if_neg (mt (hsame y).mp (hother y (hl y hy)))
  unfold placeReport
  rw [if_pos hany, hsplit, List.map_append, List.map_cons, if_pos ((hsame x).mpr hx),
    hkeep ahead (fun y hy => List.mem_append_left _ hy), hkeep behind (fun y hy => List.mem_append_right _ hy)]

variable (hnone : ps.reports.any r.sameMeter = false)
include hnone

theorem placeReport_tail (hroom : ps.reports.length < Config.reportDepth) (hr : r.urgent = false) :
    placeReport ps r = { ps with reports := ps.reports ++ [r] } := by
  unfold placeReport
  rw [if_neg (by rw [hnone]; decide), if_pos hroom, insertReport, if_neg (by rw [hr]; decide)]

theorem placeReport_urgent {ahead behind : List Report} (hsplit : ps.reports = ahead ++ behind)
    (ha : ∀ x ∈ ahead, x.urgent = true) (hb : ∀ x ∈ behind, x.urgent = false) (hroom : ps.reports.length < Config.reportDepth)
    (hr : r.urgent = true) : placeReport ps r = { ps with reports := ahead ++ r :: behind } := by
  unfold placeReport
  rw [if_neg (by rw [hnone]; decide), if_pos hroom, insertReport, if_pos hr, hsplit, insertUrgent_groups ahead behind r ha hb]

theorem placeReport_lost (hfull : Config.reportDepth ≤ ps.reports.length) (hr : r.urgent = false ∨ ∀ x ∈ ps.reports, x.urgent = true) :
    placeReport ps r = { ps with overflow := true } := by
  have hno : ¬ (r.urgent && ps.reports.any (fun h => !h.urgent)) = true := by
    rw [Bool.and_eq_true, List.any_eq_true]
    rintro ⟨hu, x, hx, hn⟩
    obtain hr | hr := hr
    · rw [hr] at hu; cases hu
    · rw [hr x hx] at hn; cases hn
  unfold placeReport
  rw [if_neg (by rw [hnone]; decide), if_neg (Nat.not_lt.mpr hfull), if_neg hno]

theorem placeReport_displaces {ahead behind : List Report} (hsplit : ps.reports = ahead ++ behind)
    (ha : ∀ x ∈ ahead, x.urgent = true) (hb : ∀ x ∈ behind, x.urgent = false) (hfull : Config.reportDepth ≤ ps.reports.length)
    (hr : r.urgent = true) (hne : behind ≠ []) :
    placeReport ps r = { ps with reports := ahead ++ r :: behind.dropLast, overflow := true } := by
  have hyes : (r.urgent && ps.reports.any (fun h => !h.urgent)) = true := by
    obtain ⟨x, hx⟩ := List.exists_mem_of_ne_nil behind hne
    rw [hr, Bool.true_and, List.any_eq_true]
    exact ⟨x, by rw [hsplit]; exact List.mem_append_right _ hx, by rw [hb x hx]; rfl⟩
  unfold placeReport
  rw [if_neg (by rw [hnone]; decide), if_neg (Nat.not_lt.mpr hfull), if_pos hyes, hsplit, List.dropLast_append_of_ne_nil hne,
    insertUrgent_groups ahead _ r ha fun x hx => hb x (List.mem_of_mem_dropLast hx)]

end

/-! ### The bytes of an entry (R187) -/

/-- An entry with `f` for its fields: header, fields, zeros up to 32 bytes. -/
theorem Report.bytes_eq {body : ReportBody} {frame : BitVec 32} {f : List Byte} (hf : body.fields = f) (hlen : f.length ≤ 24) :
    Report.bytes { body := body, frame := frame } = byte1 body.kind ++ byteBool body.urgent ++ body.subject ++
      byte1 f.length ++ byte4 frame.toNat ++ (f ++ List.replicate (24 - f.length) 0) := by
  unfold Report.bytes
  dsimp only
  rw [hf, List.take_append, List.take_of_length_le hlen, List.take_replicate, Nat.min_eq_left (Nat.sub_le _ _)]
  rfl

theorem Report.bytes_entry {body : ReportBody} {frame : BitVec 32} {kind urgent subject : Byte} {f : List Byte}
    (hf : body.fields = f := by rfl) (hlen : f.length ≤ 24 := by simp [byte2_eq])
    (hkind : byte1 body.kind = [kind] := by rfl) (hurgent : byteBool body.urgent = [urgent] := by rfl)
    (hsubject : body.subject = [subject] := by rfl) : Report.bytes { body := body, frame := frame } =
      [kind, urgent, subject, BitVec.ofNat 8 f.length] ++ byte4 frame.toNat ++ f ++ List.replicate (24 - f.length) 0 := by
  rw [Report.bytes_eq hf hlen, hkind, hurgent, hsubject, byte1_eq]
  simp only [List.append_assoc, List.cons_append, List.nil_append]

theorem marksBytes_eq {marks : List Nat} (h : marks.length ≤ 4) : marksBytes marks =
    [BitVec.ofNat 8 marks.length] ++ (marks.map (BitVec.ofNat 8) ++ List.replicate (4 - marks.length) 0) := by
  match marks, h with
  | [], _ | [_], _ | [_, _], _ | [_, _, _], _ | [_, _, _, _], _ => rfl

theorem QueueId.code_eq (x : QueueId) : x.code = [QueueId.agent, .line].idxOf x := by cases x <;> rfl

theorem Origin.code_eq (x : Origin) : x.code =
    [Origin.desk, .supervision, .line, .auto .reminder, .auto .muted, .auto .batteryLow, .auto .batteryCritical].idxOf x := by
  match x with
  | .desk | .supervision | .line => rfl
  | .auto .reminder | .auto .muted | .auto .batteryLow | .auto .batteryCritical => rfl

theorem PromptOutcome.code_eq (x : PromptOutcome) : x.code = [PromptOutcome.complete, .partly, .cancelled].idxOf x := by
  cases x <;> rfl

theorem EchoState.code_eq (x : EchoState) : x.code = [EchoState.off, .converging, .tracking].idxOf x := by cases x <;> rfl

/-! ### TAKE_REPORTS (R181) -/

theorem takeEntries_eq (ps : PortState) (n : Nat) : takeEntries ps n = { ps with
    reports := ps.reports.drop n
    overflow := if ps.reports ≠ [] ∧ ps.reports.length ≤ n then false else ps.overflow } := by
  unfold takeEntries
  dsimp only
  by_cases h1 : ps.reports = []
  · simp [h1]
  · by_cases h2 : ps.reports.length ≤ n
    · simp [h1, h2, List.drop_eq_nil_of_le h2]
    · simp [h1, h2]

theorem takenCount_eq (max : Nat) : clampNat 1 8 max = if max = 0 then 1 else min 8 max := by
  rw [clampNat_eq_max_min (by decide)]
  split <;> omega

/-- Settles O38: where `placeReport` puts an entry, its bytes, and the two requests at their own port. -/
theorem reportRequests : Obligations.ReportRequests := by
  unfold Obligations.ReportRequests
  refine ⟨fun c frame port body => ?_, fun rstn ps => ?_, fun frame p c v yes n generation tag => ?_, fun s port r rest =>
    ⟨fun max hasks hargs => ?_, fun mask period hasks hargs => ?_⟩⟩
  · dsimp only
    have hmeterOf := Report.meterOf_iff { body := body, frame := frame }
    have hurgent := Report.urgent_iff { body := body, frame := frame }
    have hplace : ∀ ps : PortState, placeReport (c.get port) { body := body, frame := frame } = ps →
        c.place frame port body = c.set port ps := fun ps h => congrArg (c.set port) h
    refine ⟨fun p ahead x behind hr hsplit hx hother => ?_, fun ahead behind hmeter hsplit ha hb => ?_⟩
    · rw [hplace _ (placeReport_meter ((hmeterOf p).mpr hr) hsplit ((x.meterOf_iff p).mpr hx)
        fun y hy => mt (y.meterOf_iff p).mp (hother y hy)), Bool.or_false]
    · have hnone : (c.get port).reports.any (Report.sameMeter { body := body, frame := frame }) = false := by
        rw [List.any_eq_false]
        intro x hx hsame
        obtain ⟨hne, he⟩ := (Report.sameMeter_iff _ _).mp hsame
        obtain ⟨p, hp⟩ := Option.ne_none_iff_exists'.mp hne
        exact hmeter p ((hmeterOf p).mp hp) x hx ((x.meterOf_iff p).mp (he.trans hp))
      have ha' : ∀ x ∈ ahead, x.urgent = true := fun x hx => x.urgent_iff.mpr (ha x hx)
      have hb' : ∀ x ∈ behind, x.urgent = false := fun x hx => Bool.eq_false_iff.mpr (mt x.urgent_iff.mp (hb x hx))
      refine ⟨fun hroom hr => ?_, fun hroom hr => ?_, fun hfull hr => ?_, fun hfull hr hne => ?_, fun hfull hr hnil => ?_⟩
      · rw [hplace _ (placeReport_tail hnone hroom (Bool.eq_false_iff.mpr (mt hurgent.mp hr))), Bool.or_false]
      · rw [hplace _ (placeReport_urgent hnone hsplit ha' hb' hroom (hurgent.mpr hr)), Bool.or_false]
      · rw [hplace _ (placeReport_lost hnone hfull (.inl (Bool.eq_false_iff.mpr (mt hurgent.mp hr)))), Bool.or_true]
      · rw [hplace _ (placeReport_displaces hnone hsplit ha' hb' hfull (hurgent.mpr hr) hne), Bool.or_true]
      · rw [hplace _ (placeReport_lost hnone hfull (.inr ?_)), Bool.or_true]
        rw [hsplit, hnil, List.append_nil]
        exact ha'
  · cases rstn <;> simp [attn]
  · dsimp only
    refine ⟨Report.bytes_entry, Report.bytes_entry, Report.bytes_entry, Report.bytes_entry,
      Report.bytes_entry (hf := byteBool_eq yes), Report.bytes_entry, Report.bytes_entry,
      Report.bytes_entry (hf := byteBool_eq yes), Report.bytes_entry, Report.bytes_entry, fun reason => ?_,
      fun q origin outcome marks hmarks => ?_, Report.bytes_entry, Report.bytes_entry, fun cause => ?_,
      Report.bytes_entry, Report.bytes_entry, Report.bytes_entry, fun w => ?_⟩
    · exact Report.bytes_entry (hf := by rw [← SessionEnd.code_eq]; rfl)
    · refine Report.bytes_entry (hf := ?_) (hlen := ?_)
      · rw [← QueueId.code_eq, ← Origin.code_eq, ← PromptOutcome.code_eq]
        change _ ++ marksBytes marks = _
        rw [marksBytes_eq hmarks]
        simp only [List.append_assoc]
        rfl
      · simp only [byte2_eq, List.length_append, List.length_cons, List.length_nil, List.length_map, List.length_replicate]
        omega
    · exact Report.bytes_entry (hf := by rw [← StoreFailure.code_eq]; rfl)
    · exact Report.bytes_entry (hf := by rw [← EchoState.code_eq]; rfl)
  · have hserve : serveTakeReports port (s.popRequest port rest) r = _ := State.withArgs_eq hargs rfl
    refine (exec_of_taken hasks hserve).trans (congrArg _ ?_)
    simp only [takenCount_eq, takeEntries_eq, PortState.taken, List.length_take, byte1_eq, State.popRequest_eq, Cpt.taking, State.modPort, State.port, Cpt.get_set_same, Cpt.set_set]
  · have hserve : serveSubscribeMeters port (s.popRequest port rest) r = _ := State.withArgs_eq hargs rfl
    refine (exec_of_taken hasks hserve).trans (congrArg _ ?_)
    simp only [byte1_eq, State.popRequest_eq, Cpt.taking, State.modPort, State.port, Cpt.get_set_same, Cpt.set_set]
    cases period <;> rfl

end Sys2Proof.Machine
end

