-- ==== Sys2Proof/Proofs/SoftReset.lean ====
section
/-!
PROOFS. The soft reset (R184): every block's soft-reset values, and the ports that answer what waited.
-/

namespace Sys2Proof.Machine

/-- The state that a soft reset leaves: the store engine scans anew unless the store is READY. -/
theorem State.softReset_eq (s : State) : s.softReset = { s with
    hwi := s.hwi.softReset
    hli := allPositions.foldl (fun (v : Vector Headset 16) (p : Fin 16) => upd v p Headset.softReset) s.hli
    pct := allPositions.foldl (fun (v : Vector Position 16) (p : Fin 16) => upd v p Position.softReset) s.pct
    mxe := s.mxe.softReset
    ecu := allPositions.foldl (fun (v : Vector EchoCtx 16) (p : Fin 16) =>
      upd v p (fun c => c.softReset ((s.pos p).state == .closed))) s.ecu
    nru := { contexts := allNoise.foldl (fun (v : Vector NoiseCtx 20) (n : Fin 20) =>
               upd v n (fun c => c.softReset (s.contextClosed n))) s.nru.contexts
             supSettings := Vector.replicate 4 .powerOn }
    sst := Vector.replicate 4 .powerOn
    vce := Vector.replicate 12 .powerOn
    sfe := if s.sfe.store = .ready then s.sfe.softReset else { s.sfe.softReset with
      store := .scanning, directory := [], clipCount := 0, settings := .unset, timeouts := 0, scan := .header, owed := none }
    pqc := .powerOn
    cpt := allPorts.foldl (fun c x => c.place s.ftu.frameCount x .resetDone)
      { line := s.cpt.line.softReset, desk := s.cpt.desk.softReset, supervision := s.cpt.supervision.softReset }
    taken := s.taken.softReset } := by
  unfold State.softReset State.resetBlocks
  dsimp only
  rw [State.reportAll_eq]
  split <;> rfl

/-- A port that a soft reset leaves holds RESET_DONE alone. -/
theorem State.softReset_port (s : State) (x : Port) : s.softReset.port x =
    { (s.port x).softReset with reports := [{ body := .resetDone, frame := s.ftu.frameCount }] } := by
  rw [State.softReset_eq]
  cases x <;> rfl

theorem EchoCtx.softReset_eq (c : EchoCtx) (x : PosState) : c.softReset (x == .closed) =
    { coeffs := if x = .closed then c.coeffs else List.replicate 128 0
      pending := List.replicate 3 (List.replicate 64 0)
      history := List.replicate 383 0
      hangover := 0
      state := .off
      good := 0
      poor := 0
      diverge := 0
      generation := if x = .closed ∨ c.coeffs = List.replicate 128 0 then c.generation else c.generation + 1
      erle := 0
      out := { samples := List.replicate 64 0, live := false, state := .off } } := by
  unfold EchoCtx.softReset
  cases x with
  | closed => rfl
  | opened | closing =>
    simp only [EchoCtx.setCoeffs_zero, reduceCtorEq, false_or]
    rfl

theorem State.contextClosed_position (s : State) (p : Fin 16) :
    s.contextClosed (noiseOfPosition p) = true ↔ (s.pos p).state = .closed := by
  have hp : (noiseOfPosition p).val < 16 := p.isLt
  rw [State.contextClosed, dif_pos hp]
  exact beq_iff_eq

theorem State.contextClosed_channel (s : State) (c : Fin 4) : s.contextClosed (noiseOfChannel c) = false := by
  have hc : ¬ (noiseOfChannel c).val < 16 := Nat.not_lt.mpr (Nat.le_add_right 16 c.val)
  rw [State.contextClosed, dif_neg hc]

/-- The ports once a request at one of them is taken and answered (R170, R172). -/
theorem Cpt.answered_get (c : Cpt) (port x : Port) (r : Request) (rest : List Request) (status : Status) (data : List Byte) :
    (c.answered port r rest status data).get x = if x = port then
      { c.get x with untaken := rest, responses := (c.get x).responses ++ [r.answer (c.get x).overflow status data] }
      else c.get x := by
  rw [Cpt.answered, Cpt.responding, Cpt.taking, Cpt.get_set, Cpt.get_set_same, Cpt.get_set]
  split
  · next h => subst h; rfl
  · rfl

/-- The RESET that a port takes (R184): its response is made first. -/
theorem exec_reset_asks {s : State} {port : Port} {r : Request} {rest : List Request} (hasks : s.asks port .reset r rest)
    (hparams : r.params = []) : exec (.reset port) s =
      .next ({ s with cpt := s.cpt.answered port r rest .ok [] } : State).softReset := by
  have hserve : (s.popRequest port rest).answer port r serveReset = (s.popRequest port rest).okay [] := by
    rw [State.answer_asks _ port .reset r _ hasks.2.1 hasks.2.2]
    exact State.withArgs_eq (a := ()) (by rw [hparams]; rfl) rfl
  have hexec := exec_taken (c := .reset port) s rfl hasks.1 (Kind.reset.takes_whole r hasks.2.1.1)
  dsimp only [Kind.serve] at hexec
  rw [hserve, if_pos ⟨rfl, rfl⟩] at hexec
  rw [hexec]
  simp only [State.okay, State.respond_eq, Cpt.answered, responseTo, Request.answer, State.popRequest_eq]

/-- Settles O39: the soft reset follows the response, block by block. -/
theorem resetRestoresEveryBlock : Obligations.ResetRestoresEveryBlock := by
  unfold Obligations.ResetRestoresEveryBlock
  intro s port r rest hasks hparams
  let u : State := { s with cpt := s.cpt.answered port r rest .ok [] }
  have heq := u.softReset_eq
  refine ⟨u.softReset, exec_reset_asks hasks hparams, ?_, fun p => ⟨?_, ?_, ?_, ?_, ?_⟩, fun c => ⟨?_, ?_, ?_, ?_, ?_⟩, fun v => ?_,
    ⟨?_, ?_, ?_, fun p => ?_, fun c => ?_⟩, ⟨fun p => ?_, fun c => ⟨?_, ?_⟩⟩, fun p => ?_, fun h => ?_, fun h => ?_, fun x => ?_⟩
  · rw [heq]; rfl
  · exact u.softReset_pos p
  · rw [heq]; simp [State.queue, Pqc.powerOn]
  · rw [heq]; simp [State.queue, Pqc.powerOn]
  · rw [heq]; simp [Hwi.softReset]
  · rw [heq]; exact foldl_allPositions_get (fun _ => Headset.softReset) p s.hli
  · rw [heq]; simp
  · rw [heq]; simp [Hwi.softReset]
  · rw [heq]; simp [Hwi.softReset]
  · rw [heq]; exact talkUnbound_get s.hwi.talk c
  · rw [heq]; exact talkUnbound_get s.taken.talk c
  · rw [heq]; simp
  · rw [heq]; rfl
  · rw [heq]; rfl
  · rw [heq]; rfl
  · rw [heq]; simp [Mxe.softReset, Mxe.powerOn, Duck.powerOn]
  · rw [heq]; simp [Mxe.softReset, Mxe.powerOn]
  · rw [heq]
    refine (foldl_allNoise_get (fun n (c : NoiseCtx) => c.softReset (u.contextClosed n)) (noiseOfPosition p) s.nru.contexts).trans ?_
    simp only [NoiseCtx.softReset, State.contextClosed_position]
    rfl
  · rw [heq]
    refine (foldl_allNoise_get (fun n (c : NoiseCtx) => c.softReset (u.contextClosed n)) (noiseOfChannel c) s.nru.contexts).trans ?_
    simp only [NoiseCtx.softReset, State.contextClosed_channel]
    rfl
  · rw [heq]; simp [NoiseSettings.powerOn]
  · rw [heq]
    refine (foldl_allPositions_get (fun p (c : EchoCtx) => c.softReset ((u.pos p).state == .closed)) p s.ecu).trans ?_
    exact EchoCtx.softReset_eq _ _
  · rw [heq]; exact if_pos h
  · rw [heq]; exact if_neg h
  · rw [State.softReset_port]
    refine ⟨rfl, rfl, rfl, rfl, rfl, rfl, ?_⟩
    change (u.cpt.get x).responses ++ (u.cpt.get x).untaken.map (u.cpt.get x).aborted = _
    rw [Cpt.answered_get]
    split
    · next h => subst h; rfl
    · rfl

end Sys2Proof.Machine
end

