-- ==== Sys2Proof/Proofs/StoreEngine.lean ====
section
/-!
PROOFS. O32 and O34 to O37: a pool grant, a fetch grant, the two ends of a fetch, and the scan of the store (R138 to
R151, R160, R161).
-/

namespace Sys2Proof.Machine

/-! ### The pool grant (R160, R161) -/

section
variable {s : State} {v : Fin 12}

theorem State.freeVoice_first (hv : s.vce[v].state = .free) (hw : ∀ w : Fin 12, w < v → s.vce[w].state ≠ .free) :
    s.freeVoice = some v :=
  allVoices_find _ v (beq_iff_eq.mpr hv) fun w h => not_lt.mp fun hlt => hw w hlt (beq_iff_eq.mp h)

theorem State.freeVoice_none (h : ∀ v : Fin 12, s.vce[v].state ≠ .free) : s.freeVoice = none :=
  List.find?_eq_none.mpr fun v _ => by simpa using h v

/-- The first waiting head in the visiting order is that of the nearest position after the pointer, its AGENT head
before its LINE head. -/
theorem State.visitOrder_first {i : Fin 16} {q : QueueId} (hq : s.headWaiting (s.pqc.pointer + 1 + i) q = true)
    (hj : ∀ j : Fin 16, j < i → ∀ y, s.headWaiting (s.pqc.pointer + 1 + j) y = false)
    (hline : q = .line → s.headWaiting (s.pqc.pointer + 1 + i) .agent = false) :
    (visitOrder s.pqc.pointer).find? (fun x => s.headWaiting x.1 x.2) = some (s.pqc.pointer + 1 + i, q) := by
  have hsplit : ∀ i : Fin 16, List.range 16 = List.range i ++ i.val :: (List.range (15 - i)).map (i.val + 1 + ·) := by
    decide
  rw [visitOrder, List.find?_flatMap, List.findSome?_eq_some_iff]
  refine ⟨_, _, _, hsplit i, ?_, fun j hmem => ?_⟩
  · rw [Fin.ofNat_val_eq_self]
    cases q with
    | agent => simp [hq]
    | line => simp [hq, hline rfl]
  · have hlt : j < i.val := List.mem_range.mp hmem
    have hval : Fin.ofNat 16 j < i := by
      rw [Fin.lt_def, Fin.val_ofNat, Nat.mod_eq_of_lt (by omega)]; exact hlt
    have hnone := hj _ hval
    rw [List.find?_eq_none]
    simp only [List.mem_cons, List.not_mem_nil, or_false]
    rintro x (rfl | rfl)
    · exact Bool.eq_false_iff.mp (hnone .agent)
    · exact Bool.eq_false_iff.mp (hnone .line)

theorem State.visitOrder_none (h : ∀ p q, s.headWaiting p q = false) :
    (visitOrder s.pqc.pointer).find? (fun x => s.headWaiting x.1 x.2) = none :=
  List.find?_eq_none.mpr fun x _ => by simp [h]

theorem exec_voicePoolGrant (h : s.rstn = false) : exec .voicePoolGrant s = .next s.poolGrant := by
  change Host.Outcome.next (if s.rstn then s else s.poolGrant) = _
  rw [h]; rfl

end

/-- Settles O32: a grant stands on a FREE voice and on a waiting head, each the first of its kind. -/
theorem poolGrantVisitsInTurn : Obligations.PoolGrantVisitsInTurn := by
  unfold Obligations.PoolGrantVisitsInTurn
  refine ⟨fun s v i q e others => ?_, fun s h => ?_⟩
  · intro p hr hv hw hqueue he hj hline
    have hhead : s.headWaiting p q = true := by rw [State.headWaiting, hqueue]; simp [he]
    refine ⟨_, (exec_voicePoolGrant hr).trans ?_, rfl⟩
    rw [State.poolGrant, State.freeVoice_first hv hw, State.visitOrder_first hhead hj hline]
    dsimp only
    rw [hqueue]
    cases q <;> rfl
  · change Host.Outcome.next (if s.rstn then s else s.poolGrant) = _
    have hgrant : s.poolGrant = s := by
      rcases h with hfree | hhead
      · rw [State.poolGrant, State.freeVoice_none hfree]
      · rw [State.poolGrant, State.visitOrder_none hhead]
        cases s.freeVoice <;> rfl
    rw [hgrant, ite_self]

/-! ### Who is owed the next fetch grant (R147) -/

section
variable {s : State}

theorem State.nextFetch_falls {v : Fin 12} (hfetch : s.sfe.fetch = none) (hready : s.sfe.store = .ready)
    (h : s.GrantFalls s.sfe.owed v) : s.nextFetch = some v := by
  rw [State.nextFetch, if_neg (by simp [hfetch, hready])]
  rcases h with ⟨howed, hflag⟩ | ⟨hlost, hfirst⟩
  · rw [howed]; exact if_pos hflag
  · split
    · next w howed => exact (if_neg (Bool.eq_false_iff.mp (hlost w howed))).trans (s.bestFlag_first v hfirst)
    · exact s.bestFlag_first v hfirst

theorem State.nextFetch_none (h : s.sfe.fetch ≠ none ∨ s.sfe.store ≠ .ready ∨ ∀ v : Fin 12, s.vce[v].refill = false) :
    s.nextFetch = none := by
  cases hnext : s.nextFetch with
  | none => rfl
  | some v =>
    exfalso
    have hflag := State.nextFetch_refill hnext
    rcases h with h | h | h
    · rw [State.nextFetch, if_pos (by simp [Option.isSome_iff_ne_none, h])] at hnext
      cases hnext
    · rw [State.nextFetch, if_pos (by simp [h])] at hnext
      cases hnext
    · rw [h v] at hflag; cases hflag

/-- With no fetch in flight, what is settled is what R147 says. -/
theorem State.nextFetch_owes (hfetch : s.sfe.fetch = none) : s.Owes s.sfe.owed s.nextFetch :=
  ⟨fun _ hready h => State.nextFetch_falls hfetch hready h, fun h => State.nextFetch_none (.inr h)⟩

theorem exec_fetchGrant_none (h : s.nextFetch = none) : exec .fetchGrant s = .next s := by
  change Host.Outcome.next (if s.rstn then s else s.grantFetch) = _
  rw [State.grantFetch, h, ite_self]

end

/-- Settles O34: the voice is R147's, and the fetch is worked out from its clip's place in the directory. -/
theorem fetchGrantServesByClass : Obligations.FetchGrantServesByClass := by
  unfold Obligations.FetchGrantServesByClass
  refine ⟨fun s => ⟨fun v => State.nextFetch_falls, fun h => ?_⟩, fun s v progress i n entry => ?_⟩
  · exact ⟨State.nextFetch_none h, exec_fetchGrant_none (State.nextFetch_none h)⟩
  · intro hr hready hfetch hfalls hclip hcurrent hstep hentry e
    have hclipEntry : clipEntry s.sfe.directory s.vce[v] = some entry := by
      rw [clipEntry, hcurrent]
      dsimp only
      rw [hstep]
      exact hentry
    change Host.Outcome.next (if s.rstn then s else s.grantFetch) = _
    rw [hr, State.grantFetch, State.nextFetch_falls hfetch hready hfalls]
    dsimp only
    rw [hclip, hclipEntry, if_neg (by decide)]
    have hsize : fetchSize progress.remaining s.vce[v].buffer.length entry.expand =
      min progress.remaining (min ((256 - s.vce[v].buffer.length) / e) (128 / e)) := rfl
    dsimp only
    rw [hsize]
    refine congrArg Host.Outcome.next ?_
    congr 1

/-! ### The ends of a fetch (R128, R129, R133, R149 to R151) -/

theorem clampSample_eq (x : Int) : clampSample x = max (-32768) (min 32767 x) := by
  change @Eq Int (if x < -32768 then -32768 else if 32767 < x then 32767 else x) _
  split
  · omega
  · split <;> omega

theorem placedSamples_eq (f : Fetch) (stored : List Word16) : placedSamples f stored = stored.flatMap (fun w =>
    List.replicate f.expand (max (-32768) (min 32767 ((w.toInt * (f.trim : Int) + 2048) / 4096)) : Int)) :=
  List.flatMap_congr fun _ _ => congrArg (List.replicate f.expand) (clampSample_eq _)

/-- Settles O35: the fetch ends, the voice is told of it by its state, and the next grant is settled. -/
theorem fetchCompletionPlacesSamples : Obligations.FetchCompletionPlacesSamples := by
  unfold Obligations.FetchCompletionPlacesSamples
  intro s f stored hr hfetch hlen
  have hexec : exec (.fetchCompletion stored) s = .next (s.completeFetch f stored) := by
    change Host.Outcome.next (match s.sfe.fetch with
      | none => s
      | some f => if s.rstn = false ∧ stored.length = f.count then s.completeFetch f stored else s) = _
    rw [hfetch]
    exact congrArg Host.Outcome.next (if_pos ⟨hr, hlen⟩)
  have htold : (s.completeFetch f stored).vce[f.voice] = s.vce[f.voice].fetchDone f stored :=
    upd_same s.vce f.voice (·.fetchDone f stored)
  refine ⟨_, hexec, rfl, ?_, fun w hw => ?_, fun hactive => htold.trans ?_, fun hdraining => htold.trans ?_⟩
  · exact State.nextFetch_owes (s :=
      { (s.modVoice f.voice (·.fetchDone f stored)) with sfe := { s.sfe with fetch := none, timeouts := 0 } }) rfl
  · exact upd_other s.vce f.voice w (·.fetchDone f stored) hw
  · rcases hactive with h | h <;> (rw [Voice.fetchDone, h, ← placedSamples_eq]; rfl)
  · rw [Voice.fetchDone, hdraining]; rfl

theorem Voice.fetchLost_eq (x : Voice) : x.fetchLost =
    if x.state = .draining ∧ x.ramp = .done then { x with state := .free, use := .none, drainedFor := none } else x := by
  cases hx : x.state with
  | draining =>
    simp only [Voice.fetchLost, hx, true_and]
    rfl
  | _ => rw [if_neg (by simp), Voice.fetchLost, hx]

/-- The state once the fetch in flight has been lost, its timeout counted. -/
def State.fetchLost (s : State) (f : Fetch) : State :=
  { (s.modVoice f.voice Voice.fetchLost) with
    sfe := { s.sfe with fetch := none, timeouts := min Config.timeoutLimit (s.sfe.timeouts + 1) } }

theorem State.timeoutFetch_settles {s : State} (f : Fetch) (h : s.sfe.timeouts < 3) :
    s.timeoutFetch f = (s.fetchLost f).settleOwed := by
  refine if_neg ?_
  change min 4 (s.sfe.timeouts + 1) ≠ 4
  omega

theorem State.timeoutFetch_fails {s : State} (f : Fetch) (h : 3 ≤ s.sfe.timeouts) :
    s.timeoutFetch f = (s.fetchLost f).failStore := by
  refine if_pos ?_
  change min 4 (s.sfe.timeouts + 1) = 4
  omega

/-- The voice of the fetch alone is told of its loss. -/
theorem State.fetchLost_voice (s : State) (f : Fetch) (w : Fin 12) : (s.fetchLost f).vce[w] =
    if w = f.voice ∧ s.vce[w].state = .draining ∧ s.vce[w].ramp = .done then
      { s.vce[w] with state := .free, use := .none, drainedFor := none }
    else s.vce[w] := by
  change (upd s.vce f.voice Voice.fetchLost)[w] = _
  by_cases hw : w = f.voice
  · subst hw
    rw [Fin.getElem_fin, upd_same, Voice.fetchLost_eq]
    simp
  · exact (upd_other s.vce f.voice w Voice.fetchLost hw).trans (if_neg fun h => hw h.1).symm

/-- Settles O36: below the fourth timeout in a row the next grant is settled, and at it the store fails. -/
theorem fetchTimeoutCounts : Obligations.FetchTimeoutCounts := by
  unfold Obligations.FetchTimeoutCounts
  intro s f hr hfetch
  have hexec : exec .fetchTimeout s = .next (s.timeoutFetch f) := by
    change Host.Outcome.next (match s.sfe.fetch with
      | none => s
      | some f => if s.rstn = false then s.timeoutFetch f else s) = _
    rw [hfetch]
    exact congrArg Host.Outcome.next (if_pos hr)
  by_cases hn : s.sfe.timeouts < 3
  · have hcount : min Config.timeoutLimit (s.sfe.timeouts + 1) = s.sfe.timeouts + 1 := by
      change min 4 _ = _; omega
    rw [State.timeoutFetch_settles f hn] at hexec
    refine ⟨_, hexec, s.fetchLost_voice f, ?_, fun _ => ?_, fun h => absurd hn (by omega)⟩
    · exact State.nextFetch_owes (s := s.fetchLost f) rfl
    · rw [← hcount]; rfl
  · have hcount : min Config.timeoutLimit (s.sfe.timeouts + 1) = 4 := by
      change min 4 _ = _; omega
    rw [State.timeoutFetch_fails f (by omega), State.failStore_eq] at hexec
    refine ⟨_, hexec, s.fetchLost_voice f, ?_, fun h => absurd h hn, fun _ => ?_⟩
    · exact ⟨fun _ h => (nomatch h), fun _ => rfl⟩
    · rw [← hcount]; rfl

end Sys2Proof.Machine
end

