-- ==== Sys2Proof/Proofs/StoreScan.lean ====
section
/-!
PROOFS. O37: what a scan reads from the bytes of the store, and how it ends (R138 to R140, R142, R188).
-/

namespace Sys2Proof.Machine

/-! ### Words of the store (R138) -/

/-- Word `i` of a run of bytes, little-endian, read byte by byte. -/
def wordAt (l : List Byte) (i : Nat) : Nat := (l.getD (2 * i) 0).toNat + 256 * (l.getD (2 * i + 1) 0).toNat

theorem leNat_two (a b : Byte) : leNat [a, b] = a.toNat + 256 * b.toNat := by simp [leNat]

theorem leNat_three (a b c : Byte) : leNat [a, b, c] = a.toNat + 256 * b.toNat + 65536 * c.toNat := by
  simp [leNat]; omega

/-- The words of an even run of bytes are its words read byte by byte. -/
theorem storeWords_eq {n : Nat} {l : List Byte} (h : l.length = 2 * n) : storeWords l = (List.range n).map (wordAt l) := by
  induction n generalizing l with
  | zero => rw [List.length_eq_zero_iff.mp h]; rfl
  | succ n ih =>
    match l, h with
    | a :: b :: rest, h =>
      have hrest : rest.length = 2 * n := by simp only [List.length_cons] at h; omega
      rw [storeWords, ih hrest, List.range_succ_eq_map, List.map_cons, List.map_map, leNat_two]
      rfl

theorem headerWord_eq {head : List Byte} (h : head.length = 32) {i : Nat} (hi : i < 16) :
    headerWord head i = wordAt head i := by
  rw [headerWord, storeWords_eq (n := 16) h]
  simp [List.getD, hi]

theorem settingsOf_eq {head : List Byte} (h : head.length = 32) :
    let setting (i : Nat) : Option Nat := if wordAt head i ≤ 511 then some (wordAt head i) else none
    settingsOf head =
      { reminder := setting 2, muted := setting 3, batteryLow := setting 4, batteryCritical := setting 5 } := by
  intro setting
  have hset : ∀ i, i < 16 → settingOf (headerWord head i) = setting i := fun i hi => by rw [headerWord_eq h hi]; rfl
  rw [settingsOf, hset 2 (by decide), hset 3 (by decide), hset 4 (by decide), hset 5 (by decide)]

theorem storeChecksum_eq {head dir : List Byte} {n : Nat} (h : head.length = 32) (hdir : dir.length = 8 * n) :
    storeChecksum head dir =
      (((List.range 15).map (wordAt head)).sum + ((List.range (4 * n)).map (wordAt dir)).sum) % 65536 := by
  rw [storeChecksum, storeWords_eq (n := 16) h, storeWords_eq (n := 4 * n) (by omega), ← List.map_take]
  rfl

/-! ### Directory entries (R139, R188) -/

/-- Directory entry `c`, read byte by byte. -/
def entryAt (dir : List Byte) (c : Nat) : DirEntry :=
  dirEntryOf (dir.getD (8 * c) 0) (dir.getD (8 * c + 1) 0) (dir.getD (8 * c + 2) 0) (dir.getD (8 * c + 3) 0)
    (dir.getD (8 * c + 4) 0) (dir.getD (8 * c + 5) 0) (dir.getD (8 * c + 6) 0) (dir.getD (8 * c + 7) 0)

/-- The directory holds one entry for each eight bytes. -/
theorem directoryOf_eq {n : Nat} {dir : List Byte} (h : dir.length = 8 * n) :
    directoryOf dir = (List.range n).map (entryAt dir) := by
  induction n generalizing dir with
  | zero => rw [List.length_eq_zero_iff.mp h]; rfl
  | succ n ih =>
    match dir, h with
    | s0 :: s1 :: s2 :: c0 :: c1 :: c2 :: t0 :: t1 :: rest, h =>
      have hrest : rest.length = 8 * n := by simp only [List.length_cons] at h; omega
      rw [directoryOf, ih hrest, List.range_succ_eq_map, List.map_cons, List.map_map]
      rfl

theorem entryAt_eq (dir : List Byte) (c : Nat) :
    let byte (i : Nat) : Nat := (dir.getD (8 * c + i) 0).toNat
    let start := byte 0 + 256 * byte 1 + 65536 * byte 2
    let count := byte 3 + 256 * byte 4 + 65536 * byte 5
    let rate := wordAt dir (4 * c + 3) / 16384
    entryAt dir c =
      { start := start, count := count, rate := rate, trim := min (wordAt dir (4 * c + 3) % 16384) 8192
        valid := decide (1 ≤ count ∧ start % 2 = 0 ∧ start + 2 * count ≤ 16777216 ∧ (rate = 1 ∨ rate = 2)) } := by
  intro byte start count rate
  have hword : leNat [dir.getD (8 * c + 6) 0, dir.getD (8 * c + 7) 0] = wordAt dir (4 * c + 3) := by
    rw [leNat_two, wordAt, show 2 * (4 * c + 3) = 8 * c + 6 by omega]
  simp only [entryAt, dirEntryOf, hword, leNat_three, DirEntry.mk.injEq]
  refine ⟨rfl, rfl, rfl, rfl, ?_⟩
  rw [Bool.eq_iff_iff]
  simp only [Bool.and_eq_true, Bool.or_eq_true, decide_eq_true_eq, beq_iff_eq, and_assoc]
  exact Iff.rfl

/-! ### How a scan ends (R142) -/

section
variable {s : State}

theorem exec_scanRead_header {head : List Byte} (hr : s.rstn = false) (hscan : s.sfe.scan = .header)
    (hlen : head.length = 32) : exec (.scanReadDone head) s = .next (s.headerRead head) := by
  change Host.Outcome.next (if s.rstn then s else _) = _
  rw [hr, hscan]
  exact congrArg Host.Outcome.next (if_pos hlen)

theorem exec_scanRead_directory {head got bytes : List Byte} (hr : s.rstn = false)
    (hscan : s.sfe.scan = .directory head got) : exec (.scanReadDone bytes) s = .next (s.directoryRead head got bytes) := by
  change Host.Outcome.next (if s.rstn then s else _) = _
  rw [hr, hscan]
  rfl

theorem State.headerRead_bad {head : List Byte} (h : headerWord head 0 ≠ 0x1624 ∨ 512 < headerWord head 1) :
    s.headerRead head = s.failScan := if_pos h

theorem State.headerRead_good {head : List Byte} (hword : headerWord head 0 = 0x1624) (hcount : headerWord head 1 ≤ 512) :
    s.headerRead head = if headerWord head 1 = 0 then s.endScan head []
      else { s with sfe := { s.sfe with scan := .directory head [] } } :=
  if_neg fun h => h.elim (fun h => h hword) (fun h => absurd hcount (by omega))

theorem State.directoryRead_part {head got bytes : List Byte} (h : got.length + bytes.length < 8 * headerWord head 1) :
    s.directoryRead head got bytes = { s with sfe := { s.sfe with scan := .directory head (got ++ bytes) } } := by
  have hall : (got ++ bytes).take (8 * headerWord head 1) = got ++ bytes :=
    List.take_of_length_le (by rw [List.length_append]; omega)
  rw [State.directoryRead, hall]
  exact if_neg (by rw [List.length_append]; omega)

theorem State.directoryRead_whole {head got bytes : List Byte} (h : got.length + bytes.length = 8 * headerWord head 1) :
    s.directoryRead head got bytes = s.endScan head (got ++ bytes) := by
  have hall : (got ++ bytes).take (8 * headerWord head 1) = got ++ bytes :=
    List.take_of_length_le (by rw [List.length_append]; omega)
  rw [State.directoryRead, hall]
  exact if_pos (by rw [List.length_append]; omega)

theorem State.endScan_passes {head dir : List Byte} (h : storeChecksum head dir = headerWord head 15) :
    s.endScan head dir = s.passScan head dir := if_pos h

theorem State.endScan_fails {head dir : List Byte} (h : storeChecksum head dir ≠ headerWord head 15) :
    s.endScan head dir = s.failScan := if_neg h

/-- A scan succeeds (R142): the engine holds what was read, with a report to every port. -/
theorem State.passScan_eq (head dir : List Byte) : s.passScan head dir = { s with
    sfe := { s.sfe with
      store := .ready, clipCount := headerWord head 1, directory := directoryOf dir
      settings := settingsOf head, scan := .idle }
    cpt := allPorts.foldl (fun c x => c.place s.ftu.frameCount x (.storeReady (headerWord head 1))) s.cpt } := by
  unfold State.passScan; rw [State.reportAll_eq]

end

/-- Settles O37: the bytes as words and entries, then each read by the state of the scan. -/
theorem scanReadsTheStore : Obligations.ScanReadsTheStore := by
  unfold Obligations.ScanReadsTheStore
  refine ⟨fun head dir hlen => ⟨fun i hi => headerWord_eq hlen hi, settingsOf_eq hlen, fun n hn => ?_⟩, fun s hr => ?_⟩
  · refine ⟨storeChecksum_eq hlen hn, by simp [directoryOf_eq hn], fun c hc => ?_⟩
    rw [directoryOf_eq hn, List.getElem?_map, List.getElem?_range hc]
    exact congrArg some (entryAt_eq dir c)
  intro failed passed
  have hfail : s.failScan = failed := s.failScan_eq
  have hpass : ∀ head dir, s.passScan head dir = passed head dir := fun _ _ => s.passScan_eq _ _
  rw [← hfail]
  simp only [← hpass]
  refine ⟨fun head hscan hlen => ?_, fun head got bytes hscan => ?_, fun hscan => ?_⟩
  · rw [exec_scanRead_header hr hscan hlen]
    refine ⟨fun hbad => by rw [State.headerRead_bad hbad], fun hword hzero => ?_, fun hword hone hcount => ?_⟩
    · rw [State.headerRead_good hword (by omega), if_pos hzero]
      exact ⟨fun hsum => by rw [State.endScan_passes hsum], fun hsum => by rw [State.endScan_fails hsum]⟩
    · rw [State.headerRead_good hword hcount, if_neg (by omega)]
  · rw [exec_scanRead_directory hr hscan]
    refine ⟨fun hpart => by rw [State.directoryRead_part hpart], fun hwhole => ?_⟩
    rw [State.directoryRead_whole hwhole]
    exact ⟨fun hsum => by rw [State.endScan_passes hsum], fun hsum => by rw [State.endScan_fails hsum]⟩
  · exact congrArg Host.Outcome.next (if_neg fun h => h.elim (fun h => by rw [hr] at h; cases h) hscan)

end Sys2Proof.Machine
end

