-- ==== Sys2Proof/Proofs/PositionWork.lean ====
section
/-!
PROOFS. O45 to O48: the upward frames of the headset links, and what the position controller does at a frame event
(R7, R8, R15 to R23, R38).
-/

namespace Sys2Proof.Machine

/-! ### Upward frames (R38) -/

theorem exec_headsetFrameArrival {s : State} (hr : s.rstn = false) (p : Fin 16) (words : List Word16) (framed : Bool) :
    exec (.headsetFrameArrival p words framed) s = .next (s.modHeadset p (·.arrive words framed)) := by
  change Host.Outcome.next (if s.rstn then s else _) = _
  rw [hr]
  rfl

theorem State.modHeadset_congr {s : State} {p : Fin 16} {f g : Headset → Headset} (h : f s.hli[p] = g s.hli[p]) :
    s.modHeadset p f = s.modHeadset p g := by
  have hupd : upd s.hli p f = upd s.hli p g := congrArg (s.hli.set p ·) h
  unfold State.modHeadset
  rw [hupd]

/-- Settles O45: a frame is whole by its length, its framing and the cut-off mark. -/
theorem upwardFramesArriveWhole : Obligations.UpwardFramesArriveWhole := by
  unfold Obligations.UpwardFramesArriveWhole
  intro s p samples status words framed hr
  refine ⟨fun hlen hcut => ?_, fun hpart => ?_⟩
  · rw [exec_headsetFrameArrival hr]
    refine congrArg Host.Outcome.next (State.modHeadset_congr ((if_pos ?_).trans ?_))
    · simpa [Headset.whole, hlen] using hcut
    · have htake : (samples ++ [status]).take 64 = samples := by rw [← hlen]; exact List.take_left
      have hget : (samples ++ [status]).getD 64 0 = status := by rw [← hlen]; simp
      rw [htake, hget]
  · rw [exec_headsetFrameArrival hr]
    refine congrArg Host.Outcome.next (State.modHeadset_congr (if_neg ?_))
    rw [Headset.whole, Bool.and_eq_true, Bool.and_eq_true]
    rintro ⟨⟨hlen, hframed⟩, hcut⟩
    rcases hpart with h | h | h
    · exact h (beq_iff_eq.mp hlen)
    · rw [h] at hframed; cases hframed
    · rw [h] at hcut; cases hcut

/-! ### A single event of a frame event's work -/

section
variable {s : State} {w : Work} {due : State → Bool}

theorem foldl_workOne_of_absent (l : List Work) (h : ∀ x ∈ l, x ∉ s.work) : l.foldl State.workOne s = s := by
  induction l with
  | nil => rfl
  | cons x l ih =>
    rw [List.foldl_cons, State.workOne, if_neg (h x (.head _))]
    exact ih fun y hy => h y (.tail _ hy)

theorem State.eventWork_done (hr : s.rstn = false) (hw : w ∈ s.work) (hdue : due s = true)
    (hbefore : ∀ x ∈ workBefore w, x ∉ s.work := by nofun) :
    s.eventWork w due = State.runWork { s with work := s.work.erase w } w := by
  rw [State.eventWork, if_pos ⟨hr, hw⟩, foldl_workOne_of_absent _ hbefore]
  dsimp only
  rw [if_pos hdue, State.workOne, if_pos hw]

theorem State.eventWork_idle (hdue : due s = false) (hbefore : ∀ x ∈ workBefore w, x ∉ s.work := by nofun) :
    s.eventWork w due = s := by
  rw [State.eventWork, foldl_workOne_of_absent _ hbefore]
  simp [hdue]

end

theorem State.modPos_pos_self (s : State) (p : Fin 16) (f : Position → Position) : (s.modPos p f).pos p = f (s.pos p) :=
  upd_same s.pct p f

/-! ### Presence (R15 to R17) -/

section
variable {s : State} {p : Fin 16}

theorem State.presenceDue_iff : s.presenceDue p = true ↔
    rawPresent s.hli[p].handed ≠ (s.pos p).present ∧ 7 ≤ (s.pos p).presenceRun := by
  simp [State.presenceDue]

/-- Without a change of the present field the presence piece writes the record alone. -/
theorem State.runPresence_counts {run : Nat}
    (h : ((s.pos p).readStatus s.hli[p].handed).debounce (rawPresent s.hli[p].handed) =
      { (s.pos p).readStatus s.hli[p].handed with presenceRun := run }) :
    s.runPresence p = s.modPos p (fun x => { x.readStatus s.hli[p].handed with presenceRun := run }) := by
  unfold State.runPresence
  dsimp only
  rw [State.modPos_congr (g := fun x => { x.readStatus s.hli[p].handed with presenceRun := run }) h]
  refine if_pos ?_
  rw [State.modPos_pos_self]
  rfl

/-- The present field changes: the record is written, and reports and the restart of learning follow it. -/
theorem State.runPresence_changes (h : s.presenceDue p = true) : s.runPresence p =
    let raw := rawPresent s.hli[p].handed
    let s1 := s.modPos p (fun x => { x.readStatus s.hli[p].handed with
      present := raw, presenceRun := 0, band := if raw then x.band else .normal })
    if raw then
      match (s.pos p).state with
      | .closed => s1
      | .closing => s1.report .desk (.headsetPresent p)
      | .opened => (s1.modNoise (noiseOfPosition p) NoiseCtx.restart).report .desk (.headsetPresent p)
    else if (s.pos p).state = .closed then s1
    else s1.report .desk (.headsetAbsent p) := by
  obtain ⟨hraw, hrun⟩ := State.presenceDue_iff.mp h
  have hbounce : ((s.pos p).readStatus s.hli[p].handed).debounce (rawPresent s.hli[p].handed) =
      { (s.pos p).readStatus s.hli[p].handed with
        present := rawPresent s.hli[p].handed, presenceRun := 0
        band := if rawPresent s.hli[p].handed then (s.pos p).band else .normal } :=
    (if_neg hraw).trans (if_neg (Nat.not_lt.mpr hrun))
  unfold State.runPresence
  dsimp only
  rw [State.modPos_congr (g := fun x => { x.readStatus s.hli[p].handed with
    present := rawPresent s.hli[p].handed, presenceRun := 0
    band := if rawPresent s.hli[p].handed then x.band else .normal }) hbounce, State.modPos_pos_self]
  exact if_neg hraw

/-- The record, the reports and the restart of learning that a change of the present field leaves. -/
theorem State.runPresence_eq {raw : Bool} (hraw : rawPresent s.hli[p].handed = raw) (h : s.presenceDue p = true) :
    s.runPresence p = { s with
      pct := upd s.pct p (fun x => { x.readStatus s.hli[p].handed with
        present := raw, presenceRun := 0, band := if raw then x.band else .normal })
      nru := if raw = true ∧ (s.pos p).state = .opened then
          { s.nru with contexts := upd s.nru.contexts (noiseOfPosition p) (fun n => { n with
              state := .learn, learned := 0, hangover := 0, speechRun := 0 }) }
        else s.nru
      cpt := if (s.pos p).state = .closed then s.cpt
        else s.cpt.place s.ftu.frameCount .desk (if raw then .headsetPresent p else .headsetAbsent p) } := by
  rw [State.runPresence_changes h]
  dsimp only
  rw [hraw]
  cases raw <;> cases (s.pos p).state <;> rfl

/-! ### Button (R18) -/

theorem Position.pressed_iff (x : Position) : x.pressed = true ↔ x.button = true ∧ 2 ≤ x.releasedRun := by
  simp [Position.pressed]

theorem State.runButton_idle (h : ¬((s.pos p).button = true ∧ 2 ≤ (s.pos p).releasedRun ∧ (s.pos p).state = .opened)) :
    s.runButton p = s.modPos p (fun x => { x with releasedRun := if x.button then 0 else min 2 (x.releasedRun + 1) }) :=
  if_neg fun hpress => h ⟨((Position.pressed_iff _).mp hpress.1).1, ((Position.pressed_iff _).mp hpress.1).2, hpress.2⟩

/-- The mute setting that a press leaves. -/
def Position.toggled (x : Position) : Bool := if x.buttonMute then !x.mute else x.mute

theorem State.modPos_modPos (f g : Position → Position) : (s.modPos p f).modPos p g = s.modPos p (fun x => g (f x)) := by
  simp only [State.modPos, upd_upd]

theorem State.runButton_press (hbutton : (s.pos p).button = true) (hrun : 2 ≤ (s.pos p).releasedRun)
    (hstate : (s.pos p).state = .opened) : s.runButton p =
      (s.modPos p (fun x => { x with releasedRun := 0 }.setMute x.toggled)).report .desk
        (.button p (s.pos p).toggled) := by
  have hreleased : s.modPos p (fun x => { x with releasedRun := if x.button then 0 else min 2 (x.releasedRun + 1) }) =
      s.modPos p (fun x => { x with releasedRun := 0 }) := State.modPos_congr (by rw [hbutton]; rfl)
  have hmuted : (if (s.pos p).buttonMute then
        (s.modPos p (fun x => { x with releasedRun := 0 })).modPos p (fun y => y.setMute (!(s.pos p).mute))
      else s.modPos p (fun x => { x with releasedRun := 0 })) =
      s.modPos p (fun x => { x with releasedRun := 0 }.setMute x.toggled) := by
    split
    · next h =>
      rw [State.modPos_modPos]
      exact State.modPos_congr (by rw [Position.toggled, if_pos h])
    · next h =>
      exact State.modPos_congr (by rw [Position.toggled, if_neg h, Position.setMute_eq]; cases (s.pos p).mute <;> rfl)
  unfold State.runButton
  dsimp only
  rw [if_pos ⟨(Position.pressed_iff _).mpr ⟨hbutton, hrun⟩, hstate⟩, hreleased, hmuted, State.modPos_pos_self,
    Position.setMute_eq]

/-! ### Battery (R19) -/

theorem Band.next_critical {b : Band} {l low critical : Nat} (hb : b ≠ .critical) (hl : l ≤ critical) :
    b.next l low critical = .critical := by
  cases b with
  | critical => exact absurd rfl hb
  | _ => exact if_pos hl

theorem State.runBattery_off (h : ¬((s.pos p).state = .opened ∧ (s.pos p).present = true)) : s.runBattery p = s := if_neg h

theorem State.runBattery_full (h : (s.pos p).state = .opened ∧ (s.pos p).present = true)
    (hlevel : (s.pos p).batteryLevel = 127) : s.runBattery p = s.modPos p (fun x => { x with band := .normal }) :=
  (if_pos h).trans (if_pos hlevel)

section
variable {b : Band} (h : (s.pos p).state = .opened ∧ (s.pos p).present = true) (hlevel : (s.pos p).batteryLevel ≠ 127)
  (hb : (s.pos p).band.next (s.pos p).batteryLevel (s.pos p).batteryLow (s.pos p).batteryCritical = b)

include h hlevel hb

/-- A move that is no fall writes the band alone. -/
theorem State.runBattery_moves (hfall : (s.pos p).band = .critical ∨ b = .normal ∨ b = (s.pos p).band) :
    s.runBattery p = s.modPos p (fun x => { x with band := b }) := by
  unfold State.runBattery
  dsimp only
  rw [if_pos h, if_neg hlevel, hb]
  rcases hfall with hfall | hfall | hfall
  · rw [hfall]
  · rw [hfall]; cases (s.pos p).band <;> rfl
  · cases hband : (s.pos p).band <;> (rw [hfall, hband])

theorem State.runBattery_low (hfall : (s.pos p).band = .normal ∧ b = .low) : s.runBattery p =
    ((s.modPos p (fun x => { x with band := .low })).report .desk (.batteryLow p (s.pos p).batteryLevel)).offer p
      .batteryLow := by
  unfold State.runBattery
  dsimp only
  rw [if_pos h, if_neg hlevel, hb, hfall.1, hfall.2]

theorem State.runBattery_critical (hfall : (s.pos p).band ≠ .critical ∧ b = .critical) : s.runBattery p =
    ((s.modPos p (fun x => { x with band := .critical })).reportAll [.desk, .line]
      (.batteryCritical p (s.pos p).batteryLevel)).offer p .batteryCritical := by
  unfold State.runBattery
  dsimp only
  rw [if_pos h, if_neg hlevel, hb, hfall.2]
  cases hband : (s.pos p).band with
  | critical => exact absurd hband hfall.1
  | _ => rfl

end

end

theorem exec_presenceChange (s : State) (p : Fin 16) :
    exec (.presenceChange p) s = .next (s.eventWork (.presence p) (fun s => s.presenceDue p)) := rfl

/-- Settles O46: each piece by what it finds in the record and in the status word. -/
theorem presenceChanges : Obligations.PresenceChanges := by
  unfold Obligations.PresenceChanges
  refine ⟨fun s p hr hw => ⟨fun hidle => ?_, fun hraw hrun => ?_⟩, fun s p held h => ⟨fun hraw => ?_, fun hraw hrun => ?_⟩,
    fun s p held h => ⟨fun hidle => ?_, fun ⟨hbutton, hrun, hstate⟩ => ?_⟩, fun s p held h => ?_⟩
  · have hdue : s.presenceDue p = false := Bool.eq_false_iff.mpr fun hdue => by
      obtain ⟨hdiff, hrun⟩ := State.presenceDue_iff.mp hdue
      exact hidle.elim hdiff fun hrun' => absurd hrun (by omega)
    rw [exec_presenceChange, State.eventWork_idle hdue]
  · let u : State := { s with work := s.work.erase (.presence p) }
    have hdue : u.presenceDue p = true := State.presenceDue_iff.mpr ⟨hraw, hrun⟩
    rw [exec_presenceChange, State.eventWork_done hr hw hdue]
    exact congrArg Host.Outcome.next (State.runPresence_eq (s := u) rfl hdue)
  · rw [exec_frameEvent_piece s _ held h]
    exact congrArg Host.Outcome.next (State.runPresence_counts (s := { s with work := s.work.erase (.presence p) })
      (if_pos hraw))
  · rw [exec_frameEvent_piece s _ held h]
    exact congrArg Host.Outcome.next (State.runPresence_counts (s := { s with work := s.work.erase (.presence p) })
      ((if_neg hraw).trans (if_pos hrun)))
  · rw [exec_frameEvent_piece s _ held h]
    exact congrArg Host.Outcome.next (State.runButton_idle (s := { s with work := s.work.erase (.button p) }) hidle)
  · rw [exec_frameEvent_piece s _ held h]
    refine congrArg Host.Outcome.next
      ((State.runButton_press (s := { s with work := s.work.erase (.button p) }) hbutton hrun hstate).trans ?_)
    simp only [Position.setMute_eq]
    rfl
  · rw [exec_frameEvent_piece s _ held h]
    let u : State := { s with work := s.work.erase (.battery p) }
    change (_ → Host.Outcome.next (u.runBattery p) = _) ∧ _
    refine ⟨fun hoff => ?_, fun hon hfull => ?_, fun hon hlevel hband hcritical => ?_,
      fun hon hlevel hband hcritical hlow => ?_, fun hon hlevel hband hcritical hlow => ?_,
      fun hon hlevel hband hcritical => ?_, fun hon hlevel hband => ?_⟩
    · exact congrArg Host.Outcome.next (State.runBattery_off (s := u) hoff)
    · exact congrArg Host.Outcome.next (State.runBattery_full (s := u) hon hfull)
    · have hb : (u.pos p).band.next (u.pos p).batteryLevel (u.pos p).batteryLow (u.pos p).batteryCritical = .critical :=
        Band.next_critical hband hcritical
      exact congrArg Host.Outcome.next
        ((State.runBattery_critical (s := u) hon hlevel hb ⟨hband, rfl⟩).trans (State.offer_eq _ p .batteryCritical))
    · have hb : (u.pos p).band.next (u.pos p).batteryLevel (u.pos p).batteryLow (u.pos p).batteryCritical = .low := by
        rw [hband]; exact (if_neg (Nat.not_le.mpr hcritical)).trans (if_pos hlow)
      exact congrArg Host.Outcome.next
        ((State.runBattery_low (s := u) hon hlevel hb ⟨hband, rfl⟩).trans (State.offer_eq _ p .batteryLow))
    · have hb : (u.pos p).band.next (u.pos p).batteryLevel (u.pos p).batteryLow (u.pos p).batteryCritical = .normal := by
        rw [hband]; exact (if_neg (Nat.not_le.mpr hcritical)).trans (if_neg (Nat.not_le.mpr hlow))
      exact congrArg Host.Outcome.next (State.runBattery_moves (s := u) hon hlevel hb (.inr (.inl rfl)))
    · have hb : (u.pos p).band.next (u.pos p).batteryLevel (u.pos p).batteryLow (u.pos p).batteryCritical =
          if (s.pos p).batteryLow + 3 ≤ (s.pos p).batteryLevel then .normal else .low := by
        rw [hband]; exact if_neg (Nat.not_le.mpr hcritical)
      refine congrArg Host.Outcome.next (State.runBattery_moves (s := u) hon hlevel hb (.inr ?_))
      split
      · exact .inl rfl
      · exact .inr hband.symm
    · have hb : (u.pos p).band.next (u.pos p).batteryLevel (u.pos p).batteryLow (u.pos p).batteryCritical =
          if (s.pos p).batteryCritical + 3 ≤ (s.pos p).batteryLevel then .low else .critical := by
        rw [hband]; rfl
      exact congrArg Host.Outcome.next (State.runBattery_moves (s := u) hon hlevel hb (.inl hband))

end Sys2Proof.Machine
end

