-- ==== Sys2Proof/Proofs/CallWork.lean ====
section
/-!
PROOFS. O47 and O48: reminders, muted talk and the completion of a close at a frame event (R7, R8, R21, R23).
-/

namespace Sys2Proof.Machine

section
variable {s : State} {p : Fin 16}

/-! ### Reminders (R21) -/

theorem State.reminderDue_iff : s.reminderDue p = true ↔
    (s.pos p).reminderStatus = .running ∧ (s.pos p).reminderCounter ≤ 1 := by
  simp [State.reminderDue]

theorem State.runReminder_idle (h : (s.pos p).reminderStatus ≠ .running) : s.runReminder p = s := if_neg h

theorem State.runReminder_counts (h : (s.pos p).reminderStatus = .running) (hcount : 1 < (s.pos p).reminderCounter) :
    s.runReminder p = s.modPos p (fun x => { x with reminderCounter := x.reminderCounter - 1 }) :=
  (if_pos h).trans (if_neg (Nat.not_le.mpr hcount))

theorem State.runReminder_expires (h : (s.pos p).reminderStatus = .running) (hcount : (s.pos p).reminderCounter ≤ 1) :
    s.runReminder p = { s with
      pct := upd s.pct p (fun x => { x with
        reminderCounter := if x.reminderRepeat = true then x.reminderInterval else 0
        reminderStatus := if x.reminderRepeat = true then .running else .expired })
      pqc := s.afterOffer p .reminder
      cpt := (s.cpt.place s.ftu.frameCount .desk (.holdReminder p (s.pos p).reminderRepeat)).place s.ftu.frameCount
        .line (.holdReminder p (s.pos p).reminderRepeat) } := by
  have hrecord : s.modPos p (fun x =>
        if x.reminderRepeat then { x with reminderCounter := x.reminderInterval }
        else { x with reminderCounter := 0, reminderStatus := .expired }) =
      s.modPos p (fun x => { x with
        reminderCounter := if x.reminderRepeat = true then x.reminderInterval else 0
        reminderStatus := if x.reminderRepeat = true then .running else .expired }) :=
    State.modPos_congr (by
      cases hx : (s.pos p).reminderRepeat with
      | true => rw [if_pos rfl, if_pos rfl, if_pos rfl, ← h]
      | false => rfl)
  unfold State.runReminder
  dsimp only
  rw [if_pos h, if_pos hcount, hrecord]
  exact State.offer_eq _ p .reminder

/-! ### Muted talk (R23) -/

theorem State.mutedSpeech_iff : s.mutedSpeech p = true ↔
    (s.pos p).state = .opened ∧ (s.pos p).mute = true ∧ s.taken.noise[noiseOfPosition p].speech = true := by
  simp [State.mutedSpeech, and_assoc]

theorem State.mutedDue_iff : s.mutedDue p = true ↔
    s.mutedSpeech p = true ∧ 499 ≤ (s.pos p).mutedCount ∧ (s.pos p).mutedIssued = false := by
  simp [State.mutedDue, and_assoc]

theorem State.runMuted_idle (h : ¬s.mutedSpeech p = true) : s.runMuted p = s := if_neg h

theorem State.runMuted_counts (h : s.mutedSpeech p = true) (hdue : ¬s.mutedDue p = true) :
    s.runMuted p = s.modPos p (fun x => { x with mutedCount := min 500 (x.mutedCount + 1) }) :=
  (if_pos h).trans (if_neg hdue)

theorem State.runMuted_fills (h : s.mutedDue p = true) : s.runMuted p = { s with
    pct := upd s.pct p (fun x => { x with mutedCount := 500, mutedIssued := true })
    pqc := s.afterOffer p .muted
    cpt := s.cpt.place s.ftu.frameCount .desk (.mutedTalk p) } := by
  obtain ⟨hspeech, hcount, -⟩ := State.mutedDue_iff.mp h
  have hrecord : (s.modPos p (fun x => { x with mutedCount := min 500 (x.mutedCount + 1) })).modPos p
        (fun x => { x with mutedIssued := true }) =
      s.modPos p (fun x => { x with mutedCount := 500, mutedIssued := true }) := by
    rw [State.modPos_modPos]
    exact State.modPos_congr (by rw [Nat.min_eq_left (show 500 ≤ (s.pos p).mutedCount + 1 by omega)])
  unfold State.runMuted
  dsimp only
  rw [if_pos hspeech, if_pos h, hrecord]
  exact State.offer_eq _ p .muted

/-! ### Close completion (R7, R8) -/

theorem State.closeDue_iff : s.closeDue p = true ↔ (s.pos p).state = .closing ∧
    ¬∃ v : Fin 12, s.vce[v].state = .draining ∧ s.vce[v].drainedFor = some p := by
  simp [State.closeDue, State.drainsFor, mem_allVoices]

theorem EchoCtx.closed_eq (c : EchoCtx) (plan : Plan) : c.closed plan = { c with
    coeffs := if plan = .keep then c.coeffs else List.replicate 128 0
    generation := if plan = .keep ∨ c.coeffs = List.replicate 128 0 then c.generation else c.generation + 1
    hangover := 0, good := 0, poor := 0, diverge := 0, state := .off } := by
  cases plan with
  | keep => simp [EchoCtx.closed, EchoCtx.zeroCounters]
  | clear => simp [EchoCtx.closed, EchoCtx.zeroCounters, EchoCtx.setCoeffs, zeroCoeffs]

theorem NoiseCtx.closed_eq (c : NoiseCtx) (plan : Plan) : c.closed plan =
    if plan = .keep then c
    else { c with state := .learn, learned := 0, estimate := 1, hangover := 0, speechRun := 0, gain := 4096 } := by
  cases plan <;> rfl

theorem State.runClose_completes {plan : Plan} (h : s.closeDue p = true) (hplan : (s.pos p).closePlan = some plan) :
    s.runClose p = s.completeClose p plan := by
  rw [State.runClose, if_pos h, hplan]

end

/-- Settles O47: the reminder by its status and counter, muted talk by the speech, the count and the issued flag. -/
theorem remindersAndMutedTalk : Obligations.RemindersAndMutedTalk := by
  unfold Obligations.RemindersAndMutedTalk
  refine ⟨fun s p hr hpresence hbutton hbattery => ⟨fun hw => ⟨fun hidle => ?_, fun hrunning hcount => ?_⟩,
      fun hreminder hw => ⟨fun hidle => ?_, fun hspeaking hcount hissued => ?_⟩⟩,
    fun s p held h => ⟨fun hrunning hcount => ?_, fun hidle => ?_⟩,
    fun s p held h => ⟨fun hidle => ?_, fun hspeaking hcount => ?_⟩⟩
  · have hbefore : ∀ x ∈ workBefore (.reminder p), x ∉ s.work := by
      simp [workBefore, hpresence, hbutton, hbattery]
    have hdue : s.reminderDue p = false := Bool.eq_false_iff.mpr fun hdue => by
      obtain ⟨hrunning, hcount⟩ := State.reminderDue_iff.mp hdue
      exact hidle.elim (· hrunning) fun h => absurd hcount (by omega)
    exact congrArg Host.Outcome.next (State.eventWork_idle (due := (·.reminderDue p)) hdue hbefore)
  · have hbefore : ∀ x ∈ workBefore (.reminder p), x ∉ s.work := by
      simp [workBefore, hpresence, hbutton, hbattery]
    exact congrArg Host.Outcome.next ((State.eventWork_done (due := (·.reminderDue p)) hr hw
      (State.reminderDue_iff.mpr ⟨hrunning, hcount⟩) hbefore).trans
      (State.runReminder_expires (s := { s with work := s.work.erase (.reminder p) }) hrunning hcount))
  · have hbefore : ∀ x ∈ workBefore (.muted p), x ∉ s.work := by
      simp [workBefore, hpresence, hbutton, hbattery, hreminder]
    have hdue : s.mutedDue p = false := Bool.eq_false_iff.mpr fun hdue => by
      obtain ⟨hspeech, hcount, hissued⟩ := State.mutedDue_iff.mp hdue
      rcases hidle with h | h | h
      · exact h (State.mutedSpeech_iff.mp hspeech)
      · omega
      · rw [hissued] at h; cases h
    exact congrArg Host.Outcome.next (State.eventWork_idle (due := (·.mutedDue p)) hdue hbefore)
  · have hbefore : ∀ x ∈ workBefore (.muted p), x ∉ s.work := by
      simp [workBefore, hpresence, hbutton, hbattery, hreminder]
    have hdue : s.mutedDue p = true := State.mutedDue_iff.mpr ⟨State.mutedSpeech_iff.mpr hspeaking, hcount, hissued⟩
    exact congrArg Host.Outcome.next ((State.eventWork_done (due := (·.mutedDue p)) hr hw hdue hbefore).trans
      (State.runMuted_fills (s := { s with work := s.work.erase (.muted p) }) hdue))
  · exact (exec_frameEvent_piece s _ held h).trans (congrArg Host.Outcome.next
      (State.runReminder_counts (s := { s with work := s.work.erase (.reminder p) }) hrunning hcount))
  · exact (exec_frameEvent_piece s _ held h).trans (congrArg Host.Outcome.next
      (State.runReminder_idle (s := { s with work := s.work.erase (.reminder p) }) hidle))
  · exact (exec_frameEvent_piece s _ held h).trans (congrArg Host.Outcome.next
      (State.runMuted_idle (s := { s with work := s.work.erase (.muted p) }) fun hs =>
        hidle (State.mutedSpeech_iff.mp hs)))
  · have hdue : ¬s.mutedDue p = true := fun hdue => by
      obtain ⟨-, hfull, hissued⟩ := State.mutedDue_iff.mp hdue
      rcases hcount with h | h
      · omega
      · rw [hissued] at h; cases h
    exact (exec_frameEvent_piece s _ held h).trans (congrArg Host.Outcome.next
      (State.runMuted_counts (s := { s with work := s.work.erase (.muted p) })
        (State.mutedSpeech_iff.mpr hspeaking) hdue))

/-- Settles O48: the close waits on the voices alone, and its plan says what becomes of the contexts. -/
theorem closeCompletes : Obligations.CloseCompletes := by
  unfold Obligations.CloseCompletes
  intro s p plan hr hw
  refine ⟨fun hidle => ?_, fun hstate hwaits hplan => ?_⟩
  · have hdue : s.closeDue p = false := Bool.eq_false_iff.mpr fun hdue => by
      obtain ⟨hstate, hwaits⟩ := State.closeDue_iff.mp hdue
      exact hidle.elim (· hstate) hwaits
    exact congrArg Host.Outcome.next (State.eventWork_idle (due := (·.closeDue p)) hdue)
  · have hdue : s.closeDue p = true := State.closeDue_iff.mpr ⟨hstate, hwaits⟩
    refine congrArg Host.Outcome.next ((State.eventWork_done (due := (·.closeDue p)) hr hw hdue).trans
      ((State.runClose_completes (s := { s with work := s.work.erase (.close p) }) hdue hplan).trans ?_))
    simp only [State.completeClose, EchoCtx.closed_eq, NoiseCtx.closed_eq, beq_eq_decide]
    rfl

end Sys2Proof.Machine
end

