-- ==== Sys2Proof/Proofs/MixWork.lean ====
section
/-!
PROOFS. The mix engine's work, destination by destination, in the words of chapter 3: what each role adds to the sum
of a destination, and what every record holds after a frame event's mix (R46 to R62). O60 follows from the sums.
-/

namespace Sys2Proof.Machine

/-! ### What a role adds (R42, R43, R49, R52, R53) -/

section
variable {s : State}

theorem State.sourceFrame_eq (use : VoiceUse) (named : Option Src) (x : Src) :
    s.sourceFrame use named x = s.roleFrame use named x := by
  cases x with
  | channel c => rfl
  | voice v =>
    by_cases hprime : named = some (.voice v) ∧ s.vce[v].state = .priming
    · exact (if_pos hprime).trans (if_pos (.inr hprime)).symm
    · refine (if_neg hprime).trans ?_
      by_cases huse : s.taken.voice[v].use = use
      · exact (if_pos huse).trans (if_neg fun h => h.elim (· huse) hprime).symm
      · exact (if_neg huse).trans (if_pos (.inl huse)).symm

theorem State.roleTerm_share (use : VoiceUse) (t : Term) (named : Option Src) (target : Nat) (cut gone : Bool) (j : Nat) :
    (s.roleTerm use t named target cut gone).frame.getD j 0 * (s.roleTerm use t named target cut gone).gainAt j =
      s.roleShare use t named target cut gone j := by
  have hframe : s.sourceFrame use named = s.roleFrame use named := funext (State.sourceFrame_eq use named)
  unfold State.roleTerm State.roleShare
  rw [hframe]
  cases named with
  | some x => rfl
  | none =>
    cases hsource : t.source with
    | none => simp [namedTerm, hsource, noTerm, TermUse.gainAt, rampGain]
    | some x => simp only [namedTerm, hsource]; rfl

theorem fixedTerm_share (t : Term) (frame : Frame) (target : Nat) (cut : Bool) (j : Nat) :
    (fixedTerm t frame target cut).frame.getD j 0 * (fixedTerm t frame target cut).gainAt j =
      fixedShare frame t target cut j := rfl

theorem State.roleTerm_record (use : VoiceUse) (t : Term) (named : Option Src) (target : Nat) (cut gone : Bool) :
    (s.roleTerm use t named target cut gone).record = roleAfter named target cut := by
  unfold State.roleTerm namedTerm
  cases named with
  | some x => rfl
  | none => cases t.source <;> rfl

theorem mixAcc_four (a b c d : TermUse) (j : Nat) : mixAcc [a, b, c, d] j =
    a.frame.getD j 0 * a.gainAt j + b.frame.getD j 0 * b.gainAt j + c.frame.getD j 0 * c.gainAt j +
      d.frame.getD j 0 * d.gainAt j := by
  simp [mixAcc, add_assoc]

/-! ### The sums of the destinations (R46 to R48, R57, R58) -/

theorem State.earUses_eq (p : Fin 16) (d : Nat) : s.earUses p d =
    [ fixedTerm s.mxe.earTerms[p].far s.taken.far[p] (s.farTarget p d) false,
      s.roleTerm (.prompt p .agent) s.mxe.earTerms[p].agentPrompt ((s.headVoice p .agent).map .voice)
        (s.pos p).promptGain false false,
      s.roleTerm (.prompt p .line) s.mxe.earTerms[p].linePrompt ((s.headVoice p .line).map .voice)
        (s.pos p).announceGain false false,
      s.roleTerm .none s.mxe.earTerms[p].talk ((s.talker p).map .channel) (s.talkGainOf (s.talker p)) false false ] := by
  simp only [State.earUses]
  rfl

theorem State.micCut_eq (p : Fin 16) : (!((s.pos p).call == .talk && !(s.pos p).mute)) = s.micCut p := by
  rw [State.micCut]
  cases (s.pos p).call <;> cases (s.pos p).mute <;> rfl

theorem State.holdTarget_eq (p : Fin 16) :
    (if (s.pos p).call = .hold ∧ (s.headVoice p .line).isSome = false then (s.pos p).holdGain else 0) = s.holdTarget p := by
  rw [State.holdTarget]
  cases s.headVoice p .line <;> simp

theorem State.lineUses_eq (p : Fin 16) : s.lineUses p =
    [ fixedTerm s.mxe.lineTerms[p].mic s.taken.noise[noiseOfPosition p].samples 4096 (s.micCut p),
      s.roleTerm .none s.mxe.lineTerms[p].talk ((s.talker p).map .channel) (s.talkGainOf (s.talker p)) (!s.bargesIn p)
        (decide ((s.pos p).call ≠ .talk)),
      s.roleTerm (.prompt p .line) s.mxe.lineTerms[p].linePrompt ((s.headVoice p .line).map .voice) 4096 false false,
      s.roleTerm .program s.mxe.lineTerms[p].hold ((s.pos p).holdSource.map .voice) (s.holdTarget p) false false ] := by
  have hgone : ((s.pos p).call != .talk) = decide ((s.pos p).call ≠ .talk) := by cases (s.pos p).call <;> rfl
  simp only [State.lineUses, State.micCut_eq, State.holdTarget_eq, hgone]
  rfl

theorem State.supMicCut_eq (p : Fin 16) :
    (!(!(s.pos p).mute && ((s.pos p).call == .talk || (s.talker p).isSome))) = s.supMicCut p := by
  rw [State.supMicCut]
  cases (s.pos p).call <;> cases (s.pos p).mute <;> cases s.talker p <;> rfl

theorem State.supUses_eq (c : Fin 4) (p : Fin 16) : s.supUses c p =
    [ fixedTerm s.mxe.supTerms[c].far s.taken.far[p] (if (s.pos p).call = .talk then 4096 else 0) false,
      fixedTerm s.mxe.supTerms[c].mic s.taken.noise[noiseOfPosition p].samples 4096 (s.supMicCut p),
      s.roleTerm (.prompt p .line) s.mxe.supTerms[c].linePrompt ((s.headVoice p .line).map .voice) 4096 false false,
      s.roleTerm .none s.mxe.supTerms[c].other ((s.otherTalker c p).map .channel) (s.talkGainOf (s.otherTalker c p))
        false false ] := by
  simp only [State.supUses, State.supMicCut_eq]
  rfl

theorem State.earUses_acc (p : Fin 16) (d : Nat) : mixAcc (s.earUses p d) = s.earSum p d := funext fun j => by
  rw [State.earUses_eq, mixAcc_four]
  simp only [State.roleTerm_share, fixedTerm_share]
  rfl

theorem State.lineUses_acc (p : Fin 16) : mixAcc (s.lineUses p) = s.lineSum p := funext fun j => by
  rw [State.lineUses_eq, mixAcc_four]
  simp only [State.roleTerm_share, fixedTerm_share]
  rfl

theorem State.supUses_acc (c : Fin 4) (p : Fin 16) : mixAcc (s.supUses c p) = s.supSum c p := funext fun j => by
  rw [State.supUses_eq, mixAcc_four]
  simp only [State.roleTerm_share, fixedTerm_share]
  rfl

theorem mixFrame_eq (uses : List TermUse) : mixFrame uses = producedFrame (mixAcc uses) :=
  List.map_congr_left fun _ _ => clampSample_eq _

theorem clampSample_ne (x : Int) : clampSample x ≠ x ↔ x < -32768 ∨ 32767 < x := by
  rw [clampSample_eq]
  change ¬ @Eq Int _ _ ↔ _
  omega

theorem mixClips_eq (uses : List TermUse) : mixClips uses = clippedSamples (mixAcc uses) := by
  unfold mixClips clippedSamples
  simp only [clampSample_ne]
  rfl

end

/-! ### One pass over the positions or the channels -/

/-- A pass that works every entry once leaves at entry `p` what its own step makes of it. -/
theorem foldl_once {σ β : Type} {n : Nat} {f : σ → Fin n → σ} {g : σ → β} {r : β → β} {p : Fin n}
    (hother : ∀ m q, q ≠ p → g (f m q) = g m) (hself : ∀ m, g (f m p) = r (g m)) {l : List (Fin n)} (hl : l.Nodup)
    (hp : p ∈ l) (m : σ) : g (l.foldl f m) = r (g m) := by
  have hskip : ∀ (l : List (Fin n)) (m : σ), p ∉ l → g (l.foldl f m) = g m := by
    intro l
    induction l with
    | nil => exact fun _ _ => rfl
    | cons q l ih =>
      intro m hp
      obtain ⟨hq, hl⟩ := not_or.mp (mt List.mem_cons.mpr hp)
      rw [List.foldl_cons, ih _ hl, hother m q (Ne.symm hq)]
  induction l generalizing m with
  | nil => cases hp
  | cons q l ih =>
    obtain ⟨hq, hl⟩ := List.nodup_cons.mp hl
    rw [List.foldl_cons]
    by_cases hqp : q = p
    · subst hqp
      rw [hskip l _ hq, hself]
    · rw [ih hl ((List.mem_cons.mp hp).resolve_left (Ne.symm hqp)), hother m q hqp]

theorem allPositions_nodup : allPositions.Nodup := by decide
theorem allChannels_nodup : allChannels.Nodup := by decide

/-! ### What the mix engine holds for a position and for a channel -/

/-- The mix engine's records of one position. -/
structure MixEntry where
  duck : Duck
  earTerms : EarTerms
  earClips : Nat
  ear : Frame
  lineTerms : LineTerms
  lineClips : Nat
  line : Frame
  window : MeterWindow
  lastWindow : MeterWindow

def Mxe.entry (m : Mxe) (p : Fin 16) : MixEntry :=
  { duck := m.duck[p], earTerms := m.earTerms[p], earClips := m.earClips[p], ear := m.ear[p], lineTerms := m.lineTerms[p]
    lineClips := m.lineClips[p], line := m.line[p], window := m.window[p], lastWindow := m.lastWindow[p] }

/-- The records of a position once its EAR and LINE are derived. -/
def MixEntry.mixed (e : MixEntry) (view : State) (p : Fin 16) : MixEntry :=
  let d := view.mxe.duck[p].next (view.duckGate p)
  { e with
    duck := d
    earTerms := earRecords (view.earUses p d.factor)
    earClips := view.mxe.earClips[p] + mixClips (view.earUses p d.factor)
    ear := mixFrame (view.earUses p d.factor)
    lineTerms := if (view.pos p).line.isSome then lineRecords (view.lineUses p) else .absent
    lineClips := if (view.pos p).line.isSome then view.mxe.lineClips[p] + mixClips (view.lineUses p) else e.lineClips
    line := if (view.pos p).line.isSome then mixFrame (view.lineUses p) else zeroFrame }

/-- The records of a position once they are measured. -/
def MixEntry.measured (e : MixEntry) (view : State) (p : Fin 16) : MixEntry :=
  { e with
    window := e.window.measure view.taken.far[p] (view.micSource p) e.line e.ear e.earClips e.lineClips
      (view.supClipsOn p) view.taken.erle[p] view.taken.noise[noiseOfPosition p].gain view.taken.echo[p].state }

section
variable (view : State) (m : Mxe) (p q : Fin 16)

theorem mixPosition_entry_self : (mixPosition view m p).entry p = (m.entry p).mixed view p := by
  unfold mixPosition MixEntry.mixed Mxe.entry
  dsimp only
  split <;> simp

theorem mixPosition_entry_other (h : q ≠ p) : (mixPosition view m q).entry p = m.entry p := by
  unfold mixPosition Mxe.entry
  dsimp only
  split <;> simp [set_get, h.symm]

theorem measurePosition_entry_self : (measurePosition view m p).entry p = (m.entry p).measured view p := by
  simp [measurePosition, MixEntry.measured, Mxe.entry]

theorem measurePosition_entry_other (h : q ≠ p) : (measurePosition view m q).entry p = m.entry p := by
  simp [measurePosition, Mxe.entry, set_get, h.symm]

theorem mixChannel_entry (c : Fin 4) : (mixChannel view m c).entry p = m.entry p := by
  unfold mixChannel
  split <;> rfl

/-- The mix engine's records of one channel. -/
def Mxe.supEntry (m : Mxe) (c : Fin 4) : SupTerms × Frame := (m.supTerms[c], m.sup[c])

/-- The records of a channel once its SUPOUT is derived. -/
def supMixed (view : State) (c : Fin 4) : SupTerms × Frame :=
  match view.supTarget c with
  | some p => (supRecords (view.supUses c p), mixFrame (view.supUses c p))
  | none => (.absent, zeroFrame)

theorem mixChannel_supEntry_self (c : Fin 4) : (mixChannel view m c).supEntry c = supMixed view c := by
  unfold mixChannel supMixed Mxe.supEntry
  cases view.supTarget c <;> simp

theorem mixChannel_supEntry_other {c d : Fin 4} (h : d ≠ c) : (mixChannel view m d).supEntry c = m.supEntry c := by
  unfold mixChannel Mxe.supEntry
  split <;> simp [set_get, h.symm]

end

section
variable (s : State)

/-- The mix derives the records of a position, then measures them (R45, R62). -/
theorem State.runMix_entry (p : Fin 16) : s.runMix.mxe.entry p = ((s.mxe.entry p).mixed s p).measured s p := by
  change (allPositions.foldl (measurePosition s) (allChannels.foldl (mixChannel s)
    (allPositions.foldl (mixPosition s) s.mxe))).entry p = _
  rw [foldl_once (g := fun m => m.entry p) (r := fun e => e.measured s p)
      (fun m q => measurePosition_entry_other s m p q) (fun m => measurePosition_entry_self s m p)
      allPositions_nodup (mem_allPositions p),
    foldl_keeps (fun m : Mxe => m.entry p) (mixChannel s) (fun m c => mixChannel_entry s m p c),
    foldl_once (g := fun m => m.entry p) (r := fun e => e.mixed s p)
      (fun m q => mixPosition_entry_other s m p q) (fun m => mixPosition_entry_self s m p)
      allPositions_nodup (mem_allPositions p)]

/-- The mix derives the records of a channel. -/
theorem State.runMix_supEntry (c : Fin 4) : s.runMix.mxe.supEntry c = supMixed s c := by
  change (allPositions.foldl (measurePosition s) (allChannels.foldl (mixChannel s)
    (allPositions.foldl (mixPosition s) s.mxe))).supEntry c = _
  rw [foldl_keeps (fun m : Mxe => m.supEntry c) (measurePosition s) (fun _ _ => rfl)]
  exact foldl_once (g := fun m => m.supEntry c) (r := fun _ => supMixed s c)
    (fun m q => mixChannel_supEntry_other s m) (fun m => mixChannel_supEntry_self s m c)
    allChannels_nodup (mem_allChannels c) _

/-- Every record of a position after the mix, field by field. -/
theorem State.runMix_position (p : Fin 16) :
    let e := ((s.mxe.entry p).mixed s p).measured s p
    let m := s.runMix.mxe
    m.duck[p] = e.duck ∧ m.earTerms[p] = e.earTerms ∧ m.earClips[p] = e.earClips ∧ m.ear[p] = e.ear ∧
      m.lineTerms[p] = e.lineTerms ∧ m.lineClips[p] = e.lineClips ∧ m.line[p] = e.line ∧ m.window[p] = e.window ∧
      m.lastWindow[p] = e.lastWindow := by
  intro e m
  have h : m.entry p = e := s.runMix_entry p
  rw [← h]
  exact ⟨rfl, rfl, rfl, rfl, rfl, rfl, rfl, rfl, rfl⟩

/-- Every record of a channel after the mix. -/
theorem State.runMix_channel (c : Fin 4) :
    s.runMix.mxe.supTerms[c] = (supMixed s c).1 ∧ s.runMix.mxe.sup[c] = (supMixed s c).2 := by
  rw [← s.runMix_supEntry c]
  exact ⟨rfl, rfl⟩

theorem State.runMix_line {p : Fin 16} :
    s.runMix.mxe.line[p] = if (s.pos p).line.isSome then producedFrame (s.lineSum p) else zeroFrame := by
  obtain ⟨-, -, -, -, -, -, hline, -⟩ := s.runMix_position p
  refine hline.trans ?_
  change (if _ then mixFrame (s.lineUses p) else _) = _
  rw [mixFrame_eq, State.lineUses_acc]

end

/-! ### A frame event with one piece left -/

theorem mem_allNoise (n : Fin 20) : n ∈ allNoise := by decide +revert

theorem mem_allWork (w : Work) : w ∈ allWork := by
  cases w <;> simp [allWork, mem_allPositions, mem_allVoices, mem_allPorts, mem_allNoise]

theorem State.settleGrants_work (s : State) : s.settleGrants.work = s.work := by
  obtain ⟨_, _, _, h⟩ := s.settleGrants_frame
  rw [h]

theorem State.settleGrants_mxe (s : State) : s.settleGrants.mxe = s.mxe := by
  obtain ⟨_, _, _, h⟩ := s.settleGrants_frame
  rw [h]

section
variable {s : State} {w : Work}

theorem foldl_doWorkGrant_none (h : s.work = []) (l : List Work) : l.foldl State.doWorkGrant s = s := by
  induction l with
  | nil => rfl
  | cons x l ih =>
    rw [List.foldl_cons, State.doWorkGrant, if_neg (by simp [h])]
    exact ih

theorem State.doWork_single (h : s.work = [w]) (hbefore : w ∉ workBefore w) :
    s.doWork w = State.runWork { s with work := [] } w := by
  have hskip : ∀ x ∈ workBefore w, x ∉ s.work := by
    intro x hx hw
    rw [h, List.mem_singleton] at hw
    exact hbefore (hw ▸ hx)
  rw [State.doWork, if_pos (by simp [h]), List.foldl_append, foldl_workOne_of_absent _ hskip]
  simp [State.workOne, h]

theorem not_mem_workBefore_self (w : Work) : w ∉ workBefore w := by cases w <;> simp [workBefore]

theorem foldl_doWorkGrant_single (h : s.work = [w]) {l : List Work} (hw : w ∈ l) :
    l.foldl State.doWorkGrant s = (State.runWork { s with work := [] } w).settleGrants := by
  have hself : s.doWorkGrant w = (State.runWork { s with work := [] } w).settleGrants := by
    rw [State.doWorkGrant, if_pos (by simp [h]), State.doWork_single h (not_mem_workBefore_self w)]
  induction l with
  | nil => cases hw
  | cons x l ih =>
    rw [List.foldl_cons]
    by_cases hx : x = w
    · subst hx
      rw [hself]
      exact foldl_doWorkGrant_none (by rw [State.settleGrants_work, State.runWork_work]) l
    · rw [State.doWorkGrant, if_neg (by simp [h, hx])]
      exact ih ((List.mem_cons.mp hw).resolve_left (Ne.symm hx))

/-- With one piece of work left, a frame event does that piece and what it grants. -/
theorem exec_frameEvent_single (hr : s.rstn = false) (h : s.work = [w]) (hdue : s.ftu.frameDue = false) :
    exec (.frameEvent [] []) s = .next (State.runWork { s with work := [] } w).settleGrants := by
  have hevent : s.frameEvent [] [] = (State.runWork { s with work := [] } w).settleGrants := by
    rw [State.frameEvent, State.beginDue, hdue, if_neg (by decide), List.foldl_nil, State.finishWork,
      foldl_doWorkGrant_single h (by simp [mem_allWork])]
  exact congrArg Host.Outcome.next ((if_neg (by simp [hr])).trans hevent)

end

/-! ### Privacy of the LINE mix (R47, R53) -/

section
variable {s : State} {p : Fin 16} {x : NoiseFrame}

/-- The state in which one noise context has completed another frame. -/
def State.hearing (s : State) (n : Fin 20) (x : NoiseFrame) : State :=
  { s with taken := { s.taken with noise := s.taken.noise.set n x } }

/-- A role that takes no frame of the context adds the same. -/
theorem State.roleShare_hearing {n : Fin 20} {use : VoiceUse} {t : Term} {named : Option Src} {target : Nat} {cut gone : Bool}
    {j : Nat} (hnamed : ∀ c, named = some (.channel c) → noiseOfChannel c ≠ n ∨ cut = true)
    (hsource : ∀ c, named = none → t.source = some (.channel c) → noiseOfChannel c ≠ n) :
    (s.hearing n x).roleShare use t named target cut gone j = s.roleShare use t named target cut gone j := by
  have hframe : ∀ c, noiseOfChannel c ≠ n → (s.hearing n x).roleFrame use named (.channel c) =
      s.roleFrame use named (.channel c) := fun c hc => by
    simp only [State.roleFrame, State.hearing, Fin.getElem_fin, set_get, if_neg hc]
  cases hn : named with
  | some y =>
    subst hn
    cases y with
    | voice v => rfl
    | channel c =>
      rcases hnamed c rfl with hc | hcut
      · simp only [State.roleShare, hframe c hc]
      · simp only [State.roleShare, hcut, if_true, mul_zero]
  | none =>
    subst hn
    cases hs : t.source with
    | none => simp only [State.roleShare, hs]
    | some y =>
      cases y with
      | voice v => simp only [State.roleShare, hs]; rfl
      | channel c => simp only [State.roleShare, hs, hframe c (hsource c rfl hs)]

/-- The LINE sum takes nothing from a context that is cut from every role. -/
theorem State.lineSum_hearing {n : Fin 20} (hterms : s.TermLaw) (hmic : noiseOfPosition p ≠ n ∨ s.micCut p = true)
    (htalk : ∀ c, s.talker p = some c → noiseOfChannel c ≠ n ∨ s.bargesIn p = false)
    (hgone : s.talker p = none → ∀ c, noiseOfChannel c ≠ n) : (s.hearing n x).lineSum p = s.lineSum p := by
  obtain ⟨-, -, hannounce, hhold⟩ := hterms.2.1 p
  have hnoChannel : ∀ (o : Option (Fin 12)) (c : Fin 4), o.map Src.voice ≠ some (.channel c) := fun o c => by
    cases o <;> simp
  funext j
  have hmicShare : fixedShare (s.hearing n x).taken.noise[noiseOfPosition p].samples s.mxe.lineTerms[p].mic 4096
      (s.micCut p) j = fixedShare s.taken.noise[noiseOfPosition p].samples s.mxe.lineTerms[p].mic 4096 (s.micCut p) j := by
    rcases hmic with hne | hcut
    · simp only [State.hearing, Fin.getElem_fin, set_get, if_neg hne]
    · simp only [fixedShare, hcut, if_true, mul_zero]
  have htalkShare := State.roleShare_hearing (s := s) (x := x) (n := n) (use := .none) (t := s.mxe.lineTerms[p].talk)
    (named := (s.talker p).map .channel) (target := s.talkGainOf (s.talker p)) (cut := !s.bargesIn p)
    (gone := decide ((s.pos p).call ≠ .talk)) (j := j)
    (fun c hc => by
      obtain ⟨k, hk, hkc⟩ := Option.map_eq_some_iff.mp hc
      cases hkc
      exact (htalk c hk).imp id fun h => by rw [h]; rfl)
    (fun c hnone _ => hgone (Option.map_eq_none_iff.mp hnone) c)
  have hlineShare := State.roleShare_hearing (s := s) (x := x) (n := n) (use := .prompt p .line)
    (t := s.mxe.lineTerms[p].linePrompt) (named := (s.headVoice p .line).map .voice) (target := 4096) (cut := false)
    (gone := false) (j := j) (fun c hc => absurd hc (hnoChannel _ c)) (fun c _ hc => absurd hc (hannounce c))
  have hholdShare := State.roleShare_hearing (s := s) (x := x) (n := n) (use := .program)
    (t := s.mxe.lineTerms[p].hold) (named := (s.pos p).holdSource.map .voice) (target := s.holdTarget p) (cut := false)
    (gone := false) (j := j) (fun c hc => absurd hc (hnoChannel _ c)) (fun c _ hc => absurd hc (hhold c))
  unfold State.lineSum
  exact congrArg₂ (· + ·) (congrArg₂ (· + ·) (congrArg₂ (· + ·) hmicShare htalkShare) hlineShare) hholdShare

/-- What a frame event with the mix left produces for the line. -/
theorem exec_mix_line (hwork : s.work = [.mix]) (hdue : s.ftu.frameDue = false) :
    ∃ t, exec (.frameEvent [] []) s = .next t ∧ t.mxe.line[p] =
      if s.rstn then s.mxe.line[p] else if (s.pos p).line.isSome then producedFrame (s.lineSum p) else zeroFrame := by
  cases hr : s.rstn with
  | true =>
    refine ⟨s, ?_, rfl⟩
    change Host.Outcome.next (if s.rstn then s else _) = _
    rw [hr]
    rfl
  | false =>
    refine ⟨_, exec_frameEvent_single hr hwork hdue, ?_⟩
    rw [State.settleGrants_mxe]
    exact State.runMix_line { s with work := [] }

end

/-- Settles O60: the context is cut from, or not named by, every role of the LINE sum. -/
theorem lineMixKeepsPrivacy : Obligations.LineMixKeepsPrivacy := by
  unfold Obligations.LineMixKeepsPrivacy
  intro s p x hwork hdue hterms heard
  have hsame : ∀ n, (s.hearing n x).lineSum p = s.lineSum p →
      ∃ t u, exec (.frameEvent [] []) s = .next t ∧ exec (.frameEvent [] []) (heard n) = .next u ∧
        t.mxe.line[p] = u.mxe.line[p] := by
    intro n hsum
    obtain ⟨t, ht, hline⟩ := exec_mix_line (p := p) hwork hdue
    obtain ⟨u, hu, hline'⟩ := exec_mix_line (s := s.hearing n x) (p := p) hwork hdue
    refine ⟨t, u, ht, hu, hline.trans (Eq.trans ?_ hline'.symm)⟩
    rw [hsum]
    rfl
  refine ⟨fun hcut => hsame _ (State.lineSum_hearing hterms (.inr ?_) (fun c _ => .inl (noiseOfChannel_ne c p))
    (fun _ c => noiseOfChannel_ne c p)), fun c hon hmode => hsame _ (State.lineSum_hearing hterms
      (.inl (noiseOfChannel_ne c p).symm) (fun k hk => ?_) (fun hnone => ?_))⟩
  · rw [State.micCut]
    rcases hcut with h | h
    · rw [h]; rfl
    · rw [h]; exact Bool.or_true _
  · by_cases hkc : k = c
    · subst hkc
      right
      rw [State.bargesIn, hk, Option.any_some, hmode]
      rfl
    · exact .inl fun h => hkc (noiseOfChannel_injective h)
  · have htalks : s.talkingOn p c = true := by rw [State.talkingOn, hon, hmode]; rfl
    have hsome := (s.talker_isSome p).mpr ⟨c, htalks⟩
    rw [hnone] at hsome
    cases hsome

end Sys2Proof.Machine
end

