-- ==== Sys2Proof/Proofs/Meters.lean ====
section
/-!
PROOFS. O51: the close of the meter windows, the meter periods, and what a frame event's mix measures (R61, R62, R183).
-/

namespace Sys2Proof.Machine

/-! ### Windows (R61) -/

section
variable {s : State}

theorem State.windowDue_iff : s.windowDue = true ↔ s.ftu.frameCount.toNat % 16 = 0 := by
  simp [State.windowDue]

theorem exec_meterWindowClose (s : State) :
    exec .meterWindowClose s = .next (s.eventWork .meterClose State.windowDue) := rfl

/-! ### Meter periods (R183) -/

theorem State.meterDue_iff {port : Port} : s.meterDue port = true ↔ ∃ n, (s.port port).counter = some n ∧ n ≤ 1 := by
  rw [State.meterDue]
  cases (s.port port).counter <;> simp

theorem placeReport_mask (ps : PortState) (r : Report) : (placeReport ps r).mask = ps.mask := by
  unfold placeReport
  split_ifs <;> rfl

/-- The ports after a METER report for one position, made when it is OPEN and in the mask. -/
def State.placeMeter (s : State) (port : Port) (mask : BitVec 16) (c : Cpt) (p : Fin 16) : Cpt :=
  if mask.getLsbD p.val = true ∧ (s.pos p).state = .opened then
    c.place s.ftu.frameCount port (.meter p s.mxe.lastWindow[p])
  else c

/-- The METER reports of an expiry are placed by the mask that the port holds. -/
theorem State.meterReports_eq (s : State) (port : Port) :
    s.meterReports port = { s with cpt := allPositions.foldl (s.placeMeter port (s.port port).mask) s.cpt } := by
  have hpass : ∀ (l : List (Fin 16)) (c : Cpt), (c.get port).mask = (s.port port).mask →
      l.foldl (fun (s : State) p =>
        if (s.port port).mask.getLsbD p.val && (s.pos p).state == .opened then
          s.report port (.meter p s.mxe.lastWindow[p])
        else s) { s with cpt := c } =
      { s with cpt := l.foldl (s.placeMeter port (s.port port).mask) c } := by
    intro l
    induction l with
    | nil => exact fun _ _ => rfl
    | cons p l ih =>
      intro c hmask
      have hgate : ((c.get port).mask.getLsbD p.val && (s.pos p).state == .opened) = true ↔
          (s.port port).mask.getLsbD p.val = true ∧ (s.pos p).state = .opened := by rw [hmask]; simp
      rw [List.foldl_cons, List.foldl_cons]
      by_cases h : (s.port port).mask.getLsbD p.val = true ∧ (s.pos p).state = .opened
      · have hplace : s.placeMeter port (s.port port).mask c p =
            c.place s.ftu.frameCount port (.meter p s.mxe.lastWindow[p]) := if_pos h
        rw [hplace]
        refine (congrArg (l.foldl _) (if_pos (hgate.mpr h))).trans (ih _ ?_)
        exact (congrArg PortState.mask (Cpt.get_set_same ..)).trans ((placeReport_mask ..).trans hmask)
      · have hplace : s.placeMeter port (s.port port).mask c p = c := if_neg h
        rw [hplace]
        exact (congrArg (l.foldl _) (if_neg fun hg => h (hgate.mp hg))).trans (ih c hmask)
  exact hpass allPositions s.cpt rfl

theorem MeterPeriod.frames_eq (x : MeterPeriod) : x.frames = match x with
    | .off => none
    | .p16 => some 16
    | .p64 => some 64
    | .p250 => some 250
    | .p1000 => some 1000 := by cases x <;> rfl

theorem State.runMeterPeriod_expires {port : Port} {n : Nat} (hcounter : (s.port port).counter = some n) (hn : n ≤ 1) :
    s.runMeterPeriod port = { s with
      cpt := allPositions.foldl (s.placeMeter port (s.port port).mask)
        (s.cpt.set port { s.port port with counter := (s.port port).period.frames }) } := by
  have hreset : s.runMeterPeriod port =
      (s.modPort port (fun ps => { ps with counter := ps.period.frames })).meterReports port := by
    rw [State.runMeterPeriod, hcounter]
    exact if_pos hn
  have hmask : ((s.modPort port (fun ps => { ps with counter := ps.period.frames })).port port).mask = (s.port port).mask := by
    change ((s.cpt.set port { s.port port with counter := (s.port port).period.frames }).get port).mask = _
    rw [Cpt.get_set_same]
  rw [hreset, State.meterReports_eq, hmask]
  rfl

theorem State.runMeterPeriod_counts {port : Port} {n : Nat} (hcounter : (s.port port).counter = some n) (hn : 1 < n) :
    s.runMeterPeriod port = s.modPort port (fun ps => { ps with counter := some (n - 1) }) := by
  rw [State.runMeterPeriod, hcounter]
  exact if_neg (by omega)

theorem State.runMeterPeriod_off {port : Port} (hcounter : (s.port port).counter = none) : s.runMeterPeriod port = s := by
  rw [State.runMeterPeriod, hcounter]

/-! ### What is measured (R62) -/

/-- The clips of a SUPOUT that exists count for the position that its session targets. -/
theorem State.supClipsOn_eq (p : Fin 16) : s.supClipsOn p = (allChannels.map (fun c =>
    if s.hwi.channels[c].isSome = true ∧ s.sst[c].mode ≠ .idle ∧ s.sst[c].target = some p then
      clippedSamples (s.supSum c p)
    else 0)).sum := by
  refine congrArg List.sum (List.map_congr_left fun c _ => ?_)
  by_cases hexists : s.hwi.channels[c].isSome = true ∧ s.sst[c].mode ≠ .idle
  · rw [State.supTarget, if_pos hexists]
    cases htarget : s.sst[c].target with
    | none => simp
    | some q =>
      by_cases hq : q = p
      · subst hq
        dsimp only
        rw [if_pos rfl, if_pos ⟨hexists.1, hexists.2, rfl⟩, mixClips_eq, State.supUses_acc]
      · dsimp only
        rw [if_neg hq, if_neg fun h => hq (Option.some.inj h.2.2)]
  · rw [State.supTarget, if_neg hexists, if_neg fun h => hexists ⟨h.1, h.2.1⟩]

end

/-- Settles O51: the windows by the frame count, the periods by their counter, and the measurement field by field. -/
theorem meterEvents : Obligations.MeterEvents := by
  unfold Obligations.MeterEvents
  refine ⟨fun s hr hw hmix => ⟨fun hcount => ?_, fun hcount => ?_⟩,
    fun s port hr hw => ⟨fun n hcounter hn => ?_, fun hcounter => ?_⟩,
    fun s port held h => ⟨fun n hcounter hn => ?_, fun hcounter => ?_⟩, fun s held h => ?_⟩
  · have hdue : s.windowDue = true := State.windowDue_iff.mpr hcount
    rw [exec_meterWindowClose, State.eventWork_done hr hw hdue (by simpa [workBefore] using hmix)]
    exact congrArg Host.Outcome.next (if_pos hdue)
  · have hdue : s.windowDue = false := Bool.eq_false_iff.mpr fun hdue => hcount (State.windowDue_iff.mp hdue)
    rw [exec_meterWindowClose, State.eventWork_idle hdue (by simpa [workBefore] using hmix)]
  · have hdue : s.meterDue port = true := State.meterDue_iff.mpr ⟨n, hcounter, hn⟩
    refine congrArg Host.Outcome.next ((State.eventWork_done (due := (·.meterDue port)) hr hw hdue).trans
      ((State.runMeterPeriod_expires (s := { s with work := s.work.erase (.meterPeriod port) }) hcounter hn).trans ?_))
    rw [MeterPeriod.frames_eq]
    rfl
  · have hdue : s.meterDue port = false := Bool.eq_false_iff.mpr fun hdue => by
      obtain ⟨n, hn, hle⟩ := State.meterDue_iff.mp hdue
      exact absurd hle (Nat.not_le.mpr (hcounter n hn))
    exact congrArg Host.Outcome.next (State.eventWork_idle (due := (·.meterDue port)) hdue)
  · exact (exec_frameEvent_piece s _ held h).trans (congrArg Host.Outcome.next
      (State.runMeterPeriod_counts (s := { s with work := s.work.erase (.meterPeriod port) }) hcounter hn))
  · exact (exec_frameEvent_piece s _ held h).trans (congrArg Host.Outcome.next
      (State.runMeterPeriod_off (s := { s with work := s.work.erase (.meterPeriod port) }) hcounter))
  · refine ⟨_, exec_frameEvent_piece s _ held h, fun p => ?_⟩
    let u : State := { s with work := s.work.erase .mix }
    obtain ⟨-, -, hearClips, hear, -, hlineClips, hline, hwindow, hlast⟩ := u.runMix_position p
    refine ⟨hlast, hwindow.trans ?_⟩
    change _ = MeterWindow.mk _ _ _ (max _ (peak u.runMix.mxe.line[p])) (max _ (peak u.runMix.mxe.ear[p]))
      u.runMix.mxe.earClips[p] u.runMix.mxe.lineClips[p] _ _ _ _
    rw [hearClips, hear, hlineClips, hline]
    exact congrArg (MeterWindow.measure _ _ _ _ _ _ _ · _ _ _) (u.supClipsOn_eq (p := p))

end Sys2Proof.Machine
end

