-- ==== Sys2Proof/Proofs/EchoWork.lean ====
section
/-!
PROOFS. O49: the work of an echo context at a frame event, sample by sample, and its supervision (R67 to R78).
-/

namespace Sys2Proof.Machine

/-! ### One sample (R70 to R73) -/

theorem clampInt_eq {lo hi : Int} (h : lo ≤ hi) (x : Int) : clampInt lo hi x = max lo (min hi x) := by
  unfold clampInt
  split_ifs <;> omega

theorem energy_eq (x : List Int) : energy x = (x.map (fun v => v * v)).sum := by
  rw [energy, List.sum_eq_foldl, List.foldl_map]

theorem moveCoeff_eq (f : Int) : moveCoeff f = fun w v => max (-32768) (min 32767 (w + (f * v + 16384) / 32768)) :=
  funext fun _ => funext fun _ => clampInt_eq (by decide) _

theorem hangoverAfter_eq (set : EchoSettings) (d : Sample) (x : List Sample) (hangover : Nat) :
    hangoverAfter set (nearEnd set d x) hangover =
      if x.foldl (fun m v => max m v.natAbs) 0 * set.talkCode ≤ d.natAbs * 16 then set.hangover else hangover - 1 := by
  rw [hangoverAfter, nearEnd]
  simp only [decide_eq_true_eq]
  rfl

theorem learned_coeffs (set : EchoSettings) (state : EchoState) (hangover : Nat) (power e : Int) (coeffs x : List Int) :
    (match set.mode, learnStep set state with
    | .adapt, some mu =>
      if hangover = 0 ∧ (set.delta : Int) ≤ power then List.zipWith (moveCoeff (stepFactor mu e power set.delta)) coeffs x
      else coeffs
    | _, _ => coeffs) =
      if set.mode = .adapt ∧ state ≠ .off ∧ hangover = 0 ∧ (set.delta : Int) ≤ power then
        List.zipWith (moveCoeff (stepFactor (if state = .converging then set.muConv else set.muTrack) e power set.delta))
          coeffs x
      else coeffs := by
  cases hmode : set.mode with
  | adapt => cases state <;> simp [learnStep]
  | _ => simp

theorem echoSample_eq (set : EchoSettings) (state : EchoState) (l : EchoLoop) (d r : Sample) :
    let sample (x : Int) : Int := max (-32768) (min 32767 x)
    let history := (r :: l.history).take 383
    let x := (history.drop set.bulkDelay).take 128
    let e := sample (d - sample (((List.zipWith (fun w v => w * v) l.coeffs x).sum + 16384) / 32768))
    let peak := x.foldl (fun m v => max m v.natAbs) 0
    let power := (x.map (fun v => v * v)).sum
    let hangover := if peak * set.talkCode ≤ d.natAbs * 16 then set.hangover else l.hangover - 1
    let step := if state = .converging then set.muConv else set.muTrack
    let f := max (-16777216) (min 16777216 (Int.tdiv ((step : Int) * e * 4194304) (power + (set.delta : Int))))
    echoSample set state l d r =
      { coeffs := if set.mode = .adapt ∧ state ≠ .off ∧ hangover = 0 ∧ (set.delta : Int) ≤ power then
            List.zipWith (fun w v => sample (w + (f * v + 16384) / 32768)) l.coeffs x
          else l.coeffs
        history := history, hangover := hangover, outRev := e :: l.outRev, mic := l.mic + d * d, err := l.err + e * e
        power := power } := by
  intro sample history x e peak power hangover step f
  have he : clampSample (d - echoEstimate l.coeffs x) = e := by
    rw [echoEstimate, clampSample_eq, clampSample_eq]
    rfl
  have hpower : energy x = power := energy_eq x
  have hhangover : hangoverAfter set (nearEnd set d x) l.hangover = hangover := hangoverAfter_eq set d x _
  have hf : stepFactor step e power set.delta = f := clampInt_eq (by decide) _
  have hcoeffs := learned_coeffs set state hangover power e l.coeffs x
  rw [hf, moveCoeff_eq] at hcoeffs
  rw [← hcoeffs, ← hhangover, ← hpower, ← he]
  rfl

theorem echoSamples_cons (set : EchoSettings) (state : EchoState) (l : EchoLoop) (d r : Sample) (ds rs : Frame) :
    echoSamples set state l (d :: ds) (r :: rs) = echoSamples set state (echoSample set state l d r) ds rs := rfl

/-- In FREEZE no sample is learnt from (R72). -/
theorem echoSamples_freeze {set : EchoSettings} (h : set.mode = .freeze) (state : EchoState) (l : EchoLoop) (mic reference : Frame) :
    (echoSamples set state l mic reference).coeffs = l.coeffs :=
  foldl_keeps EchoLoop.coeffs _ (fun l dr => by rw [echoSample, h]) _ l

/-! ### The ERLE index (R77) -/

theorem le_foldl_max {k a : Nat} {l : List Nat} (h : k ≤ a ∨ k ∈ l) : k ≤ l.foldl max a := by
  induction l generalizing a with
  | nil => simpa using h
  | cons x l ih =>
    refine ih ?_
    rcases h with h | h
    · exact .inl (h.trans (Nat.le_max_left _ _))
    · rcases List.mem_cons.mp h with rfl | h
      · exact .inl (Nat.le_max_right _ _)
      · exact .inr h

theorem foldl_max_mem (a : Nat) (l : List Nat) : l.foldl max a = a ∨ l.foldl max a ∈ l := by
  induction l generalizing a with
  | nil => exact .inl rfl
  | cons x l ih =>
    rcases ih (max a x) with h | h
    · rw [List.foldl_cons, h]
      rcases Nat.le_total a x with hx | hx
      · exact .inr (by rw [Nat.max_eq_right hx]; exact .head _)
      · exact .inl (Nat.max_eq_left hx)
    · exact .inr (.tail _ h)

theorem erleIndex_inactive (mic err : Int) : erleIndex false mic err = 0 := rfl

theorem erleIndex_zero {mic err : Int} (h : mic ≤ 0 ∨ mic < err) : erleIndex true mic err = 0 := by
  refine if_neg ?_
  simp only [Bool.true_and, Bool.and_eq_true, decide_eq_true_eq]
  omega

/-- The ERLE index is the largest of the exponents that fit. -/
theorem erleIndex_largest {mic err : Int} (hmic : 0 < mic) (herr : err ≤ mic) :
    erleIndex true mic err ≤ 15 ∧ err * 2 ^ erleIndex true mic err ≤ mic ∧
      ∀ k, k ≤ 15 → err * 2 ^ k ≤ mic → k ≤ erleIndex true mic err := by
  let l := (List.range 16).filter (fun k => decide (err * 2 ^ k ≤ mic))
  have hindex : erleIndex true mic err = l.foldl max 0 := if_pos (by simp [hmic, herr])
  have hl : ∀ k, k ∈ l ↔ k ≤ 15 ∧ err * 2 ^ k ≤ mic := fun k => by
    simp only [l, List.mem_filter, List.mem_range, decide_eq_true_eq]
    exact and_congr_left fun _ => Nat.lt_succ_iff
  have hmem : l.foldl max 0 ∈ l := by
    rcases foldl_max_mem 0 l with h | h
    · rw [h]; exact (hl 0).mpr ⟨by decide, by simpa using herr⟩
    · exact h
  rw [hindex]
  exact ⟨((hl _).mp hmem).1, ((hl _).mp hmem).2, fun k hk hfit => le_foldl_max (.inr ((hl k).mpr ⟨hk, hfit⟩))⟩

/-! ### Supervision (R74 to R76) -/

section
variable {state : EchoState} {good poor diverge : Nat} {mic err : Int}

/-- The diverging frames in a row, after a frame. -/
def divergeAfter (state : EchoState) (diverge : Nat) (mic err : Int) : Nat :=
  if state ≠ .off ∧ 2 * mic < err then diverge + 1 else 0

/-- The good frames in a row, after a frame. -/
def goodAfter (state : EchoState) (good : Nat) (mic err : Int) : Nat :=
  if state = .converging ∧ err * 16 ≤ mic then good + 1 else 0

/-- The poor frames in a row, after a frame. -/
def poorAfter (state : EchoState) (poor : Nat) (mic err : Int) : Nat :=
  if state = .tracking ∧ mic < err * 2 then poor + 1 else 0

theorem supervise_diverged (h : 8 ≤ divergeAfter state diverge mic err) :
    supervise state good poor diverge mic err =
      { state := .converging, good := 0, poor := 0, diverge := 0, event := .diverged } := if_pos h

theorem supervise_converged (h : divergeAfter state diverge mic err < 8) (hgood : 32 ≤ goodAfter state good mic err) :
    supervise state good poor diverge mic err =
      { state := .tracking, good := 0, poor := 0, diverge := divergeAfter state diverge mic err, event := .converged } :=
  (if_neg (Nat.not_le.mpr h)).trans (if_pos hgood)

theorem supervise_lost (h : divergeAfter state diverge mic err < 8) (hgood : goodAfter state good mic err < 32)
    (hpoor : 8 ≤ poorAfter state poor mic err) : supervise state good poor diverge mic err =
      { state := .converging, good := 0, poor := 0, diverge := divergeAfter state diverge mic err, event := .lost } :=
  (if_neg (Nat.not_le.mpr h)).trans ((if_neg (Nat.not_le.mpr hgood)).trans (if_pos hpoor))

theorem supervise_counts (h : divergeAfter state diverge mic err < 8) (hgood : goodAfter state good mic err < 32)
    (hpoor : poorAfter state poor mic err < 8) : supervise state good poor diverge mic err =
      { state := state, good := goodAfter state good mic err, poor := poorAfter state poor mic err
        diverge := divergeAfter state diverge mic err, event := .none } :=
  (if_neg (Nat.not_le.mpr h)).trans ((if_neg (Nat.not_le.mpr hgood)).trans (if_neg (Nat.not_le.mpr hpoor)))

theorem goodAfter_full : 32 ≤ goodAfter state good mic err ↔ state = .converging ∧ err * 16 ≤ mic ∧ 31 ≤ good := by
  unfold goodAfter
  split
  · next h => exact ⟨fun hg => ⟨h.1, h.2, by omega⟩, fun hg => by omega⟩
  · next h => exact ⟨fun hg => absurd hg (by decide), fun hg => absurd ⟨hg.1, hg.2.1⟩ h⟩

theorem poorAfter_full : 8 ≤ poorAfter state poor mic err ↔ state = .tracking ∧ mic < err * 2 ∧ 7 ≤ poor := by
  unfold poorAfter
  split
  · next h => exact ⟨fun hp => ⟨h.1, h.2, by omega⟩, fun hp => by omega⟩
  · next h => exact ⟨fun hp => absurd hp (by decide), fun hp => absurd ⟨hp.1, hp.2.1⟩ h⟩

theorem supervise_diverged_iff : (supervise state good poor diverge mic err).event = .diverged ↔
    8 ≤ divergeAfter state diverge mic err := by
  by_cases h : 8 ≤ divergeAfter state diverge mic err
  · rw [supervise_diverged h]; exact iff_of_true rfl h
  by_cases hgood : 32 ≤ goodAfter state good mic err
  · rw [supervise_converged (Nat.not_le.mp h) hgood]; exact iff_of_false nofun h
  by_cases hpoor : 8 ≤ poorAfter state poor mic err
  · rw [supervise_lost (Nat.not_le.mp h) (Nat.not_le.mp hgood) hpoor]; exact iff_of_false nofun h
  · rw [supervise_counts (Nat.not_le.mp h) (Nat.not_le.mp hgood) (Nat.not_le.mp hpoor)]; exact iff_of_false nofun h

theorem supervise_converged_of (h : (supervise state good poor diverge mic err).event = .converged) :
    divergeAfter state diverge mic err < 8 ∧ 32 ≤ goodAfter state good mic err := by
  by_cases hd : 8 ≤ divergeAfter state diverge mic err
  · rw [supervise_diverged hd] at h; cases h
  by_cases hgood : 32 ≤ goodAfter state good mic err
  · exact ⟨Nat.not_le.mp hd, hgood⟩
  by_cases hpoor : 8 ≤ poorAfter state poor mic err
  · rw [supervise_lost (Nat.not_le.mp hd) (Nat.not_le.mp hgood) hpoor] at h; cases h
  · rw [supervise_counts (Nat.not_le.mp hd) (Nat.not_le.mp hgood) (Nat.not_le.mp hpoor)] at h; cases h

theorem supervise_lost_of (h : (supervise state good poor diverge mic err).event = .lost) :
    divergeAfter state diverge mic err < 8 ∧ 8 ≤ poorAfter state poor mic err := by
  by_cases hd : 8 ≤ divergeAfter state diverge mic err
  · rw [supervise_diverged hd] at h; cases h
  by_cases hgood : 32 ≤ goodAfter state good mic err
  · rw [supervise_converged (Nat.not_le.mp hd) hgood] at h; cases h
  by_cases hpoor : 8 ≤ poorAfter state poor mic err
  · exact ⟨Nat.not_le.mp hd, hpoor⟩
  · rw [supervise_counts (Nat.not_le.mp hd) (Nat.not_le.mp hgood) (Nat.not_le.mp hpoor)] at h; cases h

end

/-! ### The work of a context (R69) -/

/-- The samples of a frame worked from the context. -/
def EchoCtx.loop (c : EchoCtx) (set : EchoSettings) (mic reference : Frame) : EchoLoop :=
  echoSamples set c.state
    { coeffs := c.coeffs, history := c.history, hangover := c.hangover, outRev := [], mic := 0, err := 0, power := 0 }
    mic reference

section
variable {set : EchoSettings} {c : EchoCtx} {mic reference : Frame}

theorem echoWork_filtered (hmode : set.mode ≠ .off) : echoWork .opened true set c mic reference =
    echoFilter set c mic reference := by
  unfold echoWork
  cases h : set.mode with
  | off => exact absurd h hmode
  | _ => rfl

/-- A frame that is not filtered takes in its reference alone. -/
theorem echoWork_passed {state : PosState} {present : Bool} (h : ¬((state = .opened ∧ present = true) ∧ set.mode ≠ .off)) :
    echoWork state present set c mic reference =
      (echoPass c (if state = .opened ∧ present = true then mic else zeroFrame)
        (decide (state = .opened ∧ present = true)) reference, .none) := by
  by_cases hheard : state = .opened ∧ present = true
  · have hmode : set.mode = .off := by
      by_contra hmode
      exact h ⟨hheard, hmode⟩
    obtain ⟨rfl, rfl⟩ := hheard
    unfold echoWork
    rw [hmode]
    rfl
  · rw [if_neg hheard, decide_eq_false hheard]
    cases state with
    | opened =>
      cases present with
      | true => exact absurd ⟨rfl, rfl⟩ hheard
      | false => rfl
    | _ => rfl

/-- A filtered frame that is supervised. -/
theorem echoFilter_supervised {k : EchoCounts} (hmode : set.mode = .adapt)
    (hactive : (set.delta : Int) ≤ (c.loop set mic reference).power)
    (hk : supervise c.state c.good c.poor c.diverge (c.loop set mic reference).mic (c.loop set mic reference).err = k) :
    echoFilter set c mic reference =
      let l := c.loop set mic reference
      ({ c.setCoeffs (if k.event = .diverged then zeroCoeffs else l.coeffs) with
          history := l.history, hangover := l.hangover, state := k.state, good := k.good, poor := k.poor
          diverge := k.diverge, erle := erleIndex true l.mic l.err
          out := { samples := l.outRev.reverse, live := true, state := k.state } }, k.event) := by
  subst hk
  have hdecide : decide ((set.delta : Int) ≤ (c.loop set mic reference).power) = true := decide_eq_true hactive
  unfold echoFilter
  unfold EchoCtx.loop at hdecide
  dsimp only
  rw [hdecide, if_pos (And.intro hmode rfl)]
  rfl

/-- A filtered frame that is not supervised. -/
theorem echoFilter_unsupervised (h : ¬(set.mode = .adapt ∧ (set.delta : Int) ≤ (c.loop set mic reference).power)) :
    echoFilter set c mic reference =
      let l := c.loop set mic reference
      ({ c.setCoeffs l.coeffs with
          history := l.history, hangover := l.hangover
          erle := erleIndex (decide ((set.delta : Int) ≤ l.power)) l.mic l.err
          out := { samples := l.outRev.reverse, live := true, state := c.state } }, .none) := by
  have hidle : ¬(set.mode = .adapt ∧ decide ((set.delta : Int) ≤ (c.loop set mic reference).power) = true) := fun hs =>
    h ⟨hs.1, of_decide_eq_true hs.2⟩
  unfold EchoCtx.loop at hidle
  unfold echoFilter
  dsimp only
  rw [if_neg hidle]
  rfl

end

section
variable {s : State} {p : Fin 16} {x : EchoCtx} {event : EchoEvent}

theorem State.runEcho_quiet (h : s.echoResult p = (x, event)) (hevent : event ≠ .diverged) :
    s.runEcho p = { s with ecu := s.ecu.set p x } := by
  unfold State.runEcho
  rw [h]
  exact if_neg hevent

theorem State.runEcho_diverged (h : s.echoResult p = (x, .diverged)) : s.runEcho p = { s with
    ecu := s.ecu.set p x
    cpt := s.cpt.place s.ftu.frameCount .desk (.ecDiverged p x.generation) } := by
  unfold State.runEcho
  rw [h]
  exact if_pos rfl

/-- A single event of an echo context that comes about without a divergence. -/
theorem echoEvent_quiet {due : EchoEvent} (hr : s.rstn = false) (hw : .echo p ∈ s.work) (h : s.echoResult p = (x, due))
    (hevent : due ≠ .diverged) : s.eventWork (.echo p) (fun s => (s.echoResult p).2 == due) =
      { s with work := s.work.erase (.echo p), ecu := s.ecu.set p x } := by
  rw [State.eventWork_done hr hw (by rw [h]; exact beq_self_eq_true due)]
  exact State.runEcho_quiet (s := { s with work := s.work.erase (.echo p) }) h hevent

theorem echoEvent_diverged (hr : s.rstn = false) (hw : .echo p ∈ s.work) (h : s.echoResult p = (x, .diverged)) :
    s.eventWork (.echo p) (fun s => (s.echoResult p).2 == .diverged) = { s with
      work := s.work.erase (.echo p)
      ecu := s.ecu.set p x
      cpt := s.cpt.place s.ftu.frameCount .desk (.ecDiverged p x.generation) } := by
  rw [State.eventWork_done hr hw (by rw [h]; rfl)]
  exact State.runEcho_diverged (s := { s with work := s.work.erase (.echo p) }) h

/-- A single event of an echo context that does not come about. -/
theorem echoEvent_idle {due : EchoEvent} (h : (s.echoResult p).2 ≠ due) :
    s.eventWork (.echo p) (fun s => (s.echoResult p).2 == due) = s :=
  State.eventWork_idle (beq_eq_false_iff_ne.mpr h)

/-- A frame event with the piece of an echo context left. -/
theorem exec_echo_piece {held : List Work} (h : s.atPiece (.echo p) held) (hresult : s.echoResult p = (x, event))
    (hevent : event ≠ .diverged) : exec (.frameEvent [.echo p] held) s =
      .next { s with work := s.work.erase (.echo p), ecu := s.ecu.set p x } :=
  (exec_frameEvent_piece s _ held h).trans (congrArg Host.Outcome.next
    (State.runEcho_quiet (s := { s with work := s.work.erase (.echo p) }) hresult hevent))

end

theorem EchoCtx.setCoeffs_same (c : EchoCtx) : c.setCoeffs c.coeffs = c := by
  rw [EchoCtx.setCoeffs, if_pos rfl]

/-- Settles O49: the samples one after another, then the counters and what they come to. -/
theorem echoSupervision : Obligations.EchoSupervision := by
  unfold Obligations.EchoSupervision
  refine ⟨fun s p hr hw hstate hpresent hmode => ?_, fun s p held h => ?_, fun _ _ _ => rfl, fun set state l d r ds rs => ?_,
    fun mic err => ⟨erleIndex_inactive mic err, erleIndex_zero, erleIndex_largest⟩⟩
  · intro c l diverge after hactive
    have hfilter : s.echoResult p = echoFilter (s.pos p).echo c s.taken.mic[p] s.taken.reference[p] := by
      rw [State.echoResult, hstate, hpresent]
      exact echoWork_filtered (by rw [hmode]; decide)
    have hresult {k : EchoCounts} (hk : supervise c.state c.good c.poor c.diverge l.mic l.err = k) :=
      hfilter.trans (echoFilter_supervised hmode hactive hk)
    have hevent : (s.echoResult p).2 = (supervise c.state c.good c.poor c.diverge l.mic l.err).event := by
      rw [hresult rfl]
    refine ⟨fun hd => ?_, fun hd => ?_, fun hd hconverging herr hgood => ?_, fun hno => ?_,
      fun hd htracking herr hpoor => ?_, fun hno => ?_⟩
    · exact congrArg Host.Outcome.next (echoEvent_diverged hr hw (hresult (supervise_diverged hd)))
    · exact congrArg Host.Outcome.next (echoEvent_idle fun he =>
        absurd (supervise_diverged_iff.mp (hevent.symm.trans he)) (Nat.not_le.mpr hd))
    · exact congrArg Host.Outcome.next (echoEvent_quiet hr hw
        (hresult (supervise_converged hd (goodAfter_full.mpr ⟨hconverging, herr, hgood⟩))) nofun)
    · refine congrArg Host.Outcome.next (echoEvent_idle fun he => ?_)
      obtain ⟨hd, hfull⟩ := supervise_converged_of (hevent.symm.trans he)
      obtain ⟨hconverging, herr, hgood⟩ := goodAfter_full.mp hfull
      rcases hno with hno | hno | hno | hno
      · exact absurd hd (Nat.not_lt.mpr hno)
      · exact hno hconverging
      · omega
      · omega
    · have hgood : goodAfter c.state c.good l.mic l.err < 32 := Nat.not_le.mp fun hfull => by
        have hconverging := (goodAfter_full.mp hfull).1
        rw [htracking] at hconverging
        cases hconverging
      exact congrArg Host.Outcome.next (echoEvent_quiet hr hw
        (hresult (supervise_lost hd hgood (poorAfter_full.mpr ⟨htracking, herr, hpoor⟩))) nofun)
    · refine congrArg Host.Outcome.next (echoEvent_idle fun he => ?_)
      obtain ⟨hd, hfull⟩ := supervise_lost_of (hevent.symm.trans he)
      obtain ⟨htracking, herr, hpoor⟩ := poorAfter_full.mp hfull
      rcases hno with hno | hno | hno | hno
      · exact absurd hd (Nat.not_lt.mpr hno)
      · exact hno htracking
      · omega
      · omega
  · intro c set heard l active out generation left diverge good poor
    have hfilter (hheard : heard) (hmode : set.mode ≠ .off) :
        s.echoResult p = echoFilter set c s.taken.mic[p] s.taken.reference[p] := by
      rw [State.echoResult, hheard.1, hheard.2]
      exact echoWork_filtered hmode
    refine ⟨fun hpass => ?_, fun hheard hmode => ?_, fun hheard hmode hidle => ?_,
      fun hheard hmode hactive hd hgood hpoor => ?_⟩
    · exact exec_echo_piece h (echoWork_passed hpass) nofun
    · have hset : c.setCoeffs (c.loop set s.taken.mic[p] s.taken.reference[p]).coeffs = c := by
        rw [show (c.loop set s.taken.mic[p] s.taken.reference[p]).coeffs = c.coeffs from echoSamples_freeze hmode _ _ _ _]
        exact c.setCoeffs_same
      refine (exec_echo_piece h ((hfilter hheard (by rw [hmode]; decide)).trans
        (echoFilter_unsupervised fun hs => by rw [hs.1] at hmode; cases hmode)) nofun).trans ?_
      dsimp only
      rw [hset]
      rfl
    · refine (exec_echo_piece h ((hfilter hheard (by rw [hmode]; decide)).trans
        (echoFilter_unsupervised fun hs => hidle hs.2)) nofun).trans ?_
      have hinactive : decide ((set.delta : Int) ≤ (c.loop set s.taken.mic[p] s.taken.reference[p]).power) = false :=
        decide_eq_false hidle
      dsimp only
      rw [hinactive]
      rfl
    · exact exec_echo_piece h ((hfilter hheard (by rw [hmode]; decide)).trans
        (echoFilter_supervised hmode hactive (supervise_counts hd hgood hpoor))) nofun
  · intro sample history x e peak power hangover step f learns
    rw [echoSamples_cons, echoSample_eq]

end Sys2Proof.Machine
end

