-- ==== Sys2Proof/Proofs/NoiseWork.lean ====
section
/-!
PROOFS. O50: the work of a noise context at a frame event, and its events (R87 to R97).
-/

namespace Sys2Proof.Machine

/-- The frame handed on: every sample by the ramp from the applied gain (R95, R96). -/
def NoiseCtx.handOn (c : NoiseCtx) (input : Frame) (gain : Nat) (speech : Bool) : NoiseFrame :=
  { samples := rampFrame c.gain gain input, speech := speech, gain := gain }

/-- The target gain of a frame found in PAUSE (R94). -/
def pauseGain (set : NoiseSettings) (estimate e : Nat) : Nat :=
  if set.enable = false then 4096
  else if 2 * estimate ≤ e then (set.floor + 4096) / 2
  else set.floor

theorem frameEnergy_eq (input : Frame) : frameEnergy input = ((input.map (fun x => x * x)).sum / 64).toNat := by
  rw [frameEnergy, energy_eq]

section
variable {set : NoiseSettings} {c c1 : NoiseCtx} {input : Frame} {live : Bool} {e : Nat}

theorem targetGain_learning : targetGain set true c e = 4096 := by
  unfold targetGain
  split
  · rfl
  · exact if_pos rfl

theorem targetGain_speech (h : c.state = .speech) : targetGain set false c e = 4096 := by
  simp [targetGain, h]

theorem targetGain_pause (h : c.state = .pause) : targetGain set false c e = pauseGain set c.estimate e := by
  have hspeech : ¬c.state = .speech := by rw [h]; decide
  unfold targetGain pauseGain
  cases set.enable with
  | true => exact (if_neg (by decide)).trans ((if_neg (by decide)).trans (if_neg hspeech))
  | false => rfl

/-! ### Learning (R90) -/

theorem noiseFrame_learn (h : c.state = .learn) (hmove : learnMove c live (frameEnergy input) = c1)
    (hquiet : c1.state ≠ .speech) : noiseFrame set c input live =
      ({ c1 with gain := 4096, out := c.handOn input 4096 false }, if c1.state = .pause then .learned else .none) := by
  subst hmove
  unfold noiseFrame
  dsimp only
  rw [decide_eq_true h, if_pos rfl, if_pos rfl, targetGain_learning, decide_eq_false hquiet]
  rfl

theorem learnMove_dead : learnMove c false e = c := rfl

theorem learnMove_counts (h : c.learned ≠ 15) : learnMove c true e =
    { c with estimate := learnEstimate c.estimate c.learned e, learned := c.learned + 1 } :=
  if_neg (show ¬(c.learned + 1 = 16) by omega)

theorem learnMove_completes (h : c.learned = 15) : learnMove c true e =
    { c with
      estimate := learnEstimate c.estimate c.learned e, learned := c.learned + 1, state := .pause, hangover := 0
      speechRun := 0, relearning := false } :=
  if_pos (show c.learned + 1 = 16 by omega)

/-! ### Speech and pause (R91 to R95) -/

theorem classedMove_speech (h : 4 * c.estimate ≤ e) : classedMove c live e =
    { c with state := .speech, hangover := 12, speechRun := c.speechRun + 1 } := by
  have hspeech : speechFrame c.estimate e = true := decide_eq_true h
  unfold classedMove
  dsimp only
  rw [hspeech, estimateMove, if_neg fun hs => Bool.noConfusion hs.2.2]
  rfl

theorem classedMove_hangs (hstate : c.state = .speech) (h : e < 4 * c.estimate) (hhang : 1 < c.hangover) :
    classedMove c live e = { c with hangover := c.hangover - 1, speechRun := c.speechRun + 1 } := by
  have hspeech : speechFrame c.estimate e = false := decide_eq_false (Nat.not_le.mpr h)
  have hmove : speechMove c false = { c with hangover := c.hangover - 1 } :=
    (if_neg (by decide)).trans ((if_pos hstate).trans (if_pos hhang))
  unfold classedMove
  dsimp only
  rw [hspeech, hmove, estimateMove, if_neg (fun hs => by rw [hstate] at hs; cases hs.1), runMove, if_pos hstate]

theorem classedMove_ends (hstate : c.state = .speech) (h : e < 4 * c.estimate) (hhang : c.hangover ≤ 1) :
    classedMove c live e = { c with state := .pause, hangover := 0, speechRun := 0 } := by
  have hspeech : speechFrame c.estimate e = false := decide_eq_false (Nat.not_le.mpr h)
  have hmove : speechMove c false = { c with state := .pause, hangover := 0 } :=
    (if_neg (by decide)).trans ((if_pos hstate).trans (if_neg (Nat.not_lt.mpr hhang)))
  unfold classedMove
  dsimp only
  rw [hspeech, hmove, estimateMove, if_neg fun hs => by rw [hstate] at hs; cases hs.1]
  rfl

theorem classedMove_pause (hstate : c.state = .pause) (h : e < 4 * c.estimate) : classedMove c live e =
    { c with estimate := if live = false then c.estimate else trackEstimate c.estimate e, speechRun := 0 } := by
  have hspeech : speechFrame c.estimate e = false := decide_eq_false (Nat.not_le.mpr h)
  have hno : ¬c.state = .speech := by rw [hstate]; decide
  have hmove : speechMove c false = c := (if_neg (by decide)).trans (if_neg hno)
  unfold classedMove
  dsimp only
  rw [hspeech, hmove, estimateMove]
  cases live with
  | true => rw [if_pos ⟨hstate, rfl, rfl⟩, runMove, if_neg hno]; rfl
  | false => rw [if_neg fun hs => Bool.noConfusion hs.2.1, runMove, if_neg hno]; rfl

theorem noiseFrame_speech (h : c.state ≠ .learn) (hmove : classedMove c live (frameEnergy input) = c1)
    (h1 : c1.state = .speech) : noiseFrame set c input live =
      let c2 := { c1 with gain := 4096, out := c.handOn input 4096 true }
      if 2500 ≤ c1.speechRun then (c2.restart, .restarted) else (c2, .none) := by
  have hno : ¬(c.state = .speech ∧ c1.state = .pause) := fun hs => by rw [h1] at hs; cases hs.2
  subst hmove
  unfold noiseFrame
  dsimp only
  rw [decide_eq_false h, if_neg Bool.false_ne_true, if_neg Bool.false_ne_true, targetGain_speech h1, decide_eq_true h1, if_neg hno]
  rfl

theorem noiseFrame_pause (h : c.state ≠ .learn) (hmove : classedMove c live (frameEnergy input) = c1)
    (h1 : c1.state = .pause) (hrun : c1.speechRun = 0) : noiseFrame set c input live =
      let gain := pauseGain set c1.estimate (frameEnergy input)
      ({ c1 with gain := gain, out := c.handOn input gain false }, if c.state = .speech then .hangoverEnd else .none) := by
  have hquiet : ¬c1.state = .speech := by rw [h1]; decide
  have hshort : ¬2500 ≤ c1.speechRun := by rw [hrun]; decide
  have hgate : (c.state = .speech ∧ c1.state = .pause) = (c.state = .speech) := by rw [h1]; simp
  subst hmove
  unfold noiseFrame
  dsimp only
  rw [decide_eq_false h, if_neg Bool.false_ne_true, if_neg Bool.false_ne_true, targetGain_pause h1, decide_eq_false hquiet,
    if_neg hshort]
  simp only [hgate]
  rfl

/-! ### What a frame is found to be -/

/-- A frame that a context not in LEARN takes for speech, by its energy or by the hangover (R91). -/
def NoiseCtx.speaks (c : NoiseCtx) (e : Nat) : Prop := 4 * c.estimate ≤ e ∨ (c.state = .speech ∧ 1 < c.hangover)

/-- A frame taken for speech lengthens the run. -/
theorem classedMove_speaks (h : c.speaks e) :
    (classedMove c live e).state = .speech ∧ (classedMove c live e).speechRun = c.speechRun + 1 := by
  by_cases hloud : 4 * c.estimate ≤ e
  · rw [classedMove_speech hloud]; exact ⟨rfl, rfl⟩
  · obtain ⟨hstate, hhang⟩ := h.resolve_left hloud
    rw [classedMove_hangs hstate (Nat.not_le.mp hloud) hhang]
    exact ⟨hstate, rfl⟩

theorem noiseFrame_speaks (h : c.state ≠ .learn) (hspeaks : c.speaks (frameEnergy input)) :
    (noiseFrame set c input live).2 = if 2499 ≤ c.speechRun then .restarted else .none := by
  obtain ⟨h1, hrun⟩ := classedMove_speaks (live := live) hspeaks
  rw [noiseFrame_speech h rfl h1, hrun]
  dsimp only
  by_cases hlong : 2499 ≤ c.speechRun
  · rw [if_pos (by omega), if_pos hlong]
  · rw [if_neg (by omega), if_neg hlong]

theorem noiseFrame_silent (h : c.state ≠ .learn) (hspeaks : ¬c.speaks (frameEnergy input)) :
    (noiseFrame set c input live).2 = if c.state = .speech then .hangoverEnd else .none := by
  obtain ⟨hquiet, hhang⟩ := not_or.mp hspeaks
  cases hstate : c.state with
  | learn => exact absurd hstate h
  | speech =>
    have hmove := classedMove_ends (live := live) hstate (Nat.not_le.mp hquiet) (Nat.not_lt.mp fun hh => hhang ⟨hstate, hh⟩)
    rw [noiseFrame_pause h hmove rfl rfl, hstate]
  | pause =>
    have hmove := classedMove_pause (live := live) hstate (Nat.not_le.mp hquiet)
    rw [noiseFrame_pause h hmove hstate rfl, hstate]

theorem noiseFrame_learning_event (h : c.state = .learn) :
    (noiseFrame set c input live).2 = if live = true ∧ c.learned = 15 then .learned else .none := by
  cases live with
  | false =>
    rw [noiseFrame_learn h learnMove_dead (by rw [h]; decide), h]
    rfl
  | true =>
    by_cases hj : c.learned = 15
    · rw [noiseFrame_learn h (learnMove_completes hj) nofun]
      exact (if_pos ⟨rfl, hj⟩).symm
    · rw [noiseFrame_learn h (learnMove_counts hj) (by change c.state ≠ _; rw [h]; decide)]
      exact (if_neg (show ¬c.state = .pause by rw [h]; decide)).trans (if_neg fun hs => hj hs.2).symm

theorem noiseFrame_learned_of (h : (noiseFrame set c input live).2 = .learned) :
    c.state = .learn ∧ live = true ∧ c.learned = 15 := by
  by_cases hstate : c.state = .learn
  · rw [noiseFrame_learning_event hstate] at h
    split at h
    · next hfull => exact ⟨hstate, hfull.1, hfull.2⟩
    · cases h
  · by_cases hspeaks : c.speaks (frameEnergy input)
    · rw [noiseFrame_speaks hstate hspeaks] at h
      split at h <;> cases h
    · rw [noiseFrame_silent hstate hspeaks] at h
      split at h <;> cases h

theorem noiseFrame_hangoverEnd_of (h : (noiseFrame set c input live).2 = .hangoverEnd) :
    c.state = .speech ∧ ¬c.speaks (frameEnergy input) := by
  by_cases hstate : c.state = .learn
  · rw [noiseFrame_learning_event hstate] at h
    split at h <;> cases h
  · by_cases hspeaks : c.speaks (frameEnergy input)
    · rw [noiseFrame_speaks hstate hspeaks] at h
      split at h <;> cases h
    · rw [noiseFrame_silent hstate hspeaks] at h
      split at h
      · next hspeech => exact ⟨hspeech, hspeaks⟩
      · cases h

theorem noiseFrame_restarted_of (h : (noiseFrame set c input live).2 = .restarted) :
    c.state ≠ .learn ∧ c.speaks (frameEnergy input) ∧ 2499 ≤ c.speechRun := by
  by_cases hstate : c.state = .learn
  · rw [noiseFrame_learning_event hstate] at h
    split at h <;> cases h
  · by_cases hspeaks : c.speaks (frameEnergy input)
    · rw [noiseFrame_speaks hstate hspeaks] at h
      split at h
      · next hlong => exact ⟨hstate, hspeaks, hlong⟩
      · cases h
    · rw [noiseFrame_silent hstate hspeaks] at h
      split at h <;> cases h

end

/-! ### The piece of a noise context -/

section
variable {s : State} {n : Fin 20} {set : NoiseSettings} {input : Frame} {live : Bool} {x : NoiseCtx} {event : NoiseEvent}

theorem State.noiseResult_position (s : State) (p : Fin 16) : s.noiseResult (noiseOfPosition p) =
    if (s.pos p).state = .opened then
      noiseFrame (s.pos p).noise s.nru.contexts[noiseOfPosition p] s.taken.echo[p].samples s.taken.echo[p].live
    else (noiseFrozen s.nru.contexts[noiseOfPosition p], .none) := by
  rw [← s.noiseSettings_position]
  exact dif_pos p.isLt

theorem State.noiseResult_channel (s : State) (c : Fin 4) : s.noiseResult (noiseOfChannel c) =
    noiseFrame s.nru.supSettings[c] s.nru.contexts[noiseOfChannel c] s.taken.talk[c].samples s.taken.talk[c].live := by
  have hno : ¬(noiseOfChannel c).val < 16 := by simp [noiseOfChannel]
  have hc : (⟨(noiseOfChannel c).val - 16, by omega⟩ : Fin 4) = c := Fin.ext (by simp [noiseOfChannel])
  rw [← s.noiseSettings_channel]
  unfold State.noiseResult
  dsimp only
  rw [dif_neg hno]
  exact congrArg (fun k : Fin 4 => noiseFrame (s.noiseSettings (noiseOfChannel c)) s.nru.contexts[noiseOfChannel c]
    s.taken.talk[k].samples s.taken.talk[k].live) hc

theorem State.hears.noiseResult (h : s.hears n set input live) :
    s.noiseResult n = noiseFrame set s.nru.contexts[n] input live := by
  rcases h with ⟨p, rfl, hopen, rfl, rfl, rfl⟩ | ⟨c, rfl, rfl, rfl, rfl⟩
  · rw [s.noiseResult_position, if_pos hopen]
  · exact s.noiseResult_channel c

theorem State.runNoise_result (h : s.noiseResult n = (x, event)) :
    s.runNoise n = { s with nru := { s.nru with contexts := s.nru.contexts.set n x } } := by
  unfold State.runNoise
  rw [h]
  rfl

theorem noiseEvent_done (hr : s.rstn = false) (hw : .noise n ∈ s.work) (h : s.noiseResult n = (x, event)) :
    s.eventWork (.noise n) (fun s => (s.noiseResult n).2 == event) = { s with
      work := s.work.erase (.noise n)
      nru := { s.nru with contexts := s.nru.contexts.set n x } } := by
  rw [State.eventWork_done hr hw (by rw [h]; exact beq_self_eq_true event)]
  exact State.runNoise_result (s := { s with work := s.work.erase (.noise n) }) h

theorem noiseEvent_idle (h : (s.noiseResult n).2 ≠ event) :
    s.eventWork (.noise n) (fun s => (s.noiseResult n).2 == event) = s :=
  State.eventWork_idle (beq_eq_false_iff_ne.mpr h)

theorem exec_noise_piece {held : List Work} (h : s.atPiece (.noise n) held) (hresult : s.noiseResult n = (x, event)) :
    exec (.frameEvent [.noise n] held) s = .next { s with
      work := s.work.erase (.noise n)
      nru := { s.nru with contexts := s.nru.contexts.set n x } } :=
  (exec_frameEvent_piece s _ held h).trans (congrArg Host.Outcome.next
    (State.runNoise_result (s := { s with work := s.work.erase (.noise n) }) hresult))

end

/-- Settles O50: the context by its state, the frame by its energy. -/
theorem noiseEvents : Obligations.NoiseEvents := by
  unfold Obligations.NoiseEvents
  refine ⟨fun s n set input live held hhears => ?_, fun s p held h hstate => ?_⟩
  · intro c e done frame pauseGain average speaks
    have hresult : s.noiseResult n = noiseFrame set c input live := hhears.noiseResult
    have henergy : frameEnergy input = e := frameEnergy_eq input
    have hlearnt : live = true → learnMove c live (frameEnergy input) = learnMove c true e := fun h => by rw [h, henergy]
    refine ⟨fun hr hw => ⟨fun hstate hlive hj => ?_, fun hno => ?_, fun hstate hquiet hhang => ?_, fun hno => ?_,
      fun hstate hspeaks hrun => ?_, fun hno => ?_⟩, fun h => ⟨fun hstate hlive hj => ?_, fun hstate hlive => ?_,
      fun hstate hloud hrun => ?_, fun hstate hquiet hhang hrun => ?_, fun hstate hquiet => ?_⟩⟩
    · have hmove : learnMove c live (frameEnergy input) = { c with
          estimate := max 1 ((c.estimate * 15 + e) / 16), learned := 16, state := .pause, hangover := 0
          speechRun := 0, relearning := false } := by
        rw [hlearnt hlive, learnMove_completes hj, hj]
        rfl
      exact congrArg Host.Outcome.next (noiseEvent_done (event := .learned) hr hw
        (hresult.trans (noiseFrame_learn hstate hmove nofun)))
    · refine congrArg Host.Outcome.next (noiseEvent_idle fun he => ?_)
      rw [hresult] at he
      obtain ⟨hstate, hlive, hj⟩ := noiseFrame_learned_of he
      rcases hno with h | h | h
      · exact h hstate
      · rw [hlive] at h; cases h
      · exact h hj
    · have hmove : classedMove c live (frameEnergy input) = _ := classedMove_ends hstate (henergy.symm ▸ hquiet) hhang
      have hdone := noiseFrame_pause (set := set) (by rw [hstate]; decide) hmove rfl rfl
      rw [if_pos hstate, henergy] at hdone
      exact congrArg Host.Outcome.next (noiseEvent_done hr hw (hresult.trans hdone))
    · refine congrArg Host.Outcome.next (noiseEvent_idle fun he => ?_)
      rw [hresult] at he
      obtain ⟨hstate, hspeaks⟩ := noiseFrame_hangoverEnd_of he
      rw [henergy] at hspeaks
      rcases hno with h | h | h
      · exact h hstate
      · exact hspeaks (.inl h)
      · exact hspeaks (.inr ⟨hstate, h⟩)
    · have hrestart : ∃ c1, classedMove c live (frameEnergy input) = c1 ∧ c1.state = .speech ∧
          c1.speechRun = c.speechRun + 1 ∧ { c1 with gain := 4096, out := c.handOn input 4096 true }.restart =
            { c with
              state := .learn, learned := 0, hangover := 0, speechRun := 0, gain := 4096
              out := c.handOn input 4096 true } := by
        by_cases hloud : 4 * c.estimate ≤ e
        · exact ⟨_, classedMove_speech (henergy.symm ▸ hloud), rfl, rfl, rfl⟩
        · obtain ⟨hspeech, hhang⟩ := hspeaks.resolve_left hloud
          exact ⟨_, classedMove_hangs hspeech (henergy.symm ▸ Nat.not_le.mp hloud) hhang, hspeech, rfl, rfl⟩
      obtain ⟨c1, hmove, h1, hrun1, hc1⟩ := hrestart
      have hdone := noiseFrame_speech (set := set) hstate hmove h1
      rw [if_pos (show 2500 ≤ c1.speechRun by omega), hc1] at hdone
      exact congrArg Host.Outcome.next (noiseEvent_done hr hw (hresult.trans hdone))
    · refine congrArg Host.Outcome.next (noiseEvent_idle fun he => ?_)
      rw [hresult] at he
      obtain ⟨hstate, hspeaks, hrun⟩ := noiseFrame_restarted_of he
      rw [henergy] at hspeaks
      rcases hno with h | h | h
      · exact hstate h
      · exact h hspeaks
      · omega
    · have hmove := hlearnt hlive
      rw [learnMove_counts (Nat.ne_of_lt hj)] at hmove
      exact exec_noise_piece h (hresult.trans (noiseFrame_learn hstate hmove (by change c.state ≠ _; rw [hstate]; decide)))
    · have hmove : learnMove c live (frameEnergy input) = c := by rw [hlive]; rfl
      exact exec_noise_piece h (hresult.trans (noiseFrame_learn hstate hmove (by rw [hstate]; decide)))
    · have hmove : classedMove c live (frameEnergy input) = _ := classedMove_speech (henergy.symm ▸ hloud)
      have hdone := noiseFrame_speech (set := set) hstate hmove rfl
      rw [if_neg (show ¬2500 ≤ c.speechRun + 1 by omega)] at hdone
      exact exec_noise_piece h (hresult.trans hdone)
    · have hmove : classedMove c live (frameEnergy input) = _ := classedMove_hangs hstate (henergy.symm ▸ hquiet) hhang
      have hdone := noiseFrame_speech (set := set) (by rw [hstate]; decide) hmove hstate
      rw [if_neg (show ¬2500 ≤ c.speechRun + 1 by omega)] at hdone
      exact exec_noise_piece h (hresult.trans hdone)
    · have hmove : classedMove c live (frameEnergy input) = _ := classedMove_pause hstate (henergy.symm ▸ hquiet)
      have hdone := noiseFrame_pause (set := set) (by rw [hstate]; decide) hmove hstate rfl
      rw [henergy] at hdone
      exact exec_noise_piece h (hresult.trans hdone)
  · exact exec_noise_piece h ((s.noiseResult_position p).trans (if_neg hstate))

end Sys2Proof.Machine
end

