-- ==== Sys2Proof/Proofs/FetchSide.lean ====
section
/-!
PROOFS. The fetch side of a voice, one step of the list at a time (R120, R121, R125 to R127, R130), and what it leaves
unchanged: support for O52.
-/

namespace Sys2Proof.Machine

/-! ### One step of the list -/

section
variable {view : FetchView} {f : Fetching} {m i : Nat} {step : Step}

/-- With no moves left the fetch side stays at its step. -/
theorem fetchSide_stays (hi : f.voice.current = some i) (hstep : f.voice.steps[i]? = some step) :
    fetchSide view 0 f = (stepAct view f i step).stay := by
  unfold fetchSide
  rw [hi]
  dsimp only
  rw [hstep]

theorem fetchSide_waits (hi : f.voice.current = some i) (hstep : f.voice.steps[i]? = some step)
    (hleave : (stepAct view f i step).leave = none) : fetchSide view m f = (stepAct view f i step).stay := by
  cases m with
  | zero => exact fetchSide_stays hi hstep
  | succ m =>
    unfold fetchSide
    rw [hi]
    dsimp only
    rw [hstep]
    dsimp only
    rw [hleave]

theorem fetchSide_leaves {g : Fetching} (hi : f.voice.current = some i) (hstep : f.voice.steps[i]? = some step)
    (hleave : (stepAct view f i step).leave = some g) : fetchSide view (m + 1) f = fetchSide view m g := by
  rw [fetchSide.eq_def]
  dsimp only
  rw [hi]
  dsimp only
  rw [hstep]
  dsimp only
  rw [hleave]

/-! ### The end of the list (R130) -/

theorem fetchSide_prompt {p : Fin 16} {q : QueueId} (hi : f.voice.current = none) (huse : f.voice.use = .prompt p q) :
    fetchSide view m f = { f with voice := { f.voice with endFetched := true } } := by
  rw [fetchSide.eq_def]
  dsimp only
  rw [hi]
  dsimp only
  rw [huse]

theorem fetchSide_program_zero (hi : f.voice.current = none) (huse : f.voice.use = .program) : fetchSide view 0 f = f := by
  rw [fetchSide.eq_def]
  dsimp only
  rw [hi]
  dsimp only
  rw [huse]

theorem fetchSide_program_succ (hi : f.voice.current = none) (huse : f.voice.use = .program) :
    fetchSide view (m + 1) f =
      if f.voice.placed then fetchSide view m { f with voice := f.voice.wrap }
      else if frameSize ≤ f.voice.space then { f with voice := ({ f.voice with buffer := f.voice.buffer ++ zeroFrame }).wrap }
      else f := by
  rw [fetchSide.eq_def]
  dsimp only
  rw [hi]
  dsimp only
  rw [huse]

end

/-! ### Arrival (R125) -/

section
variable (v : Voice)

theorem Voice.arrive_mark (code : Nat) : v.arrive (.mark code) = { v with entered := true } := by
  unfold Voice.arrive
  split
  · next h => rw [← h]
  · rfl

theorem Voice.arrive_loop (target count : Nat) : v.arrive (.loop target count) = { v with entered := true } := by
  unfold Voice.arrive
  split
  · next h => rw [← h]
  · rfl

theorem Voice.arrive_silence (frames : Nat) : v.arrive (.silence frames) =
    { v with entered := true, silence := if v.entered = true then v.silence else frames * 64 } := by
  unfold Voice.arrive
  split
  · next h => rw [← h]
  · rfl

theorem Voice.arrive_clip (n : Nat) : v.arrive (.clip n) =
    { v with entered := true, clip := if v.entered = true then v.clip else none } := by
  unfold Voice.arrive
  split
  · next h => rw [← h]
  · rfl

end

/-! ### A CLIP step (R126, R127) -/

section
variable {view : FetchView} {f : Fetching} {i n : Nat} {q : ClipProgress}

theorem begunClip_finished (h : q.remaining = 0) :
    begunClip view f i q = { stay := f, leave := some { f with voice := f.voice.goOn i } } := if_pos h

theorem begunClip_scanning (h : 0 < q.remaining) (hstore : view.store = .scanning) :
    begunClip view f i q = { stay := f, leave := none } := by
  unfold begunClip
  dsimp only
  rw [if_neg (by omega), hstore]

theorem begunClip_unavailable (h : 0 < q.remaining) (hstore : view.store = .unavailable) :
    begunClip view f i q = { stay := f, leave := some { f with voice := f.voice.skipClip i } } := by
  unfold begunClip
  dsimp only
  rw [if_neg (by omega), hstore]

theorem begunClip_ready (h : 0 < q.remaining) (hstore : view.store = .ready) : begunClip view f i q =
    { stay := { f with voice := { f.voice with
        refill := f.voice.refill || decide (f.voice.buffer.length ≤ 128) } }, leave := none } := by
  unfold begunClip
  dsimp only
  rw [if_neg (by omega), hstore]
  rfl

theorem clipAct_begun (h : f.voice.clip = some q) : clipAct view f i n = begunClip view f i q := by
  unfold clipAct
  dsimp only
  rw [h]

theorem clipAct_scanning (h : ∀ q, f.voice.clip = some q → 0 < q.remaining) (hstore : view.store = .scanning) :
    clipAct view f i n = { stay := f, leave := none } := by
  cases hclip : f.voice.clip with
  | some q => rw [clipAct_begun hclip, begunClip_scanning (h q hclip) hstore]
  | none =>
    unfold clipAct
    dsimp only
    rw [hclip]
    dsimp only
    rw [hstore]

theorem clipAct_unavailable (h : ∀ q, f.voice.clip = some q → 0 < q.remaining) (hstore : view.store = .unavailable) :
    clipAct view f i n = { stay := f, leave := some { f with voice := f.voice.skipClip i } } := by
  cases hclip : f.voice.clip with
  | some q => rw [clipAct_begun hclip, begunClip_unavailable (h q hclip) hstore]
  | none =>
    unfold clipAct
    dsimp only
    rw [hclip]
    dsimp only
    rw [hstore]

theorem clipAct_invalid (h : f.voice.clip = none) (hstore : view.store = .ready)
    (hentry : ∀ e, view.directory[n]? = some e → e.valid = false) :
    clipAct view f i n = { stay := f, leave := some { f with voice := f.voice.skipClip i } } := by
  unfold clipAct
  dsimp only
  rw [h]
  dsimp only
  rw [hstore]
  dsimp only
  cases he : view.directory[n]? with
  | none => rfl
  | some e =>
    dsimp only
    rw [hentry e he]
    exact if_neg Bool.false_ne_true

theorem clipAct_valid {e : DirEntry} (h : f.voice.clip = none) (hstore : view.store = .ready)
    (hentry : view.directory[n]? = some e) (hvalid : e.valid = true) : clipAct view f i n =
      begunClip view { f with voice := { f.voice with clip := some { offset := 0, remaining := e.count } } } i
        { offset := 0, remaining := e.count } := by
  unfold clipAct
  dsimp only
  rw [h]
  dsimp only
  rw [hstore]
  dsimp only
  rw [hentry]
  dsimp only
  rw [hvalid]
  exact if_pos rfl

end

/-! ### What the fetch side leaves unchanged -/

/-- The fetch side adds to the buffer, and changes neither the output nor the underruns; a prompt's codes are not
reported. -/
structure Fetching.Feeds (f g : Fetching) : Prop where
  buffer : f.voice.buffer <+: g.voice.buffer
  use : g.voice.use = f.voice.use
  out : g.voice.out = f.voice.out
  underruns : g.voice.underruns = f.voice.underruns
  marks : f.voice.use ≠ .program → g.marks = f.marks

section
variable {f g h : Fetching} {v : Voice}

theorem Fetching.Feeds.refl (f : Fetching) : f.Feeds f := ⟨List.prefix_refl _, rfl, rfl, rfl, fun _ => rfl⟩

theorem Fetching.Feeds.trans (h1 : f.Feeds g) (h2 : g.Feeds h) : f.Feeds h :=
  ⟨h1.buffer.trans h2.buffer, h2.use.trans h1.use, h2.out.trans h1.out, h2.underruns.trans h1.underruns,
    fun hu => (h2.marks (h1.use.symm ▸ hu)).trans (h1.marks hu)⟩

/-- A change of the voice that leaves its buffer as it is. -/
theorem Fetching.Feeds.of_voice (hb : v.buffer = f.voice.buffer := by rfl) (hu : v.use = f.voice.use := by rfl)
    (ho : v.out = f.voice.out := by rfl) (hn : v.underruns = f.voice.underruns := by rfl) :
    f.Feeds { f with voice := v } :=
  ⟨by rw [hb], hu, ho, hn, fun _ => rfl⟩

def StepAct.Feeds (f : Fetching) (act : StepAct) : Prop := f.Feeds act.stay ∧ ∀ g, act.leave = some g → f.Feeds g

theorem StepAct.Feeds.waits (hg : f.Feeds g) : StepAct.Feeds f { stay := g, leave := none } := ⟨hg, fun _ h => nomatch h⟩

theorem StepAct.Feeds.goes (hg : f.Feeds g) (hh : f.Feeds h) : StepAct.Feeds f { stay := g, leave := some h } :=
  ⟨hg, fun _ he => by cases he; exact hh⟩

theorem StepAct.Feeds.after {act : StepAct} (hg : f.Feeds g) (hact : act.Feeds g) : act.Feeds f :=
  ⟨hg.trans hact.1, fun k hk => hg.trans (hact.2 k hk)⟩

theorem Voice.arrive_feeds (f : Fetching) (step : Step) : f.Feeds { f with voice := f.voice.arrive step } := by
  unfold Voice.arrive
  split
  · exact .refl f
  · split <;> exact .of_voice

theorem Voice.passLoop_feeds (f : Fetching) (i target count : Nat) :
    f.Feeds { f with voice := f.voice.passLoop i target count } := by
  unfold Voice.passLoop
  dsimp only
  split
  · exact .of_voice
  · split <;> exact .of_voice

theorem Fetching.passMark_feeds (f : Fetching) (code : Nat) : f.Feeds (f.passMark code) := by
  unfold Fetching.passMark
  split
  · next huse => exact ⟨List.prefix_refl _, rfl, rfl, rfl, fun hu => absurd huse hu⟩
  · split
    · exact .of_voice
    · exact .refl f

theorem begunClip_feeds (view : FetchView) (f : Fetching) (i : Nat) (q : ClipProgress) : (begunClip view f i q).Feeds f := by
  unfold begunClip
  dsimp only
  split
  · exact .goes (.refl f) .of_voice
  · split
    · exact .goes (.refl f) .of_voice
    · exact .waits (.refl f)
    · exact .waits .of_voice

theorem clipAct_feeds (view : FetchView) (f : Fetching) (i n : Nat) : (clipAct view f i n).Feeds f := by
  have hskip : StepAct.Feeds f { stay := f, leave := some { f with voice := f.voice.skipClip i } } :=
    .goes (.refl f) .of_voice
  unfold clipAct
  dsimp only
  split
  · exact begunClip_feeds _ _ _ _
  · split
    · exact .waits (.refl f)
    · exact hskip
    · split
      · exact hskip
      · split
        · exact (begunClip_feeds view _ i _).after .of_voice
        · exact hskip

theorem stepAct_feeds (view : FetchView) (f : Fetching) (i : Nat) (step : Step) : (stepAct view f i step).Feeds f := by
  refine StepAct.Feeds.after (Voice.arrive_feeds f step) ?_
  cases step with
  | mark code => exact .goes (.refl _) ((Fetching.passMark_feeds _ code).trans .of_voice)
  | loop target count => exact .goes (.refl _) (Voice.passLoop_feeds _ i target count)
  | silence frames =>
    have hplace : Fetching.Feeds { f with voice := f.voice.arrive (.silence frames) }
        { f with voice := (f.voice.arrive (.silence frames)).placeSilence } :=
      ⟨List.prefix_append _ _, rfl, rfl, rfl, fun _ => rfl⟩
    unfold stepAct
    dsimp only
    split
    · exact .goes hplace (hplace.trans .of_voice)
    · exact .waits hplace
  | clip n => exact clipAct_feeds view _ i n

theorem fetchSide_feeds (view : FetchView) (m : Nat) (f : Fetching) : f.Feeds (fetchSide view m f) := by
  induction m generalizing f with
  | zero =>
    unfold fetchSide
    split
    · split
      · exact .refl f
      · exact .of_voice
    · split
      · exact .refl f
      · exact (stepAct_feeds view f _ _).1
  | succ m ih =>
    unfold fetchSide
    split
    · split
      · dsimp only
        split
        · exact Fetching.Feeds.trans .of_voice (ih _)
        · split
          · exact ⟨List.prefix_append _ _, rfl, rfl, rfl, fun _ => rfl⟩
          · exact .refl f
      · exact .of_voice
    · next i _ =>
      split
      · exact .refl f
      · next step _ =>
        obtain ⟨hstay, hleave⟩ := stepAct_feeds view f i step
        dsimp only
        split
        · exact hstay
        · next g hg => exact (hleave g hg).trans (ih g)

end

end Sys2Proof.Machine
end

