-- ==== Sys2Proof/Proofs/VoiceWork.lean ====
section
/-!
PROOFS. O52 and O53: the work of a voice at a frame event (R120 to R127, R130, R133, R162, R163).
-/

namespace Sys2Proof.Machine

/-! ### The play side (R122, R123, R133) -/

section
variable {x : Voice} {b : Bool}

theorem Voice.primed_iff : x.primed = true ↔ x.state = .priming ∧ (128 ≤ x.buffer.length ∨ x.endFetched = true) := by
  simp only [Voice.primed, Bool.and_eq_true, Bool.or_eq_true, beq_iff_eq, decide_eq_true_eq]
  rfl

theorem Voice.played_primed (h : x.primed = true) : x.played b = { x with state := .playing }.play := by
  rw [Voice.played, Voice.prime, if_pos h]
  rfl

theorem Voice.prime_eq (h : ¬x.primed = true) : x.prime = x := if_neg h

theorem Voice.played_playing (h : x.state = .playing) : x.played b = x.play := by
  rw [Voice.played, Voice.prime_eq fun hp => by rw [(Voice.primed_iff.mp hp).1] at h; cases h]
  unfold Voice.output
  rw [h]

theorem Voice.played_unprimed (h : x.state = .priming) (hp : ¬x.primed = true) : x.played b = x.silent := by
  rw [Voice.played, Voice.prime_eq hp]
  unfold Voice.output
  rw [h]

theorem Voice.played_free (h : x.state = .free) : x.played b = x.silent := by
  rw [Voice.played, Voice.prime_eq fun hp => by rw [(Voice.primed_iff.mp hp).1] at h; cases h]
  unfold Voice.output
  rw [h]

theorem Voice.played_draining (h : x.state = .draining) : x.played b =
    let faded := if x.ramp = .pending then x.fade else x.silent
    if b then faded else faded.release := by
  rw [Voice.played, Voice.prime_eq fun hp => by rw [(Voice.primed_iff.mp hp).1] at h; cases h]
  unfold Voice.output
  rw [h]

/-- A voice before the end of its list that plays short counts an underrun. -/
theorem Voice.play_short (h : x.endFetched = false) : x.play = { x with
    out := { samples := (x.buffer ++ List.replicate 64 0).take 64, use := x.use }
    buffer := x.buffer.drop 64
    underruns := if x.buffer.length < 64 then min 65535 (x.underruns + 1) else x.underruns } := by
  have hcond : (x.buffer.length < frameSize ∧ x.endFetched = false) = (x.buffer.length < 64) := by
    rw [h]; simp [frameSize]
  unfold Voice.play
  simp only [hcond]
  rfl

theorem Voice.play_ended (h : x.endFetched = true) : x.play = { x with
    out := { samples := (x.buffer ++ List.replicate 64 0).take 64, use := x.use }
    buffer := x.buffer.drop 64 } := by
  have hcond : ¬(x.buffer.length < frameSize ∧ x.endFetched = false) := fun hs => by rw [h] at hs; cases hs.2
  unfold Voice.play
  rw [if_neg hcond]
  rfl

/-- The fade sample by sample (R133). -/
theorem fade_eq (buffer : List Sample) : rampFrame 4096 0 (padFrame buffer) = (List.range 64).map (fun j =>
    (buffer.getD j 0 * (4096 - 64 * ((j : Int) + 1)) + 2048) / 4096) := by
  refine List.map_congr_left fun j hj => ?_
  have hlt : j < 64 := List.mem_range.mp hj
  have hpad : (padFrame buffer).getD j 0 = buffer.getD j 0 := by
    simp only [padFrame, zeroFrame, frameSize, List.getD_eq_getElem?_getD, List.getElem?_take, hlt, if_true]
    rcases Nat.lt_or_ge j buffer.length with hlen | hlen
    · rw [List.getElem?_append_left hlen]
    · rw [List.getElem?_append_right hlen, List.getElem?_eq_none hlen, List.getElem?_replicate]
      split <;> rfl
  have hgain : rampGain 4096 0 j = 4096 - 64 * ((j : Int) + 1) := by
    have hdiv : Int.tdiv ((0 - 4096) * ((j : Int) + 1)) 64 = -64 * ((j : Int) + 1) := by
      rw [show (0 - 4096) * ((j : Int) + 1) = (-64 * ((j : Int) + 1)) * 64 by ring]
      exact Int.mul_tdiv_cancel _ (by decide)
    rw [rampGain, hdiv]
    ring
  rw [hpad, hgain]
  rfl

theorem Voice.completes_iff : x.completes = true ↔
    x.state = .playing ∧ x.isPrompt = true ∧ x.endFetched = true ∧ x.buffer = [] := by
  simp [Voice.completes, and_assoc]

end

/-! ### The piece of a voice -/

/-- What the work of a voice leaves when it completes no prompt: the voice, and who is owed the next fetch grant. -/
def State.voiceLeft (s : State) (v : Fin 12) (y : Voice) : State :=
  let u : State := { s with vce := s.vce.set v y }
  { u with sfe := { s.sfe with owed := u.nextFetch } }

section
variable {s : State} {v : Fin 12} {y : Voice}

theorem State.runVoice_works (hplayed : s.vce[v].played (s.inFlight v) = y) (h : y.completes = false) :
    s.runVoice v =
      let f := y.fetched (s.inFlight v) { store := s.sfe.store, directory := s.sfe.directory }
      { s.voiceLeft v f.voice with
        cpt := f.marks.foldl (fun c code => c.place s.ftu.frameCount .line (.programMark v code)) s.cpt } := by
  have hself : (s.modVoice v (fun x => x.played (s.inFlight v))).vce[v] = y := (upd_same ..).trans hplayed
  have hvoice : ∀ z : Voice, ((s.modVoice v (fun x => x.played (s.inFlight v))).modVoice v (fun _ => z)).settleOwed =
      s.voiceLeft v z := fun z => by
    have hbank : upd (upd s.vce v (fun x => x.played (s.inFlight v))) v (fun _ => z) = s.vce.set v z := upd_upd ..
    simp only [State.modVoice, hbank]
    rfl
  have hmarks : ∀ (l : List Nat) (u : State), l.foldl (fun s code => s.report .line (.programMark v code)) u =
      { u with cpt := l.foldl (fun c code => c.place u.ftu.frameCount .line (.programMark v code)) u.cpt } := by
    intro l
    induction l with
    | nil => exact fun _ => rfl
    | cons code l ih => exact fun u => (ih _).trans rfl
  unfold State.runVoice
  dsimp only
  rw [hself, if_neg (by rw [h]; decide), hvoice, hmarks]
  rfl

theorem Voice.fetched_idle {b : Bool} {view : FetchView}
    (h : ¬((y.state = .priming ∨ y.state = .playing) ∧ y.endFetched = false ∧ b = false)) :
    y.fetched b view = { voice := y, marks := [] } := by
  refine if_neg fun hs => h ?_
  simpa [and_assoc] using hs

theorem Voice.fetched_works {view : FetchView} (h : y.state = .priming ∨ y.state = .playing) (hend : y.endFetched = false) :
    y.fetched false view = fetchSide view 8 { voice := y, marks := [] } := by
  refine if_pos ?_
  simpa [hend] using h

/-- The fetch side of the voice has nothing to do. -/
theorem State.runVoice_idle (hplayed : s.vce[v].played (s.inFlight v) = y) (h : y.completes = false)
    (hidle : ¬((y.state = .priming ∨ y.state = .playing) ∧ y.endFetched = false ∧ s.inFlight v = false)) :
    s.runVoice v = s.voiceLeft v y := by
  rw [State.runVoice_works hplayed h, Voice.fetched_idle hidle]
  rfl

/-- The fetch side of the voice works. -/
theorem State.runVoice_fetches (hplayed : s.vce[v].played false = y) (h : y.completes = false)
    (hstate : y.state = .priming ∨ y.state = .playing) (hend : y.endFetched = false) (hfree : s.inFlight v = false) :
    s.runVoice v =
      let f := fetchSide { store := s.sfe.store, directory := s.sfe.directory } 8 { voice := y, marks := [] }
      { s.voiceLeft v f.voice with
        cpt := f.marks.foldl (fun c code => c.place s.ftu.frameCount .line (.programMark v code)) s.cpt } := by
  rw [State.runVoice_works (hfree ▸ hplayed) h, hfree, Voice.fetched_works hstate hend]

theorem State.inFlight_iff : s.inFlight v = true ↔ ∃ f, s.sfe.fetch = some f ∧ f.voice = v := by
  rw [State.inFlight_eq, decide_eq_true_eq]

theorem State.inFlight_false : s.inFlight v = false ↔ ¬∃ f, s.sfe.fetch = some f ∧ f.voice = v := by
  rw [State.inFlight_eq, decide_eq_false_iff_not]

/-! ### A prompt completes (R124, R162, R163) -/

theorem State.runVoice_completes {p : Fin 16} {q : QueueId} {e : Entry} {others : List Entry}
    (hplayed : s.vce[v].played (s.inFlight v) = y) (h : y.completes = true) (huse : y.use = .prompt p q)
    (hqueue : s.queue p q = e :: others) (he : e.voice = some v) : s.runVoice v =
      (({ s with vce := s.vce.set v y.release }).setQueue p q others).promptDone p q e
        (if y.skipped = 0 then .complete else .partly) y.underruns y.marks := by
  have hself : (s.modVoice v (fun x => x.played (s.inFlight v))).vce[v] = y := (upd_same ..).trans hplayed
  have hrelease : (s.modVoice v (fun x => x.played (s.inFlight v))).modVoice v Voice.release =
      { s with vce := s.vce.set v y.release } := by
    have hbank : upd (upd s.vce v (fun x => x.played (s.inFlight v))) v Voice.release = s.vce.set v y.release := by
      rw [upd_upd, ← hplayed]
      rfl
    simp only [State.modVoice, hbank]
  have hqueue' : ({ s with vce := s.vce.set v y.release } : State).queue p q = e :: others := hqueue
  unfold State.runVoice
  dsimp only
  rw [hself, if_pos h]
  unfold State.completePrompt
  dsimp only
  rw [hself, huse, hrelease]
  dsimp only
  rw [hqueue']
  exact if_pos he

end

theorem exec_promptCompletion (s : State) (v : Fin 12) :
    exec (.promptCompletion v) s = .next (s.eventWork (.voice v) (fun s => s.completionDue v)) := rfl

/-- A prompt voice that starts or goes on playing outputs its 64 oldest samples. -/
theorem Voice.played_ended {x : Voice} {b : Bool} (hstate : x.state = .priming ∨ x.state = .playing) (hend : x.endFetched = true) :
    x.played b = { x with
      state := .playing
      out := { samples := (x.buffer ++ List.replicate 64 0).take 64, use := x.use }
      buffer := x.buffer.drop 64 } := by
  rcases hstate with h | h
  · rw [Voice.played_primed (Voice.primed_iff.mpr ⟨h, .inr hend⟩)]
    exact Voice.play_ended (x := { x with state := .playing }) hend
  · rw [Voice.played_playing h, Voice.play_ended hend, h]

/-- Only at the end of its list, with its last samples leaving, does a prompt complete. -/
theorem Voice.played_completes {x : Voice} {b : Bool} (hstate : x.state = .priming ∨ x.state = .playing)
    (h : (x.played b).completes = true) : x.endFetched = true ∧ x.buffer.length ≤ 64 := by
  have hend : x.endFetched = true := by
    have hafter := (Voice.completes_iff.mp h).2.2.1
    by_cases hp : x.primed = true
    · rwa [Voice.played_primed hp] at hafter
    · rcases hstate with hx | hx
      · rwa [Voice.played_unprimed hx hp] at hafter
      · rwa [Voice.played_playing hx] at hafter
  have hempty := (Voice.completes_iff.mp h).2.2.2
  rw [Voice.played_ended hstate hend] at hempty
  exact ⟨hend, List.drop_eq_nil_iff.mp hempty⟩

/-- Settles O53: the voice has played to the end of its list, and its entry leaves the head of the queue. -/
theorem promptCompletes : Obligations.PromptCompletes := by
  unfold Obligations.PromptCompletes
  intro s v p q e others hr hw x hstate huse
  refine ⟨fun hgoes => ?_, fun hend hshort hqueue he => ?_⟩
  · have hdue : s.completionDue v = false := Bool.eq_false_iff.mpr fun hdue => by
      obtain ⟨hend, hshort⟩ := Voice.played_completes hstate hdue
      rcases hgoes with h | h
      · rw [hend] at h; cases h
      · omega
    rw [exec_promptCompletion, State.eventWork_idle hdue]
  · let y : Voice := { x with
      state := .playing
      out := { samples := (x.buffer ++ List.replicate 64 0).take 64, use := x.use }
      buffer := [] }
    have hplayed : x.played (s.inFlight v) = y := by
      rw [Voice.played_ended hstate hend, List.drop_eq_nil_of_le hshort]
    have hcompletes : y.completes = true :=
      Voice.completes_iff.mpr ⟨rfl, by simp [Voice.isPrompt, y, huse], hend, rfl⟩
    have hdue : s.completionDue v = true := by rw [State.completionDue]; exact hplayed ▸ hcompletes
    rw [exec_promptCompletion, State.eventWork_done hr hw hdue]
    refine congrArg Host.Outcome.next ((State.runVoice_completes (s := { s with work := s.work.erase (.voice v) })
      hplayed hcompletes huse hqueue he).trans ?_)
    cases q <;> cases ho : e.origin <;> (simp only [State.promptDone, ho]; rfl)

end Sys2Proof.Machine
end

