-- ==== Sys2Proof/Proofs/VoiceEvents.lean ====
section
/-!
PROOFS. O52: the events of a voice, its output by its state, and its fetch side step by step.
-/

namespace Sys2Proof.Machine

section
variable {s : State} {v : Fin 12} {x y : Voice} {b : Bool} {view : FetchView}

theorem Voice.fetched_feeds : Fetching.Feeds { voice := y, marks := [] } (y.fetched b view) := by
  unfold Voice.fetched
  split
  · exact fetchSide_feeds _ _ _
  · exact .refl _

/-- A voice that has samples left completes no prompt. -/
theorem Voice.completes_of_buffer (h : y.buffer ≠ []) : y.completes = false :=
  Bool.eq_false_iff.mpr fun hc => h (Voice.completes_iff.mp hc).2.2.2

theorem Voice.completes_of_endFetched (h : y.endFetched = false) : y.completes = false :=
  Bool.eq_false_iff.mpr fun hc => by rw [(Voice.completes_iff.mp hc).2.2.1] at h; cases h

theorem Voice.completes_of_state (h : y.state ≠ .playing) : y.completes = false :=
  Bool.eq_false_iff.mpr fun hc => h (Voice.completes_iff.mp hc).1

theorem drop_ne_nil {l : List Sample} (h : 64 < l.length) : l.drop 64 ≠ [] := fun hd =>
  absurd (List.drop_eq_nil_iff.mp hd) (by omega)

/-- A voice with a frame in its buffer counts no underrun. -/
theorem Voice.play_full (h : 64 ≤ x.buffer.length) : x.play = { x with
    out := { samples := (x.buffer ++ List.replicate 64 0).take 64, use := x.use }
    buffer := x.buffer.drop 64 } := by
  unfold Voice.play
  rw [if_neg fun hs => absurd hs.1 (Nat.not_lt.mpr h)]
  rfl

/-- A voice under way before the end of its list. -/
theorem Voice.played_short (hstate : x.state = .priming ∨ x.state = .playing) (hend : x.endFetched = false) :
    x.played b =
      if x.state = .playing ∨ 128 ≤ x.buffer.length then { x with
        state := .playing
        out := { samples := (x.buffer ++ List.replicate 64 0).take 64, use := x.use }
        buffer := x.buffer.drop 64
        underruns := if x.buffer.length < 64 then min 65535 (x.underruns + 1) else x.underruns }
      else { x with out := { samples := List.replicate 64 0, use := x.use } } := by
  by_cases hplaying : x.state = .playing
  · rw [if_pos (.inl hplaying), Voice.played_playing hplaying, Voice.play_short hend, hplaying]
  · have hpriming := hstate.resolve_right hplaying
    by_cases hfull : 128 ≤ x.buffer.length
    · rw [if_pos (.inr hfull), Voice.played_primed (Voice.primed_iff.mpr ⟨hpriming, .inl hfull⟩)]
      exact Voice.play_short (x := { x with state := .playing }) hend
    · have hp : ¬x.primed = true := fun hp => (Voice.primed_iff.mp hp).2.elim hfull fun he => by
        rw [hend] at he; cases he
      rw [if_neg fun h => h.elim hplaying hfull, Voice.played_unprimed hpriming hp]
      rfl

/-- What becomes of a draining voice whose fade is worked. -/
theorem Voice.played_fading (hstate : x.state = .draining) (hramp : x.ramp = .pending) : x.played b =
    let faded : Voice := { x with
      out := { samples := (List.range 64).map (fun j =>
        (x.buffer.getD j 0 * (4096 - 64 * ((j : Int) + 1)) + 2048) / 4096), use := x.use }
      buffer := []
      ramp := .done }
    if b then faded else { faded with state := .free, use := .none, drainedFor := none } := by
  rw [Voice.played_draining hstate, if_pos hramp, Voice.fade, fade_eq]
  rfl

end

/-! ### The single events -/

section
variable {s : State} {v : Fin 12}

theorem exec_voiceStartPlaying (s : State) (v : Fin 12) :
    exec (.voiceStartPlaying v) s = .next (s.eventWork (.voice v) (fun s => s.vce[v].primed)) := rfl

theorem exec_refillRequest (s : State) (v : Fin 12) :
    exec (.refillRequest v) s = .next (s.eventWork (.voice v) (fun s => s.refillDue v)) := rfl

theorem exec_drainFade (s : State) (v : Fin 12) :
    exec (.drainFade v) s = .next (s.eventWork (.voice v) (fun s => s.fadeDue v)) := rfl

theorem State.fadeDue_iff : s.fadeDue v = true ↔ s.vce[v].state = .draining ∧ s.vce[v].ramp = .pending := by
  simp [State.fadeDue]

/-- The work of a voice that goes from PRIMING to PLAYING with its buffer full. -/
theorem State.runVoice_starts (hstate : s.vce[v].state = .priming) (hfull : 128 ≤ s.vce[v].buffer.length) :
    let x := s.vce[v]
    let t := s.runVoice v
    t = { s with vce := t.vce, sfe := { s.sfe with owed := t.sfe.owed }, cpt := t.cpt } ∧
      (x.use ≠ .program → t.cpt = s.cpt) ∧ (∀ w : Fin 12, w ≠ v → t.vce[w] = s.vce[w]) ∧
      t.vce[v].state = .playing ∧ t.vce[v].use = x.use ∧ t.vce[v].underruns = x.underruns ∧
      t.vce[v].out = { samples := x.buffer.take 64, use := x.use } ∧ x.buffer.drop 64 <+: t.vce[v].buffer := by
  intro x t
  have hx : 128 ≤ x.buffer.length := hfull
  let y : Voice := { x with
    state := .playing
    out := { samples := x.buffer.take 64, use := x.use }
    buffer := x.buffer.drop 64 }
  have hplayed : x.played (s.inFlight v) = y := by
    rw [Voice.played_primed (Voice.primed_iff.mpr ⟨hstate, .inl hfull⟩)]
    refine (Voice.play_full (x := { x with state := .playing }) (by change 64 ≤ x.buffer.length; omega)).trans ?_
    dsimp only
    rw [List.take_append_of_le_length (by omega)]
  have ht : t = _ := State.runVoice_works hplayed (Voice.completes_of_buffer (drop_ne_nil (by omega)))
  let f := y.fetched (s.inFlight v) { store := s.sfe.store, directory := s.sfe.directory }
  have hfeeds : Fetching.Feeds { voice := y, marks := [] } f := Voice.fetched_feeds
  have hself : t.vce[v] = f.voice := by rw [ht]; exact Vector.getElem_set_self _
  obtain ⟨⟨hf, -⟩, -⟩ := y.fetched_use (s.inFlight v) { store := s.sfe.store, directory := s.sfe.directory }
  refine ⟨by rw [ht]; rfl, fun huse => ?_, fun w hw => ?_, ?_, ?_, ?_, ?_, ?_⟩
  · have hmarks : f.marks = [] := hfeeds.marks huse
    rw [ht]
    dsimp only
    rw [show (y.fetched (s.inFlight v) { store := s.sfe.store, directory := s.sfe.directory }).marks = [] from hmarks]
    rfl
  · rw [ht]
    simp only [State.voiceLeft, Fin.getElem_fin, set_get, if_neg hw]
  · rw [hself]; exact hf
  · rw [hself]; exact hfeeds.use
  · rw [hself]; exact hfeeds.underruns
  · rw [hself]; exact hfeeds.out
  · rw [hself]; exact hfeeds.buffer

/-- The work of a voice whose fade is worked: it stays while a fetch for it is in flight. -/
theorem State.runVoice_fades (hstate : s.vce[v].state = .draining) (hramp : s.vce[v].ramp = .pending) :
    s.runVoice v = s.voiceLeft v
      (let faded : Voice := { s.vce[v] with
        out := { samples := (List.range 64).map (fun j =>
          (s.vce[v].buffer.getD j 0 * (4096 - 64 * ((j : Int) + 1)) + 2048) / 4096), use := s.vce[v].use }
        buffer := []
        ramp := .done }
      if s.inFlight v then faded else { faded with state := .free, use := .none, drainedFor := none }) := by
  refine State.runVoice_idle (Voice.played_fading hstate hramp) ?_ ?_
  · split
    · exact Voice.completes_of_state (by rw [hstate]; decide)
    · exact Voice.completes_of_state nofun
  · rintro ⟨h, -, hfree⟩
    rw [hfree] at h
    exact h.elim nofun nofun

/-- The work of a voice that outputs zeros: a FREE one, or a faded one that waits for its fetch to end. -/
theorem State.runVoice_silent (h : s.vce[v].state = .free ∨
      s.vce[v].state = .draining ∧ s.vce[v].ramp = .done ∧ s.inFlight v = true) :
    s.runVoice v = s.voiceLeft v { s.vce[v] with out := { samples := List.replicate 64 0, use := s.vce[v].use } } := by
  have hplayed : s.vce[v].played (s.inFlight v) = s.vce[v].silent := by
    rcases h with hfree | ⟨hstate, hramp, hbusy⟩
    · exact Voice.played_free hfree
    · have hnot : ¬s.vce[v].ramp = .pending := by rw [hramp]; decide
      rw [Voice.played_draining hstate, hbusy, if_neg hnot]
      rfl
  have hidle : s.vce[v].state ≠ .priming ∧ s.vce[v].state ≠ .playing := by
    rcases h with hfree | ⟨hstate, -, -⟩
    · rw [hfree]; decide
    · rw [hstate]; decide
  exact State.runVoice_idle hplayed (Voice.completes_of_state hidle.2) fun hs => hs.1.elim hidle.1 hidle.2

/-- At a begun clip, low on samples, the fetch side asks for a refill and stays. -/
theorem fetchSide_clip_asks {view : FetchView} {f : Fetching} {m i n : Nat} {progress : ClipProgress}
    (hcurrent : f.voice.current = some i) (hstep : f.voice.steps[i]? = some (.clip n)) (hentered : f.voice.entered = true)
    (hclip : f.voice.clip = some progress) (hremaining : 0 < progress.remaining) (hstore : view.store = .ready)
    (hlow : f.voice.buffer.length ≤ 128) :
    fetchSide view m f = { f with voice := { f.voice with refill := true } } := by
  have harrive : f.voice.arrive (.clip n) = f.voice := if_pos hentered
  have hact : stepAct view f i (.clip n) = { stay := { f with voice := { f.voice with refill := true } }, leave := none } := by
    unfold stepAct
    dsimp only
    rw [harrive, clipAct_begun hclip, begunClip_ready hremaining hstore, decide_eq_true hlow, Bool.or_true]
  rw [fetchSide_waits hcurrent hstep (by rw [hact]), hact]

/-- The work of a playing voice at a begun clip, low on samples. -/
theorem State.runVoice_refills {i n : Nat} {progress : ClipProgress} (hstate : s.vce[v].state = .playing)
    (hend : s.vce[v].endFetched = false) (hfree : s.inFlight v = false) (hstore : s.sfe.store = .ready)
    (hcurrent : s.vce[v].current = some i) (hstep : s.vce[v].steps[i]? = some (.clip n))
    (hentered : s.vce[v].entered = true) (hclip : s.vce[v].clip = some progress) (hremaining : 0 < progress.remaining)
    (hlow : s.vce[v].buffer.length ≤ 192) : s.runVoice v = s.voiceLeft v { s.vce[v] with
      out := { samples := (s.vce[v].buffer ++ List.replicate 64 0).take 64, use := s.vce[v].use }
      buffer := s.vce[v].buffer.drop 64
      underruns := if s.vce[v].buffer.length < 64 then min 65535 (s.vce[v].underruns + 1) else s.vce[v].underruns
      refill := true } := by
  have hplayed := (Voice.played_playing (b := false) hstate).trans (Voice.play_short hend)
  have hshort : (s.vce[v].buffer.drop 64).length ≤ 128 := by rw [List.length_drop]; omega
  rw [State.runVoice_fetches hplayed (Voice.completes_of_endFetched hend) (.inr hstate) hend hfree]
  dsimp only
  rw [fetchSide_clip_asks hcurrent hstep hentered hclip hremaining hstore hshort]
  rfl

end

/-! ### The fetch side at each kind of step -/

/-- The fetch side has arrived at its step and stays at it. -/
def Fetching.staying (f : Fetching) (x : Voice) : Fetching := { f with voice := { x with entered := true } }

/-- The fetch side has moved on to another step, or to the end of the list. -/
def Fetching.moving (f : Fetching) (x : Voice) (target : Option Nat) : Fetching :=
  { f with voice := { x with entered := false, clip := none, current := target } }

section
variable {view : FetchView} {f : Fetching} {m i : Nat}

theorem Fetching.passMark_program (code : Nat) (huse : f.voice.use = .program) :
    f.passMark code = { f with marks := f.marks ++ [code] } := by
  unfold Fetching.passMark
  rw [huse]

theorem Fetching.passMark_prompt (code : Nat) (huse : f.voice.use ≠ .program) : f.passMark code = { f with
    voice := { f.voice with marks := if f.voice.marks.length < 4 then f.voice.marks ++ [code] else f.voice.marks } } := by
  unfold Fetching.passMark
  split
  · next h => exact absurd h huse
  · split <;> rfl

theorem stepAct_mark_program (code : Nat) (huse : f.voice.use = .program) : stepAct view f i (.mark code) =
    { stay := f.staying f.voice
      leave := some { f.moving f.voice (f.voice.nextStep i) with marks := f.marks ++ [code] } } := by
  unfold stepAct
  dsimp only
  rw [Voice.arrive_mark, Fetching.passMark_program (f := { f with voice := { f.voice with entered := true } }) code huse]
  rfl

theorem stepAct_mark_prompt (code : Nat) (huse : f.voice.use ≠ .program) : stepAct view f i (.mark code) =
    { stay := f.staying f.voice
      leave := some (f.moving { f.voice with
          marks := if f.voice.marks.length < 4 then f.voice.marks ++ [code] else f.voice.marks }
        (f.voice.nextStep i)) } := by
  unfold stepAct
  dsimp only
  rw [Voice.arrive_mark, Fetching.passMark_prompt (f := { f with voice := { f.voice with entered := true } }) code huse]
  rfl

theorem stepAct_loop (target count : Nat) : stepAct view f i (.loop target count) =
    { stay := f.staying f.voice
      leave := some { f with voice := ({ f.voice with entered := true } : Voice).passLoop i target count } } := by
  unfold stepAct
  dsimp only
  rw [Voice.arrive_loop]
  rfl

theorem Voice.passLoop_forever {v : Voice} {target count : Nat} (hc : count = 0) : v.passLoop i target count =
    ({ v with loops := v.loops.set i (some ((v.loopCounter i).getD count)) } : Voice).moveTo (some target) := if_pos hc

theorem Voice.passLoop_again {v : Voice} {target count : Nat} (hc : count ≠ 0) (hn : 1 < (v.loopCounter i).getD count) :
    v.passLoop i target count =
      ({ v with loops := v.loops.set i (some ((v.loopCounter i).getD count - 1)) } : Voice).moveTo (some target) :=
  (if_neg hc).trans (if_pos hn)

theorem Voice.passLoop_ends {v : Voice} {target count : Nat} (hc : count ≠ 0) (hn : (v.loopCounter i).getD count ≤ 1) :
    v.passLoop i target count = ({ v with loops := v.loops.set i none } : Voice).goOn i :=
  (if_neg hc).trans (if_neg (Nat.not_lt.mpr hn))

/-- What a SILENCE step of `remaining` zeros has placed. -/
def Voice.silenced (v : Voice) (remaining : Nat) : Voice :=
  let k := min remaining (256 - v.buffer.length)
  { v with buffer := v.buffer ++ List.replicate k 0, silence := remaining - k, placed := v.placed || decide (0 < k) }

theorem stepAct_silence (frames : Nat) :
    let remaining := if f.voice.entered = true then f.voice.silence else frames * 64
    stepAct view f i (.silence frames) =
      { stay := f.staying (f.voice.silenced remaining)
        leave := if (f.voice.silenced remaining).silence = 0 then
            some (f.moving (f.voice.silenced remaining) (f.voice.nextStep i))
          else none } := by
  intro remaining
  unfold stepAct
  dsimp only
  rw [Voice.arrive_silence]
  rfl

theorem Voice.silenced_done (v : Voice) (remaining : Nat) :
    (v.silenced remaining).silence = 0 ↔ remaining ≤ 256 - v.buffer.length := by
  change remaining - min remaining (256 - v.buffer.length) = 0 ↔ _
  omega

/-- The fetch side once it has arrived at a CLIP step. -/
def Fetching.atClip (f : Fetching) : Fetching :=
  f.staying { f.voice with clip := if f.voice.entered = true then f.voice.clip else none }

theorem stepAct_clip (n : Nat) : stepAct view f i (.clip n) = clipAct view f.atClip i n := by
  unfold stepAct
  dsimp only
  rw [Voice.arrive_clip]
  rfl

end

/-- Settles O52: the voice by its state, its fetch side by the step it works at. -/
theorem voiceEvents : Obligations.VoiceEvents := by
  unfold Obligations.VoiceEvents
  refine ⟨fun s v hr hw => ?_, fun s v held h => ?_, fun view m i f hcurrent => ?_, fun view m f hcurrent => ?_⟩
  · intro x busy work left
    let u : State := { s with work := work }
    refine ⟨fun hstate hfull => ?_, fun hidle => ?_, fun i n progress hstate hend hfree hrefill hstore hcurrent hstep
      hentered hclip hremaining hlow => ?_, fun hrefill => ?_, fun hstate hramp => ?_, fun hidle => ?_⟩
    · have hdue : s.vce[v].primed = true := Voice.primed_iff.mpr ⟨hstate, .inl hfull⟩
      refine ⟨u.runVoice v, ?_, State.runVoice_starts (s := u) hstate hfull⟩
      rw [exec_voiceStartPlaying, State.eventWork_done hr hw hdue]
      rfl
    · have hdue : s.vce[v].primed = false := Bool.eq_false_iff.mpr fun hdue => by
        obtain ⟨hstate, hfull⟩ := Voice.primed_iff.mp hdue
        rcases hidle with h | ⟨h, h'⟩
        · exact h hstate
        · rcases hfull with hfull | hfull
          · exact absurd hfull (Nat.not_le.mpr h)
          · rw [h'] at hfull; cases hfull
      rw [exec_voiceStartPlaying, State.eventWork_idle hdue]
    · have hfree' : s.inFlight v = false := State.inFlight_false.mpr hfree
      have hrun := State.runVoice_refills (s := s) hstate hend hfree' hstore hcurrent hstep hentered hclip hremaining hlow
      have hrun' := State.runVoice_refills (s := u) hstate hend hfree' hstore hcurrent hstep hentered hclip hremaining hlow
      have hdue : s.refillDue v = true := by
        have hself : (s.runVoice v).vce[v].refill = true := by
          rw [hrun]
          exact congrArg Voice.refill (Vector.getElem_set_self _)
        rw [State.refillDue, hself, Bool.and_true, Bool.not_eq_true']
        exact hrefill
      rw [exec_refillRequest, State.eventWork_done hr hw hdue]
      exact congrArg Host.Outcome.next hrun'
    · have hdue : s.refillDue v = false := by
        rw [State.refillDue, show s.vce[v].refill = true from hrefill]
        rfl
      rw [exec_refillRequest, State.eventWork_idle hdue]
    · have hdue : s.fadeDue v = true := State.fadeDue_iff.mpr ⟨hstate, hramp⟩
      rw [exec_drainFade, State.eventWork_done hr hw hdue]
      refine congrArg Host.Outcome.next ((State.runVoice_fades (s := u) hstate hramp).trans (congrArg left ?_))
      change (if (s.sfe.fetch.any fun f => f.voice == v) = true then _ else _) = _
      cases s.sfe.fetch with
      | none => rfl
      | some f =>
        by_cases hf : f.voice = v
        · exact (if_pos (beq_iff_eq.mpr hf)).trans (if_pos hf).symm
        · exact (if_neg fun hb => hf (beq_iff_eq.mp hb)).trans (if_neg hf).symm
    · have hdue : s.fadeDue v = false := Bool.eq_false_iff.mpr fun hdue => by
        obtain ⟨hstate, hramp⟩ := State.fadeDue_iff.mp hdue
        exact hidle.elim (· hstate) (· hramp)
      rw [exec_drainFade, State.eventWork_idle hdue]
  · intro x busy left output played
    have hpiece : ∀ {t : State}, State.runVoice { s with work := s.work.erase (.voice v) } v = t →
        exec (.frameEvent [.voice v] held) s = .next t := fun ht =>
      (exec_frameEvent_piece s _ held h).trans (congrArg Host.Outcome.next ht)
    let u : State := { s with work := s.work.erase (.voice v) }
    have hshort (hstate : x.state = .priming ∨ x.state = .playing) (hend : x.endFetched = false) {b : Bool} :
        x.played b = played := Voice.played_short hstate hend
    have hgoes (hend : x.endFetched = false) : played.endFetched = false := by
      unfold played
      split <;> exact hend
    have hactive (hstate : x.state = .priming ∨ x.state = .playing) : played.state = .priming ∨ played.state = .playing := by
      unfold played
      split
      · exact .inr rfl
      · exact hstate
    refine ⟨fun hsilent => ?_, fun hstate hend hlong => ?_, fun hstate hend hbusy => ?_, fun hstate hend hfree => ?_⟩
    · refine hpiece (State.runVoice_silent (s := u) (hsilent.imp id fun ⟨hstate, hramp, hbusy⟩ => ?_))
      exact ⟨hstate, hramp, State.inFlight_iff.mpr hbusy⟩
    · exact hpiece (State.runVoice_idle (s := u) (Voice.played_ended hstate hend)
        (Voice.completes_of_buffer (drop_ne_nil hlong)) fun hs => by rw [hend] at hs; cases hs.2.1)
    · have hinFlight : s.inFlight v = true := State.inFlight_iff.mpr hbusy
      exact hpiece (State.runVoice_idle (s := u) (hshort hstate hend) (Voice.completes_of_endFetched (hgoes hend))
        fun hs => by rw [show s.inFlight v = false from hs.2.2] at hinFlight; cases hinFlight)
    · exact hpiece (State.runVoice_fetches (s := u) (hshort hstate hend) (Voice.completes_of_endFetched (hgoes hend))
        (hactive hstate) (hgoes hend) (State.inFlight_false.mpr hfree))
  · intro v space stays moves next
    refine ⟨fun code hstep => ?_, fun target count hstep => ?_, fun frames hstep => ?_, fun n hstep => ?_⟩
    · refine ⟨?_, fun huse => ?_, fun huse => ?_⟩
      · rw [fetchSide_stays hcurrent hstep]
        by_cases huse : v.use = .program
        · rw [stepAct_mark_program code huse]; rfl
        · rw [stepAct_mark_prompt code huse]; rfl
      · exact fetchSide_leaves hcurrent hstep (by rw [stepAct_mark_program code huse]; rfl)
      · exact fetchSide_leaves hcurrent hstep (by rw [stepAct_mark_prompt code huse]; rfl)
    · intro n
      refine ⟨?_, fun hc => ?_, fun hc hn => ?_, fun hc hn => ?_⟩
      · rw [fetchSide_stays hcurrent hstep, stepAct_loop]; rfl
      · refine fetchSide_leaves hcurrent hstep ?_
        rw [stepAct_loop]
        exact congrArg (fun y => some { f with voice := y })
          (Voice.passLoop_forever (v := { f.voice with entered := true }) hc)
      · refine fetchSide_leaves hcurrent hstep ?_
        rw [stepAct_loop]
        exact congrArg (fun y => some { f with voice := y })
          (Voice.passLoop_again (v := { f.voice with entered := true }) hc hn)
      · refine fetchSide_leaves hcurrent hstep ?_
        rw [stepAct_loop]
        exact congrArg (fun y => some { f with voice := y })
          (Voice.passLoop_ends (v := { f.voice with entered := true }) hc hn)
    · intro remaining k x
      have hact := stepAct_silence (view := view) (f := f) (i := i) frames
      refine ⟨?_, fun hfits => ?_, fun hlong => ?_⟩
      · rw [fetchSide_stays hcurrent hstep, hact]; rfl
      · refine fetchSide_leaves hcurrent hstep ?_
        rw [hact]
        exact if_pos ((Voice.silenced_done v remaining).mpr hfits)
      · rw [fetchSide_waits hcurrent hstep, hact]
        · rfl
        · rw [hact]
          exact if_neg fun hd => absurd ((Voice.silenced_done v remaining).mp hd) (Nat.not_le.mpr hlong)
    · intro clip x unfinished skipped begun
      have hclip : f.atClip.voice.clip = clip := rfl
      have hact := stepAct_clip (view := view) (f := f) (i := i) n
      refine ⟨fun q hq hremaining => ⟨?_, ?_⟩, fun hunfinished hstore => ?_, fun hunfinished hstore => ⟨?_, ?_⟩,
        fun hnone hstore hentry => ⟨?_, ?_⟩, fun e hnone hstore hentry hvalid hcount => ?_, fun q hq hremaining hstore => ?_⟩
      · rw [fetchSide_stays hcurrent hstep, hact, clipAct_begun (hclip.trans hq), begunClip_finished hremaining]
        rfl
      · refine fetchSide_leaves hcurrent hstep ?_
        rw [hact, clipAct_begun (hclip.trans hq), begunClip_finished hremaining]
        rfl
      · rw [clipAct_scanning hunfinished hstore] at hact
        rw [fetchSide_waits hcurrent hstep (by rw [hact]), hact]
        rfl
      · rw [fetchSide_stays hcurrent hstep, hact, clipAct_unavailable hunfinished hstore]
        rfl
      · refine fetchSide_leaves hcurrent hstep ?_
        rw [hact, clipAct_unavailable hunfinished hstore]
        rfl
      · rw [fetchSide_stays hcurrent hstep, hact, clipAct_invalid hnone hstore hentry]
        rfl
      · refine fetchSide_leaves hcurrent hstep ?_
        rw [hact, clipAct_invalid hnone hstore hentry]
        rfl
      · rw [clipAct_valid hnone hstore hentry hvalid, begunClip_ready hcount hstore] at hact
        rw [fetchSide_waits hcurrent hstep (by rw [hact]), hact]
        rfl
      · have hclipped : f.atClip = f.staying { v with clip := some q } := by rw [← hq]; rfl
        rw [hclipped, clipAct_begun rfl, begunClip_ready hremaining hstore] at hact
        rw [fetchSide_waits hcurrent hstep (by rw [hact]), hact]
        rfl
  · intro v space wrapped
    refine ⟨fun p q huse => fetchSide_prompt hcurrent huse, fun huse => ⟨fetchSide_program_zero hcurrent huse,
      fun hplaced => ?_, fun hplaced hspace => ?_, fun hplaced hspace => ?_⟩⟩
    · rw [fetchSide_program_succ hcurrent huse, if_pos hplaced]
      rfl
    · rw [fetchSide_program_succ hcurrent huse, if_neg (by rw [hplaced]; decide)]
      exact if_pos hspace
    · rw [fetchSide_program_succ hcurrent huse, if_neg (by rw [hplaced]; decide)]
      exact if_neg (Nat.not_le.mpr hspace)

end Sys2Proof.Machine
end

