-- ==== Sys2Proof/Proofs/SamplePeriods.lean ====
section
/-!
PROOFS. The sample periods: what is left alone while nothing has come to hold, what every input frame collects at the
end of a period, and what the output slots are then driven with (R26, R36, R37).
-/

namespace Sys2Proof.Machine

/-! ### Nothing left undone -/

section
variable {s : State}

theorem State.poolGrant_idle (h : s.freeVoice = none ∨ ∀ p q, s.headWaiting p q = false) : s.poolGrant = s := by
  rcases h with hfree | hhead
  · rw [State.poolGrant, hfree]
  · rw [State.poolGrant, State.visitOrder_none hhead]
    cases s.freeVoice <;> rfl

theorem State.poolGrants_idle (h : s.poolGrant = s) (n : Nat) : State.poolGrants n s = s := by
  induction n with
  | zero => rfl
  | succ n ih => rw [State.poolGrants, h, ih]

theorem State.settleGrants_quiet (h : s.quiet) : s.settleGrants = s := by
  obtain ⟨-, -, hgrant, hfetch⟩ := h
  rw [State.settleGrants, State.poolGrants_idle (State.poolGrant_idle hgrant), State.grantFetch, hfetch]

theorem State.finishWork_done (h : s.work = []) (held : List Work) : s.finishWork held = s :=
  foldl_doWorkGrant_none h _

theorem State.frameEvent_quiet (hdue : s.ftu.frameDue = false) (h : s.work = []) : s.frameEvent [] [] = s := by
  rw [State.frameEvent, State.beginDue, hdue, if_neg (by decide)]
  exact State.finishWork_done h []

theorem State.settle_quiet (h : s.quiet) : s.settle = s := by
  rw [State.settle, State.frameEvent_quiet h.1 h.2.1, State.settleGrants_quiet h]

end

/-! ### Writing one entry for each position and each channel -/

theorem foldl_set_positions {α : Type} (x : Fin 16 → α) (v : Vector α 16) (p : Fin 16) :
    (allPositions.foldl (fun (v : Vector α 16) (p : Fin 16) => v.set p (x p)) v)[p] = x p :=
  foldl_allPositions_get (fun p _ => x p) p v

theorem foldl_upd_channels {α : Type} (f : Fin 4 → α → α) (v : Vector α 4) (c : Fin 4) :
    (allChannels.foldl (fun (v : Vector α 4) (c : Fin 4) => upd v c (f c)) v)[c] = f c v[c] := by
  rw [foldl_upd_get f c allChannels allChannels_nodup v, if_pos (mem_allChannels c)]

theorem foldl_set_channels {α : Type} (x : Fin 4 → α) (v : Vector α 4) (c : Fin 4) :
    (allChannels.foldl (fun (v : Vector α 4) (c : Fin 4) => v.set c (x c)) v)[c] = x c :=
  foldl_upd_channels (fun c _ => x c) v c

/-! ### What a period collects (R36) -/

section
variable (highway : Bool) (slots : List Word16)

/-- The collection of the far parties in `l` writes the far input frames alone. -/
theorem collectFar_eq (l : List (Fin 16)) (h : Hwi) :
    l.foldl (fun (h : Hwi) (p : Fin 16) =>
      { h with farInput := upd h.farInput p (fun f => f ++ [inputSample highway slots h.farSlot[p]]) }) h =
    { h with farInput := l.foldl (fun (v : Vector Frame 16) (p : Fin 16) =>
        upd v p (fun f => f ++ [inputSample highway slots h.farSlot[p]])) h.farInput } := by
  induction l generalizing h with
  | nil => rfl
  | cons p l ih => exact ih _

theorem collectTalk_eq (l : List (Fin 4)) (h : Hwi) :
    l.foldl (fun (h : Hwi) (c : Fin 4) =>
      { h with talkInput := upd h.talkInput c (fun f => f ++ [inputSample highway slots h.talkSlot[c]]) }) h =
    { h with talkInput := l.foldl (fun (v : Vector Frame 4) (c : Fin 4) =>
        upd v c (fun f => f ++ [inputSample highway slots h.talkSlot[c]])) h.talkInput } := by
  induction l generalizing h with
  | nil => rfl
  | cons c l ih => exact ih _

theorem State.collect_spec (s : State) : ∃ far talk,
    s.collect highway slots = { s with hwi := { s.hwi with farInput := far, talkInput := talk } } ∧
    (∀ p : Fin 16, far[p] = s.hwi.farInput[p] ++ [inputSample highway slots s.hwi.farSlot[p]]) ∧
    ∀ c : Fin 4, talk[c] = s.hwi.talkInput[c] ++ [inputSample highway slots s.hwi.talkSlot[c]] := by
  have he : s.collect highway slots = { s with hwi := { s.hwi with
      farInput := allPositions.foldl (fun (v : Vector Frame 16) (p : Fin 16) =>
        upd v p (fun f => f ++ [inputSample highway slots s.hwi.farSlot[p]])) s.hwi.farInput
      talkInput := allChannels.foldl (fun (v : Vector Frame 4) (c : Fin 4) =>
        upd v c (fun f => f ++ [inputSample highway slots s.hwi.talkSlot[c]])) s.hwi.talkInput } } := by
    simp only [State.collect, collectFar_eq, collectTalk_eq]
  exact ⟨_, _, he, fun p =>
    foldl_allPositions_get (fun p f => f ++ [inputSample highway slots s.hwi.farSlot[p]]) p s.hwi.farInput, fun c =>
    foldl_upd_channels (fun c f => f ++ [inputSample highway slots s.hwi.talkSlot[c]]) s.hwi.talkInput c⟩

end

/-! ### The end of a period (R26, R36) -/

/-- From `s` to `t` one sample period ended: its samples are collected, the slots of the next one are latched, and the
index and the output slots advance, or a frame event falls due. -/
structure State.PeriodEnded (s : State) (highway : Bool) (slots : List Word16) (t : State) : Prop where
  frame : t = { s with
    ftu := { s.ftu with
      sampleIndex := if s.ftu.sampleIndex < 63 then s.ftu.sampleIndex + 1 else s.ftu.sampleIndex
      frameDue := s.ftu.frameDue || decide (63 ≤ s.ftu.sampleIndex)
      periodMarked := false }
    hwi := { s.hwi with
      farInput := t.hwi.farInput, talkInput := t.hwi.talkInput, farSlot := t.hwi.farSlot
      talkSlot := t.hwi.talkSlot, driven := t.hwi.driven } }
  far : ∀ p : Fin 16, t.hwi.farInput[p] = s.hwi.farInput[p] ++ [inputSample highway slots s.hwi.farSlot[p]]
  farSlot : ∀ p : Fin 16, t.hwi.farSlot[p] = (s.pos p).line.map SlotPair.inSlot
  talk : ∀ c : Fin 4, t.hwi.talkInput[c] = s.hwi.talkInput[c] ++ [inputSample highway slots s.hwi.talkSlot[c]]
  talkSlot : ∀ c : Fin 4, t.hwi.talkSlot[c] = s.hwi.channels[c].map SlotPair.inSlot
  driven : t.hwi.driven = if s.ftu.sampleIndex < 63 then s.drive (s.ftu.sampleIndex + 1) else s.hwi.driven

theorem State.endPeriod_spec (s : State) (highway : Bool) (slots : List Word16) :
    s.PeriodEnded highway slots (s.endPeriod highway slots) := by
  obtain ⟨far, talk, hcollect, hfar, htalk⟩ := s.collect_spec highway slots
  unfold State.endPeriod
  rw [hcollect]
  dsimp only [State.latchSlots]
  by_cases hi : s.ftu.sampleIndex < 63
  · rw [if_pos hi]
    refine ⟨?_, hfar, fun p => foldl_set_positions (fun p => (s.pos p).line.map SlotPair.inSlot) _ p, htalk,
      fun c => foldl_set_channels (fun c => s.hwi.channels[c].map SlotPair.inSlot) _ c, (if_pos hi).symm⟩
    rw [if_pos hi, decide_eq_false (by omega), Bool.or_false]
    rfl
  · rw [if_neg hi]
    refine ⟨?_, hfar, fun p => foldl_set_positions (fun p => (s.pos p).line.map SlotPair.inSlot) _ p, htalk,
      fun c => foldl_set_channels (fun c => s.hwi.channels[c].map SlotPair.inSlot) _ c, (if_neg hi).symm⟩
    rw [if_neg hi, decide_eq_true (by omega), Bool.or_true]

/-! ### What the output slots carry (R31, R37) -/

/-- The entries of a pass in which every named slot is written: a slot that a user of the list writes holds that user's
value where no other user of the list writes it. -/
theorem foldl_slots {α β : Type} {n : Nat} (slot : β → Option (Fin n)) (x : β → α) {k : Fin n} (l : List β) (v : Vector α n)
    (f : Vector α n → β → Vector α n) (hnone : ∀ v b, slot b = none → f v b = v)
    (hsome : ∀ v b i, slot b = some i → f v b = v.set i (x b)) :
    ((∀ b ∈ l, slot b ≠ some k) → (l.foldl f v)[k] = v[k]) ∧
      ∀ b ∈ l, slot b = some k → (∀ c ∈ l, slot c = some k → c = b) → (l.foldl f v)[k] = x b := by
  have hother : ∀ v b, slot b ≠ some k → (f v b)[k] = v[k] := by
    intro v b hb
    cases hi : slot b with
    | none => rw [hnone v b hi]
    | some i =>
      rw [hsome v b i hi]
      exact (set_get v i k (x b)).trans (if_neg fun he : k = i => hb (hi.trans (congrArg some he.symm)))
  have hskip : ∀ (l : List β) (v : Vector α n), (∀ b ∈ l, slot b ≠ some k) → (l.foldl f v)[k] = v[k] := by
    intro l
    induction l with
    | nil => exact fun _ _ => rfl
    | cons b l ih =>
      intro v hl
      rw [List.foldl_cons, ih _ fun c hc => hl c (.tail _ hc), hother v b (hl b (.head _))]
  refine ⟨hskip l v, ?_⟩
  induction l generalizing v with
  | nil => exact fun b hb => nomatch hb
  | cons c l ih =>
    intro b hb hbk honly
    rw [List.foldl_cons]
    by_cases hin : b ∈ l
    · exact ih _ b hin hbk fun d hd => honly d (.tail _ hd)
    · obtain rfl : b = c := (List.mem_cons.mp hb).resolve_right hin
      rw [hskip l _ fun d hd hdk => hin (honly d (.tail _ hd) hdk ▸ hd), hsome v b k hbk]
      exact (set_get v k k (x b)).trans (if_pos rfl)

section
variable {s : State} {j : Nat}

theorem takenSample_eq (o : Option Frame) (j : Nat) : takenSample o j = (o.getD []).getD j 0 := by cases o <;> rfl

theorem State.drive_unlocked (h : s.ftu.timing ≠ .locked) (k : Fin 32) : (s.drive j)[k] = none := by
  rw [State.drive, if_neg h]
  simp

/-- What the lines drive, before the channels are looked at. -/
def State.driveLines (s : State) (j : Nat) : Vector (Option Sample) 32 :=
  allPositions.foldl (fun (d : Vector (Option Sample) 32) p =>
    match (s.pos p).line with
    | none => d
    | some b => d.set b.outSlot (some (takenSample s.hwi.lineOut[p] j))) (Vector.replicate 32 none)

theorem State.driveLines_slots (k : Fin 32) :
    ((∀ p b, (s.pos p).line = some b → b.outSlot ≠ k) → (s.driveLines j)[k] = none) ∧
      ∀ p b, (s.pos p).line = some b → b.outSlot = k → (∀ q c, (s.pos q).line = some c → c.outSlot = k → q = p) →
        (s.driveLines j)[k] = some (takenSample s.hwi.lineOut[p] j) := by
  have h := foldl_slots (fun p => (s.pos p).line.map SlotPair.outSlot) (fun p => some (takenSample s.hwi.lineOut[p] j))
    (k := k) allPositions (Vector.replicate 32 none) _
    (fun d p hp => show (match (s.pos p).line with
      | none => d
      | some b => d.set b.outSlot (some (takenSample s.hwi.lineOut[p] j))) = d by rw [Option.map_eq_none_iff.mp hp])
    (fun d p i hp => by
      obtain ⟨b, hb, rfl⟩ := Option.map_eq_some_iff.mp hp
      simp only [hb])
  refine ⟨fun hno => (h.1 fun p _ hp => ?_).trans (by simp), fun p b hb hk honly =>
    h.2 p (mem_allPositions p) (by rw [hb, ← hk]; rfl) fun q _ hq => ?_⟩
  · obtain ⟨b, hb, hk⟩ := Option.map_eq_some_iff.mp hp
    exact hno p b hb hk
  · obtain ⟨c, hc, hk⟩ := Option.map_eq_some_iff.mp hq
    exact honly q c hc hk

theorem State.drive_slots (h : s.ftu.timing = .locked) (k : Fin 32) :
    ((∀ (c : Fin 4) b, s.hwi.channels[c] = some b → b.outSlot ≠ k) → (s.drive j)[k] = (s.driveLines j)[k]) ∧
      ∀ (c : Fin 4) b, s.hwi.channels[c] = some b → b.outSlot = k →
        (∀ (d : Fin 4) a, s.hwi.channels[d] = some a → a.outSlot = k → d = c) →
        (s.drive j)[k] = some (takenSample s.hwi.supOut[c] j) := by
  have hd := foldl_slots (fun c : Fin 4 => s.hwi.channels[c].map SlotPair.outSlot)
    (fun c => some (takenSample s.hwi.supOut[c] j)) (k := k) allChannels (s.driveLines j) _
    (fun d c hc => show (match s.hwi.channels[c] with
      | none => d
      | some b => d.set b.outSlot (some (takenSample s.hwi.supOut[c] j))) = d by rw [Option.map_eq_none_iff.mp hc])
    (fun d c i hc => by
      obtain ⟨b, hb, rfl⟩ := Option.map_eq_some_iff.mp hc
      simp only [hb])
  rw [State.drive, if_pos h]
  refine ⟨fun hno => hd.1 fun c _ hc => ?_, fun c b hb hk honly =>
    hd.2 c (mem_allChannels c) (by rw [hb, ← hk]; rfl) fun d _ hd' => ?_⟩
  · obtain ⟨b, hb, hk⟩ := Option.map_eq_some_iff.mp hc
    exact hno c b hb hk
  · obtain ⟨a, ha, hk⟩ := Option.map_eq_some_iff.mp hd'
    exact honly d a ha hk

theorem State.SlotLaw.outSlot (h : s.SlotLaw) {e f : Endpoint} {a b : SlotPair} (he : s.binding e = some a)
    (hf : s.binding f = some b) (hk : a.outSlot = b.outSlot) : e = f :=
  Classical.byContradiction fun hne => (h e f a b hne he hf).2 hk

theorem State.drive_line (hlocked : s.ftu.timing = .locked) (hlaw : s.SlotLaw) {p : Fin 16} {b : SlotPair}
    (hb : (s.pos p).line = some b) : (s.drive j)[b.outSlot] = some (takenSample s.hwi.lineOut[p] j) := by
  have hp : s.binding (.position p) = some b := hb
  refine ((State.drive_slots hlocked _).1 fun c a ha hk => ?_).trans
    ((State.driveLines_slots _).2 p b hb rfl fun q a ha hk => ?_)
  · exact nomatch hlaw.outSlot (e := .channel c) ha hp hk
  · exact Endpoint.position.inj (hlaw.outSlot (e := .position q) ha hp hk)

theorem State.drive_channel (hlocked : s.ftu.timing = .locked) (hlaw : s.SlotLaw) {c : Fin 4} {b : SlotPair}
    (hb : s.hwi.channels[c] = some b) : (s.drive j)[b.outSlot] = some (takenSample s.hwi.supOut[c] j) :=
  (State.drive_slots hlocked _).2 c b hb rfl fun d _ ha hk =>
    Endpoint.channel.inj (hlaw.outSlot (e := .channel d) (f := .channel c) ha hb hk)

theorem State.drive_unbound (hlocked : s.ftu.timing = .locked) {k : Fin 32}
    (hk : ∀ e b, s.binding e = some b → b.outSlot ≠ k) : (s.drive j)[k] = none :=
  ((State.drive_slots hlocked k).1 fun c => hk (.channel c)).trans
    ((State.driveLines_slots k).1 fun p => hk (.position p))

end

/-! ### SAMPLE_PERIOD -/

theorem inputSample_eq (highway : Bool) (slots : List Word16) (slot : Option (Fin 32)) :
    inputSample highway slots slot = match slot with
      | none => 0
      | some k => if highway = true then (slots.getD k.val 0).toInt else 0 := by cases slot <;> rfl

/-- In LOCKED an unmarked period does not end. -/
theorem State.samplePeriod_unmarked {s : State} {slots : List Word16} (hlocked : s.ftu.timing = .locked)
    (hmark : s.ftu.periodMarked = false) : s.samplePeriod slots = s := by
  rw [State.samplePeriod, if_pos hlocked, hmark, if_neg (by decide)]

/-- With nothing left undone, any other period ends with the slot samples while LOCKED, else with none. -/
theorem State.samplePeriod_ends {s : State} {slots : List Word16} (hquiet : s.quiet)
    (hmark : s.ftu.timing = .locked → s.ftu.periodMarked = true) :
    s.samplePeriod slots = s.endPeriod (decide (s.ftu.timing = .locked)) (if s.ftu.timing = .locked then slots else []) := by
  by_cases hlocked : s.ftu.timing = .locked
  · rw [State.samplePeriod, if_pos hlocked, if_pos (hmark hlocked), State.settle_quiet hquiet, if_pos hlocked,
      decide_eq_true hlocked]
  · rw [State.samplePeriod, if_neg hlocked, State.settle_quiet hquiet, if_neg hlocked, decide_eq_false hlocked]

/-- Settles O40: the end of a period, read field by field. -/
theorem samplePeriodAdvances : Obligations.SamplePeriodAdvances := by
  unfold Obligations.SamplePeriodAdvances
  intro s slots hr hquiet locked heard
  have hexec : exec (.samplePeriod slots) s = .next (s.samplePeriod slots) :=
    congrArg Host.Outcome.next (if_neg (by simp [hr]))
  refine ⟨fun hlocked hmark => hexec.trans (congrArg _ (State.samplePeriod_unmarked hlocked hmark)), fun hmark => ?_⟩
  rw [State.samplePeriod_ends hquiet hmark] at hexec
  have hend := s.endPeriod_spec (decide (s.ftu.timing = .locked)) (if s.ftu.timing = .locked then slots else [])
  have hheard : ∀ slot, inputSample (decide (s.ftu.timing = .locked)) (if s.ftu.timing = .locked then slots else []) slot =
      heard slot := by
    intro slot
    rw [inputSample_eq]
    cases slot with
    | none => rfl
    | some k => by_cases hl : s.ftu.timing = .locked <;> simp [heard, locked, hl]
  generalize s.endPeriod (decide (s.ftu.timing = .locked)) (if s.ftu.timing = .locked then slots else []) = t at hexec hend
  have hframe := hend.frame
  rw [hquiet.1, Bool.false_or] at hframe
  refine ⟨t, hexec, hframe, fun p => ⟨(hend.far p).trans (by rw [hheard]), hend.farSlot p⟩,
    fun c => ⟨(hend.talk c).trans (by rw [hheard]), hend.talkSlot c⟩, fun hi => ?_, fun hi hl k => ?_, fun hi hl hlaw => ?_⟩
  · exact hend.driven.trans (if_neg (by omega))
  · rw [hend.driven, if_pos hi]
    exact State.drive_unlocked hl k
  · rw [hend.driven, if_pos hi]
    refine ⟨fun p b hb => ?_, fun c b hb => ?_, fun k hk => State.drive_unbound hl hk⟩
    · rw [State.drive_line hl hlaw hb, takenSample_eq]
    · rw [State.drive_channel hl hlaw hb, takenSample_eq]

end Sys2Proof.Machine
end

