-- ==== Sys2Proof/Proofs/FrameEvents.lean ====
section
/-!
PROOFS. A frame event as a whole: what its work leaves of the timing, the links and the frames that its stages take,
and which pieces are done (R26, R36, R38). Syncs and the gap follow (R27 to R31).
-/

namespace Sys2Proof.Machine

/-! ### The pieces that stand -/

section
variable {s : State} {w : Work}

theorem allWork_nodup : allWork.Nodup := by decide +kernel

theorem State.workOne_work : (s.workOne w).work = s.work.erase w := by
  unfold State.workOne
  split
  · rw [State.runWork_work]
  · next h => rw [List.erase_of_not_mem h]

theorem foldl_workOne_sublist (l : List Work) : ∀ s : State, (l.foldl State.workOne s).work.Sublist s.work := by
  induction l with
  | nil => exact fun _ => .refl _
  | cons w l ih =>
    intro s
    have h := ih (s.workOne w)
    rw [State.workOne_work] at h
    exact h.trans List.erase_sublist

theorem State.doWork_sublist : (s.doWork w).work.Sublist s.work := by
  unfold State.doWork
  split
  · exact foldl_workOne_sublist _ s
  · exact .refl _

/-- A piece that is done stands no longer. -/
theorem State.not_mem_doWork (hn : s.work.Nodup) : w ∉ (s.doWork w).work := by
  unfold State.doWork
  split
  · rw [List.foldl_append, List.foldl_cons, List.foldl_nil, State.workOne_work]
    exact (hn.sublist (foldl_workOne_sublist _ s)).not_mem_erase
  · next h => exact h

theorem State.doWorkGrant_work : (s.doWorkGrant w).work = (s.doWork w).work := by
  unfold State.doWorkGrant
  split
  · exact State.settleGrants_work _
  · next h => rw [State.doWork, if_neg h]

/-- After the pieces of `l` are done, only pieces that stood before and are not of `l` stand. -/
theorem foldl_doWorkGrant_work (l : List Work) : ∀ s : State, s.work.Nodup →
    (l.foldl State.doWorkGrant s).work.Sublist s.work ∧ ∀ x ∈ (l.foldl State.doWorkGrant s).work, x ∉ l := by
  induction l with
  | nil => exact fun _ _ => ⟨.refl _, fun _ _ h => nomatch h⟩
  | cons w l ih =>
    intro s hn
    have hw : (s.doWorkGrant w).work.Sublist s.work := by
      rw [State.doWorkGrant_work]
      exact State.doWork_sublist
    obtain ⟨hsub, hnot⟩ := ih (s.doWorkGrant w) (hn.sublist hw)
    refine ⟨hsub.trans hw, fun x hx hxl => ?_⟩
    rcases List.mem_cons.mp hxl with rfl | hxl
    · have hstands := hsub.subset hx
      rw [State.doWorkGrant_work] at hstands
      exact State.not_mem_doWork hn hstands
    · exact hnot x hx hxl

theorem foldl_doWork_sublist (l : List Work) : ∀ s : State, (l.foldl State.doWork s).work.Sublist s.work := by
  induction l with
  | nil => exact fun _ => .refl _
  | cons w l ih => exact fun s => (ih _).trans State.doWork_sublist

end

/-! ### Laws that work keeps -/

/-- The pieces in `P`, with the grants after each, keep the law `L`. -/
structure WorkLaw (P : Work → Prop) (L : State → Prop) : Prop where
  before : ∀ w, P w → ∀ x ∈ workBefore w, P x
  run : ∀ (s : State) w, P w → w ∈ s.work → L s → L (State.runWork { s with work := s.work.erase w } w)
  grants : ∀ (s : State) vce pqc sfe, L s → L { s with vce := vce, pqc := pqc, sfe := sfe }

namespace WorkLaw

variable {P : Work → Prop} {L : State → Prop} (K : WorkLaw P L) {s : State}
include K

theorem workOne {w : Work} (hw : P w) (h : L s) : L (s.workOne w) := by
  unfold State.workOne
  split
  · next hmem => exact K.run s w hw hmem h
  · exact h

theorem foldOne (l : List Work) (hl : ∀ w ∈ l, P w) : ∀ s, L s → L (l.foldl State.workOne s) := by
  induction l with
  | nil => exact fun _ h => h
  | cons w l ih => exact fun s h => ih (fun x hx => hl x (.tail _ hx)) _ (K.workOne (hl w (.head _)) h)

theorem doWork {w : Work} (hw : P w) (h : L s) : L (s.doWork w) := by
  unfold State.doWork
  split
  · refine K.foldOne _ (fun x hx => ?_) s h
    rcases List.mem_append.mp hx with hx | hx
    · exact K.before w hw x hx
    · exact List.mem_singleton.mp hx ▸ hw
  · exact h

theorem settleGrants (h : L s) : L s.settleGrants := by
  obtain ⟨_, _, _, he⟩ := s.settleGrants_frame
  rw [he]
  exact K.grants s _ _ _ h

theorem doWorkGrant {w : Work} (hw : P w) (h : L s) : L (s.doWorkGrant w) := by
  unfold State.doWorkGrant
  split
  · exact K.settleGrants (K.doWork hw h)
  · exact h

theorem fold (l : List Work) (hl : ∀ w ∈ l, P w) : ∀ s, L s → L (l.foldl State.doWorkGrant s) := by
  induction l with
  | nil => exact fun _ h => h
  | cons w l ih => exact fun s h => ih (fun x hx => hl x (.tail _ hx)) _ (K.doWorkGrant (hl w (.head _)) h)

end WorkLaw

/-! ### What work leaves of the timing and the links -/

/-- The frames that the highway interface takes for the out-slots, one after another. -/
theorem State.runHighwayOut_spec (s : State) : ∃ (lines : Vector (Option Frame) 16) (sent : Vector (Option Frame) 4),
    s.runHighwayOut = State.driveNow { s with hwi := { s.hwi with lineOut := lines, supOut := sent } } ∧
    (∀ p : Fin 16, lines[p] = s.lineTake p) ∧ ∀ c : Fin 4, sent[c] = s.supTake c := by
  have hline : ∀ (l : List (Fin 16)) (h : Hwi),
      l.foldl (fun (h : Hwi) (p : Fin 16) => { h with lineOut := h.lineOut.set p (s.lineTake p) }) h =
        { h with
          lineOut := l.foldl (fun (v : Vector (Option Frame) 16) (p : Fin 16) => v.set p (s.lineTake p)) h.lineOut } := by
    intro l
    induction l with
    | nil => exact fun _ => rfl
    | cons p l ih => exact fun h => ih _
  have hsup : ∀ (l : List (Fin 4)) (h : Hwi),
      l.foldl (fun (h : Hwi) (c : Fin 4) => { h with supOut := h.supOut.set c (s.supTake c) }) h =
        { h with
          supOut := l.foldl (fun (v : Vector (Option Frame) 4) (c : Fin 4) => v.set c (s.supTake c)) h.supOut } := by
    intro l
    induction l with
    | nil => exact fun _ => rfl
    | cons c l ih => exact fun h => ih _
  refine ⟨allPositions.foldl (fun (v : Vector _ 16) (p : Fin 16) => v.set p (s.lineTake p)) s.hwi.lineOut,
    allChannels.foldl (fun (v : Vector _ 4) (c : Fin 4) => v.set c (s.supTake c)) s.hwi.supOut, ?_,
    fun p => foldl_set_positions s.lineTake _ p, fun c => foldl_set_channels s.supTake _ c⟩
  simp only [State.runHighwayOut, hline, hsup]

/-- From `s` to `t` the timing, the sessions, the frames taken, the inputs of the links and the channel bindings stand:
what work may write there is what the links put out. -/
structure State.WorkKeeps (s t : State) : Prop where
  ftu : t.ftu = s.ftu
  taken : t.taken = s.taken
  sst : t.sst = s.sst
  hwi : t.hwi = { s.hwi with lineOut := t.hwi.lineOut, supOut := t.hwi.supOut, driven := t.hwi.driven }
  hli : ∀ p : Fin 16, t.hli[p] = { s.hli[p] with earpiece := t.hli[p].earpiece }

theorem State.WorkKeeps.of_eq {s t : State} (h1 : t.ftu = s.ftu := by rfl) (h2 : t.taken = s.taken := by rfl)
    (h3 : t.sst = s.sst := by rfl) (h4 : t.hwi = s.hwi := by rfl) (h5 : t.hli = s.hli := by rfl) : s.WorkKeeps t :=
  ⟨h1, h2, h3, by rw [h4], fun p => by rw [h5]⟩

theorem State.WorkKeeps.trans {s t u : State} (h : s.WorkKeeps t) (g : t.WorkKeeps u) : s.WorkKeeps u where
  ftu := g.ftu.trans h.ftu
  taken := g.taken.trans h.taken
  sst := g.sst.trans h.sst
  hwi := by
    have hg := g.hwi
    rw [h.hwi] at hg
    exact hg
  hli p := by
    have hg := g.hli p
    rw [h.hli p] at hg
    exact hg

theorem State.runWork_keeps (s : State) (w : Work) : s.WorkKeeps (s.runWork w) := by
  cases hw : evaluates w with
  | true =>
    have h := s.runWork_evaluated w hw
    exact .of_eq h.ftu h.taken h.sst h.hwi h.hli
  | false =>
    cases w with
    | noise n => exact .of_eq
    | mix => exact .of_eq
    | meterClose =>
      simp only [State.runWork, State.runMeterClose]
      split <;> exact .of_eq
    | earpiece p =>
      refine ⟨rfl, rfl, rfl, rfl, fun q => ?_⟩
      change (upd s.hli p (fun h => { h with earpiece := s.earpieceFrame p }))[q] =
        { s.hli[q] with earpiece := (upd s.hli p (fun h => { h with earpiece := s.earpieceFrame p }))[q].earpiece }
      simp only [Fin.getElem_fin, upd_get]
      split <;> rfl
    | highwayOut =>
      obtain ⟨lines, sent, he, -, -⟩ := s.runHighwayOut_spec
      rw [State.runWork, he]
      exact ⟨rfl, rfl, rfl, rfl, fun _ => rfl⟩
    | _ => cases hw

theorem State.keeps_law (s : State) : WorkLaw (fun _ => True) (s.WorkKeeps ·) where
  before _ _ _ _ := trivial
  run t w _ _ h := (h.trans .of_eq).trans (State.runWork_keeps _ w)
  grants _ _ _ _ h := h.trans .of_eq

theorem State.finishWork_keeps (s : State) (held : List Work) : s.WorkKeeps (s.finishWork held) :=
  s.keeps_law.fold _ (fun _ _ => trivial) s .of_eq

/-- A frame event that is due with no work standing is made and then worked. -/
theorem State.frameEvent_due {s : State} (hdue : s.ftu.frameDue = true) (hwork : s.work = []) (order held : List Work) :
    s.frameEvent order held = (order.foldl State.doWork s.beginFrame).finishWork held := by
  rw [State.frameEvent, State.beginDue, if_pos hdue, State.finishWork_done hwork]

theorem State.frameEvent_keeps {s : State} (hdue : s.ftu.frameDue = true) (hwork : s.work = [])
    (order held : List Work) : s.beginFrame.WorkKeeps (s.frameEvent order held) := by
  rw [State.frameEvent_due hdue hwork]
  refine State.WorkKeeps.trans ?_ (State.finishWork_keeps _ held)
  exact foldl_law (s.beginFrame.WorkKeeps ·) _ (fun t w => s.beginFrame.keeps_law.doWork (w := w) trivial) order _ .of_eq

/-- Of the work of a frame event only pieces held back still stand. -/
theorem State.frameEvent_held {s : State} (hdue : s.ftu.frameDue = true) (hwork : s.work = [])
    {order held : List Work} {w : Work} (hw : w ∈ (s.frameEvent order held).work) : w ∈ held := by
  rw [State.frameEvent_due hdue hwork, State.finishWork] at hw
  have hn : (order.foldl State.doWork s.beginFrame).work.Nodup := allWork_nodup.sublist (foldl_doWork_sublist order _)
  have hnot := (foldl_doWorkGrant_work _ _ hn).2 w hw
  by_contra hheld
  exact hnot (List.mem_filter.mpr ⟨mem_allWork w, by simpa using hheld⟩)

/-! ### What a frame event completes and hands on (R26, R36, R38, R67) -/

section
variable (s : State)

theorem State.beginFrame_headset (p : Fin 16) : s.beginFrame.hli[p] = s.hli[p].complete :=
  foldl_allPositions_get (fun _ => Headset.complete) p s.hli

theorem State.beginFrame_ftu :
    s.beginFrame.ftu = { s.ftu with frameCount := s.ftu.frameCount + 1, sampleIndex := 0, frameDue := false } := rfl

theorem State.beginFrame_hwi : s.beginFrame.hwi = s.completeInputs := rfl

theorem State.completeInputs_spec : ∃ (far : Vector Frame 16) (talk : Vector TalkFrame 4),
    s.completeInputs = { s.hwi with
      far := far, talk := talk, farInput := Vector.replicate 16 [], talkInput := Vector.replicate 4 [] } ∧
    (∀ p : Fin 16, far[p] = padFrame s.hwi.farInput[p]) ∧ ∀ c : Fin 4, talk[c] = s.talkFrame c := by
  have hfar : ∀ (l : List (Fin 16)) (h : Hwi),
      l.foldl (fun (h : Hwi) (p : Fin 16) => { h with far := h.far.set p (padFrame s.hwi.farInput[p]) }) h =
        { h with
          far := l.foldl (fun (v : Vector Frame 16) (p : Fin 16) => v.set p (padFrame s.hwi.farInput[p])) h.far } := by
    intro l
    induction l with
    | nil => exact fun _ => rfl
    | cons p l ih => exact fun h => ih _
  have htalk : ∀ (l : List (Fin 4)) (h : Hwi),
      l.foldl (fun (h : Hwi) (c : Fin 4) => { h with talk := h.talk.set c (s.talkFrame c) }) h =
        { h with
          talk := l.foldl (fun (v : Vector TalkFrame 4) (c : Fin 4) => v.set c (s.talkFrame c)) h.talk } := by
    intro l
    induction l with
    | nil => exact fun _ => rfl
    | cons c l ih => exact fun h => ih _
  refine ⟨allPositions.foldl (fun (v : Vector _ 16) (p : Fin 16) => v.set p (padFrame s.hwi.farInput[p])) s.hwi.far,
    allChannels.foldl (fun (v : Vector _ 4) (c : Fin 4) => v.set c (s.talkFrame c)) s.hwi.talk, ?_,
    fun p => foldl_set_positions (fun p => padFrame s.hwi.farInput[p]) _ p,
    fun c => foldl_set_channels s.talkFrame _ c⟩
  simp only [State.completeInputs, hfar, htalk]

theorem State.takeFrames_position (p : Fin 16) :
    s.takeFrames.reference[p] = s.ecu[p].pending.getD 1 zeroFrame ∧ s.takeFrames.present[p] = (s.pos p).present ∧
      s.takeFrames.mic[p] = s.hli[p].mic ∧ s.takeFrames.echo[p] = s.ecu[p].out ∧ s.takeFrames.erle[p] = s.ecu[p].erle :=
  ⟨foldl_set_positions (fun p => s.ecu[p].pending.getD 1 zeroFrame) _ p,
    foldl_set_positions (fun p => (s.pos p).present) _ p, foldl_set_positions (fun p => s.hli[p].mic) _ p,
    foldl_set_positions (fun p => s.ecu[p].out) _ p, foldl_set_positions (fun p => s.ecu[p].erle) _ p⟩

theorem State.takeFrames_noise (n : Fin 20) : s.takeFrames.noise[n] = s.nru.contexts[n].out :=
  (foldl_upd_get (fun n _ => s.nru.contexts[n].out) n allNoise (by decide) (Vector.replicate 20 .zero)).trans
    (if_pos (mem_allNoise n))

theorem State.takeFrames_voice (v : Fin 12) : s.takeFrames.voice[v] = s.vce[v].out :=
  (foldl_upd_get (fun v _ => s.vce[v].out) v allVoices (by decide) (Vector.replicate 12 .zero)).trans
    (if_pos (mem_allVoices v))

end

/-- Settles O41: the frame event is begun on the links as they stand, and its work leaves what was begun there. -/
theorem frameEventIsMade : Obligations.FrameEventIsMade := by
  unfold Obligations.FrameEventIsMade
  intro s order held hr hdue hwork
  have hkeeps := State.frameEvent_keeps hdue hwork order held
  have htaken : (s.frameEvent order held).taken = s.takeFrames := hkeeps.taken
  obtain ⟨far, talk, hinputs, hfar, htalk⟩ := s.completeInputs_spec
  have hhwi := hkeeps.hwi
  rw [State.beginFrame_hwi, hinputs] at hhwi
  have hhli : ∀ p : Fin 16, (s.frameEvent order held).hli[p] =
      { s.hli[p].complete with earpiece := (s.frameEvent order held).hli[p].earpiece } := fun p => by
    have h := hkeeps.hli p
    rw [s.beginFrame_headset p] at h
    exact h
  refine ⟨s.frameEvent order held, congrArg Host.Outcome.next (if_neg (by simp [hr])), hkeeps.ftu,
    fun w hw => State.frameEvent_held hdue hwork hw, ?_, fun p => ?_, fun p => ?_, fun c => ?_⟩
  · rw [htaken]
    exact ⟨rfl, rfl, rfl, rfl, rfl, s.takeFrames_voice, s.takeFrames_noise, s.takeFrames_position⟩
  · rw [hhli p]
    exact ⟨rfl, rfl, rfl⟩
  · rw [hhwi]
    exact ⟨hfar p, by simp⟩
  · rw [hhwi]
    refine ⟨congrArg TalkFrame.samples (htalk c), congrArg TalkFrame.live (htalk c), by simp⟩

end Sys2Proof.Machine
end

