-- ==== Sys2Proof/Proofs/Syncs.lean ====
section
/-!
PROOFS. The highway syncs by the timing state and the distance from the last one, and the gap that ends in FREE_RUN
(R27 to R31).
-/

namespace Sys2Proof.Machine

/-! ### The gap (R30, R31) -/

section
variable {s t : State} {slots : List Word16} {order : List Work}

theorem exec_syncGapTimeout (hr : s.rstn = false) :
    exec (.syncGapTimeout slots order) s = .next (s.loseSync slots order) :=
  congrArg Host.Outcome.next (if_neg (by simp [hr]))

theorem State.loseSync_freeRun (h : s.ftu.timing = .freeRun) : s.loseSync slots order = s := by
  unfold State.loseSync
  rw [h]

theorem State.loseSync_locking (h : s.ftu.timing = .locking) : s.loseSync slots order = s.toFreeRun := by
  unfold State.loseSync
  rw [h]

/-- The FTU in FREE_RUN after a loss of the syncs, with the report to the Line port. -/
def State.lost (s : State) : State := s.toFreeRun.report .line .highwayLost

theorem State.lost_ftu (s : State) : s.lost.ftu = { s.ftu with timing := .freeRun, goodSync := 0 } := rfl

theorem State.loseSync_locked (h : s.ftu.timing = .locked) : s.loseSync slots order =
    (if ((s.settle.settlePeriod.settle).endPeriod true slots).ftu.frameDue = true
      then ((s.settle.settlePeriod.settle).endPeriod true slots).frameEvent order []
      else (s.settle.settlePeriod.settle).endPeriod true slots).lost.endPeriod false [] := by
  unfold State.loseSync
  rw [h]
  rfl

/-- With nothing left undone and no period marked, the gap ends the period at once. -/
theorem State.loseSync_quiet (h : s.ftu.timing = .locked) (hquiet : s.quiet) (hmark : s.ftu.periodMarked = false) :
    s.loseSync slots order =
      (if (s.endPeriod true slots).ftu.frameDue = true then (s.endPeriod true slots).frameEvent order []
        else s.endPeriod true slots).lost.endPeriod false [] := by
  have hperiod : s.settlePeriod = s := by rw [State.settlePeriod, hmark, if_neg (by decide)]
  rw [State.loseSync_locked h, State.settle_quiet hquiet, hperiod, State.settle_quiet hquiet]

/-- A period that ends in FREE_RUN collects a zero everywhere and drives nothing. -/
theorem State.lost_endPeriod (s : State) : s.lost.PeriodEnded false [] (s.lost.endPeriod false []) ∧
    (∀ p : Fin 16, (s.lost.endPeriod false []).hwi.farInput[p] = s.hwi.farInput[p] ++ [0]) ∧
    (∀ c : Fin 4, (s.lost.endPeriod false []).hwi.talkInput[c] = s.hwi.talkInput[c] ++ [0]) ∧
    ∀ k : Fin 32, (s.lost.endPeriod false []).hwi.driven[k] = none := by
  have hend := s.lost.endPeriod_spec false []
  have hzero : ∀ slot, inputSample false [] slot = 0 := fun slot => by cases slot <;> rfl
  refine ⟨hend, fun p => (hend.far p).trans (by rw [hzero]; rfl), fun c => (hend.talk c).trans (by rw [hzero]; rfl),
    fun k => ?_⟩
  rw [hend.driven]
  split
  · exact State.drive_unlocked (s := s.lost) (fun h => nomatch h) k
  · exact (by simp : (Vector.replicate 32 (none : Option Sample))[k] = none)

end

theorem State.PeriodEnded.ftu {s t : State} {highway : Bool} {slots : List Word16} (h : s.PeriodEnded highway slots t) :
    t.ftu = { s.ftu with
      sampleIndex := if s.ftu.sampleIndex < 63 then s.ftu.sampleIndex + 1 else s.ftu.sampleIndex
      frameDue := s.ftu.frameDue || decide (63 ≤ s.ftu.sampleIndex)
      periodMarked := false } :=
  congrArg State.ftu h.frame

/-- What a slot gave in the sample period that the gap ends. -/
theorem inputSample_highway (slots : List Word16) (slot : Option (Fin 32)) :
    inputSample true slots slot = match slot with
      | none => 0
      | some k => (slots.getD k.val 0).toInt := by cases slot <;> rfl

/-- Settles O44: the two periods that the gap ends, with the frame event between them where the first ends a frame. -/
theorem gapReturnsToFreeRun : Obligations.GapReturnsToFreeRun := by
  unfold Obligations.GapReturnsToFreeRun
  intro s slots order hr
  refine ⟨fun h => (exec_syncGapTimeout hr).trans (congrArg _ (State.loseSync_freeRun h)),
    fun h => (exec_syncGapTimeout hr).trans (congrArg _ (State.loseSync_locking h)), fun h hquiet hmark => ?_⟩
  have hexec := exec_syncGapTimeout (slots := slots) (order := order) hr
  rw [State.loseSync_quiet h hquiet hmark] at hexec
  have h1 := s.endPeriod_spec true slots
  generalize s.endPeriod true slots = s1 at hexec h1
  have hftu1 := h1.ftu
  rw [hquiet.1, Bool.false_or] at hftu1
  by_cases hi : s.ftu.sampleIndex < 63
  · have hdue : s1.ftu.frameDue = false := by
      rw [hftu1]
      exact decide_eq_false (by omega)
    rw [hdue, if_neg (by decide)] at hexec
    obtain ⟨h2, hfar, htalk, hdriven⟩ := s1.lost_endPeriod
    generalize s1.lost.endPeriod false [] = t at hexec h2 hfar htalk hdriven
    have hftu := h2.ftu
    rw [State.lost_ftu, hftu1] at hftu
    refine ⟨t, hexec, hdriven, ?_, fun _ => ⟨?_, fun p => ?_, fun c => ?_⟩, fun hge => absurd hi (by omega)⟩
    · rw [hftu]
      by_cases hlast : s.ftu.sampleIndex = 62
      · simp [hlast, hmark]
      · have hnext : s.ftu.sampleIndex < 62 := by omega
        have hafter : s.ftu.sampleIndex + 1 < 63 := by omega
        simp [hi, hnext, hafter, hmark, hlast, Nat.not_le.mpr hi, Nat.not_le.mpr hafter]
    · have hs := h2.frame
      rw [h1.frame] at hs
      rw [hs]
      rfl
    · rw [hfar p, h1.far p, inputSample_highway, List.append_assoc]
      rfl
    · rw [htalk c, h1.talk c, inputSample_highway, List.append_assoc]
      rfl
  · have hdue : s1.ftu.frameDue = true := by
      rw [hftu1]
      exact decide_eq_true (by omega)
    have hwork : s1.work = [] := (congrArg State.work h1.frame).trans hquiet.2.1
    rw [hdue, if_pos rfl] at hexec
    have hkeeps := State.frameEvent_keeps hdue hwork order []
    obtain ⟨far, talk, hinputs, hfarDone, htalkDone⟩ := s1.completeInputs_spec
    have hhwi := hkeeps.hwi
    rw [State.beginFrame_hwi, hinputs] at hhwi
    have hftu2 := hkeeps.ftu
    generalize s1.frameEvent order [] = s2 at hexec hhwi hftu2
    obtain ⟨h2, hfar, htalk, hdriven⟩ := s2.lost_endPeriod
    have hhwi2 := congrArg State.hwi h2.frame
    generalize s2.lost.endPeriod false [] = t at hexec h2 hfar htalk hdriven hhwi2
    refine ⟨t, hexec, hdriven, ?_, fun hlt => absurd hlt hi, fun _ => ⟨⟨s2.cpt, ?_⟩, fun p => ⟨?_, ?_⟩, fun c => ⟨?_, ?_⟩⟩⟩
    · have hftu := h2.ftu
      rw [State.lost_ftu, hftu2, State.beginFrame_ftu, hftu1] at hftu
      rw [hftu]
      simp [hi, hmark, show ¬ s.ftu.sampleIndex < 62 by omega, show s.ftu.sampleIndex ≠ 62 by omega]
    · have hcount : s2.ftu.frameCount = s.ftu.frameCount + 1 := by rw [hftu2, State.beginFrame_ftu, hftu1]
      rw [← hcount]
      exact congrArg State.cpt h2.frame
    · rw [hfar p, hhwi]
      simp
    · rw [hhwi2]
      change s2.hwi.far[p] = _
      rw [hhwi]
      change far[p] = _
      rw [hfarDone p, h1.far p, inputSample_highway]
      rfl
    · rw [htalk c, hhwi]
      simp
    · rw [hhwi2]
      change s2.hwi.talk[c].samples = _
      rw [hhwi]
      change talk[c].samples = _
      rw [htalkDone c, State.talkFrame, h1.talk c, inputSample_highway]
      rfl

/-! ### Syncs (R27 to R29) -/

section
variable {s : State} {time : Nat}

theorem exec_highwaySync (hr : s.rstn = false) : exec (.highwaySync time) s = .next (s.seeSync time) :=
  congrArg Host.Outcome.next (if_neg (by simp [hr]))

/-- A sync within the gap, or one in FREE_RUN, is classed as it comes. -/
theorem State.seeSync_near (h : s.ftu.timing = .freeRun ∨ time ≤ s.ftu.lastSync + 125000) :
    s.seeSync time = s.sync time := by
  rw [State.seeSync, if_neg]
  rintro ⟨hrun, hgap⟩
  have hgap : 125000 < time - s.ftu.lastSync := hgap
  rcases h with h | h
  · exact hrun h
  · omega

/-- A sync after the gap comes once the syncs are lost. -/
theorem State.seeSync_late (h : s.ftu.timing ≠ .freeRun) (hgap : s.ftu.lastSync + 125000 < time) :
    s.seeSync time = (s.loseSync [] []).sync time := by
  rw [State.seeSync, if_pos]
  exact ⟨h, show 125000 < time - s.ftu.lastSync by omega⟩

theorem State.sync_freeRun (h : s.ftu.timing = .freeRun) : s.sync time = s.startQualifying time := by
  unfold State.sync
  rw [h]

theorem State.sync_locking (h : s.ftu.timing = .locking) : s.sync time =
    if time - s.ftu.lastSync < 31250 then { s with ftu := { s.ftu with goodSync := 0, lastSync := time } }
    else if s.ftu.goodSync + 1 < 64 then
      { s with ftu := { s.ftu with goodSync := s.ftu.goodSync + 1, lastSync := time } }
    else s.lock time := by
  unfold State.sync
  rw [h]
  rfl

theorem State.sync_locked (h : s.ftu.timing = .locked) : s.sync time =
    if time - s.ftu.lastSync < 31250 then s
    else { s.settlePeriod with ftu := { s.settlePeriod.ftu with lastSync := time, periodMarked := true } } := by
  unfold State.sync
  rw [h]
  rfl

/-- The loss of the syncs leaves FREE_RUN. -/
theorem State.loseSync_timing (slots : List Word16) (order : List Work) : (s.loseSync slots order).ftu.timing = .freeRun := by
  cases h : s.ftu.timing with
  | freeRun => rw [State.loseSync_freeRun h, h]
  | locking => rw [State.loseSync_locking h]; rfl
  | locked =>
    rw [State.loseSync_locked h]
    exact congrArg Ftu.timing (State.lost_endPeriod _).1.ftu

/-- The upward frames under way are cut off, or left to come (R28). -/
theorem foldl_cutOff (l : List (Fin 16)) (b : Bool) (s : State) :
    l.foldl (fun s p => s.modHeadset p (fun h => { h with cutOff := b })) s =
      { s with hli := l.foldl (fun (v : Vector Headset 16) (p : Fin 16) => upd v p (fun h => { h with cutOff := b })) s.hli } := by
  induction l generalizing s with
  | nil => rfl
  | cons p l ih => exact ih _

/-- The frame event of the lock sync, before its work. -/
def State.lockFrame (s : State) (time : Nat) : State :=
  State.beginFrame { s with ftu := { s.ftu with timing := .locked, goodSync := Config.goodSyncs, lastSync := time } }

theorem State.lock_eq (hwork : s.work = []) :
    s.lock time = (State.latchSlots { s.lockFrame time with
      hli := allPositions.foldl (fun (v : Vector Headset 16) (p : Fin 16) =>
        upd v p (fun h => { h with cutOff := !s.ftu.frameDue })) (s.lockFrame time).hli }).report .line .highwayLocked := by
  unfold State.lock
  rw [State.finishWork_done hwork, ← foldl_cutOff]
  rfl

/-- The lock sync with no work left standing (R28). -/
theorem State.lock_spec (hwork : s.work = []) :
    s.lock time = { s with
      ftu := { s.ftu with
        timing := .locked, goodSync := 64, lastSync := time, frameCount := s.ftu.frameCount + 1, sampleIndex := 0
        frameDue := false }
      taken := (s.lock time).taken
      hli := (s.lock time).hli
      hwi := (s.lock time).hwi
      work := allWork
      cpt := s.cpt.place (s.ftu.frameCount + 1) .line .highwayLocked } ∧
    ∀ p : Fin 16, (s.lock time).hli[p] = { s.hli[p].complete with cutOff := !s.ftu.frameDue } := by
  have hlock := State.lock_eq (time := time) hwork
  have hcut : ∀ p : Fin 16, (allPositions.foldl (fun (v : Vector Headset 16) (p : Fin 16) =>
      upd v p (fun h => { h with cutOff := !s.ftu.frameDue })) (s.lockFrame time).hli)[p] =
      { s.hli[p].complete with cutOff := !s.ftu.frameDue } := fun p => by
    rw [foldl_allPositions_get (fun _ h => { h with cutOff := !s.ftu.frameDue : Headset }), State.lockFrame,
      State.beginFrame_headset]
  generalize allPositions.foldl _ (s.lockFrame time).hli = hli at hlock hcut
  refine ⟨?_, fun p => ?_⟩
  · rw [hlock]
    rfl
  · rw [← hcut p, hlock]
    rfl

end

/-- Settles O43: each class of a sync by the timing state. -/
theorem syncsAreClassed : Obligations.SyncsAreClassed := by
  unfold Obligations.SyncsAreClassed
  intro s time hr near good
  have hexec := exec_highwaySync (time := time) hr
  refine ⟨fun h => ?_, fun h hnear => ?_, fun h hgood hcount => ?_, fun h hgood hcount hwork => ?_, fun h hnear => ?_,
    fun h hgood hmark => ?_, fun h hgood hmark => ?_, fun h hgap => ?_⟩
  · rw [hexec, State.seeSync_near (.inl h), State.sync_freeRun h]
    rfl
  · have hnear : time < s.ftu.lastSync + 31250 := hnear
    rw [hexec, State.seeSync_near (.inr (by omega)), State.sync_locking h, if_pos (by omega)]
  · obtain ⟨hfrom, hto⟩ : s.ftu.lastSync + 31250 ≤ time ∧ time ≤ s.ftu.lastSync + 125000 := hgood
    rw [hexec, State.seeSync_near (.inr hto), State.sync_locking h, if_neg (by omega), if_pos (by omega)]
  · obtain ⟨hfrom, hto⟩ : s.ftu.lastSync + 31250 ≤ time ∧ time ≤ s.ftu.lastSync + 125000 := hgood
    rw [State.seeSync_near (.inr hto), State.sync_locking h, if_neg (by omega), if_neg (by omega)] at hexec
    obtain ⟨hlock, hhli⟩ := State.lock_spec (time := time) hwork
    have hall : (s.lock time).work = allWork := congrArg State.work hlock
    refine ⟨_, hexec, ?_, fun w => ?_, fun p => ?_⟩
    · rw [hall]
      exact hlock
    · rw [hall]
      exact mem_allWork w
    · rw [hhli p]
      exact ⟨rfl, rfl⟩
  · have hnear : time < s.ftu.lastSync + 31250 := hnear
    rw [hexec, State.seeSync_near (.inr (by omega)), State.sync_locked h, if_pos (by omega)]
  · obtain ⟨hfrom, hto⟩ : s.ftu.lastSync + 31250 ≤ time ∧ time ≤ s.ftu.lastSync + 125000 := hgood
    have hperiod : s.settlePeriod = s := by rw [State.settlePeriod, hmark, if_neg (by decide)]
    rw [hexec, State.seeSync_near (.inr hto), State.sync_locked h, if_neg (by omega), hperiod]
  · obtain ⟨hfrom, hto⟩ : s.ftu.lastSync + 31250 ≤ time ∧ time ≤ s.ftu.lastSync + 125000 := hgood
    have hperiod : s.samplePeriod [] = s.settlePeriod := by
      rw [State.settlePeriod, State.samplePeriod, if_pos h, if_pos hmark]
    refine ⟨s.samplePeriod [], congrArg Host.Outcome.next (if_neg (by simp [hr])), ?_⟩
    rw [hexec, State.seeSync_near (.inr hto), State.sync_locked h, if_neg (by omega), hperiod]
  · refine ⟨s.loseSync [] [], exec_syncGapTimeout hr, State.loseSync_timing [] [], ?_⟩
    rw [hexec, State.seeSync_late h hgap, State.sync_freeRun (State.loseSync_timing [] [])]
    rfl

end Sys2Proof.Machine
end

