-- ==== Sys2Proof/Proofs/Outputs.lean ====
section
/-!
PROOFS. The mix of a frame event read record by record (R46 to R58), and what a whole frame event puts out on the
headset links and the highway (R31, R37, R39, R40).
-/

namespace Sys2Proof.Machine

section
variable {s : State} {p : Fin 16} {c : Fin 4}

/-! ### Duck factors (R54 to R56) -/

/-- Channel `c` whispers to `p` and is found in SPEECH. -/
def State.whispersTo (s : State) (p : Fin 16) (c : Fin 4) : Prop :=
  s.sessionOn p c = true ∧ s.sst[c].mode = .whisper ∧ s.taken.noise[noiseOfChannel c].speech = true ∧
    s.nru.contexts[noiseOfChannel c].relearning = false

theorem State.whisperer_test (c : Fin 4) :
    (s.sessionOn p c && s.sst[c].mode == .whisper && s.foundInSpeech c) = true ↔ s.whispersTo p c := by
  simp [State.whispersTo, State.foundInSpeech, and_assoc]

theorem State.whisperer_only (h : s.whispersTo p c) (honly : ∀ k, s.whispersTo p k → k = c) : s.whisperer p = some c := by
  cases hw : s.whisperer p with
  | none =>
    have hno := List.find?_eq_none.mp hw c (mem_allChannels c)
    exact absurd (State.whisperer_test c |>.mpr h) hno
  | some k =>
    rw [State.whisperer] at hw
    have htest := List.find?_some hw
    rw [honly k ((State.whisperer_test k).mp htest)]

theorem State.whisperer_none (h : ∀ c, ¬s.whispersTo p c) : s.whisperer p = none :=
  List.find?_eq_none.mpr fun c _ hc => h c ((State.whisperer_test c).mp hc)

theorem State.duckingPrompt_iff : s.duckingPrompt p = true ↔
    ∃ e rest, s.queue p .agent = e :: rest ∧ e.voice.isSome = true ∧ e.duck = true := by
  rw [State.duckingPrompt]
  cases s.queue p .agent with
  | nil => simp
  | cons e rest => simp

/-! ### The records that a mix leaves (R41, R49) -/

theorem fixedTerm_record (t : Term) (frame : Frame) (target : Nat) (cut : Bool) :
    (fixedTerm t frame target cut).record = { gain := if cut = true then 0 else target, source := none } := rfl

theorem State.earRecords_eq (p : Fin 16) (d : Nat) : earRecords (s.earUses p d) =
    { far := { gain := s.farTarget p d, source := none }
      agentPrompt := roleAfter ((s.headVoice p .agent).map .voice) (s.pos p).promptGain false
      linePrompt := roleAfter ((s.headVoice p .line).map .voice) (s.pos p).announceGain false
      talk := roleAfter ((s.talker p).map .channel) (s.talkGainOf (s.talker p)) false } := by
  rw [State.earUses_eq]
  simp only [earRecords, recordAt, List.getElem?_cons_zero, List.getElem?_cons_succ, fixedTerm_record,
    State.roleTerm_record, Bool.false_eq_true, if_false]

theorem State.lineRecords_eq (p : Fin 16) : lineRecords (s.lineUses p) =
    { mic := { gain := if s.micCut p = true then 0 else 4096, source := none }
      talk := roleAfter ((s.talker p).map .channel) (s.talkGainOf (s.talker p)) (!s.bargesIn p)
      linePrompt := roleAfter ((s.headVoice p .line).map .voice) 4096 false
      hold := roleAfter ((s.pos p).holdSource.map .voice) (s.holdTarget p) false } := by
  rw [State.lineUses_eq]
  simp only [lineRecords, recordAt, List.getElem?_cons_zero, List.getElem?_cons_succ, fixedTerm_record,
    State.roleTerm_record]

theorem State.supRecords_eq (c : Fin 4) (p : Fin 16) : supRecords (s.supUses c p) =
    { far := { gain := if (s.pos p).call = .talk then 4096 else 0, source := none }
      mic := { gain := if s.supMicCut p = true then 0 else 4096, source := none }
      linePrompt := roleAfter ((s.headVoice p .line).map .voice) 4096 false
      other := roleAfter ((s.otherTalker c p).map .channel) (s.talkGainOf (s.otherTalker c p)) false } := by
  rw [State.supUses_eq]
  simp only [supRecords, recordAt, List.getElem?_cons_zero, List.getElem?_cons_succ, fixedTerm_record,
    State.roleTerm_record, Bool.false_eq_true, if_false]

/-! ### The mix of a frame event, destination by destination -/

theorem State.runMix_duck (p : Fin 16) : s.runMix.mxe.duck[p] = s.mxe.duck[p].next (s.duckGate p) :=
  (s.runMix_position p).1

theorem State.runMix_ear (p : Fin 16) :
    let d := s.runMix.mxe.duck[p].factor
    s.runMix.mxe.ear[p] = producedFrame (s.earSum p d) ∧
      s.runMix.mxe.earClips[p] = s.mxe.earClips[p] + clippedSamples (s.earSum p d) ∧
      s.runMix.mxe.earTerms[p] = earRecords (s.earUses p d) := by
  obtain ⟨hduck, hterms, hclips, hear, -⟩ := s.runMix_position p
  rw [hduck, hterms, hclips, hear]
  refine ⟨?_, ?_, rfl⟩
  · rw [← State.earUses_acc, ← mixFrame_eq]; rfl
  · rw [← State.earUses_acc, ← mixClips_eq]; rfl

theorem State.runMix_lineTerms (p : Fin 16) :
    s.runMix.mxe.lineTerms[p] = (if (s.pos p).line.isSome then lineRecords (s.lineUses p) else .absent) ∧
      s.runMix.mxe.lineClips[p] =
        if (s.pos p).line.isSome then s.mxe.lineClips[p] + clippedSamples (s.lineSum p) else s.mxe.lineClips[p] := by
  obtain ⟨-, -, -, -, hterms, hclips, -⟩ := s.runMix_position p
  refine ⟨hterms, hclips.trans ?_⟩
  rw [← State.lineUses_acc, ← mixClips_eq]
  rfl

theorem supMixed_some (htarget : s.supTarget c = some p) :
    supMixed s c = (supRecords (s.supUses c p), producedFrame (s.supSum c p)) := by
  rw [supMixed, htarget, ← State.supUses_acc, ← mixFrame_eq]

theorem supMixed_none (htarget : s.supTarget c = none) : supMixed s c = (.absent, zeroFrame) := by
  rw [supMixed, htarget]

/-- The mix of a frame event, as the first half of O42 states it. -/
theorem State.mix_derived (held : List Work) (h : s.atPiece .mix held) : ∃ t, exec (.frameEvent [.mix] held) s = .next t ∧
    t = { s with work := s.work.erase .mix, mxe := t.mxe } ∧ t.mxe = s.runMix.mxe :=
  ⟨_, exec_frameEvent_piece s .mix held h, rfl, rfl⟩

end

end Sys2Proof.Machine
end

