-- ==== Sys2Proof/Proofs/OutputWork.lean ====
section
/-!
PROOFS. What each piece of a frame event's work leaves of the records that the earpiece and highway output pieces read,
and of what these put out: the parts of the usual order in turn (R15, R26, R37, R39, R40).
-/

namespace Sys2Proof.Machine

/-! ### The usual order in three parts -/

/-- The evaluations of the positions, first in the usual order. -/
def positionWork : List Work :=
  allPositions.flatMap (fun p => [.presence p, .button p, .battery p, .reminder p, .muted p])

/-- The pieces after them that write no position record. -/
def stageWork : List Work :=
  allPositions.map .echo ++ allNoise.map .noise ++ [.mix, .meterClose] ++ allPositions.map .earpiece ++ [.highwayOut] ++
    allVoices.map .voice

/-- The pieces that end the usual order. -/
def endWork : List Work := allPositions.map .close ++ allPorts.map .meterPeriod

theorem allWork_eq : allWork = positionWork ++ (stageWork ++ endWork) := by
  simp only [allWork, positionWork, stageWork, endWork, List.append_assoc]

/-- The part of the usual order that a piece is of. -/
inductive WorkPart where
  | position
  | stage
  | last

def partOf : Work → WorkPart
  | .presence _ | .button _ | .battery _ | .reminder _ | .muted _ => .position
  | .close _ | .meterPeriod _ => .last
  | _ => .stage

theorem part_positionWork : ∀ w ∈ positionWork, partOf w = .position := by
  intro w
  cases w <;> simp [positionWork, partOf]

theorem part_stageWork : ∀ w ∈ stageWork, partOf w = .stage := by
  intro w
  cases w <;> simp [stageWork, partOf]

theorem part_endWork : ∀ w ∈ endWork, partOf w = .last := by
  intro w
  cases w <;> simp [endWork, partOf]

theorem part_workBefore {w x : Work} (hx : x ∈ workBefore w) : partOf x = partOf w := by
  cases w <;> simp only [workBefore, List.mem_cons, List.not_mem_nil, or_false] at hx
  case button => rw [hx]; rfl
  case battery => rcases hx with rfl | rfl <;> rfl
  case reminder => rcases hx with rfl | rfl | rfl <;> rfl
  case muted => rcases hx with rfl | rfl | rfl | rfl <;> rfl
  case meterClose => rw [hx]; rfl

/-! ### The evaluations of a position (R15) -/

/-- What the evaluations leave of a position record: what the output pieces read but for mute and the present field. -/
def Position.Seated (x y : Position) : Prop :=
  y.state = x.state ∧ y.line = x.line ∧ y.call = x.call ∧ y.sidetone = x.sidetone

/-- From `s` to `t` the echo contexts stand and every position record is seated. -/
structure State.EvaluationKeeps (s t : State) : Prop where
  ecu : t.ecu = s.ecu
  seated : ∀ p : Fin 16, (s.pos p).Seated (t.pos p)

section
variable {s t : State}

theorem State.EvaluationKeeps.of_eq (h1 : t.ecu = s.ecu := by rfl) (h2 : t.pct = s.pct := by rfl) : s.EvaluationKeeps t :=
  ⟨h1, fun p => by rw [State.pos, State.pos, h2]; exact ⟨rfl, rfl, rfl, rfl⟩⟩

theorem State.EvaluationKeeps.trans {u : State} (h : s.EvaluationKeeps t) (g : t.EvaluationKeeps u) : s.EvaluationKeeps u :=
  ⟨g.ecu.trans h.ecu, fun p => by
    obtain ⟨h1, h2, h3, h4⟩ := h.seated p
    obtain ⟨g1, g2, g3, g4⟩ := g.seated p
    exact ⟨g1.trans h1, g2.trans h2, g3.trans h3, g4.trans h4⟩⟩

theorem State.EvaluationKeeps.report (h : s.EvaluationKeeps t) (port : Port) (b : ReportBody) :
    s.EvaluationKeeps (t.report port b) := h.trans .of_eq

theorem State.EvaluationKeeps.reportAll (h : s.EvaluationKeeps t) (ports : List Port) (b : ReportBody) :
    s.EvaluationKeeps (t.reportAll ports b) := h.trans (by rw [State.reportAll_eq]; exact .of_eq)

theorem State.EvaluationKeeps.offer (h : s.EvaluationKeeps t) (p : Fin 16) (k : AutoKind) :
    s.EvaluationKeeps (t.offer p k) := h.trans (by rw [State.offer_eq]; exact .of_eq)

theorem State.EvaluationKeeps.modPos (h : s.EvaluationKeeps t) (p : Fin 16) (f : Position → Position)
    (hf : ∀ x : Position, x.Seated (f x)) : s.EvaluationKeeps (t.modPos p f) := h.trans ⟨rfl, fun q => by
  simp only [State.pos, State.modPos_pct, Fin.getElem_fin, upd_get]
  split
  · exact hf _
  · exact ⟨rfl, rfl, rfl, rfl⟩⟩

theorem Position.seated_debounce (x : Position) (handed : Option Word16) (raw : Bool) :
    x.Seated ((x.readStatus handed).debounce raw) := by
  unfold Position.debounce Position.readStatus
  split_ifs <;> exact ⟨rfl, rfl, rfl, rfl⟩

theorem Position.seated_setMute (x : Position) (on : Bool) : x.Seated (x.setMute on) := by
  unfold Position.setMute
  split <;> exact ⟨rfl, rfl, rfl, rfl⟩

theorem State.runWork_evaluation (s : State) {w : Work} (hw : partOf w = .position) : s.EvaluationKeeps (s.runWork w) := by
  have h0 : s.EvaluationKeeps s := .of_eq
  cases w with
  | presence p =>
    have h1 := h0.modPos p (fun x => (x.readStatus s.hli[p].handed).debounce (rawPresent s.hli[p].handed))
      (fun x => x.seated_debounce _ _)
    simp only [State.runWork, State.runPresence]
    repeat' split
    · exact h1
    · exact h1
    · exact h1.report _ _
    · exact (h1.trans .of_eq).report _ _
    · exact h1
    · exact h1.report _ _
  | button p =>
    have h1 := h0.modPos p (fun x => { x with releasedRun := if x.button then 0 else min 2 (x.releasedRun + 1) })
      (fun _ => ⟨rfl, rfl, rfl, rfl⟩)
    simp only [State.runWork, State.runButton]
    repeat' split
    · exact (h1.modPos p _ fun x => x.seated_setMute _).report _ _
    · exact h1.report _ _
    · exact h1
  | battery p =>
    have h1 : ∀ b, s.EvaluationKeeps (s.modPos p (fun x => { x with band := b })) := fun b =>
      h0.modPos p _ fun _ => ⟨rfl, rfl, rfl, rfl⟩
    simp only [State.runWork, State.runBattery]
    repeat' split
    · exact h1 _
    · exact ((h1 _).report _ _).offer _ _
    · exact ((h1 _).reportAll _ _).offer _ _
    · exact ((h1 _).reportAll _ _).offer _ _
    · exact h1 _
    · exact h0
  | reminder p =>
    simp only [State.runWork, State.runReminder]
    repeat' split
    · refine State.EvaluationKeeps.offer (State.EvaluationKeeps.reportAll (h0.modPos p _ fun x => ?_) _ _) _ _
      split <;> exact ⟨rfl, rfl, rfl, rfl⟩
    · exact h0.modPos p _ fun _ => ⟨rfl, rfl, rfl, rfl⟩
    · exact h0
  | muted p =>
    have h1 := h0.modPos p (fun x => { x with mutedCount := min 500 (x.mutedCount + 1) }) fun _ => ⟨rfl, rfl, rfl, rfl⟩
    simp only [State.runWork, State.runMuted]
    repeat' split
    · exact ((h1.modPos p (fun x => { x with mutedIssued := true }) fun _ => ⟨rfl, rfl, rfl, rfl⟩).report _ _).offer _ _
    · exact h1
    · exact h0
  | _ => cases hw

end

/-! ### The stages -/

theorem echoWork_pending (state : PosState) (present : Bool) (set : EchoSettings) (c : EchoCtx) (mic reference : Frame) :
    (echoWork state present set c mic reference).1.pending = c.pending := by
  unfold echoWork
  split <;> rfl

/-- From `s` to `t` the position records, the links and the references handed to the echo contexts stand. -/
structure State.StageKeeps (s t : State) : Prop where
  pct : t.pct = s.pct
  hwi : t.hwi = s.hwi
  hli : t.hli = s.hli
  pending : ∀ p : Fin 16, t.ecu[p].pending = s.ecu[p].pending

theorem State.StageKeeps.of_eq {s t : State} (h1 : t.pct = s.pct := by rfl) (h2 : t.hwi = s.hwi := by rfl)
    (h3 : t.hli = s.hli := by rfl) (h4 : t.ecu = s.ecu := by rfl) : s.StageKeeps t :=
  ⟨h1, h2, h3, fun p => by rw [h4]⟩

theorem State.StageKeeps.trans {s t u : State} (h : s.StageKeeps t) (g : t.StageKeeps u) : s.StageKeeps u :=
  ⟨g.pct.trans h.pct, g.hwi.trans h.hwi, g.hli.trans h.hli, fun p => (g.pending p).trans (h.pending p)⟩

theorem State.completePrompt_stage (s : State) (v : Fin 12) : s.StageKeeps (s.completePrompt v) := by
  unfold State.completePrompt
  dsimp only
  repeat' split
  all_goals first | exact .of_eq | (simp only [State.promptDone]; cases ‹QueueId› <;> exact .of_eq)

/-- A stage other than an output piece keeps what the output pieces read and write. -/
theorem State.runWork_stage (s : State) {w : Work} (hw : partOf w = .stage) (hear : ∀ p, w ≠ .earpiece p)
    (hout : w ≠ .highwayOut) : s.StageKeeps (s.runWork w) := by
  cases w with
  | echo q =>
    have h1 : s.StageKeeps (s.modEcho q (fun _ => (s.echoResult q).1)) := ⟨rfl, rfl, rfl, fun p => by
      simp only [State.modEcho_ecu, Fin.getElem_fin, upd_get]
      split
      · next hp => subst hp; exact echoWork_pending _ _ _ _ _ _
      · rfl⟩
    simp only [State.runWork, State.runEcho]
    split
    · exact h1.trans .of_eq
    · exact h1
  | noise n => exact .of_eq
  | mix => exact .of_eq
  | meterClose =>
    simp only [State.runWork, State.runMeterClose]
    split <;> exact .of_eq
  | earpiece p => exact absurd rfl (hear p)
  | highwayOut => exact absurd rfl hout
  | voice v =>
    simp only [State.runWork, State.runVoice]
    split
    · exact State.StageKeeps.trans .of_eq (State.completePrompt_stage _ v)
    · exact foldl_law (s.StageKeeps ·) _ (fun _ _ h => h.trans .of_eq) _ _ .of_eq
  | _ => cases hw

/-! ### The end of the usual order -/

/-- From `s` to `t` what the links put out and what the earpiece read of the position records stand. -/
structure State.EndKeeps (s t : State) : Prop where
  hwi : t.hwi = s.hwi
  hli : t.hli = s.hli
  pending : ∀ p : Fin 16, t.ecu[p].pending = s.ecu[p].pending
  position : ∀ p : Fin 16, (t.pos p).mute = (s.pos p).mute ∧ (t.pos p).present = (s.pos p).present

theorem State.EndKeeps.of_eq {s t : State} (h1 : t.hwi = s.hwi := by rfl) (h2 : t.hli = s.hli := by rfl)
    (h3 : t.ecu = s.ecu := by rfl) (h4 : t.pct = s.pct := by rfl) : s.EndKeeps t :=
  ⟨h1, h2, fun p => by rw [h3], fun p => by rw [State.pos, State.pos, h4]; exact ⟨rfl, rfl⟩⟩

theorem State.EndKeeps.trans {s t u : State} (h : s.EndKeeps t) (g : t.EndKeeps u) : s.EndKeeps u :=
  ⟨g.hwi.trans h.hwi, g.hli.trans h.hli, fun p => (g.pending p).trans (h.pending p),
    fun p => ⟨(g.position p).1.trans (h.position p).1, (g.position p).2.trans (h.position p).2⟩⟩

theorem EchoCtx.closed_pending (c : EchoCtx) (plan : Plan) : (c.closed plan).pending = c.pending := by
  cases plan <;> rfl

theorem State.completeClose_end (s : State) (q : Fin 16) (plan : Plan) : s.EndKeeps (s.completeClose q plan) := by
  unfold State.completeClose
  rw [State.reportAll_eq]
  refine ⟨rfl, rfl, fun p => ?_, fun p => ?_⟩
  · change (upd s.ecu q (fun c => c.closed plan))[p].pending = _
    simp only [Fin.getElem_fin, upd_get]
    split
    · exact EchoCtx.closed_pending _ _
    · rfl
  · change (upd s.pct q _)[p].mute = _ ∧ (upd s.pct q _)[p].present = _
    simp only [State.pos, Fin.getElem_fin, upd_get]
    split <;> exact ⟨rfl, rfl⟩

theorem State.runWork_end (s : State) {w : Work} (hw : partOf w = .last) : s.EndKeeps (s.runWork w) := by
  cases w with
  | close q =>
    simp only [State.runWork, State.runClose]
    repeat' split
    · exact s.completeClose_end q _
    · exact .of_eq
    · exact .of_eq
  | meterPeriod port =>
    simp only [State.runWork, State.runMeterPeriod]
    repeat' split
    · exact .of_eq
    · exact foldl_law (s.EndKeeps ·) _ (fun _ _ h => ite_law _ (h.trans .of_eq) h) _ _ .of_eq
    · exact .of_eq
  | _ => cases hw

end Sys2Proof.Machine
end

