-- ==== Sys2Proof/Proofs/FrameOutputs.lean ====
section
/-!
PROOFS. A frame event in its usual order: the earpiece and highway output pieces find the records as the evaluations
left them, and what they put out stands at the end (R37, R39, R40). With the mix of `Outputs` this settles O42.
-/

namespace Sys2Proof.Machine

/-! ### The evaluations of the positions -/

/-- From `s` to `u` evaluations of positions were done: what they leave, and the stages that still stand. -/
structure State.Evaluating (s u : State) : Prop where
  nodup : u.work.Nodup
  keeps : s.WorkKeeps u
  records : s.EvaluationKeeps u
  stands : ∀ w, partOf w = .stage → w ∈ s.work → w ∈ u.work

theorem State.evaluating_law (s : State) : WorkLaw (fun w => partOf w = .position) s.Evaluating where
  before _ hw _ hx := (part_workBefore hx).trans hw
  run u w hw _ h := by
    refine ⟨?_, (h.keeps.trans .of_eq).trans (State.runWork_keeps _ w),
      (h.records.trans .of_eq).trans (State.runWork_evaluation _ hw), fun x hx hxs => ?_⟩
    · rw [State.runWork_work]
      exact h.nodup.erase w
    · rw [State.runWork_work]
      exact (List.mem_erase_of_ne fun he => by rw [he, hw] at hx; cases hx).mpr (h.stands x hx hxs)
  grants _ _ _ _ h := ⟨h.nodup, h.keeps.trans .of_eq, h.records.trans .of_eq, h.stands⟩

/-! ### The stages -/

section
variable {s u : State} {p : Fin 16}

theorem State.earpieceFrame_congr (hpct : u.pct = s.pct) (htaken : u.taken = s.taken) :
    u.earpieceFrame p = s.earpieceFrame p := by
  simp only [State.earpieceFrame, State.pos, hpct, htaken]

theorem State.earReference_congr (hpct : u.pct = s.pct) (htaken : u.taken = s.taken) :
    u.earReference p = s.earReference p := by
  simp only [State.earReference, State.pos, hpct, htaken]

/-- What the highway output piece leaves does not turn on what it finds in the outputs. -/
theorem State.runHighwayOut_congr (h : s.WorkKeeps u) (hpct : u.pct = s.pct) :
    u.runHighwayOut.hwi = s.runHighwayOut.hwi := by
  obtain ⟨lines, sent, he, hline, hsent⟩ := s.runHighwayOut_spec
  obtain ⟨lines', sent', he', hline', hsent'⟩ := u.runHighwayOut_spec
  have hchannels : u.hwi.channels = s.hwi.channels := by rw [h.hwi]
  have htake : ∀ p : Fin 16, u.lineTake p = s.lineTake p := fun p => by
    simp only [State.lineTake, State.pos, hpct, h.ftu, h.taken]
  have hgive : ∀ c : Fin 4, u.supTake c = s.supTake c := fun c => by
    simp only [State.supTake, hchannels, h.ftu, h.taken, h.sst]
  obtain rfl : lines' = lines := bank_ext _ _ fun p => by rw [hline, hline', htake]
  obtain rfl : sent' = sent := bank_ext _ _ fun c => by rw [hsent, hsent', hgive]
  have hhwi : { u.hwi with lineOut := lines', supOut := sent', driven := s.hwi.driven } =
      { s.hwi with lineOut := lines', supOut := sent' } := by rw [h.hwi]
  have hdrive : State.drive { u with hwi := { u.hwi with lineOut := lines', supOut := sent' } } u.ftu.sampleIndex =
      State.drive { s with hwi := { s.hwi with lineOut := lines', supOut := sent' } } s.ftu.sampleIndex := by
    rw [h.ftu, ← hhwi]
    simp only [State.drive, State.pos, hpct]
  rw [he, he', State.driveNow_hwi, State.driveNow_hwi]
  dsimp only
  rw [hdrive, h.hwi]

/-- From `s` to `u` stages were done: the output pieces that stand have written nothing yet, and what those done have put
out is what they would put out at `s`. -/
structure State.Staged (s u : State) : Prop where
  nodup : u.work.Nodup
  keeps : s.WorkKeeps u
  pct : u.pct = s.pct
  ear : ∀ p : Fin 16, (.earpiece p ∈ u.work ∧ u.ecu[p].pending = s.ecu[p].pending) ∨
    (.earpiece p ∉ u.work ∧ u.hli[p].earpiece = s.earpieceFrame p ∧
      u.ecu[p].pending = (s.earReference p :: s.ecu[p].pending).take 3)
  out : .highwayOut ∈ u.work ∨ (.highwayOut ∉ u.work ∧ u.hwi = s.runHighwayOut.hwi)

/-- A stage that is no output piece for `p` keeps what stands of the earpiece of `p`. -/
theorem State.Staged.ear_of_ne (h : s.Staged u) {w : Work} {v : State} (hw : w ≠ .earpiece p) (hv : v.work = u.work.erase w)
    (hhli : v.hli[p] = u.hli[p]) (hecu : v.ecu[p].pending = u.ecu[p].pending) :
    (.earpiece p ∈ v.work ∧ v.ecu[p].pending = s.ecu[p].pending) ∨
      (.earpiece p ∉ v.work ∧ v.hli[p].earpiece = s.earpieceFrame p ∧
        v.ecu[p].pending = (s.earReference p :: s.ecu[p].pending).take 3) := by
  rw [hv, hhli, hecu, List.mem_erase_of_ne hw.symm]
  exact h.ear p

theorem State.Staged.out_of_ne (h : s.Staged u) {w : Work} {v : State} (hw : w ≠ .highwayOut)
    (hv : v.work = u.work.erase w) (hhwi : v.hwi = u.hwi) :
    .highwayOut ∈ v.work ∨ (.highwayOut ∉ v.work ∧ v.hwi = s.runHighwayOut.hwi) := by
  rw [hv, hhwi, List.mem_erase_of_ne hw.symm]
  exact h.out

theorem State.staged_earpiece (h : s.Staged u) (q : Fin 16) (hq : .earpiece q ∈ u.work) :
    s.Staged (State.runEarpiece { u with work := u.work.erase (.earpiece q) } q) := by
  set v := State.runEarpiece { u with work := u.work.erase (.earpiece q) } q with hv
  have hwork : v.work = u.work.erase (.earpiece q) := State.runEarpiece_work ..
  refine ⟨hwork ▸ h.nodup.erase _, (h.keeps.trans .of_eq).trans (State.runWork_keeps _ (.earpiece q)), h.pct,
    fun p => ?_, h.out_of_ne (w := .earpiece q) nofun hwork rfl⟩
  by_cases hp : p = q
  · subst hp
    refine .inr ⟨hwork ▸ h.nodup.not_mem_erase, ?_, ?_⟩
    · refine Eq.trans ?_ (State.earpieceFrame_congr h.pct h.keeps.taken)
      exact congrArg Headset.earpiece (upd_same ..)
    · have hpending : u.ecu[p].pending = s.ecu[p].pending :=
        (h.ear p).elim (fun hstands => hstands.2) fun hdone => absurd hq hdone.1
      rw [← hpending, ← State.earReference_congr h.pct h.keeps.taken]
      exact congrArg EchoCtx.pending (upd_same ..)
  · exact h.ear_of_ne (fun he => hp (Work.earpiece.inj he).symm) hwork (upd_other _ _ _ _ hp)
      (congrArg EchoCtx.pending (upd_other _ _ _ _ hp))

theorem State.staged_highwayOut (h : s.Staged u) :
    s.Staged (State.runHighwayOut { u with work := u.work.erase .highwayOut }) := by
  set v := State.runHighwayOut { u with work := u.work.erase .highwayOut } with hv
  have hwork : v.work = u.work.erase .highwayOut := State.runWork_work _ .highwayOut
  obtain ⟨lines, sent, he, -, -⟩ := State.runHighwayOut_spec { u with work := u.work.erase .highwayOut }
  refine ⟨hwork ▸ h.nodup.erase _, (h.keeps.trans .of_eq).trans (State.runWork_keeps _ .highwayOut), ?_, fun p => ?_,
    .inr ⟨hwork ▸ h.nodup.not_mem_erase, ?_⟩⟩
  · rw [hv, he]
    exact h.pct
  · refine h.ear_of_ne (w := .highwayOut) nofun hwork ?_ ?_ <;> rw [hv, he] <;> rfl
  · exact State.runHighwayOut_congr (u := { u with work := u.work.erase .highwayOut }) (h.keeps.trans .of_eq) h.pct

theorem State.staged_law (s : State) : WorkLaw (fun w => partOf w = .stage) s.Staged where
  before _ hw _ hx := (part_workBefore hx).trans hw
  run u w hw hmem h := by
    by_cases hear : ∃ q, w = .earpiece q
    · obtain ⟨q, rfl⟩ := hear
      exact State.staged_earpiece h q hmem
    by_cases hout : w = .highwayOut
    · subst hout
      exact State.staged_highwayOut h
    have hne : ∀ q, w ≠ .earpiece q := fun q he => hear ⟨q, he⟩
    have hk := State.runWork_stage { u with work := u.work.erase w } hw hne hout
    have hwork := State.runWork_work { u with work := u.work.erase w } w
    exact ⟨hwork ▸ h.nodup.erase w, (h.keeps.trans .of_eq).trans (State.runWork_keeps _ w), hk.pct.trans h.pct,
      fun p => h.ear_of_ne (hne p) hwork (by rw [hk.hli]) (hk.pending p), h.out_of_ne hout hwork hk.hwi⟩
  grants _ _ _ _ h := ⟨h.nodup, h.keeps.trans .of_eq, h.pct, h.ear, h.out⟩

theorem State.end_law (s : State) : WorkLaw (fun w => partOf w = .last) s.EndKeeps where
  before _ hw _ hx := (part_workBefore hx).trans hw
  run _ _ hw _ h := (h.trans .of_eq).trans (State.runWork_end _ hw)
  grants _ _ _ _ h := h.trans .of_eq

end

/-! ### A whole frame event -/

theorem mem_stageWork {w : Work} (hw : partOf w = .stage) : w ∈ stageWork := by
  have hmem := mem_allWork w
  rw [allWork_eq, List.mem_append, List.mem_append] at hmem
  rcases hmem with h | h | h
  · rw [part_positionWork w h] at hw
    cases hw
  · exact h
  · rw [part_endWork w h] at hw
    cases hw

/-- What a frame event in its usual order puts out is what the records give as the evaluations left them. -/
theorem State.frameEvent_outputs {s : State} (hdue : s.ftu.frameDue = true) (hwork : s.work = []) :
    ∃ u, s.beginFrame.WorkKeeps u ∧ s.beginFrame.EvaluationKeeps u ∧ (s.frameEvent [] []).hwi = u.runHighwayOut.hwi ∧
      ∀ p : Fin 16, (s.frameEvent [] []).hli[p].earpiece = u.earpieceFrame p ∧
        (s.frameEvent [] []).ecu[p].pending = (u.earReference p :: u.ecu[p].pending).take 3 ∧
        ((s.frameEvent [] []).pos p).mute = (u.pos p).mute ∧ ((s.frameEvent [] []).pos p).present = (u.pos p).present := by
  have hfold : s.frameEvent [] [] =
      endWork.foldl State.doWorkGrant (stageWork.foldl State.doWorkGrant (positionWork.foldl State.doWorkGrant s.beginFrame)) := by
    rw [State.frameEvent_due hdue hwork, List.foldl_nil, State.finishWork, ← List.foldl_append, ← List.foldl_append,
      ← allWork_eq]
    simp
  have h1 := s.beginFrame.evaluating_law.fold positionWork part_positionWork s.beginFrame
    ⟨allWork_nodup, .of_eq, .of_eq, fun _ _ h => h⟩
  generalize positionWork.foldl State.doWorkGrant s.beginFrame = u at hfold h1
  have hall : ∀ w, partOf w = .stage → w ∈ u.work := fun w hw => h1.stands w hw (mem_allWork w)
  have h2 := u.staged_law.fold stageWork part_stageWork u
    ⟨h1.nodup, .of_eq, rfl, fun p => .inl ⟨hall _ rfl, rfl⟩, .inl (hall _ rfl)⟩
  have hdone := (foldl_doWorkGrant_work stageWork u h1.nodup).2
  generalize stageWork.foldl State.doWorkGrant u = v at hfold h2 hdone
  have h3 := v.end_law.fold endWork part_endWork v .of_eq
  rw [← hfold] at h3
  refine ⟨u, h1.keeps, h1.records, ?_, fun p => ?_⟩
  · rcases h2.out with hstands | ⟨-, hhwi⟩
    · exact absurd (mem_stageWork rfl) (hdone _ hstands)
    · exact h3.hwi.trans hhwi
  · rcases h2.ear p with ⟨hstands, -⟩ | ⟨-, hear, hpending⟩
    · exact absurd (mem_stageWork rfl) (hdone _ hstands)
    · obtain ⟨hmute, hpresent⟩ := h3.position p
      have hpos : v.pos p = u.pos p := by rw [State.pos, State.pos, h2.pct]
      rw [hpos] at hmute hpresent
      exact ⟨by rw [h3.hli]; exact hear, (h3.pending p).trans hpending, hmute, hpresent⟩

end Sys2Proof.Machine
end

