-- ==== Sys2Proof/Proofs/FrameBuilds.lean ====
section
/-!
PROOFS. O42: the mix as its records give it, and the outputs of a frame event in the frames that its stages took.
-/

namespace Sys2Proof.Machine

/-! ### The mix (R46 to R58) -/

section
variable {s : State}

/-- The duck factor of a position follows its gate (R54 to R56). -/
theorem State.runMix_duckCases (p : Fin 16) :
    (∀ c, s.whispersTo p c → (∀ k, s.whispersTo p k → k = c) → s.runMix.mxe.duck[p] =
      { factor := min s.mxe.duck[p].factor s.sst[c].duckLevel, level := s.sst[c].duckLevel, release := s.sst[c].release }) ∧
    ((∀ c, ¬s.whispersTo p c) → s.duckingPrompt p = true →
      s.runMix.mxe.duck[p] = { factor := min s.mxe.duck[p].factor 1024, level := 1024, release := 50 }) ∧
    ((∀ c, ¬s.whispersTo p c) → ¬s.duckingPrompt p = true → s.runMix.mxe.duck[p] = { s.mxe.duck[p] with
      factor := min 4096 (s.mxe.duck[p].factor +
        max 1 ((4096 - s.mxe.duck[p].level + (s.mxe.duck[p].release - 1)) / s.mxe.duck[p].release)) }) := by
  refine ⟨fun c hc honly => ?_, fun hno hprompt => ?_, fun hno hprompt => ?_⟩
  · rw [State.runMix_duck, State.duckGate, State.whisperer_only hc honly]
    rfl
  · rw [State.runMix_duck, State.duckGate, State.whisperer_none hno]
    dsimp only
    rw [if_pos hprompt]
    rfl
  · rw [State.runMix_duck, State.duckGate, State.whisperer_none hno]
    dsimp only
    rw [if_neg hprompt]
    rfl

/-- LINE(p) of a bound position, and of one that has none (R47, R44). -/
theorem State.runMix_lineCases (p : Fin 16) :
    ((s.pos p).line.isSome = true →
      s.runMix.mxe.line[p] = producedFrame (s.lineSum p) ∧
      s.runMix.mxe.lineClips[p] = s.mxe.lineClips[p] + clippedSamples (s.lineSum p) ∧
      s.runMix.mxe.lineTerms[p] = lineRecords (s.lineUses p)) ∧
    ((s.pos p).line = none → s.runMix.mxe.line[p] = zeroFrame ∧ s.runMix.mxe.lineClips[p] = s.mxe.lineClips[p] ∧
      s.runMix.mxe.lineTerms[p] = .absent) := by
  obtain ⟨hterms, hclips⟩ := s.runMix_lineTerms p
  refine ⟨fun h => ?_, fun h => ?_⟩
  · rw [hterms, hclips, State.runMix_line, if_pos h, if_pos h, if_pos h]
    exact ⟨rfl, rfl, rfl⟩
  · have hnone : ¬(s.pos p).line.isSome = true := by rw [h]; decide
    rw [hterms, hclips, State.runMix_line, if_neg hnone, if_neg hnone, if_neg hnone]
    exact ⟨rfl, rfl, rfl⟩

/-- SUPOUT(c) of a bound channel with a session, and of one that has none (R48, R44). -/
theorem State.runMix_supCases (c : Fin 4) :
    (∀ p, (s.hwi.channels[c].isSome = true ∧ s.sst[c].mode ≠ .idle) → s.sst[c].target = some p →
      s.runMix.mxe.sup[c] = producedFrame (s.supSum c p) ∧ s.runMix.mxe.supTerms[c] = supRecords (s.supUses c p)) ∧
    (¬(s.hwi.channels[c].isSome = true ∧ s.sst[c].mode ≠ .idle) →
      s.runMix.mxe.sup[c] = zeroFrame ∧ s.runMix.mxe.supTerms[c] = .absent) := by
  obtain ⟨hterms, hsup⟩ := s.runMix_channel c
  refine ⟨fun p hproduced htarget => ?_, fun hno => ?_⟩
  · have hto : s.supTarget c = some p := (if_pos hproduced).trans htarget
    rw [hterms, hsup, supMixed_some hto]
    exact ⟨rfl, rfl⟩
  · have hto : s.supTarget c = none := if_neg hno
    rw [hterms, hsup, supMixed_none hto]
    exact ⟨rfl, rfl⟩

/-! ### The outputs (R37, R39, R40) -/

theorem Position.hasSidetone_iff (x : Position) :
    x.hasSidetone = true ↔ x.state = .opened ∧ x.mute = false ∧ x.present = true := by
  simp [Position.hasSidetone, and_assoc]

theorem zeroFrame_eq : zeroFrame = (List.range 64).map fun _ => 0 := by decide

/-- The earpiece frame, sample by sample (R39). -/
theorem State.earpieceFrame_eq (p : Fin 16) : s.earpieceFrame p = (List.range 64).map (fun j =>
    if (s.pos p).state = .closed then 0
    else max (-32768) (min 32767 (s.taken.ear[p].getD j 0 +
      if (s.pos p).state = .opened ∧ (s.pos p).mute = false ∧ (s.pos p).present = true
      then (s.taken.noise[noiseOfPosition p].samples.getD j 0 * ((s.pos p).sidetone : Int) + 2048) / 4096 else 0))) := by
  unfold State.earpieceFrame
  dsimp only
  by_cases hclosed : (s.pos p).state = .closed
  · simp only [if_pos hclosed]
    exact zeroFrame_eq
  · simp only [if_neg hclosed]
    refine List.map_congr_left fun j _ => ?_
    rw [clampSample_eq]
    simp only [Position.hasSidetone_iff]
    rfl

/-- Sample `j` of a frame that may be zeros. -/
theorem takenSample_choice {c : Prop} [Decidable c] (f : Frame) :
    takenSample (some (if c then zeroFrame else f)) 0 = if c then 0 else f.getD 0 0 := by
  split <;> rfl

end

/-- The records of a frame event's outputs as the evaluations left them, against those before the frame event. -/
structure State.OutputView (s u : State) : Prop where
  timing : u.ftu.timing = s.ftu.timing
  index : u.ftu.sampleIndex = 0
  taken : u.taken = s.takeFrames
  sst : u.sst = s.sst
  channels : u.hwi.channels = s.hwi.channels
  ecu : u.ecu = s.ecu
  seated : ∀ p : Fin 16, (s.pos p).Seated (u.pos p)

theorem State.OutputView.of_keeps {s u : State} (h : s.beginFrame.WorkKeeps u) (g : s.beginFrame.EvaluationKeeps u) :
    s.OutputView u where
  timing := by rw [h.ftu, State.beginFrame_ftu]
  index := by rw [h.ftu, State.beginFrame_ftu]
  taken := h.taken
  sst := h.sst
  channels := by
    rw [h.hwi]
    exact s.completeInputs_channels
  ecu := g.ecu
  seated := g.seated

section
variable {s u : State} (h : s.OutputView u)
include h

theorem State.OutputView.lineTake (p : Fin 16) : u.lineTake p =
    if s.ftu.timing = .locked ∧ (s.pos p).line.isSome = true then
      some (if (s.pos p).call = .idle then zeroFrame else s.mxe.line[p])
    else none := by
  obtain ⟨-, hline, hcall, -⟩ := h.seated p
  rw [State.lineTake, h.timing, hline, hcall, h.taken]
  rfl

theorem State.OutputView.supTake (c : Fin 4) : u.supTake c =
    if s.ftu.timing = .locked ∧ s.hwi.channels[c].isSome = true then
      some (if s.sst[c].mode = .idle then zeroFrame else s.mxe.sup[c])
    else none := by
  rw [State.supTake, h.timing, h.channels, h.sst, h.taken]
  rfl

theorem State.OutputView.binding (e : Endpoint) : u.binding e = s.binding e := by
  cases e with
  | position p => exact (h.seated p).2.1
  | channel c => rw [State.binding, State.binding, h.channels]

/-- What is driven of the frames that the highway output piece gives to the out-slots (R31, R37). -/
theorem State.OutputView.driven {v : State} (hftu : v.ftu = u.ftu) (hpct : v.pct = u.pct)
    (hchannels : v.hwi.channels = u.hwi.channels) (hline : ∀ p : Fin 16, v.hwi.lineOut[p] = u.lineTake p)
    (hsent : ∀ c : Fin 4, v.hwi.supOut[c] = u.supTake c) :
    (s.ftu.timing ≠ .locked → ∀ k : Fin 32, (v.drive 0)[k] = none) ∧
    (s.ftu.timing = .locked → s.SlotLaw →
      (∀ (p : Fin 16) b, (s.pos p).line = some b →
        (v.drive 0)[b.outSlot] = some (if (s.pos p).call = .idle then 0 else s.mxe.line[p].getD 0 0)) ∧
      (∀ (c : Fin 4) b, s.hwi.channels[c] = some b →
        (v.drive 0)[b.outSlot] = some (if s.sst[c].mode = .idle then 0 else s.mxe.sup[c].getD 0 0)) ∧
      ∀ k : Fin 32, (∀ e b, s.binding e = some b → b.outSlot ≠ k) → (v.drive 0)[k] = none) := by
  have htiming : v.ftu.timing = s.ftu.timing := hftu ▸ h.timing
  have hbinding : ∀ e, v.binding e = s.binding e := fun e => by
    rw [← h.binding e]
    cases e with
    | position p => rw [State.binding, State.binding, State.pos, State.pos, hpct]
    | channel c => rw [State.binding, State.binding, hchannels]
  refine ⟨fun hl k => State.drive_unlocked (htiming ▸ hl) k, fun hl hlaw => ?_⟩
  have hlocked : v.ftu.timing = .locked := htiming.trans hl
  have hslots : v.SlotLaw := fun e f b c hne hb hc => hlaw e f b c hne (hbinding e ▸ hb) (hbinding f ▸ hc)
  refine ⟨fun p b hb => ?_, fun c b hb => ?_, fun k hk => ?_⟩
  · rw [State.drive_line hlocked hslots ((hbinding (.position p)).trans hb), hline p, h.lineTake p,
      if_pos ⟨hl, by rw [hb]; rfl⟩, takenSample_choice]
  · rw [State.drive_channel hlocked hslots ((hbinding (.channel c)).trans hb), hsent c, h.supTake c,
      if_pos ⟨hl, by rw [hb]; rfl⟩, takenSample_choice]
  · exact State.drive_unbound hlocked fun e b hb => hk e b ((hbinding e).symm.trans hb)

/-- What the highway output piece sends and drives (R31, R37). -/
theorem State.OutputView.highway :
    (∀ p : Fin 16, u.runHighwayOut.hwi.lineOut[p] = u.lineTake p) ∧
    (∀ c : Fin 4, u.runHighwayOut.hwi.supOut[c] = u.supTake c) ∧
    ∃ v : State, u.runHighwayOut.hwi.driven = v.drive 0 ∧ v.ftu = u.ftu ∧ v.pct = u.pct ∧
      v.hwi.channels = u.hwi.channels ∧ (∀ p : Fin 16, v.hwi.lineOut[p] = u.lineTake p) ∧
      ∀ c : Fin 4, v.hwi.supOut[c] = u.supTake c := by
  obtain ⟨lines, sent, he, hline, hsent⟩ := u.runHighwayOut_spec
  rw [he]
  refine ⟨hline, hsent, { u with hwi := { u.hwi with lineOut := lines, supOut := sent } }, ?_, rfl, rfl, rfl, hline, hsent⟩
  rw [← h.index]
  rfl

theorem State.OutputView.earReference (p : Fin 16) :
    u.earReference p = if (s.pos p).state = .closed then zeroFrame else s.mxe.ear[p] := by
  rw [State.earReference, (h.seated p).1, h.taken]
  rfl

end

/-- Settles O42: the mix record by record, and the outputs of a whole frame event by what the evaluations left. -/
theorem frameEventBuildsOutputs : Obligations.FrameEventBuildsOutputs := by
  unfold Obligations.FrameEventBuildsOutputs
  refine ⟨fun s held h => ?_, fun s hr hdue hwork => ?_⟩
  · obtain ⟨t, hexec, hframe, hmxe⟩ := State.mix_derived held h
    refine ⟨t, hexec, hframe, ?_⟩
    rw [hmxe]
    refine ⟨fun p => ?_, fun p => ?_, fun c => ?_⟩
    · obtain ⟨hwhisper, hprompt, hrelease⟩ := s.runMix_duckCases p
      exact ⟨hwhisper, fun hno h => hprompt hno (State.duckingPrompt_iff.mpr h),
        fun hno h => hrelease hno (mt State.duckingPrompt_iff.mp h)⟩
    · obtain ⟨hear, hclips, hterms⟩ := s.runMix_ear p
      obtain ⟨hbound, hunbound⟩ := s.runMix_lineCases p
      rw [State.earRecords_eq] at hterms
      rw [State.lineRecords_eq] at hbound
      exact ⟨hear, hclips, hterms, hbound, hunbound⟩
    · obtain ⟨hproduced, hnone⟩ := s.runMix_supCases c
      refine ⟨fun p h1 h2 => ?_, hnone⟩
      rw [← State.supRecords_eq]
      exact hproduced p h1 h2
  · obtain ⟨u, hkeeps, hevaluated, hhwi, hears⟩ := State.frameEvent_outputs hdue hwork
    have hview := State.OutputView.of_keeps hkeeps hevaluated
    obtain ⟨hline, hsup, v, hdriven, hftu, hpct, hchannels, hgiven, hsent⟩ := hview.highway
    obtain ⟨hunlocked, hlocked⟩ := hview.driven hftu hpct hchannels hgiven hsent
    have hwork' : (s.frameEvent [] []).work = [] :=
      List.eq_nil_iff_forall_not_mem.mpr fun w hw => List.not_mem_nil (State.frameEvent_held hdue hwork hw)
    refine ⟨s.frameEvent [] [], congrArg Host.Outcome.next (if_neg (by simp [hr])), hwork', fun p => ?_, ?_⟩
    · obtain ⟨hear, hpending, hmute, hpresent⟩ := hears p
      obtain ⟨hstate, -, -, hsidetone⟩ := hview.seated p
      have hnoise : u.taken.noise[noiseOfPosition p] = s.nru.contexts[noiseOfPosition p].out := by
        rw [hview.taken]
        exact s.takeFrames_noise _
      have hmix : u.taken.ear = s.mxe.ear := congrArg Taken.ear hview.taken
      refine ⟨?_, ?_⟩
      · rw [hear, State.earpieceFrame_eq, hmute, hpresent, hstate, hsidetone, hnoise, hmix]
      · rw [hpending, hview.earReference, hview.ecu]
    · rw [hhwi, hdriven]
      exact ⟨fun p => (hline p).trans (hview.lineTake p), fun c => (hsup c).trans (hview.supTake c), hunlocked, hlocked⟩

end Sys2Proof.Machine
end
